-- ==== Sys2Proof/Word.lean ====
section
/-! DEFINITION. Bytes, line addresses and banks of a fixed number of like records. -/

namespace Sys2Proof

/-- One byte of a frame, a record or the serial memory (R194). -/
abbrev Byte := BitVec 8

/-- A line address, 0 to 4095 (00, Conventions; twelve bits of the header, R196). -/
abbrev Addr := BitVec 12

/-- A table with a fixed number of records: a list together with its length. -/
structure Bank (α : Type) (n : Nat) where
  cells : List α
  size : cells.length = n
deriving DecidableEq, Repr

/-- The record at an index. -/
def Bank.get {α : Type} {n : Nat} (v : Bank α n) (i : Fin n) : α :=
  v.cells.get ⟨i.val, by rw [v.size]; exact i.isLt⟩

/-- The table with the record at one index replaced. -/
def Bank.set {α : Type} {n : Nat} (v : Bank α n) (i : Fin n) (x : α) : Bank α n :=
  ⟨v.cells.set i.val x, by rw [List.length_set]; exact v.size⟩

/-- The table whose record at each index is given by a function. -/
def Bank.ofFn {α : Type} {n : Nat} (f : Fin n → α) : Bank α n :=
  ⟨List.ofFn f, by simp⟩

/-- The table that holds one value everywhere. -/
def Bank.fill {α : Type} (n : Nat) (x : α) : Bank α n :=
  ⟨List.replicate n x, by simp⟩

/-- Every record changed by the same function. -/
def Bank.map {α β : Type} {n : Nat} (f : α → β) (v : Bank α n) : Bank β n :=
  ⟨v.cells.map f, by rw [List.length_map]; exact v.size⟩

end Sys2Proof
end

