-- ==== Sys2Proof/Config.lean ====
section
/-! DEFINITION. The numbers the manual fixes, and the values it leaves free. -/

namespace Sys2Proof.Config

/-- Buffers in the pool (R37). -/
def poolSize : Nat := 40
/-- Cap of the up queue (R38). -/
def upCap : Nat := 8
/-- Bytes an assembly buffer holds, and the longest frame (R11, section 1.6). -/
def assemblyBytes : Nat := 64
/-- The shortest acceptable frame on the line: header and CRC (section 1.6). -/
def runtBytes : Nat := 8
/-- The silence timer, ms (R3). -/
def silenceMs : Nat := 2000
/-- An activity window, ms (R5). -/
def windowMs : Nat := 500
/-- The sensing timer, five tenths of a second in ms (R147). -/
def sensingMs : Nat := 500
/-- The key timer, 4 s in ms (R161). -/
def keyMs : Nat := 4000
/-- Seconds between battery samples (R192). -/
def samplePeriod : Nat := 10
/-- The length of a complete image after its header (R198). -/
def imageLength : Nat := 1243
/-- The header bytes of the image (R198). -/
def imageHeader : Nat := 6
/-- What a byte of the serial memory that nothing has written reads as (log 6). -/
def blankByte : Byte := 255#8
/-- Entries a contribution list holds (R87). -/
def contributionCap : Nat := 8
/-- The largest fill carried anywhere (00, Conventions). -/
def maxFill : Nat := 1200
/-- The largest alert serial (R121). -/
def maxSerial : Nat := 16777215
/-- The largest relay time (R187). -/
def maxTime : Nat := 4294967295
/-- The largest value of a counter (00, Conventions). -/
def maxCount : Nat := 65535
/-- Time to full when there is none (R85). -/
def noTime : Nat := 65535

/-- FREE VALUE (log 7): how many record bytes a save that was cut short had written
(R190 says 'partly written'), applied to the counter of State. -/
opaque savedBytes : Nat → Nat

/-- FREE VALUE (log 24): whether a remaining time that is no whole number of tenths is
carried rounded up; section 12.6 states no rounding. -/
opaque tenthsRoundUp : Nat → Bool

/-- FREE VALUE (log 23): the bytes beside the empty mark that READ-STATE returns for an
empty station record, by part; R169 states only the mark. -/
opaque emptyStationRest : Nat → List Byte

/-- FREE VALUE (log 37): the line-fault indicator that READ-STATE returns for a channel bound to no
line; R154 gives it for the bound line alone. -/
opaque unboundLineFault : Byte

end Sys2Proof.Config
end

