-- ==== Sys2Proof/Syntax.lean ====
section
/-! DEFINITION. The commands of the block: one constructor per row of spec/opcode_table.json,
and the names their operands are made of. -/

namespace Sys2Proof

/-- The two ports that keep a link state and a transmitter (chapter 1). -/
inductive LinkPort where
  | upper | lower
deriving DecidableEq, Repr

/-- The three line ports (00, Block Overview). -/
inductive PortName where
  | upper | lower | field
deriving DecidableEq, Repr

/-- The port of a link port among the three. -/
def LinkPort.name : LinkPort → PortName
  | .upper => .upper
  | .lower => .lower

/-- Received polarity (R7). -/
inductive Polarity where
  | normal | inverted
deriving DecidableEq, Repr

/-- A whole word on a line (section 1.2). A data byte is given as the pair shows it when read
in normal polarity (log 15). -/
inductive LineWord where
  | idle (polarity : Polarity)
  | frameStart (polarity : Polarity)
  | data (byte : Byte)
  | malformed
deriving DecidableEq, Repr

/-- Which of a barrier's two contribution lists (section 5.7). -/
inductive Evidence where
  | shake | rain
deriving DecidableEq, Repr

/-- The load condition of an output line (R147): neither condition, open, or short. -/
inductive LoadCondition where
  | sound | openLoad | shortLoad
deriving DecidableEq, Repr

/-- The physical level of a contact input (chapter 9). -/
inductive PinLevel where
  | low | high
deriving DecidableEq, Repr

/-- The line rate selected by the strap (R13, R185). -/
inductive LineRate where
  | bps4800 | bps9600 | bps19200
deriving DecidableEq, Repr

/-- The external serial memory (R182, R184): whether it answers, and its bytes. -/
structure SerialMemory where
  answers : Bool
  cells : List Host.Cell
deriving DecidableEq, Repr

/-- What the part finds at a power-on or clock-loss reset (R185, R186, R192): the battery in
steps of 0.01 V, the straps, a serial memory fitted meanwhile (none: the one it had), and the
time the image read takes, less than one second (log 9). -/
structure StartPins where
  centivolts : Nat
  straps : Addr
  rate : LineRate
  memory : Option SerialMemory
  readMs : Fin 1000
deriving DecidableEq, Repr

/-- What the read of the load after a save meets (R189): whether the memory answers then, and the
bytes it shows otherwise than it holds (log 8). It answers for the whole read or not at all (log 54). -/
structure LoadRead where
  answers : Bool
  flaws : List Host.Cell
deriving DecidableEq, Repr

/-- What the end of a save reads back from the memory: the bytes of the image that differ from those
written (R189 step 4), and what the load after it meets (log 8). -/
structure SaveReads where
  flaws : List Host.Cell
  load : LoadRead
deriving DecidableEq, Repr

/-- The four blocks a band change is delivered to (R193). -/
inductive BandDelivery where
  | classifier | generator | channels | agent
deriving DecidableEq, Repr

/-- The commands: one constructor per row of spec/opcode_table.json, in its order. A management
request carries the origin and tag of its request (R165) and its arguments as bytes (R197). -/
inductive Instr where
  | lineEnergy (port : LinkPort)
  | silenceTimerExpiry (port : LinkPort)
  | lineWord (port : PortName) (word : LineWord)
  | activityWindowClose (port : LinkPort)
  | frameReceived (port : PortName) (polarity : Polarity)
  | fieldLineQuiet
  | transmitTake (port : LinkPort)
  | transmitComplete (port : LinkPort)
  | upperConfirmExpiry
  | testGapExpiry
  | stationDeadlineExpiry (station : Fin 48)
  | shakeExpiry (barrier : Fin 8) (kind : Evidence)
  | holdExpiry (barrier : Fin 8)
  | repeatExpiry (barrier : Fin 8)
  | stepBoundary (channel : Fin 4)
  | loadConditionChange (line : Fin 4) (condition : LoadCondition)
  | sensingTimerExpiry (line : Fin 4)
  | inputLevelChange (input : Fin 8) (level : PinLevel)
  | debounceExpiry (input : Fin 8)
  | keyTimerExpiry
  | readRecord (origin : Addr) (tag table index : Byte)
  | writeRecord (origin : Addr) (tag table index : Byte) (record : List Byte)
  | readState (origin : Addr) (tag what index part : Byte)
  | clearPortCounters (origin : Addr) (tag : Byte)
  | clearDropCounters (origin : Addr) (tag : Byte)
  | clearStationCounters (origin : Addr) (tag : Byte)
  | clearChannelFlags (origin : Addr) (tag : Byte)
  | lockCounters (origin : Addr) (tag : Byte)
  | lockAndClear (origin : Addr) (tag : Byte)
  | standDown (origin : Addr) (tag barrier : Byte)
  | rearmWire (origin : Addr) (tag barrier position : Byte)
  | testSound (origin : Addr) (tag channel cadence : Byte)
  | stopChannel (origin : Addr) (tag channel : Byte)
  | lineTest (origin : Addr) (tag port : Byte) (count : BitVec 16) (length gap : Byte)
      (target : BitVec 16)
  | lineTestStop (origin : Addr) (tag : Byte)
  | save (origin : Addr) (tag : Byte)
  | restart (origin : Addr) (tag : Byte)
  | saveEnd (answers : Bool) (reads : SaveReads)
  | powerOn (pins : StartPins)
  | clockLoss
  | clockResume (pins : StartPins)
  | strapRetry (straps : Addr) (readMs : Fin 1000)
  | batterySample (centivolts : Nat) (order : List BandDelivery)
  | healthTimerExpiry
deriving DecidableEq, Repr

end Sys2Proof
end

