-- ==== Sys2Proof/Machine/State.lean ====
section
/-! DEFINITION. The state of the part, block by block, as plain data, and its value right after
the clearing of a power-on reset. -/

namespace Sys2Proof.Machine

/-- The manual names no fault that stops the part (INVENTORY.md, Faults): there is none. -/
inductive Fault : Type
deriving DecidableEq, Repr

/-- Why a command has no next state. -/
inductive Refusal where
  /-- Raised by exec alone, for a command that has no meaning yet. Safe: it stops. -/
  | notModelled (mnemonic : String)
deriving DecidableEq, Repr

/-! ## Names shared by the blocks -/

/-- A barrier's alert level (00, Conventions). -/
inductive Level where
  | calm | watch | warn | evacuate
deriving DecidableEq, Repr

/-- The twelve cause codes, in their order (00, Conventions). -/
inductive Cause where
  | fill | rate | ttf | shake | rain | inflowWire | overflowWire | feeder | lineLost
  | gaugeLost | manual | blind
deriving DecidableEq, Repr

/-- The sender's grading of a reading (section 3.4). -/
inductive Quality where
  | good | suspect | fault
deriving DecidableEq, Repr

/-- The two trip-wire positions of a barrier (R45). -/
inductive WirePosition where
  | inflow | overflow
deriving DecidableEq, Repr

/-- Bit order in which a byte is fed to the CRC (R10). -/
inductive FeedOrder where
  | lsbFirst | msbFirst
deriving DecidableEq, Repr

/-- The supply band (R192). -/
inductive Band where
  | normal | low | critical
deriving DecidableEq, Repr

/-! ## Working tables -/

/-- Transmit polarity setting (R1, R8). -/
inductive TxPolarity where
  | normal | inverted | follow
deriving DecidableEq, Repr

/-- Test count mode (R23). -/
inductive CountMode where
  | single | continuous
deriving DecidableEq, Repr

/-- The identity record (section 10.1). -/
structure Identity where
  activityUpper : Nat
  activityLower : Nat
  txUpper : TxPolarity
  txLower : TxPolarity
  rxOrderUpper : FeedOrder
  rxOrderLower : FeedOrder
  rxOrderField : FeedOrder
  txOrderUpper : FeedOrder
  txOrderLower : FeedOrder
  countMode : CountMode
  confirmTime : Nat
  passSet : BitVec 64
  starvation : Nat
  grace : Nat
  evidenceLife : Nat
  hopBudget : Nat
  repeatWatch : Nat
  repeatWarn : Nat
  repeatEvacuate : Nat
  manager : Option Addr
  healthInterval : Nat
deriving DecidableEq, Repr

/-- A station's role, with the fields that only this role has (R45). -/
inductive Role where
  | gauge (barrier : Fin 8) (emptyRange fullRange : Nat)
  | wire (barrier : Fin 8) (position : WirePosition)
  | shake (barrier : Fin 8)
  | rain (barrier : Fin 8)
  | relay
deriving DecidableEq, Repr

/-- A station's forwarding field (R28, R45). -/
inductive Forwarding where
  | none | routine | eventUrgent
deriving DecidableEq, Repr

/-- The configuration fields of an occupied station record (R45). -/
structure StationConfig where
  address : Addr
  role : Role
  interval : Nat
  forwarding : Forwarding
deriving DecidableEq, Repr

/-- The configuration fields of a barrier record (R92). -/
structure BarrierConfig where
  enabled : Bool
  lineWatched : Bool
  gaugeLoss : Bool
  blindEvidence : Bool
  watchFill : Nat
  warnFill : Nat
  fullFill : Nat
  hysteresis : Nat
  rateWatch : Nat
  ttfWarn : Nat
  shakeWatch : Nat
  shakeWarn : Nat
  rainWatch : Nat
  holdTime : Nat
  rateWindow : Nat
  feeder : Option (Addr × Fin 8)
deriving DecidableEq, Repr

/-- The kind of device on an output line (R131). -/
inductive LineKind where
  | siren | beacon
deriving DecidableEq, Repr

/-- The kind of line a cadence requires (R133). -/
inductive CadenceKind where
  | siren | beacon | either
deriving DecidableEq, Repr

/-- An occupied cadence record (R133): steps of on and off tenths; rounds 0 is endless. -/
structure Cadence where
  steps : List (Nat × Nat)
  rounds : Nat
  gap : Nat
  kind : CadenceKind
deriving DecidableEq, Repr

/-- A dispatch entry (R134); bit n of the channel set is channel n. -/
structure DispatchEntry where
  channels : BitVec 4
  attention : Option (Fin 16)
  sustain : Option (Fin 16)
deriving DecidableEq, Repr

/-- The function of a contact input, with the barrier index the function takes (R155). -/
inductive InputFunction where
  | unused
  | inflowWire (barrier : Fin 8)
  | overflowWire (barrier : Fin 8)
  | manualAlarm (barrier : Fin 8)
  | resetKey
deriving DecidableEq, Repr

/-- An input record (R155); the debounce time in tenths. -/
structure InputConfig where
  function : InputFunction
  expected : PinLevel
  debounce : Nat
deriving DecidableEq, Repr

/-- The binding record of a channel (R131). -/
structure Binding where
  line : Option (Fin 4)
  kind : LineKind
deriving DecidableEq, Repr

/-- The seven working tables (R164); a station or cadence record may be empty. -/
structure Tables where
  identity : Identity
  stations : Bank (Option StationConfig) 48
  barriers : Bank BarrierConfig 8
  cadences : Bank (Option Cadence) 16
  dispatch : Bank DispatchEntry 32
  inputs : Bank InputConfig 8
  bindings : Bank Binding 4
deriving DecidableEq, Repr

/-! ## Frames and the pool -/

/-- The seven frame classes (00, Frame classes). -/
inductive FrameClass where
  | report | alert | health | mgmtRep | mgmtReq | quiet | test
deriving DecidableEq, Repr

/-- A frame without its CRC: header fields and payload (section 2.1). -/
structure Frame where
  cls : FrameClass
  urgent : Bool
  fresh : Bool
  hops : BitVec 4
  origin : Addr
  target : Addr
  sequence : Byte
  payload : List Byte
deriving DecidableEq, Repr

/-- Who must be told of a frame's fate (R42): nobody, the line-test generator for a run, or the
management agent for the reply to RESTART. -/
inductive Maker where
  | other
  | testRun (run : Nat)
  | restartReply
deriving DecidableEq, Repr

/-- A buffer in use: one frame and its maker. -/
structure Buffer where
  frame : Frame
  maker : Maker
deriving DecidableEq, Repr

/-- The classifier's eight drop counters (R27). -/
structure DropCounters where
  malformed : Nat
  wrongDirection : Nat
  foreign : Nat
  hopExpired : Nat
  routineDrops : Nat
  upDrops : Nat
  urgentDrops : Nat
  evictions : Nat
deriving DecidableEq, Repr

/-- The pool and its three queues, oldest frame first (R37), and the arbiter's run count (R43). -/
structure Pool where
  free : Nat
  urgent : List Buffer
  routine : List Buffer
  up : List Buffer
  run : Nat
  drops : DropCounters
deriving DecidableEq, Repr

/-! ## Line ports -/

/-- Link state of UPPER and LOWER (section 1.3). -/
inductive LinkState where
  | down | seek | up
deriving DecidableEq, Repr

/-- A frame being received: its bytes in order, the polarity of its start word (R7, R9) and the
feed order read at its start word (R1). -/
structure Assembly where
  bytes : List Byte
  polarity : Polarity
  order : FeedOrder
deriving DecidableEq, Repr

/-- A frame being sent: the held buffer, and the polarity and feed order read at its start word
(R1, R8, R10). -/
structure Transmission where
  buffer : Buffer
  polarity : Polarity
  order : FeedOrder
deriving DecidableEq, Repr

/-- The counters of UPPER and LOWER (R14). -/
structure PortCounters where
  goodFrames : Nat
  crcErrors : Nat
  runtsGiants : Nat
  linkDrops : Nat
  polarityChanges : Nat
  framesSent : Nat
  transmitAborts : Nat
deriving DecidableEq, Repr

/-- UPPER or LOWER (chapter 1). Timers hold the instant they expire. -/
structure Port where
  link : LinkState
  seekRun : Nat
  silence : Option Nat
  window : Option Nat
  tally : Nat
  polarity : Polarity
  assembly : Option Assembly
  sending : Option Transmission
  counters : PortCounters
deriving DecidableEq, Repr

/-- FIELD (R9, R13); `quiet` is the instant at which a line that carries no further word ends the
frame in assembly. -/
structure FieldPort where
  assembly : Option Assembly
  quiet : Option Nat
  goodFrames : Nat
  crcErrors : Nat
  inversions : Nat
deriving DecidableEq, Repr

/-- Upper line lost and its confirm timer (R17). -/
structure LineLoss where
  lost : Bool
  confirm : Option Nat
deriving DecidableEq, Repr

/-! ## Line test -/

/-- The parameters of a line-test run (R18). -/
structure TestParams where
  port : LinkPort
  count : Nat
  length : Nat
  gap : Nat
  target : Addr
deriving DecidableEq, Repr

/-- How a line-test run ended (R20). -/
inductive TestOutcome where
  | done | stopped | preempted
deriving DecidableEq, Repr

/-- The line-test generator (R18); `run` numbers the runs and is the model's own (log 19). -/
structure Generator where
  running : Bool
  params : Option TestParams
  finished : Nat
  seed : Byte
  outstanding : Bool
  gapTimer : Option Nat
  last : Option TestOutcome
  run : Nat
deriving DecidableEq, Repr

/-- The counters of one checker set that a snapshot copies (R21, R23). -/
structure TestCounts where
  frames : Nat
  bytes : Nat
  mismatched : Nat
  lost : Nat
  overflow : Nat
deriving DecidableEq, Repr

/-- The checker: both live sets with their last seeds, and the snapshot (R21). -/
structure Checker where
  upper : TestCounts
  upperSeed : Option Byte
  lower : TestCounts
  lowerSeed : Option Byte
  snapshot : Option (TestCounts × TestCounts)
deriving DecidableEq, Repr

/-! ## Stations and barriers -/

/-- The states of a station (R62). -/
inductive StationState where
  | unheard | live | late | silent
deriving DecidableEq, Repr

/-- The seven counters of a station record (R58). -/
structure StationCounters where
  accepted : Nat
  duplicates : Nat
  oldSequence : Nat
  stale : Nat
  ignored : Nat
  returns : Nat
  heldBreaks : Nat
deriving DecidableEq, Repr

/-- The dynamic fields of a station record (R47); `heard` says that a frame was accepted since
the record was last started, which R76 asks of a LATE gauge (log 20). -/
structure StationDyn where
  state : StationState
  misses : Nat
  deadline : Option Nat
  heard : Bool
  lastSeq : Option Byte
  lastSample : Option Nat
  lastReading : Option (Nat × Quality)
  window : List Nat
  smoothed : Option Nat
  counters : StationCounters
deriving DecidableEq, Repr

/-- The state of a barrier's gauging (R77). -/
inductive Sight where
  | sighted | blind | ungauged
deriving DecidableEq, Repr

/-- The rate anchor: barrier fill, sample time and fill source (section 5.5). -/
structure Anchor where
  fill : Nat
  time : Nat
  source : Fin 48
deriving DecidableEq, Repr

/-- A contribution: value and sample time (R87). -/
structure Contribution where
  value : Nat
  time : Nat
deriving DecidableEq, Repr

/-- The barrier measures (R77). The shake and rain values are derived from their lists (R87). -/
structure Measures where
  fill : Nat
  held : Bool
  sight : Sight
  source : Option (Fin 48)
  anchor : Option Anchor
  rate : Option Int
  ttf : Nat
  shake : List Contribution
  rain : List Contribution
deriving DecidableEq, Repr

/-- The dynamic fields of a barrier record (R93) and its measures. -/
structure BarrierDyn where
  level : Level
  causes : List Cause
  hold : Option Nat
  inflowBroken : Bool
  overflowBroken : Bool
  gaugeLost : Bool
  manual : Bool
  feeder : Option (Level × Bool)
  lineBase : Option Level
  quieted : Option Level
  serial : Nat
  repeatAt : Option Nat
  measures : Measures
deriving DecidableEq, Repr

/-- The alert emitter's relay-wide state (R118). -/
structure Emitter where
  sequence : Byte
  fresh : Nat
  quietActed : Nat
  quietNotActed : Nat
deriving DecidableEq, Repr

/-! ## Channels, lines and inputs -/

/-- The state of a dispatch channel (R135). -/
inductive ChannelState where
  | idle | sounding | stopping
deriving DecidableEq, Repr

/-- The owner of a sounding: a barrier with the level of its request, or the test request. -/
inductive Owner where
  | barrier (b : Fin 8) (level : Level)
  | test
deriving DecidableEq, Repr

/-- The segment a channel plays (R133). -/
inductive Segment where
  | on | off | gap
deriving DecidableEq, Repr

/-- Why a channel is STOPPING (R135). -/
inductive StopReason where
  | levelFell | stoppedQuiet | stoppedMgmt
deriving DecidableEq, Repr

/-- How a sounding or request ended (R142). -/
inductive ChannelOutcome where
  | done | levelFell | stoppedQuiet | stoppedMgmt | preempted | config | outputOpen
  | outputShort | uncleared
deriving DecidableEq, Repr

/-- A channel request of a barrier (R137). -/
structure Request where
  barrier : Fin 8
  level : Level
  attention : Option (Fin 16)
  sustain : Option (Fin 16)
deriving DecidableEq, Repr

/-- A dispatch channel (R135). -/
structure Channel where
  state : ChannelState
  owner : Option Owner
  cadence : Option (Fin 16)
  step : Nat
  rounds : Nat
  segment : Option Segment
  segmentEnd : Option Nat
  next : Option (Fin 16)
  continueMark : Bool
  stop : Option StopReason
  waiting : Option Request
  normalDone : Bool
  abnormalDone : Bool
  continued : Bool
  last : Option ChannelOutcome
deriving DecidableEq, Repr

/-- An output line: its fault indicator (R148) and sensing timer (R147). -/
structure OutputLine where
  fault : Bool
  sensing : Option Nat
deriving DecidableEq, Repr

/-- The states of a contact input (R156). -/
inductive InputState where
  | normal | deviating | tripped
deriving DecidableEq, Repr

/-- The dynamic fields of a contact input (R156). -/
structure InputDyn where
  state : InputState
  timer : Option Nat
  trips : Nat
deriving DecidableEq, Repr

/-- The states of the field reset key (R161). -/
inductive KeyState where
  | disarmed | armed | timing
deriving DecidableEq, Repr

/-- The field reset key and its timer (R161). -/
structure ResetKey where
  state : KeyState
  timer : Option Nat
deriving DecidableEq, Repr

/-! ## Management agent, stored tables, clock and pins -/

/-- The management agent (R165); the save requester is an origin and a tag. -/
structure Agent where
  restartPending : Bool
  requester : Option (Addr × Byte)
  healthTimer : Option Nat
  actedOn : Nat
  unauthorised : Nat
  repliesRefused : Nat
deriving DecidableEq, Repr

/-- The relay mode (00, Relay modes). -/
inductive Mode where
  | starting | assessing | openLine
deriving DecidableEq, Repr

/-- The reset cause (R183). -/
inductive ResetCause where
  | powerOn | clockLoss | restart
deriving DecidableEq, Repr

/-- The image status (R183). -/
inductive ImageStatus where
  | valid | invalid | absent
deriving DecidableEq, Repr

/-- The stored-tables block and supply watch (R183, R185, R190, R192). -/
structure Store where
  mode : Mode
  cause : ResetCause
  own : Addr
  rate : LineRate
  status : ImageStatus
  version : Nat
  saving : Bool
  saveBegun : Bool
  band : Band
  nextSample : Nat
  nextStrap : Nat
  conflicts : Nat
deriving DecidableEq, Repr

/-- The time base in milliseconds since the last reset, and whether the oscillator has stopped
(00, Conventions; R187). -/
structure Clock where
  ms : Nat
  lost : Bool
deriving DecidableEq, Repr

/-- The levels standing at the part's input pins. -/
structure Pins where
  centivolts : Nat
  straps : Addr
  rate : LineRate
  contacts : Bank PinLevel 8
  loads : Bank LoadCondition 4
deriving DecidableEq, Repr

/-- Everything the manual gives the part, block by block. `freeCount` is the model's own: the
number of free values used so far (log 7). -/
structure Relay where
  clock : Clock
  pins : Pins
  memory : SerialMemory
  store : Store
  tables : Tables
  upper : Port
  lower : Port
  field : FieldPort
  lineLoss : LineLoss
  pool : Pool
  generator : Generator
  checker : Checker
  stations : Bank StationDyn 48
  barriers : Bank BarrierDyn 8
  emitter : Emitter
  channels : Bank Channel 4
  lines : Bank OutputLine 4
  inputs : Bank InputDyn 8
  key : ResetKey
  agent : Agent
  freeCount : Nat
deriving DecidableEq, Repr

/-- The machine: the part, and the commands waiting for it, first in first out (log 1). -/
structure State where
  relay : Relay
  pending : List Instr
deriving DecidableEq, Repr

/-! ## Starting values -/

/-- The identity record's defaults (section 10.1, R1). -/
def Identity.defaults : Identity where
  activityUpper := 4
  activityLower := 4
  txUpper := .follow
  txLower := .follow
  rxOrderUpper := .lsbFirst
  rxOrderLower := .lsbFirst
  rxOrderField := .lsbFirst
  txOrderUpper := .lsbFirst
  txOrderLower := .lsbFirst
  countMode := .single
  confirmTime := 5
  passSet := 0#64
  starvation := 4
  grace := 50
  evidenceLife := 120
  hopBudget := 8
  repeatWatch := 600
  repeatWarn := 120
  repeatEvacuate := 30
  manager := none
  healthInterval := 300

/-- The emptied value of a barrier record (R92). -/
def BarrierConfig.emptied : BarrierConfig where
  enabled := false
  lineWatched := false
  gaugeLoss := false
  blindEvidence := false
  watchFill := 0
  warnFill := 0
  fullFill := 0
  hysteresis := 0
  rateWatch := 0
  ttfWarn := 0
  shakeWatch := 0
  shakeWarn := 0
  rainWatch := 0
  holdTime := 900
  rateWindow := 600
  feeder := none

/-- The emptied value of a dispatch entry (R134). -/
def DispatchEntry.emptied : DispatchEntry :=
  { channels := 0#4, attention := none, sustain := none }

/-- The emptied value of an input record (R155). -/
def InputConfig.emptied : InputConfig :=
  { function := .unused, expected := .high, debounce := 5 }

/-- The emptied value of a channel's binding: the line of the channel's own number (R131). -/
def Binding.emptied (c : Fin 4) : Binding :=
  { line := some c, kind := .siren }

/-- The emptied working tables (R184). -/
def Tables.emptied : Tables where
  identity := Identity.defaults
  stations := Bank.fill 48 none
  barriers := Bank.fill 8 BarrierConfig.emptied
  cadences := Bank.fill 16 none
  dispatch := Bank.fill 32 DispatchEntry.emptied
  inputs := Bank.fill 8 InputConfig.emptied
  bindings := Bank.ofFn Binding.emptied

/-- Port counters after every kind of reset (R14). -/
def PortCounters.zero : PortCounters where
  goodFrames := 0
  crcErrors := 0
  runtsGiants := 0
  linkDrops := 0
  polarityChanges := 0
  framesSent := 0
  transmitAborts := 0

/-- UPPER or LOWER after every kind of reset (R6, R7, R11, R14, R37). -/
def Port.start : Port where
  link := .down
  seekRun := 0
  silence := none
  window := none
  tally := 0
  polarity := .normal
  assembly := none
  sending := none
  counters := PortCounters.zero

/-- FIELD after every kind of reset (R11, R14). -/
def FieldPort.start : FieldPort :=
  { assembly := none, quiet := none, goodFrames := 0, crcErrors := 0, inversions := 0 }

/-- Drop counters after every kind of reset (R27). -/
def DropCounters.zero : DropCounters where
  malformed := 0
  wrongDirection := 0
  foreign := 0
  hopExpired := 0
  routineDrops := 0
  upDrops := 0
  urgentDrops := 0
  evictions := 0

/-- The pool after every kind of reset (R37, R43, R27). -/
def Pool.start : Pool where
  free := Config.poolSize
  urgent := []
  routine := []
  up := []
  run := 0
  drops := DropCounters.zero

/-- The generator after every kind of reset (R18). -/
def Generator.start : Generator where
  running := false
  params := none
  finished := 0
  seed := 0#8
  outstanding := false
  gapTimer := none
  last := none
  run := 0

/-- One checker set at zero (R21). -/
def TestCounts.zero : TestCounts :=
  { frames := 0, bytes := 0, mismatched := 0, lost := 0, overflow := 0 }

/-- The checker after every kind of reset (R21). -/
def Checker.start : Checker where
  upper := TestCounts.zero
  upperSeed := none
  lower := TestCounts.zero
  lowerSeed := none
  snapshot := none

/-- Station counters at their starting value (R47). -/
def StationCounters.zero : StationCounters where
  accepted := 0
  duplicates := 0
  oldSequence := 0
  stale := 0
  ignored := 0
  returns := 0
  heldBreaks := 0

/-- The starting values of a station's dynamic fields, before the monitor starts it (R47). -/
def StationDyn.start : StationDyn where
  state := .unheard
  misses := 0
  deadline := none
  heard := false
  lastSeq := none
  lastSample := none
  lastReading := none
  window := []
  smoothed := none
  counters := StationCounters.zero

/-- The starting values of the barrier measures (R77). -/
def Measures.start : Measures where
  fill := 0
  held := false
  sight := .ungauged
  source := none
  anchor := none
  rate := none
  ttf := Config.noTime
  shake := []
  rain := []

/-- A barrier's dynamic fields after a power-on or clock-loss reset (R93). -/
def BarrierDyn.start : BarrierDyn where
  level := .calm
  causes := []
  hold := none
  inflowBroken := false
  overflowBroken := false
  gaugeLost := false
  manual := false
  feeder := none
  lineBase := none
  quieted := none
  serial := 0
  repeatAt := none
  measures := Measures.start

/-- The emitter after every kind of reset (R118). -/
def Emitter.start : Emitter :=
  { sequence := 0#8, fresh := 0, quietActed := 0, quietNotActed := 0 }

/-- A channel after every kind of reset (R135). -/
def Channel.start : Channel where
  state := .idle
  owner := none
  cadence := none
  step := 1
  rounds := 0
  segment := none
  segmentEnd := none
  next := none
  continueMark := false
  stop := none
  waiting := none
  normalDone := false
  abnormalDone := false
  continued := false
  last := none

/-- An output line after every kind of reset (R148, R132). -/
def OutputLine.start : OutputLine :=
  { fault := false, sensing := none }

/-- An input after every kind of reset (R156). -/
def InputDyn.start : InputDyn :=
  { state := .normal, timer := none, trips := 0 }

/-- The field reset key after every kind of reset (R161). -/
def ResetKey.start : ResetKey :=
  { state := .disarmed, timer := none }

/-- The management agent after every kind of reset (R165). -/
def Agent.start : Agent where
  restartPending := false
  requester := none
  healthTimer := none
  actedOn := 0
  unauthorised := 0
  repliesRefused := 0

/-- The stored-tables block right after the clearing of a reset (R183, R186 step 1). The own
address, line rate, image status and version and the band have not been read yet: DESIGN CHOICE
(log 4). -/
def Store.start (cause : ResetCause) : Store where
  mode := .starting
  cause := cause
  own := 0#12
  rate := .bps4800
  status := .absent
  version := 0
  saving := false
  saveBegun := false
  band := .normal
  nextSample := Config.samplePeriod
  nextStrap := 1
  conflicts := 0

/-- A blank serial memory that answers (log 6). -/
def SerialMemory.blank : SerialMemory :=
  { answers := true, cells := [] }

/-- The input pins before anything is said of them: DESIGN CHOICE (log 4). -/
def Pins.start : Pins where
  centivolts := 1200
  straps := 0#12
  rate := .bps4800
  contacts := Bank.fill 8 .high
  loads := Bank.fill 4 .sound

/-- All state cleared, in STARTING (R186 step 1), with the pins, the memory and the count of
free values that outlive a reset. -/
def Relay.cleared (cause : ResetCause) (pins : Pins) (memory : SerialMemory) (freeCount : Nat) :
    Relay where
  clock := { ms := 0, lost := false }
  pins := pins
  memory := memory
  store := Store.start cause
  tables := Tables.emptied
  upper := Port.start
  lower := Port.start
  field := FieldPort.start
  lineLoss := { lost := false, confirm := none }
  pool := Pool.start
  generator := Generator.start
  checker := Checker.start
  stations := Bank.fill 48 StationDyn.start
  barriers := Bank.fill 8 BarrierDyn.start
  emitter := Emitter.start
  channels := Bank.fill 4 Channel.start
  lines := Bank.fill 4 OutputLine.start
  inputs := Bank.fill 8 InputDyn.start
  key := ResetKey.start
  agent := Agent.start
  freeCount := freeCount

/-- The part right after the clearing of a power-on reset, its straps not yet read, with no
command waiting (log 4, log 5). -/
def State.reset : State where
  relay := Relay.cleared .powerOn Pins.start SerialMemory.blank 0
  pending := []

end Sys2Proof.Machine
end

