-- ==== Sys2Proof/WellFormed.lean ====
section
/-! DEFINITION. Which commands the outside world can give: the checks on their operands. -/

namespace Sys2Proof

/-- An origin a device can have (00, Conventions: 0 and 4095 are not valid as an origin). -/
def Addr.isDevice (a : Addr) : Bool :=
  a != 0#12 && a != 4095#12

/-- Cells in the one canonical form from an address on: addresses strictly rising, and none
equal to what an unlisted byte reads as (log 6). -/
def canonicalFrom : Nat → List Host.Cell → Bool
  | _, [] => true
  | lo, (a, v) :: rest => decide (lo ≤ a) && v != Config.blankByte && canonicalFrom (a + 1) rest

/-- The canonical form of the serial memory's contents. -/
def canonicalCells (cells : List Host.Cell) : Bool :=
  canonicalFrom 0 cells

/-- The pins of a power-on or clock-loss reset: a memory fitted meanwhile is in canonical form. -/
def StartPins.wellFormed (p : StartPins) : Bool :=
  match p.memory with
  | none => true
  | some m => canonicalCells m.cells

/-- An order of the four deliveries of a band change: each block once (R193). -/
def deliveryOrder (order : List BandDelivery) : Bool :=
  order.length == 4 && order.contains .classifier && order.contains .generator
    && order.contains .channels && order.contains .agent

/-- The most bytes a WRITE-RECORD payload leaves for its record: 56 less code, tag, table
and index (section 1.6, R197). -/
def maxRecordBytes : Nat := 52

/-- Bytes that a device takes or shows wrongly lie within the image (R198). -/
def withinImage (flaws : List Host.Cell) : Bool :=
  flaws.all (fun c => decide (c.1 < Config.imageHeader + Config.imageLength))

/-- The check of one command's operands. -/
def Instr.wellFormed : Instr → Bool
  | .lineEnergy _ => true
  | .silenceTimerExpiry _ => true
  | .lineWord _ _ => true
  | .activityWindowClose _ => true
  | .frameReceived _ _ => true
  | .fieldLineQuiet => true
  | .transmitTake _ => true
  | .transmitComplete _ => true
  | .upperConfirmExpiry => true
  | .testGapExpiry => true
  | .stationDeadlineExpiry _ => true
  | .shakeExpiry _ _ => true
  | .holdExpiry _ => true
  | .repeatExpiry _ => true
  | .stepBoundary _ => true
  | .loadConditionChange _ _ => true
  | .sensingTimerExpiry _ => true
  | .inputLevelChange _ _ => true
  | .debounceExpiry _ => true
  | .keyTimerExpiry => true
  | .readRecord origin _ _ _ => origin.isDevice
  | .writeRecord origin _ _ _ record => origin.isDevice && decide (record.length ≤ maxRecordBytes)
  | .readState origin _ _ _ _ => origin.isDevice
  | .clearPortCounters origin _ => origin.isDevice
  | .clearDropCounters origin _ => origin.isDevice
  | .clearStationCounters origin _ => origin.isDevice
  | .clearChannelFlags origin _ => origin.isDevice
  | .lockCounters origin _ => origin.isDevice
  | .lockAndClear origin _ => origin.isDevice
  | .standDown origin _ _ => origin.isDevice
  | .rearmWire origin _ _ _ => origin.isDevice
  | .testSound origin _ _ _ => origin.isDevice
  | .stopChannel origin _ _ => origin.isDevice
  | .lineTest origin _ _ _ _ _ _ => origin.isDevice
  | .lineTestStop origin _ => origin.isDevice
  | .save origin _ => origin.isDevice
  | .restart origin _ => origin.isDevice
  | .saveEnd _ reads => withinImage reads.flaws && withinImage reads.load.flaws
  | .powerOn pins => pins.wellFormed
  | .clockLoss => true
  | .clockResume pins => pins.wellFormed
  | .strapRetry _ _ => true
  | .batterySample _ order => deliveryOrder order
  | .healthTimerExpiry => true

end Sys2Proof
end

