-- ==== Sys2Proof/Machine/Ops.lean ====
section
/-! DEFINITION. The shared operations: replacing a block's state, time and timers, saturating
counters, the order of levels, the serial memory, and how a command runs. -/

namespace Sys2Proof.Machine

/-! ## Replacing one block's state -/

/-- The part with its clock replaced. -/
def Relay.setClock (r : Relay) (x : Clock) : Relay := { r with clock := x }

/-- The part with its pins replaced. -/
def Relay.setPins (r : Relay) (x : Pins) : Relay := { r with pins := x }

/-- The part with its memory replaced. -/
def Relay.setMemory (r : Relay) (x : SerialMemory) : Relay := { r with memory := x }

/-- The part with its store replaced. -/
def Relay.setStore (r : Relay) (x : Store) : Relay := { r with store := x }

/-- The part with its tables replaced. -/
def Relay.setTables (r : Relay) (x : Tables) : Relay := { r with tables := x }

/-- The part with its upper replaced. -/
def Relay.setUpper (r : Relay) (x : Port) : Relay := { r with upper := x }

/-- The part with its lower replaced. -/
def Relay.setLower (r : Relay) (x : Port) : Relay := { r with lower := x }

/-- The part with its field replaced. -/
def Relay.setField (r : Relay) (x : FieldPort) : Relay := { r with field := x }

/-- The part with its lineLoss replaced. -/
def Relay.setLineLoss (r : Relay) (x : LineLoss) : Relay := { r with lineLoss := x }

/-- The part with its pool replaced. -/
def Relay.setPool (r : Relay) (x : Pool) : Relay := { r with pool := x }

/-- The part with its generator replaced. -/
def Relay.setGenerator (r : Relay) (x : Generator) : Relay := { r with generator := x }

/-- The part with its checker replaced. -/
def Relay.setChecker (r : Relay) (x : Checker) : Relay := { r with checker := x }

/-- The part with its stations replaced. -/
def Relay.setStations (r : Relay) (x : Bank StationDyn 48) : Relay := { r with stations := x }

/-- The part with its barriers replaced. -/
def Relay.setBarriers (r : Relay) (x : Bank BarrierDyn 8) : Relay := { r with barriers := x }

/-- The part with its emitter replaced. -/
def Relay.setEmitter (r : Relay) (x : Emitter) : Relay := { r with emitter := x }

/-- The part with its channels replaced. -/
def Relay.setChannels (r : Relay) (x : Bank Channel 4) : Relay := { r with channels := x }

/-- The part with its lines replaced. -/
def Relay.setLines (r : Relay) (x : Bank OutputLine 4) : Relay := { r with lines := x }

/-- The part with its inputs replaced. -/
def Relay.setInputs (r : Relay) (x : Bank InputDyn 8) : Relay := { r with inputs := x }

/-- The part with its key replaced. -/
def Relay.setKey (r : Relay) (x : ResetKey) : Relay := { r with key := x }

/-- The part with its agent replaced. -/
def Relay.setAgent (r : Relay) (x : Agent) : Relay := { r with agent := x }

/-- The part with its freeCount replaced. -/
def Relay.setFreeCount (r : Relay) (x : Nat) : Relay := { r with freeCount := x }

/-- The part with one station's dynamic fields replaced. -/
def Relay.setStation (r : Relay) (i : Fin 48) (x : StationDyn) : Relay :=
  r.setStations (r.stations.set i x)

/-- The part with one barrier's dynamic fields replaced. -/
def Relay.setBarrier (r : Relay) (b : Fin 8) (x : BarrierDyn) : Relay :=
  r.setBarriers (r.barriers.set b x)

/-- The part with one channel replaced. -/
def Relay.setChannel (r : Relay) (c : Fin 4) (x : Channel) : Relay :=
  r.setChannels (r.channels.set c x)

/-- The part with one output line replaced. -/
def Relay.setLine (r : Relay) (l : Fin 4) (x : OutputLine) : Relay :=
  r.setLines (r.lines.set l x)

/-- The part with one input's dynamic fields replaced. -/
def Relay.setInput (r : Relay) (i : Fin 8) (x : InputDyn) : Relay :=
  r.setInputs (r.inputs.set i x)

/-- UPPER or LOWER. -/
def Relay.port (r : Relay) : LinkPort → Port
  | .upper => r.upper
  | .lower => r.lower

/-- The part with UPPER or LOWER replaced. -/
def Relay.setPort (r : Relay) (p : LinkPort) (x : Port) : Relay :=
  match p with
  | .upper => r.setUpper x
  | .lower => r.setLower x

/-! ## Time, timers and counters -/

/-- The present instant of the time base, in milliseconds (00, Conventions). -/
def Relay.instant (r : Relay) : Nat :=
  r.clock.ms

/-- Relay time: the whole seconds of the time base, saturating (00, Conventions; R187). -/
def Relay.now (r : Relay) : Nat :=
  min (r.clock.ms / 1000) Config.maxTime

/-- A running timer or present deadline that has been reached (00, Conventions). -/
def reached (timer : Option Nat) (now : Nat) : Bool :=
  match timer with
  | some t => decide (t ≤ now)
  | none => false

/-- One more on a 16-bit counter, which saturates (00, Conventions). -/
def bump (n : Nat) : Nat :=
  min (n + 1) Config.maxCount

/-- The part receives, times and acts: the oscillator runs and start-up is over (R6, R186, R187). -/
def Relay.awake (r : Relay) : Bool :=
  !r.clock.lost && r.store.mode != .starting

/-! ## Levels -/

/-- The order of the levels, and their codes (00, Conventions; R199). -/
def Level.rank : Level → Nat
  | .calm => 0
  | .watch => 1
  | .warn => 2
  | .evacuate => 3

/-- The higher of two levels. -/
def Level.max (a b : Level) : Level :=
  if a.rank ≤ b.rank then b else a

/-- The neighbouring lower level (00, Conventions: a step). -/
def Level.stepDown : Level → Level
  | .calm => .calm
  | .watch => .calm
  | .warn => .watch
  | .evacuate => .warn

/-- A barrier is assessed when it is enabled and the mode is ASSESSING (R94). -/
def Relay.assessed (r : Relay) (b : Fin 8) : Bool :=
  (r.tables.barriers.get b).enabled && r.store.mode == .assessing

/-- The highest level among the eight barriers (R116, R181). -/
def Relay.highestLevel (r : Relay) : Level :=
  (List.finRange 8).foldl (fun top b => top.max (r.barriers.get b).level) .calm

/-! ## The serial memory -/

/-- The canonical form of the memory's contents (log 6). -/
def Memory.wf (m : List Host.Cell) : Bool :=
  canonicalCells m

/-- The byte at an address; an unlisted address reads as blank. -/
def Memory.read : List Host.Cell → Nat → Byte
  | [], _ => Config.blankByte
  | (a, v) :: rest, x => if a = x then v else Memory.read rest x

/-- One byte written, keeping the canonical form. -/
def Memory.write : List Host.Cell → Nat → Byte → List Host.Cell
  | [], x, v => if v = Config.blankByte then [] else [(x, v)]
  | (a, w) :: rest, x, v =>
    if x < a then
      if v = Config.blankByte then (a, w) :: rest else (x, v) :: (a, w) :: rest
    else if x = a then
      if v = Config.blankByte then rest else (x, v) :: rest
    else (a, w) :: Memory.write rest x v

/-- Bytes written from an address on, the last one first. -/
def Memory.writeBytes (m : List Host.Cell) : Nat → List Byte → List Host.Cell
  | _, [] => m
  | x, v :: vs => Memory.write (Memory.writeBytes m (x + 1) vs) x v

/-- A run of bytes from an address on. -/
def Memory.readBytes (m : List Host.Cell) : Nat → Nat → List Byte
  | _, 0 => []
  | x, n + 1 => Memory.read m x :: Memory.readBytes m (x + 1) n

/-- A list of single bytes written, in order. -/
def Memory.writeCells (m : List Host.Cell) (cells : List Host.Cell) : List Host.Cell :=
  cells.foldl (fun m c => Memory.write m c.1 c.2) m

/-! ## How a command runs -/

/-- A command changes the part and leaves the queue as it is. -/
def State.onRelay (s : State) (f : Relay → Relay) : Host.Outcome State Fault Refusal :=
  .next { s with relay := f s.relay }

/-- A change that happens when a condition holds, and nothing otherwise. -/
def Relay.when (r : Relay) (c : Bool) (f : Relay → Relay) : Relay :=
  if c then f r else r

/-- A change the part makes only while it is awake: in STARTING and while the clock is lost it
receives nothing and times nothing (R6, R186, R187). -/
def Relay.whenAwake (r : Relay) (f : Relay → Relay) : Relay :=
  r.when r.awake f

end Sys2Proof.Machine
end

