-- ==== Sys2Proof/Machine/Operands.lean ====
section
/-! DEFINITION. The layouts of chapter 12: codes, byte order, the header, the CRC, and the seven
record layouts in both directions. -/

namespace Sys2Proof.Machine

/-! ## Bytes (R194, R195) -/

/-- A number in one byte. -/
def byte (n : Nat) : Byte :=
  BitVec.ofNat 8 n

/-- A number in two bytes, most significant first (R194). -/
def be2 (n : Nat) : List Byte :=
  [byte (n / 256), byte n]

/-- A number in three bytes (R194). -/
def be3 (n : Nat) : List Byte :=
  [byte (n / 65536), byte (n / 256), byte n]

/-- A number in four bytes (R194). -/
def be4 (n : Nat) : List Byte :=
  [byte (n / 16777216), byte (n / 65536), byte (n / 256), byte n]

/-- The byte at a position, as a number. -/
def byteAt (bs : List Byte) (i : Nat) : Nat :=
  (bs.getD i 0#8).toNat

/-- The two-byte field at a position (R194). -/
def pairAt (bs : List Byte) (i : Nat) : Nat :=
  byteAt bs i * 256 + byteAt bs (i + 1)

/-- Yes and no in one byte (R195). -/
def flagByte (b : Bool) : Byte :=
  if b then 1#8 else 0#8

/-- A yes/no as a number. -/
def flag (b : Bool) : Nat :=
  if b then 1 else 0

/-- An optional one-byte field whose range stops below 255 (R195). -/
def optByte (x : Option Nat) : Byte :=
  byte (x.getD 255)

/-- An optional four-byte field with its presence byte (R195). A deadline beyond the largest relay time is
carried modulo 2^32: the model's choice (log 43). -/
def optTime (x : Option Nat) : List Byte :=
  match x with
  | none => [0#8, 0#8, 0#8, 0#8, 0#8]
  | some t => 1#8 :: be4 t

/-- An index below a bound, where the number is one. -/
def finOf (n x : Nat) : Option (Fin n) :=
  if h : x < n then some ⟨x, h⟩ else none

/-- A number within a range. -/
def within (lo hi x : Nat) : Bool :=
  decide (lo ≤ x) && decide (x ≤ hi)

/-! ## Codes (R199) -/

/-- The level of a code; a code above 3 is the unknown value (R195). -/
def Level.ofCode : Nat → Option Level
  | 0 => some .calm
  | 1 => some .watch
  | 2 => some .warn
  | 3 => some .evacuate
  | _ => none

/-- The number of a cause (00, Conventions). -/
def Cause.code : Cause → Nat
  | .fill => 1
  | .rate => 2
  | .ttf => 3
  | .shake => 4
  | .rain => 5
  | .inflowWire => 6
  | .overflowWire => 7
  | .feeder => 8
  | .lineLost => 9
  | .gaugeLost => 10
  | .manual => 11
  | .blind => 12

/-- Every cause, in ascending code order (00, Conventions). -/
def Cause.all : List Cause :=
  [.fill, .rate, .ttf, .shake, .rain, .inflowWire, .overflowWire, .feeder, .lineLost,
    .gaugeLost, .manual, .blind]

/-- The code of a quality (R199). -/
def Quality.code : Quality → Nat
  | .good => 0
  | .suspect => 1
  | .fault => 2

/-- The quality of a code; an unknown one is taken as FAULT (R53, R195). -/
def Quality.ofCode : Nat → Quality
  | 0 => .good
  | 1 => .suspect
  | _ => .fault

/-- The code of a feed order (R199). -/
def FeedOrder.code : FeedOrder → Nat
  | .lsbFirst => 0
  | .msbFirst => 1

/-- The feed order of one bit. -/
def FeedOrder.ofBit (n : Nat) : FeedOrder :=
  if n % 2 = 0 then .lsbFirst else .msbFirst

/-- The code of a transmit polarity (R199). -/
def TxPolarity.code : TxPolarity → Nat
  | .normal => 0
  | .inverted => 1
  | .follow => 2

/-- The transmit polarity of a code. -/
def TxPolarity.ofCode : Nat → Option TxPolarity
  | 0 => some .normal
  | 1 => some .inverted
  | 2 => some .follow
  | _ => none

/-- The code of a count mode (R199). -/
def CountMode.code : CountMode → Nat
  | .single => 0
  | .continuous => 1

/-- The count mode of one bit. -/
def CountMode.ofBit (n : Nat) : CountMode :=
  if n % 2 = 0 then .single else .continuous

/-- The code of a forwarding (R199). -/
def Forwarding.code : Forwarding → Nat
  | .none => 0
  | .routine => 1
  | .eventUrgent => 2

/-- The forwarding of a code. -/
def Forwarding.ofCode : Nat → Option Forwarding
  | 0 => some .none
  | 1 => some .routine
  | 2 => some .eventUrgent
  | _ => Option.none

/-- The code of a wire position (R199). -/
def WirePosition.code : WirePosition → Nat
  | .inflow => 0
  | .overflow => 1

/-- The wire position of a code. -/
def WirePosition.ofCode : Nat → Option WirePosition
  | 0 => some .inflow
  | 1 => some .overflow
  | _ => none

/-- The code of a pin level (R199). -/
def pinCode : PinLevel → Nat
  | .low => 0
  | .high => 1

/-- The pin level of a code. -/
def pinOfCode : Nat → Option PinLevel
  | 0 => some .low
  | 1 => some .high
  | _ => none

/-- The code of a line kind (R199). -/
def LineKind.code : LineKind → Nat
  | .siren => 0
  | .beacon => 1

/-- The line kind of a code. -/
def LineKind.ofCode : Nat → Option LineKind
  | 0 => some .siren
  | 1 => some .beacon
  | _ => none

/-- The code of a cadence's required kind (R199). -/
def CadenceKind.code : CadenceKind → Nat
  | .siren => 0
  | .beacon => 1
  | .either => 2

/-- The required kind of a code. -/
def CadenceKind.ofCode : Nat → Option CadenceKind
  | 0 => some .siren
  | 1 => some .beacon
  | 2 => some .either
  | _ => none

/-- The code of a sight (R199). -/
def Sight.code : Sight → Nat
  | .sighted => 0
  | .blind => 1
  | .ungauged => 2

/-- The code of a station state (R199). -/
def StationState.code : StationState → Nat
  | .unheard => 0
  | .live => 1
  | .late => 2
  | .silent => 3

/-- The code of a link state (R199). -/
def LinkState.code : LinkState → Nat
  | .down => 0
  | .seek => 1
  | .up => 2

/-- The code of a received polarity (R199). -/
def polarityCode : Polarity → Nat
  | .normal => 0
  | .inverted => 1

/-- The code of a relay mode (R199). -/
def Mode.code : Mode → Nat
  | .starting => 0
  | .assessing => 1
  | .openLine => 2

/-- The code of a reset cause (R199). -/
def ResetCause.code : ResetCause → Nat
  | .powerOn => 0
  | .clockLoss => 1
  | .restart => 2

/-- The code of an image status (R199). -/
def ImageStatus.code : ImageStatus → Nat
  | .valid => 0
  | .invalid => 1
  | .absent => 2

/-- The code of a supply band (R199). -/
def Band.code : Band → Nat
  | .normal => 0
  | .low => 1
  | .critical => 2

/-- The code of an input state (R199). -/
def InputState.code : InputState → Nat
  | .normal => 0
  | .deviating => 1
  | .tripped => 2

/-- The code of a key state (R199). -/
def KeyState.code : KeyState → Nat
  | .disarmed => 0
  | .armed => 1
  | .timing => 2

/-- The code of a channel state (R199). -/
def ChannelState.code : ChannelState → Nat
  | .idle => 0
  | .sounding => 1
  | .stopping => 2

/-- The code of a segment (R199). -/
def Segment.code : Segment → Nat
  | .on => 0
  | .off => 1
  | .gap => 2

/-- The code of a channel outcome (R199). -/
def ChannelOutcome.code : ChannelOutcome → Nat
  | .done => 0
  | .levelFell => 1
  | .stoppedQuiet => 2
  | .stoppedMgmt => 3
  | .preempted => 4
  | .config => 5
  | .outputOpen => 6
  | .outputShort => 7
  | .uncleared => 8

/-- The outcome a stop reason becomes (R141). -/
def StopReason.outcome : StopReason → ChannelOutcome
  | .levelFell => .levelFell
  | .stoppedQuiet => .stoppedQuiet
  | .stoppedMgmt => .stoppedMgmt

/-- The code of a line-test outcome (R199). -/
def TestOutcome.code : TestOutcome → Nat
  | .done => 0
  | .stopped => 1
  | .preempted => 2

/-- The code of a line-test port (R197). -/
def portCode : LinkPort → Nat
  | .upper => 0
  | .lower => 1

/-- The class code (R196). -/
def FrameClass.code : FrameClass → BitVec 3
  | .report => 0#3
  | .alert => 1#3
  | .health => 2#3
  | .mgmtRep => 3#3
  | .mgmtReq => 4#3
  | .quiet => 5#3
  | .test => 6#3

/-- The class of a code; 7 is the unknown value (R196). -/
def FrameClass.ofCode (c : BitVec 3) : Option FrameClass :=
  match c.toNat with
  | 0 => some .report
  | 1 => some .alert
  | 2 => some .health
  | 3 => some .mgmtRep
  | 4 => some .mgmtReq
  | 5 => some .quiet
  | 6 => some .test
  | _ => none

/-- The fixed part of a class's payload, which R24 requires as a minimum (R197). -/
def FrameClass.fixedPart : FrameClass → Nat
  | .report => 0
  | .alert => 17
  | .health => 25
  | .mgmtRep => 3
  | .mgmtReq => 2
  | .quiet => 4
  | .test => 1

/-! ## The header (R196) and the CRC (R10) -/

/-- One bit as a field of a header byte. -/
def bit (b : Bool) : BitVec 1 :=
  if b then 1#1 else 0#1

/-- The six header bytes of a frame the relay sends (R196); the must-zero bit is clear. -/
def Frame.header (f : Frame) : List Byte :=
  [ f.cls.code ++ 0#1 ++ f.hops,
    bit f.urgent ++ bit f.fresh ++ BitVec.ofNat 6 f.payload.length,
    f.origin.extractLsb' 4 8,
    f.origin.extractLsb' 0 4 ++ f.target.extractLsb' 8 4,
    f.target.extractLsb' 0 8,
    f.sequence ]

/-- Header and payload in the order they travel (R2). -/
def Frame.bytes (f : Frame) : List Byte :=
  f.header ++ f.payload

/-- The header of a received frame, its class, must-zero bit and payload length as they stand in
the bytes (R196). -/
structure RawHeader where
  cls : Option FrameClass
  mustZero : Bool
  hops : BitVec 4
  urgent : Bool
  fresh : Bool
  length : Nat
  origin : Addr
  target : Addr
  sequence : Byte
deriving DecidableEq, Repr

/-- The header fields of a frame's bytes (R196). -/
def readHeader (bs : List Byte) : RawHeader :=
  let b0 := bs.getD 0 0#8
  let b1 := bs.getD 1 0#8
  let b2 := bs.getD 2 0#8
  let b3 := bs.getD 3 0#8
  let b4 := bs.getD 4 0#8
  let b5 := bs.getD 5 0#8
  { cls := FrameClass.ofCode (b0.extractLsb' 5 3)
    mustZero := b0.getLsbD 4
    hops := b0.extractLsb' 0 4
    urgent := b1.getLsbD 7
    fresh := b1.getLsbD 6
    length := (b1.extractLsb' 0 6).toNat
    origin := b2 ++ b3.extractLsb' 4 4
    target := b3.extractLsb' 0 4 ++ b4
    sequence := b5 }

/-- One bit fed to the CRC register (R10: x^16 + x^12 + x^5 + 1; log 14). -/
def crcBit (crc : BitVec 16) (b : Bool) : BitVec 16 :=
  if (crc.getLsbD 15 != b) then (crc <<< 1) ^^^ 0x1021#16 else crc <<< 1

/-- The bits of a byte in the order they are fed (R10). -/
def feedBits (order : FeedOrder) (b : Byte) : List Bool :=
  match order with
  | .lsbFirst => [b.getLsbD 0, b.getLsbD 1, b.getLsbD 2, b.getLsbD 3, b.getLsbD 4, b.getLsbD 5,
      b.getLsbD 6, b.getLsbD 7]
  | .msbFirst => [b.getLsbD 7, b.getLsbD 6, b.getLsbD 5, b.getLsbD 4, b.getLsbD 3, b.getLsbD 2,
      b.getLsbD 1, b.getLsbD 0]

/-- The CRC of a run of bytes: preset of all ones, no final inversion (R10). -/
def crc (order : FeedOrder) (bs : List Byte) : BitVec 16 :=
  bs.foldl (fun reg b => (feedBits order b).foldl crcBit reg) 0xFFFF#16

/-- The two CRC bytes, the most significant first (R194). -/
def crcBytes (order : FeedOrder) (bs : List Byte) : List Byte :=
  [(crc order bs).extractLsb' 8 8, (crc order bs).extractLsb' 0 8]

/-- The data bytes a transmitter sends for a frame: header, payload and CRC (R15). -/
def Transmission.lineBytes (t : Transmission) : List Byte :=
  t.buffer.frame.bytes ++ crcBytes t.order t.buffer.frame.bytes

/-- A data byte as it is read in a frame's polarity, and as it is shown by one: an inverted pair shows
the complement (R7, R8; log 15). -/
def readByte (polarity : Polarity) (b : Byte) : Byte :=
  match polarity with
  | .normal => b
  | .inverted => ~~~b

/-! ## Records (R198) -/

/-- The ranges of the identity record (section 10.1). -/
def Identity.inRange (d : Identity) : Bool :=
  within 1 15 d.activityUpper && within 1 15 d.activityLower && within 1 30 d.confirmTime
    && within 0 15 d.starvation && within 10 100 d.grace && within 30 600 d.evidenceLife
    && within 1 15 d.hopBudget && within 10 3600 d.repeatWatch && within 10 3600 d.repeatWarn
    && within 10 3600 d.repeatEvacuate && within 60 3600 d.healthInterval

/-- The polarity and order bytes of the identity record (R198). -/
def Identity.lineWord (d : Identity) : Nat :=
  d.txUpper.code * 16384 + d.txLower.code * 4096 + d.rxOrderUpper.code * 2048
    + d.rxOrderLower.code * 1024 + d.rxOrderField.code * 512 + d.txOrderUpper.code * 256
    + d.txOrderLower.code * 128 + d.countMode.code * 64

/-- The foreign pass set in its eight bytes: bin n at bit n mod 8 of byte 7 - n / 8 (R198). -/
def passBytes (p : BitVec 64) : List Byte :=
  [p.extractLsb' 56 8, p.extractLsb' 48 8, p.extractLsb' 40 8, p.extractLsb' 32 8,
    p.extractLsb' 24 8, p.extractLsb' 16 8, p.extractLsb' 8 8, p.extractLsb' 0 8]

/-- The foreign pass set from its eight bytes at a position (R198). -/
def passSetAt (bs : List Byte) (i : Nat) : BitVec 64 :=
  bs.getD i 0#8 ++ bs.getD (i + 1) 0#8 ++ bs.getD (i + 2) 0#8 ++ bs.getD (i + 3) 0#8
    ++ bs.getD (i + 4) 0#8 ++ bs.getD (i + 5) 0#8 ++ bs.getD (i + 6) 0#8 ++ bs.getD (i + 7) 0#8

/-- The code of an optional line address: absent at 0 (R195). -/
def addrCode (a : Option Addr) : Nat :=
  match a with
  | none => 0
  | some x => x.toNat

/-- The identity record in its 27 bytes (R198). -/
def encodeIdentity (d : Identity) : List Byte :=
  byte (d.activityUpper * 16 + d.activityLower) :: be2 d.lineWord
    ++ byte d.confirmTime :: passBytes d.passSet
    ++ byte d.starvation :: byte d.grace :: be2 d.evidenceLife
    ++ byte d.hopBudget :: be2 d.repeatWatch ++ be2 d.repeatWarn ++ be2 d.repeatEvacuate
    ++ be2 (addrCode d.manager) ++ be2 d.healthInterval

/-- The identity record of 27 bytes, where every field is in range (R163, R170, R198). -/
def decodeIdentity (bs : List Byte) : Option Identity :=
  let w := pairAt bs 1
  match TxPolarity.ofCode (w / 16384), TxPolarity.ofCode (w / 4096 % 4) with
  | some up, some lo =>
    let d : Identity :=
      { activityUpper := byteAt bs 0 / 16
        activityLower := byteAt bs 0 % 16
        txUpper := up
        txLower := lo
        rxOrderUpper := FeedOrder.ofBit (w / 2048)
        rxOrderLower := FeedOrder.ofBit (w / 1024)
        rxOrderField := FeedOrder.ofBit (w / 512)
        txOrderUpper := FeedOrder.ofBit (w / 256)
        txOrderLower := FeedOrder.ofBit (w / 128)
        countMode := CountMode.ofBit (w / 64)
        confirmTime := byteAt bs 3
        passSet := passSetAt bs 4
        starvation := byteAt bs 12
        grace := byteAt bs 13
        evidenceLife := pairAt bs 14
        hopBudget := byteAt bs 16
        repeatWatch := pairAt bs 17
        repeatWarn := pairAt bs 19
        repeatEvacuate := pairAt bs 21
        manager := if pairAt bs 23 = 0 then none else some (BitVec.ofNat 12 (pairAt bs 23))
        healthInterval := pairAt bs 25 }
    if d.inRange && decide (pairAt bs 23 ≤ 4094) then some d else none
  | _, _ => none

/-- The barrier a station's readings are handed to; RELAY has none (R45, R57). -/
def Role.barrier : Role → Option (Fin 8)
  | .gauge b _ _ => some b
  | .wire b _ => some b
  | .shake b => some b
  | .rain b => some b
  | .relay => none

/-- The code of a role (R199). -/
def Role.code : Role → Nat
  | .gauge _ _ _ => 1
  | .wire _ _ => 2
  | .shake _ => 3
  | .rain _ => 4
  | .relay => 5

/-- The wire position byte of a role: absent where the role takes none (R198). -/
def Role.positionByte : Role → Byte
  | .wire _ p => byte p.code
  | _ => 255#8

/-- The calibration of a role: both distances 0 where the role takes none (R198). -/
def Role.calibration : Role → Nat × Nat
  | .gauge _ e f => (e, f)
  | _ => (0, 0)

/-- A station record in its 12 bytes; an empty one is all zeros (R198). -/
def encodeStation : Option StationConfig → List Byte
  | none => List.replicate 12 0#8
  | some c =>
    byte c.role.code :: be2 c.address.toNat
      ++ optByte (c.role.barrier.map Fin.val) :: c.role.positionByte
        :: be2 c.role.calibration.1 ++ be2 c.role.calibration.2
      ++ be2 c.interval ++ [byte c.forwarding.code]

/-- The role of a station record's bytes, where its presence rule and ranges hold (R45, R170). -/
def decodeRole (role barrier position emptyRange fullRange : Nat) : Option Role :=
  if role = 5 then
    if barrier = 255 ∧ position = 255 ∧ emptyRange = 0 ∧ fullRange = 0 then some .relay else none
  else
    match finOf 8 barrier with
    | none => none
    | some b =>
      if role = 1 then
        if position = 255 ∧ within 200 60000 emptyRange = true ∧ 100 ≤ fullRange
            ∧ fullRange + 100 ≤ emptyRange then
          some (.gauge b emptyRange fullRange)
        else none
      else if emptyRange = 0 ∧ fullRange = 0 then
        if role = 2 then (WirePosition.ofCode position).map (.wire b)
        else if role = 3 ∧ position = 255 then some (.shake b)
        else if role = 4 ∧ position = 255 then some (.rain b)
        else none
      else none

/-- A station record of 12 bytes: `some none` is the empty record, `none` a bad field (R170,
R198). -/
def decodeStation (bs : List Byte) : Option (Option StationConfig) :=
  if byteAt bs 0 = 0 then some none
  else
    match decodeRole (byteAt bs 0) (byteAt bs 3) (byteAt bs 4) (pairAt bs 5) (pairAt bs 7),
        Forwarding.ofCode (byteAt bs 11) with
    | some role, some fwd =>
      if within 1 4094 (pairAt bs 1) && within 0 3600 (pairAt bs 9) then
        some (some
          { address := BitVec.ofNat 12 (pairAt bs 1)
            role := role
            interval := pairAt bs 9
            forwarding := fwd })
      else none
    | _, _ => none

/-- Two thresholds ascend strictly, where both are set (R92, R170). -/
def ascending (a b : Nat) : Bool :=
  a == 0 || b == 0 || decide (a < b)

/-- The ranges and threshold orders of a barrier record (R92, R170). -/
def BarrierConfig.inRange (c : BarrierConfig) : Bool :=
  within 0 1200 c.watchFill && within 0 1200 c.warnFill && within 0 1200 c.fullFill
    && within 0 100 c.hysteresis && within 0 999 c.rateWatch && within 0 600 c.ttfWarn
    && within 0 65535 c.shakeWatch && within 0 65535 c.shakeWarn && within 0 65535 c.rainWatch
    && within 60 7200 c.holdTime && within 60 1800 c.rateWindow
    && ascending c.watchFill c.warnFill && ascending c.warnFill c.fullFill
    && ascending c.watchFill c.fullFill && ascending c.shakeWatch c.shakeWarn

/-- A barrier record in its 25 bytes (R198). -/
def encodeBarrier (c : BarrierConfig) : List Byte :=
  byte (flag c.enabled + 2 * flag c.lineWatched + 4 * flag c.gaugeLoss + 8 * flag c.blindEvidence)
    :: be2 c.watchFill ++ be2 c.warnFill ++ be2 c.fullFill
    ++ byte c.hysteresis :: be2 c.rateWatch ++ be2 c.ttfWarn ++ be2 c.shakeWatch
    ++ be2 c.shakeWarn ++ be2 c.rainWatch ++ be2 c.holdTime ++ be2 c.rateWindow
    ++ be2 (addrCode (c.feeder.map Prod.fst))
    ++ [match c.feeder with
        | none => 0#8
        | some f => byte f.2.val]

/-- The feeder of a barrier record's bytes: `none` is out of range (R198). -/
def decodeFeeder (address index : Nat) : Option (Option (Addr × Fin 8)) :=
  if address = 0 then
    if index = 0 then some none else none
  else
    match finOf 8 index with
    | none => none
    | some k => if address ≤ 4094 then some (some (BitVec.ofNat 12 address, k)) else none

/-- A barrier record of 25 bytes, where the checks on the record alone hold (R170, R198). -/
def decodeBarrier (bs : List Byte) : Option BarrierConfig :=
  match decodeFeeder (pairAt bs 22) (byteAt bs 24) with
  | none => none
  | some feeder =>
    let c : BarrierConfig :=
      { enabled := byteAt bs 0 % 2 == 1
        lineWatched := byteAt bs 0 / 2 % 2 == 1
        gaugeLoss := byteAt bs 0 / 4 % 2 == 1
        blindEvidence := byteAt bs 0 / 8 % 2 == 1
        watchFill := pairAt bs 1
        warnFill := pairAt bs 3
        fullFill := pairAt bs 5
        hysteresis := byteAt bs 7
        rateWatch := pairAt bs 8
        ttfWarn := pairAt bs 10
        shakeWatch := pairAt bs 12
        shakeWarn := pairAt bs 14
        rainWatch := pairAt bs 16
        holdTime := pairAt bs 18
        rateWindow := pairAt bs 20
        feeder := feeder }
    if c.inRange then some c else none

/-- The step pairs of a cadence, padded with zeros to eight (R198). -/
def stepBytes (steps : List (Nat × Nat)) : List Byte :=
  ((steps ++ List.replicate (8 - steps.length) (0, 0)).flatMap
    (fun (p : Nat × Nat) => [byte p.1, byte p.2]))

/-- The ranges of a cadence record (R133, R170). -/
def Cadence.inRange (c : Cadence) : Bool :=
  within 1 8 c.steps.length && c.steps.all (fun p => within 1 255 p.1 && within 0 255 p.2)
    && within 0 255 c.rounds && within 0 255 c.gap

/-- A cadence record in its 19 bytes; an empty one is all zeros (R198). -/
def encodeCadence : Option Cadence → List Byte
  | none => List.replicate 19 0#8
  | some c =>
    byte (128 + c.kind.code * 16 + c.steps.length) :: byte c.rounds :: byte c.gap
      :: stepBytes c.steps

/-- A cadence record of 19 bytes: `some none` is the empty record, `none` a bad field (R170,
R198). -/
def decodeCadence (bs : List Byte) : Option (Option Cadence) :=
  if byteAt bs 0 < 128 then some none
  else
    match CadenceKind.ofCode (byteAt bs 0 / 16 % 4) with
    | none => none
    | some kind =>
      let c : Cadence :=
        { steps := (List.range (byteAt bs 0 % 16)).map
            (fun k => (byteAt bs (3 + 2 * k), byteAt bs (4 + 2 * k)))
          rounds := byteAt bs 1
          gap := byteAt bs 2
          kind := kind }
      if c.inRange then some (some c) else none

/-- An optional index of a one-byte field that is absent at 255: `none` is out of range (R195). -/
def decodeOptIndex (n x : Nat) : Option (Option (Fin n)) :=
  if x = 255 then some none else (finOf n x).map some

/-- A dispatch entry in its 3 bytes (R198). -/
def encodeDispatch (e : DispatchEntry) : List Byte :=
  [byte e.channels.toNat, optByte (e.attention.map Fin.val), optByte (e.sustain.map Fin.val)]

/-- A dispatch entry of 3 bytes, in range (R170, R198). -/
def decodeDispatch (bs : List Byte) : Option DispatchEntry :=
  match decodeOptIndex 16 (byteAt bs 1), decodeOptIndex 16 (byteAt bs 2) with
  | some att, some sus =>
    if byteAt bs 0 < 16 then
      some { channels := BitVec.ofNat 4 (byteAt bs 0), attention := att, sustain := sus }
    else none
  | _, _ => none

/-- The code of an input function (R199). -/
def InputFunction.code : InputFunction → Nat
  | .unused => 0
  | .inflowWire _ => 1
  | .overflowWire _ => 2
  | .manualAlarm _ => 3
  | .resetKey => 4

/-- The barrier index of an input function (R155). -/
def InputFunction.barrier : InputFunction → Option (Fin 8)
  | .unused => none
  | .inflowWire b => some b
  | .overflowWire b => some b
  | .manualAlarm b => some b
  | .resetKey => none

/-- The function of an input record's bytes, where the presence of the barrier index agrees
(R155, R170). -/
def decodeFunction (code barrier : Nat) : Option InputFunction :=
  if code = 0 then if barrier = 255 then some .unused else none
  else if code = 4 then if barrier = 255 then some .resetKey else none
  else
    match finOf 8 barrier with
    | none => none
    | some b =>
      if code = 1 then some (.inflowWire b)
      else if code = 2 then some (.overflowWire b)
      else if code = 3 then some (.manualAlarm b)
      else none

/-- An input record in its 4 bytes (R198). -/
def encodeInput (c : InputConfig) : List Byte :=
  [byte c.function.code, optByte (c.function.barrier.map Fin.val), byte (pinCode c.expected),
    byte c.debounce]

/-- An input record of 4 bytes, where the checks on the record alone hold (R170, R198). -/
def decodeInput (bs : List Byte) : Option InputConfig :=
  match decodeFunction (byteAt bs 0) (byteAt bs 1), pinOfCode (byteAt bs 2) with
  | some f, some level =>
    if within 1 25 (byteAt bs 3) then
      some { function := f, expected := level, debounce := byteAt bs 3 }
    else none
  | _, _ => none

/-- A binding record in its 2 bytes (R198). -/
def encodeBinding (b : Binding) : List Byte :=
  [optByte (b.line.map Fin.val), byte b.kind.code]

/-- A binding record of 2 bytes, in range (R170, R198). -/
def decodeBinding (bs : List Byte) : Option Binding :=
  match decodeOptIndex 4 (byteAt bs 0), LineKind.ofCode (byteAt bs 1) with
  | some line, some kind => some { line := line, kind := kind }
  | _, _ => none

/-! ## Readings (section 3.4, R197) -/

/-- The kinds of reading a role can take (R51). -/
inductive ReadingKind where
  | range | wire | shake | rain
deriving DecidableEq, Repr

/-- The kind of a code; any other code is the unknown value (R199). -/
def ReadingKind.ofCode : Nat → Option ReadingKind
  | 1 => some .range
  | 2 => some .wire
  | 3 => some .shake
  | 4 => some .rain
  | _ => none

/-- One reading of a REPORT; an unknown kind is absent, an unknown quality is FAULT (R51, R53). -/
structure Reading where
  kind : Option ReadingKind
  value : Nat
  quality : Quality
  age : Nat
deriving DecidableEq, Repr

/-- The readings of a REPORT's payload, four bytes each, in list order (R197). -/
def readings : List Byte → List Reading
  | k :: v1 :: v0 :: a :: rest =>
    { kind := ReadingKind.ofCode (k.toNat / 16)
      value := v1.toNat * 256 + v0.toNat
      quality := Quality.ofCode (k.toNat % 16)
      age := a.toNat } :: readings rest
  | _ => []

end Sys2Proof.Machine
end

