-- ==== Sys2Proof/Machine/Flags.lean ====
section
/-! DEFINITION. The flag and status bytes of the frames and of READ-STATE (chapter 12), and the
levels the part drives on its output pins. -/

namespace Sys2Proof.Machine

/-- Fill held and sight, as bits 2 to 0 of ALERT byte 8 (R197). -/
def sightBits (m : Measures) : Nat :=
  m.sight.code + 4 * flag m.held

/-- Flags of an ALERT: sight, fill held, quieted, feeder stale (R120, R197). -/
def alertFlags (d : BarrierDyn) : Byte :=
  let stale := match d.feeder with
    | some f => f.2
    | none => false
  byte (sightBits d.measures + 8 * flag d.quieted.isSome + 16 * flag stale)

/-- A rate in two bytes of two's complement, absent as -32768 (R195). -/
def rateBytes (rate : Option Int) : List Byte :=
  be2 (BitVec.ofInt 16 (rate.getD (-32768))).toNat

/-- The latches of READ-STATE BARRIER part 1 (12.6). -/
def latchByte (d : BarrierDyn) : Byte :=
  let stale := match d.feeder with
    | some f => f.2
    | none => false
  byte (flag d.inflowBroken + 2 * flag d.overflowBroken + 4 * flag d.gaugeLost
    + 8 * flag d.manual + 16 * flag stale)

/-- The link byte of HEALTH and of the relay status (R197, 12.6). -/
def linkByte (r : Relay) : Byte :=
  byte (r.upper.link.code + 4 * r.lower.link.code + 16 * flag r.lineLoss.lost)

/-- The three flags of a channel: normal-done, abnormal-done, continued from bit 0 (R197). -/
def channelFlags (c : Channel) : Nat :=
  flag c.normalDone + 2 * flag c.abnormalDone + 4 * flag c.continued

/-- The channel flags of HEALTH (R197). -/
def channelFlagBytes (r : Relay) : List Byte :=
  be2 ((List.finRange 4).foldl (fun w c => w + channelFlags (r.channels.get c) * 8 ^ c.val) 0)

/-- The line-fault indicators of HEALTH (R197). -/
def lineFaultByte (r : Relay) : Byte :=
  byte ((List.finRange 4).foldl (fun w l => w + flag (r.lines.get l).fault * 2 ^ l.val) 0)

/-- The number of occupied station records in a state (R181). -/
def stationCount (r : Relay) (st : StationState) : Nat :=
  ((List.finRange 48).filter
    (fun i => (r.tables.stations.get i).isSome && (r.stations.get i).state == st)).length

/-! ## Output pins -/

/-- A channel drives its line: it is SOUNDING or STOPPING in an ON segment (R132). -/
def Channel.driving (c : Channel) : Bool :=
  c.state != .idle && c.segment == some .on

/-- The channel bound to a line that drives it, if one does (R131: at most one). -/
def Relay.driverOf (r : Relay) (l : Fin 4) : Option (Fin 4) :=
  (List.finRange 4).find?
    (fun c => (r.tables.bindings.get c).line == some l && (r.channels.get c).driving)

/-- An output line is driven (R132); in STARTING and while the clock is lost none is (R187). -/
def Relay.lineDriven (r : Relay) (l : Fin 4) : Bool :=
  r.awake && (r.driverOf l).isSome

/-- The UPPER and LOWER transmitters put energy on their lines (R2, R187). -/
def Relay.transmittersOn (r : Relay) : Bool :=
  r.awake

/-- The transmit polarity setting of a port (R1). -/
def Relay.txSetting (r : Relay) : LinkPort → TxPolarity
  | .upper => r.tables.identity.txUpper
  | .lower => r.tables.identity.txLower

/-- The polarity in which a port's transmitter begins a word that is not inside a frame (R8). It reads
the setting in force, so a written setting governs the very next idle word, although R1 reads the setting
at a start word: the model's choice (log 49). -/
def Relay.txPolarity (r : Relay) (p : LinkPort) : Polarity :=
  match r.txSetting p with
  | .normal => .normal
  | .inverted => .inverted
  | .follow => (r.port p).polarity

/-- The words a transmitter sends (R2, R15). -/
inductive SentWord where
  | start
  | byte (b : Byte)
  | idle
deriving DecidableEq, Repr

/-- The words of one transmission, in their order (R15 steps 1 to 4). -/
def Transmission.words (t : Transmission) : List SentWord :=
  .start :: t.lineBytes.map .byte ++ [.idle]

/-- A word stands inside a frame; the idle word after the CRC does not (R8). -/
def SentWord.inFrame : SentWord → Bool
  | .start => true
  | .byte _ => true
  | .idle => false

/-- The polarity in which a port's transmitter begins a word now: inside a frame that of its start
word, and at any other word, the idle word after the CRC included, the one R8 gives at this moment
(log 48). -/
def Relay.sendingPolarity (r : Relay) (p : LinkPort) (w : SentWord) : Polarity :=
  match w.inFrame, (r.port p).sending with
  | true, some t => t.polarity
  | _, _ => r.txPolarity p

/-- A word as the pair shows it, in the polarity it is begun in now (R8; log 15). -/
def Relay.wordOnLine (r : Relay) (p : LinkPort) (w : SentWord) : LineWord :=
  match w with
  | .start => .frameStart (r.sendingPolarity p w)
  | .byte b => .data (readByte (r.sendingPolarity p w) b)
  | .idle => .idle (r.sendingPolarity p w)

end Sys2Proof.Machine
end

