-- ==== Sys2Proof/Machine/Queues.lean ====
section
/-! DEFINITION. The buffer pool, the routine and up queues, the LOWER arbiter, and the take of a
frame by a transmitter (sections 1.8, 2.6 to 2.8). -/

namespace Sys2Proof.Machine

/-- The routine queue's cap in the present band (R38). -/
def Relay.routineCap (r : Relay) : Nat :=
  match r.store.band with
  | .normal => 24
  | .low => 12
  | .critical => 0

/-- A frame joins the tail of the routine queue, where the cap and the pool allow (R39). -/
def Pool.joinRoutine (p : Pool) (cap : Nat) (b : Buffer) : Option Pool :=
  if p.routine.length < cap ∧ 0 < p.free then
    some { p with free := p.free - 1, routine := p.routine ++ [b] }
  else none

/-- A frame joins the tail of the up queue, where its cap and the pool allow (R39). -/
def Pool.joinUp (p : Pool) (b : Buffer) : Option Pool :=
  if p.up.length < Config.upCap ∧ 0 < p.free then
    some { p with free := p.free - 1, up := p.up ++ [b] }
  else none

/-- Where an urgent frame is placed (R40): the pool after, the frame evicted for it, and whether
it was placed. -/
def Pool.joinUrgent (p : Pool) (b : Buffer) : Pool × Option Buffer × Bool :=
  if 0 < p.free then
    ({ p with free := p.free - 1, urgent := p.urgent ++ [b] }, none, true)
  else
    match p.routine, p.up with
    | x :: rest, _ =>
      ({ p with
          urgent := p.urgent ++ [b]
          routine := rest
          drops := { p.drops with evictions := bump p.drops.evictions } }, some x, true)
    | [], x :: rest =>
      ({ p with
          urgent := p.urgent ++ [b]
          up := rest
          drops := { p.drops with evictions := bump p.drops.evictions } }, some x, true)
    | [], [] =>
      ({ p with drops := { p.drops with urgentDrops := bump p.drops.urgentDrops } }, none, false)

/-- The LOWER arbiter's choice and the pool after the take (R43). -/
def Pool.takeLower (p : Pool) (limit : Nat) : Option (Buffer × Pool) :=
  match p.urgent, p.routine with
  | [], [] => none
  | [], x :: rest => some (x, { p with routine := rest, run := 0 })
  | u :: rest, [] => some (u, { p with urgent := rest, run := 0 })
  | u :: us, x :: xs =>
    if limit = 0 then some (u, { p with urgent := us })
    else if p.run < limit then some (u, { p with urgent := us, run := p.run + 1 })
    else some (x, { p with routine := xs, run := 0 })

/-- The UPPER transmitter's take: the head of the up queue (R44). -/
def Pool.takeUpper (p : Pool) : Option (Buffer × Pool) :=
  match p.up with
  | [] => none
  | x :: rest => some (x, { p with up := rest })

/-- The frame available to a port's transmitter, with the pool after its take (R15, R43, R44). -/
def Relay.available (r : Relay) : LinkPort → Option (Buffer × Pool)
  | .upper => r.pool.takeUpper
  | .lower => r.pool.takeLower r.tables.identity.starvation

/-- The transmit feed order of a port (R1). -/
def Relay.txOrder (r : Relay) : LinkPort → FeedOrder
  | .upper => r.tables.identity.txOrderUpper
  | .lower => r.tables.identity.txOrderLower

/-- A transmitter begins a frame: it holds the buffer, and reads the polarity and the feed order
for its start word (R1, R8, R15). -/
def Relay.beginSending (r : Relay) (p : LinkPort) (b : Buffer) : Relay :=
  r.setPort p
    { r.port p with
      sending := some { buffer := b, polarity := r.txPolarity p, order := r.txOrder p } }

/-- A transmitter takes a frame when its port is UP, it sends none, and one is available (R15). -/
def Relay.take (r : Relay) (p : LinkPort) : Relay :=
  if (r.port p).link = .up ∧ (r.port p).sending = none then
    match r.available p with
    | none => r
    | some (b, pool) => (r.setPool pool).beginSending p b
  else r

/-- The classifier's drop counters changed. -/
def Relay.countDrop (r : Relay) (f : DropCounters → DropCounters) : Relay :=
  r.setPool { r.pool with drops := f r.pool.drops }

/-- A frame is offered to the routine queue; true when it is admitted (R39). An idle LOWER
transmitter in UP takes at once (R15, log 12). -/
def Relay.offerRoutine (r : Relay) (b : Buffer) : Relay × Bool :=
  match r.pool.joinRoutine r.routineCap b with
  | some pool => ((r.setPool pool).take .lower, true)
  | none => (r.countDrop (fun d => { d with routineDrops := bump d.routineDrops }), false)

/-- A frame is offered to the up queue; true when it is admitted (R39, R15). -/
def Relay.offerUp (r : Relay) (b : Buffer) : Relay × Bool :=
  match r.pool.joinUp b with
  | some pool => ((r.setPool pool).take .upper, true)
  | none => (r.countDrop (fun d => { d with upDrops := bump d.upDrops }), false)

/-- A frame the relay makes, with the present relay sequence and fresh mark (R119). -/
def Relay.ownFrame (r : Relay) (cls : FrameClass) (urgent : Bool) (hops : BitVec 4)
    (target : Addr) (payload : List Byte) : Frame where
  cls := cls
  urgent := urgent
  fresh := decide (r.emitter.fresh < 4)
  hops := hops
  origin := r.store.own
  target := target
  sequence := r.emitter.sequence
  payload := payload

/-- The relay sequence and fresh count after one of its frames was admitted (R119). -/
def Relay.countAdmitted (r : Relay) : Relay :=
  r.setEmitter
    { r.emitter with
      sequence := r.emitter.sequence + 1#8
      fresh := min (r.emitter.fresh + 1) 4 }

/-- The hop budget as a header field (R117). -/
def Relay.hopBudget (r : Relay) : BitVec 4 :=
  BitVec.ofNat 4 r.tables.identity.hopBudget

/-- The target of ALERT and HEALTH frames: the manager, or 0 toward the hub (R163). -/
def Relay.hubTarget (r : Relay) : Addr :=
  r.tables.identity.manager.getD 0#12

end Sys2Proof.Machine
end

