-- ==== Sys2Proof/Machine/LineTest.lean ====
section
/-! DEFINITION. The line-test generator and checker (section 1.10), the urgent queue's offers,
whose evictions the generator is told of, and the shedding of a band change (section 2.6). -/

namespace Sys2Proof.Machine

/-- The payload of a TEST frame: each byte five times the one before it plus one (R19). -/
def testPattern : Nat → Byte → List Byte
  | 0, _ => []
  | n + 1, s => s :: testPattern n (5#8 * s + 1#8)

/-- The gap timer after a gap in tenths (R19). -/
def Relay.startGap (r : Relay) (tenths : Nat) : Relay :=
  r.setGenerator { r.generator with gapTimer := some (r.instant + tenths * 100) }

/-- The offer of a TEST frame: the routine queue for LOWER, the up queue for UPPER (R19, R42). -/
def Relay.offerTest (r : Relay) (p : LinkPort) (b : Buffer) : Relay × Bool :=
  match p with
  | .lower => r.offerRoutine b
  | .upper => r.offerUp b

/-- The generator makes a TEST frame and offers it (R19). -/
def Relay.makeTestFrame (r : Relay) : Relay :=
  match r.generator.params with
  | none => r
  | some q =>
    let frame := r.ownFrame .test false 0#4 q.target (testPattern q.length r.generator.seed)
    let offered := r.offerTest q.port { frame := frame, maker := .testRun r.generator.run }
    if offered.2 then
      offered.1.countAdmitted.setGenerator
        { r.generator with
          seed := r.generator.seed + 1#8
          outstanding := true
          gapTimer := none }
    else offered.1.startGap (max 1 q.gap)

/-- A run ends with an outcome (R20); its parameters stay to be read (log 19). -/
def Relay.endRun (r : Relay) (outcome : TestOutcome) : Relay :=
  r.setGenerator
    { r.generator with
      running := false
      outstanding := false
      gapTimer := none
      last := some outcome }

/-- The frames finished so far, one more (R19; a 16-bit count that saturates, log 26). -/
def Relay.countFinished (r : Relay) : Relay :=
  r.setGenerator
    { r.generator with
      outstanding := false
      finished := bump r.generator.finished }

/-- The outstanding TEST frame of the present run is finished: completed, abandoned, evicted or
shed (R19, R42). A frame of an earlier run no longer concerns the generator (R20). -/
def Relay.testFrameFinished (r : Relay) (run : Nat) : Relay :=
  match r.generator.params with
  | none => r
  | some q =>
    if r.generator.running ∧ r.generator.outstanding ∧ run = r.generator.run then
      let r1 := r.countFinished
      if q.count ≠ 0 ∧ r1.generator.finished = q.count then r1.endRun .done
      else if q.gap = 0 then r1.makeTestFrame
      else r1.startGap q.gap
    else r

/-- A frame left its queue or transmitter other than by its own maker's doing: the generator is
told of a TEST frame (R42). -/
def Relay.reportLoss (r : Relay) (m : Maker) : Relay :=
  match m with
  | .testRun run => r.testFrameFinished run
  | .other => r
  | .restartReply => r

/-- A running test ends as PREEMPTED (R20). -/
def Relay.preemptTest (r : Relay) : Relay :=
  r.when r.generator.running (fun r => r.endRun .preempted)

/-- The generator's gap timer expires: the next frame is made, or a refused one tried again
(R19). -/
def Relay.gapExpired (r : Relay) : Relay :=
  if r.generator.running && reached r.generator.gapTimer r.instant then
    (r.setGenerator { r.generator with gapTimer := none }).makeTestFrame
  else r

/-- A frame is offered to the urgent queue; true when it is placed (R40). The loss of an evicted
TEST frame is reported to the generator (R42), and an idle LOWER transmitter in UP takes at once
(R15, log 12). -/
def Relay.offerUrgent (r : Relay) (b : Buffer) : Relay × Bool :=
  let placed := r.pool.joinUrgent b
  let r1 := r.setPool placed.1
  let r2 := match placed.2.1 with
    | some evicted => r1.reportLoss evicted.maker
    | none => r1
  (r2.when placed.2.2 (fun r => r.take .lower), placed.2.2)

/-- The three queues a frame can be offered to (section 2.6). -/
inductive Lane where
  | urgent | routine | up
deriving DecidableEq, Repr

/-- A frame is offered to a queue (R39, R40). -/
def Relay.offer (r : Relay) (lane : Lane) (b : Buffer) : Relay × Bool :=
  match lane with
  | .urgent => r.offerUrgent b
  | .routine => r.offerRoutine b
  | .up => r.offerUp b

/-- A frame the relay has built is offered; where it is admitted its number is used (R119, R42). -/
def Relay.offerOwn (r : Relay) (lane : Lane) (frame : Frame) (maker : Maker) : Relay × Bool :=
  let offered := r.offer lane { frame := frame, maker := maker }
  if offered.2 then (offered.1.countAdmitted, true) else (offered.1, false)

/-- The pool with the routine queue brought down to a cap, oldest first, and each removal
counted (R41). -/
def Pool.shed (p : Pool) (cap : Nat) : Pool :=
  let n := p.routine.length - cap
  { p with
    free := p.free + n
    routine := p.routine.drop n
    drops := { p.drops with routineDrops := min (p.drops.routineDrops + n) Config.maxCount } }

/-- The classifier acts on a new band: the routine queue is shed down to its cap, and the loss of
a TEST frame is reported (R41, R42). -/
def Relay.shedRoutine (r : Relay) : Relay :=
  let removed := r.pool.routine.take (r.pool.routine.length - r.routineCap)
  removed.foldl (fun r b => r.reportLoss b.maker) (r.setPool (r.pool.shed r.routineCap))

/-! ## The checker -/

/-- An addition to a checker counter: the new value and the wraps it adds (R23). -/
def countTest (mode : CountMode) (n k : Nat) : Nat × Nat :=
  match mode with
  | .single => (min (n + k) Config.maxCount, 0)
  | .continuous => ((n + k) % 65536, (n + k) / 65536)

/-- The bytes of a payload that differ from the prediction from its first byte (R22). -/
def mismatches (payload : List Byte) : Nat :=
  match payload with
  | [] => 0
  | s :: _ =>
    ((payload.zip (testPattern payload.length s)).filter (fun p => p.1 != p.2)).length

/-- The frames lost before a seed (R22). -/
def framesLost (last : Option Byte) (s : Byte) : Nat :=
  match last with
  | none => 0
  | some l => (s - l).toNat - 1

/-- A counter set after one TEST frame (R22, R23). -/
def TestCounts.add (t : TestCounts) (mode : CountMode) (last : Option Byte) (payload : List Byte) :
    TestCounts :=
  let frames := countTest mode t.frames 1
  let bytes := countTest mode t.bytes payload.length
  let mism := countTest mode t.mismatched (mismatches payload)
  let lost := countTest mode t.lost (framesLost last (payload.getD 0 0#8))
  { frames := frames.1
    bytes := bytes.1
    mismatched := mism.1
    lost := lost.1
    overflow := min (t.overflow + frames.2 + bytes.2 + mism.2 + lost.2) 255 }

/-- A TEST frame handed to the checker from the port it arrived at (R22). -/
def Relay.checkTest (r : Relay) (p : LinkPort) (payload : List Byte) : Relay :=
  let k := r.checker
  let mode := r.tables.identity.countMode
  match p with
  | .upper =>
    r.setChecker
      { k with
        upper := k.upper.add mode k.upperSeed payload
        upperSeed := some (payload.getD 0 0#8) }
  | .lower =>
    r.setChecker
      { k with
        lower := k.lower.add mode k.lowerSeed payload
        lowerSeed := some (payload.getD 0 0#8) }

/-- LOCK-COUNTERS: both sets copied into the snapshot (R23). -/
def Checker.lock (k : Checker) : Checker :=
  { k with snapshot := some (k.upper, k.lower) }

/-- LOCK-AND-CLEAR: the same copy, then the live counters at 0, the last seeds kept (R23). -/
def Checker.lockAndClear (k : Checker) : Checker :=
  { k.lock with upper := TestCounts.zero, lower := TestCounts.zero }

/-! ## The generator's own command -/

/-- TEST_GAP_EXPIRY (R19). -/
def execTestGapExpiry (s : State) : Host.Outcome State Fault Refusal :=
  s.onRelay (fun r => r.whenAwake Relay.gapExpired)

end Sys2Proof.Machine
end

