-- ==== Sys2Proof/Machine/Channels.lean ====
section
/-! DEFINITION. The dispatch channels and the output lines (chapter 8). -/

namespace Sys2Proof.Machine

/-! ## Lines and cadences -/

/-- The line a channel drives (R131). -/
def Relay.lineOf (r : Relay) (c : Fin 4) : Option (Fin 4) :=
  (r.tables.bindings.get c).line

/-- A cadence's required kind is legal on a line's kind (R138, its second table). -/
def CadenceKind.legalOn (required : CadenceKind) (line : LineKind) : Bool :=
  match required with
  | .either => true
  | .siren => line == .siren
  | .beacon => line == .beacon

/-- A cadence is endless when its rounds field is 0 (R133). -/
def Cadence.endless (c : Cadence) : Bool :=
  c.rounds == 0

/-- The on and off times of a step, counted from 1 (R133). -/
def Cadence.stepAt (c : Cadence) (k : Nat) : Nat × Nat :=
  c.steps.getD (k - 1) (0, 0)

/-- The record of a cadence index that may be absent. -/
def Relay.cadenceAt (r : Relay) (i : Option (Fin 16)) : Option Cadence :=
  i.bind r.tables.cadences.get

/-- A cadence record is occupied and legal on a channel's line (R138, R143). -/
def Relay.usable (r : Relay) (c : Fin 4) (i : Fin 16) : Bool :=
  match r.tables.cadences.get i with
  | some cad => cad.kind.legalOn (r.tables.bindings.get c).kind
  | none => false

/-- The cadence at an index is endless (R133). -/
def Relay.endlessAt (r : Relay) (i : Option (Fin 16)) : Bool :=
  match r.cadenceAt i with
  | some cad => cad.endless
  | none => false

/-- The start check of a channel request (R138). -/
def Relay.startCheck (r : Relay) (c : Fin 4) (attention sustain : Option (Fin 16)) : Bool :=
  (r.lineOf c).isSome
    && (match attention with
        | some a => r.usable c a
        | none => false)
    && (match sustain with
        | some s => r.usable c s && !r.endlessAt attention
        | none => true)
    && (r.store.band != .critical || (r.tables.bindings.get c).kind == .siren)

/-! ## Segments, sensing and endings -/

/-- The sensing timer of a channel's line begins anew: it runs while the line is driven and a
load condition is present (R147). -/
def Relay.senseChannel (r : Relay) (c : Fin 4) : Relay :=
  match r.lineOf c with
  | none => r
  | some l =>
    r.setLine l
      { r.lines.get l with
        sensing :=
          if (r.channels.get c).driving && r.pins.loads.get l != .sound then
            some (r.instant + Config.sensingMs)
          else none }

/-- A channel replaced, and the sensing timer of its line with its new segment. -/
def Relay.play (r : Relay) (c : Fin 4) (ch : Channel) : Relay :=
  (r.setChannel c ch).senseChannel c

/-- The line-fault indicator of a channel's line (R148). -/
def Relay.markLine (r : Relay) (c : Fin 4) (fault : Bool) : Relay :=
  match r.lineOf c with
  | none => r
  | some l => r.setLine l { r.lines.get l with fault := fault }

/-- An abnormal ending recorded: the outcome, and abnormal-done (R142). -/
def Channel.fail (ch : Channel) (outcome : ChannelOutcome) : Channel :=
  { ch with abnormalDone := true, last := some outcome }

/-- An ending recorded with its flag (R142). -/
def Channel.record (ch : Channel) (outcome : ChannelOutcome) : Channel :=
  match outcome with
  | .done => { ch with normalDone := true, last := some .done }
  | o => ch.fail o

/-- A channel as it becomes IDLE, its pending slot, flags and last outcome as they stand
(R135, R141 step 2; log 25). -/
def Channel.toIdle (ch : Channel) : Channel :=
  { ch with
    state := .idle
    owner := none
    cadence := none
    segment := none
    segmentEnd := none
    next := none
    continueMark := false
    stop := none }

/-- A sounding ends with an outcome, and nothing is left in the pending slot (R142, R147,
R149). -/
def Relay.cutSounding (r : Relay) (c : Fin 4) (outcome : ChannelOutcome) : Relay :=
  r.play c { ((r.channels.get c).record outcome).toIdle with waiting := none }

/-! ## Starting (R138, R139) -/

/-- A sounding as it is started: attention from its first ON segment, sustain in the next slot
(R139 steps 1 to 4 and 6). -/
def Channel.startedAt (ch : Channel) (owner : Owner) (attention sustain : Option (Fin 16))
    (segmentEnd : Nat) : Channel :=
  { ch with
    state := .sounding
    owner := some owner
    cadence := attention
    step := 1
    rounds := 0
    segment := some .on
    segmentEnd := some segmentEnd
    next := sustain
    continueMark := sustain.isSome
    stop := none
    normalDone := false
    continued := false }

/-- The on time of the first step of a cadence, in ms. -/
def Relay.firstOn (r : Relay) (i : Option (Fin 16)) : Nat :=
  match r.cadenceAt i with
  | some cad => (cad.stepAt 1).1 * 100
  | none => 0

/-- A request that passed the start check is started (R139). -/
def Relay.startSounding (r : Relay) (c : Fin 4) (owner : Owner)
    (attention sustain : Option (Fin 16)) : Relay :=
  (r.markLine c false).play c
    ((r.channels.get c).startedAt owner attention sustain (r.instant + r.firstOn attention))

/-- A request that failed the start check (R138). -/
def Relay.failRequest (r : Relay) (c : Fin 4) (outcome : ChannelOutcome) : Relay :=
  r.setChannel c ((r.channels.get c).fail outcome)

/-- A request put to the check and started at a channel that is IDLE (R138, R139). -/
def Relay.startRequest (r : Relay) (c : Fin 4) (q : Request) : Relay :=
  if r.startCheck c q.attention q.sustain then
    r.startSounding c (.barrier q.barrier q.level) q.attention q.sustain
  else r.failRequest c .config

/-- The request taken out of the slot of a channel that became IDLE is started (R140, R141 step 3,
R143). -/
def Relay.startWaiting (r : Relay) (c : Fin 4) (waiting : Option Request) : Relay :=
  match waiting with
  | none => r
  | some q => r.startRequest c q

/-! ## Requests (R137, R140) -/

/-- A new request may take the pending slot (R140). -/
def Channel.admits (ch : Channel) (q : Request) : Bool :=
  match ch.waiting with
  | none => true
  | some w => decide (w.level.rank < q.level.rank) || w.barrier == q.barrier

/-- One channel's own part of a request (R138 to R140). -/
def Relay.channelRequest (r : Relay) (q : Request) (c : Fin 4) : Relay :=
  if r.startCheck c q.attention q.sustain then
    match (r.channels.get c).state with
    | .idle => r.startRequest c q
    | _ =>
      r.when ((r.channels.get c).admits q)
        (fun r => r.setChannel c { r.channels.get c with waiting := some q })
  else r.failRequest c .config

/-- The index of a barrier and level in the DISPATCH table (R134, R164). -/
def dispatchIndex (b : Fin 8) (level : Level) : Fin 32 :=
  Fin.ofNat 32 (4 * b.val + level.rank)

/-- A request of a barrier at a level: its entry is read now, and its channels are given their
parts in ascending order (R137). -/
def Relay.requestSounding (r : Relay) (b : Fin 8) (level : Level) : Relay :=
  let entry := r.tables.dispatch.get (dispatchIndex b level)
  let q : Request :=
    { barrier := b, level := level, attention := entry.attention, sustain := entry.sustain }
  ((List.finRange 4).filter (fun c => entry.channels.getLsbD c.val)).foldl
    (fun r c => r.channelRequest q c) r

/-! ## Step boundaries (R136, R140, R141, R143) -/

/-- What the pending slot does at a step boundary of a SOUNDING channel (R140). -/
inductive Takeover where
  | renewal | preemption | nothing
deriving DecidableEq, Repr

/-- The examination of the pending slot at a step boundary (R140). -/
def Channel.takeover (ch : Channel) : Takeover :=
  match ch.waiting, ch.owner with
  | some q, some (.barrier b level) =>
    if q.barrier = b then .renewal
    else if level.rank < q.level.rank then .preemption
    else .nothing
  | some _, some .test => .preemption
  | _, _ => .nothing

/-- What follows a segment (R136): another segment with its step, the rounds done and its length
in tenths, or the completion of the cadence. -/
inductive Following where
  | segment (seg : Segment) (step rounds tenths : Nat)
  | complete (rounds : Nat)
deriving DecidableEq, Repr

/-- What follows a complete round (R136). The step position of a GAP segment is 1: the rule gives none,
and this is the model's choice (log 44). -/
def Cadence.afterRound (cad : Cadence) (rounds : Nat) : Following :=
  let done := min (rounds + 1) 255
  if cad.endless = true ∨ done < cad.rounds then
    if 0 < cad.gap then .segment .gap 1 done cad.gap
    else .segment .on 1 done (cad.stepAt 1).1
  else .complete done

/-- What follows the last segment of a step (R136). -/
def Cadence.afterStep (cad : Cadence) (step rounds : Nat) : Following :=
  if step < cad.steps.length then
    .segment .on (step + 1) rounds (cad.stepAt (step + 1)).1
  else cad.afterRound rounds

/-- What follows a segment of a step (R136). -/
def Cadence.following (cad : Cadence) (seg : Segment) (step rounds : Nat) : Following :=
  match seg with
  | .on =>
    if 0 < (cad.stepAt step).2 then .segment .off step rounds (cad.stepAt step).2
    else cad.afterStep step rounds
  | .off => cad.afterStep step rounds
  | .gap => .segment .on 1 rounds (cad.stepAt 1).1

/-- A channel that ended becomes IDLE, and its waiting request is started (R141, R143). -/
def Relay.endAndTake (r : Relay) (c : Fin 4) (outcome : ChannelOutcome) : Relay :=
  (r.cutSounding c outcome).startWaiting c (r.channels.get c).waiting

/-- A renewal: the sounding ends without an outcome and without a flag, and the waiting request is
started (R140). -/
def Relay.renew (r : Relay) (c : Fin 4) : Relay :=
  let ch := r.channels.get c
  (r.play c { ch.toIdle with waiting := none }).startWaiting c ch.waiting

/-- The current cadence has completed (R143). -/
def Relay.completeCadence (r : Relay) (c : Fin 4) (boundary rounds : Nat) : Relay :=
  let ch := r.channels.get c
  let counted := r.setChannel c { ch with rounds := rounds }
  match ch.continueMark, ch.next with
  | true, some i =>
    if r.usable c i then
      r.play c
        { ch with
          cadence := some i
          step := 1
          rounds := 0
          segment := some .on
          segmentEnd := some (boundary + r.firstOn (some i))
          next := none
          continueMark := false
          continued := true }
    else counted.endAndTake c .config
  | _, _ => counted.endAndTake c .done

/-- A SOUNDING channel advances at a boundary (R136; log 36). Its current record is occupied, as
R133 refuses to empty it; were it not, the sounding would end with CONFIG. -/
def Relay.advance (r : Relay) (c : Fin 4) (boundary : Nat) : Relay :=
  let ch := r.channels.get c
  match r.cadenceAt ch.cadence, ch.segment with
  | some cad, some seg =>
    match cad.following seg ch.step ch.rounds with
    | .segment next step rounds tenths =>
      r.play c
        { ch with
          step := step
          rounds := rounds
          segment := some next
          segmentEnd := some (boundary + tenths * 100) }
    | .complete rounds => r.completeCadence c boundary rounds
  | _, _ => r.endAndTake c .config

/-- A step boundary of a channel (R136, R140, R141). -/
def Relay.stepBoundary (r : Relay) (c : Fin 4) (boundary : Nat) : Relay :=
  let ch := r.channels.get c
  match ch.state with
  | .idle => r
  | .stopping => r.endAndTake c (ch.stop.getD .levelFell).outcome
  | .sounding =>
    match ch.takeover with
    | .renewal => r.renew c
    | .preemption => r.endAndTake c .preempted
    | .nothing => r.advance c boundary

/-- The present segment of a channel ends, when relay time has reached its end (R136, log 3). -/
def Relay.segmentEnds (r : Relay) (c : Fin 4) : Relay :=
  match (r.channels.get c).segmentEnd with
  | some t => if t ≤ r.instant then r.stepBoundary c t else r
  | none => r

/-! ## Notices (R144 to R146) and the supply band (R149) -/

/-- A channel enters STOPPING from SOUNDING with a reason (R141). -/
def Channel.stopFor (ch : Channel) (reason : StopReason) : Channel :=
  { ch with state := .stopping, stop := some reason }

/-- A channel is sounding for a barrier whose request was at a level the test accepts. -/
def Channel.soundsFor (ch : Channel) (b : Fin 8) (test : Level → Bool) : Bool :=
  match ch.state, ch.owner with
  | .sounding, some (.barrier o level) => o == b && test level
  | _, _ => false

/-- A waiting request of a barrier at a level the test accepts is removed from the slot. -/
def Channel.dropWaiting (ch : Channel) (b : Fin 8) (test : Level → Bool) : Channel :=
  match ch.waiting with
  | some q => if q.barrier = b ∧ test q.level = true then { ch with waiting := none } else ch
  | none => ch

/-- The sounding of a channel is endless, by its current cadence or by the one it continues into
(R144). -/
def Relay.soundingEndless (r : Relay) (ch : Channel) : Bool :=
  r.endlessAt ch.cadence || (ch.continueMark && r.endlessAt ch.next)

/-- A notice about a barrier at one channel: it drops a waiting request at a level it names, and
stops a sounding it names. -/
def Channel.notice (ch : Channel) (b : Fin 8) (test : Level → Bool) (stops : Bool)
    (reason : StopReason) : Channel :=
  let kept := ch.dropWaiting b test
  if kept.soundsFor b test && stops then kept.stopFor reason else kept

/-- A fall notice of a barrier to a level (R144). -/
def Relay.fallNotice (r : Relay) (b : Fin 8) (level : Level) : Relay :=
  r.setChannels (r.channels.map
    (fun ch =>
      ch.notice b (fun l => decide (level.rank < l.rank)) (r.soundingEndless ch) .levelFell))

/-- A quiet notice of a barrier with its quieted level (R145). -/
def Relay.quietNotice (r : Relay) (b : Fin 8) (quieted : Level) : Relay :=
  r.setChannels (r.channels.map
    (fun ch => ch.notice b (fun l => decide (l.rank ≤ quieted.rank)) true .stoppedQuiet))

/-- A disable notice of a barrier (R146). -/
def Relay.disableNotice (r : Relay) (b : Fin 8) : Relay :=
  r.setChannels (r.channels.map (fun ch => ch.notice b (fun _ => true) true .levelFell))

/-- A channel on a BEACON line is SOUNDING or STOPPING (R149). -/
def Relay.beaconSounding (r : Relay) (c : Fin 4) : Bool :=
  (r.lineOf c).isSome && (r.tables.bindings.get c).kind == .beacon
    && (r.channels.get c).state != .idle

/-- The channels act on a new supply band (R149). -/
def Relay.bandAtChannels (r : Relay) (band : Band) : Relay :=
  r.when (band == .critical) (fun r =>
    (List.finRange 4).foldl
      (fun r c => r.when (r.beaconSounding c) (fun r => r.cutSounding c .config)) r)

/-! ## Load sensing (R147, R148) -/

/-- The sensing timers as the bindings that stand ask: one runs while its line is driven and a load
condition is present, and keeps its time where it ran before; any other is stopped (R132, R147). -/
def Relay.senseLines (r : Relay) : Relay :=
  r.setLines (Bank.ofFn (fun l =>
    let x := r.lines.get l
    { x with
      sensing :=
        if (r.driverOf l).isSome && r.pins.loads.get l != .sound then
          some (x.sensing.getD (r.instant + Config.sensingMs))
        else none }))

/-- The load condition of a line changes; the timer of a driven line begins anew (R147). The pin
changes in every condition of the part (log 30). -/
def Relay.loadChanges (r : Relay) (l : Fin 4) (condition : LoadCondition) : Relay :=
  if r.pins.loads.get l = condition then r
  else
    let r1 := r.setPins { r.pins with loads := r.pins.loads.set l condition }
    match r.driverOf l with
    | some c => r1.whenAwake (fun r => r.senseChannel c)
    | none => r1

/-- The outcome of a fault ending, by the condition present (R147). -/
def faultOutcome : LoadCondition → ChannelOutcome
  | .shortLoad => .outputShort
  | .openLoad => .outputOpen
  | .sound => .outputOpen

/-- The sensing timer of a line expires: its sounding ends at once with a fault (R147). -/
def Relay.sensingExpires (r : Relay) (l : Fin 4) : Relay :=
  match r.driverOf l with
  | some c =>
    r.when (reached (r.lines.get l).sensing r.instant)
      (fun r => (r.cutSounding c (faultOutcome (r.pins.loads.get l))).markLine c true)
  | none => r

/-! ## Manual requests (R150 to R152) -/

/-- How TEST-SOUND is answered at the channel (R150). -/
inductive SoundAnswer where
  | taken | event | busy
deriving DecidableEq, Repr

/-- TEST-SOUND at the channel (R150). -/
def Relay.testSound (r : Relay) (c : Fin 4) (cadence : Fin 16) : Relay × SoundAnswer :=
  let ch := r.channels.get c
  if 1 ≤ r.highestLevel.rank then (r, .event)
  else if ch.state ≠ .idle then (r, .busy)
  else if ch.normalDone = true ∨ ch.abnormalDone = true then
    (r.failRequest c .uncleared, .taken)
  else if r.startCheck c (some cadence) none then
    (r.startSounding c .test (some cadence) none, .taken)
  else (r.failRequest c .config, .taken)

/-- STOP-CHANNEL at the channel (R151). -/
def Relay.stopChannel (r : Relay) (c : Fin 4) : Relay :=
  let ch := r.channels.get c
  if ch.state = .idle then r
  else r.setChannel c { ch.stopFor .stoppedMgmt with waiting := none }

/-- CLEAR of channel flags (R152). -/
def Relay.clearChannelFlags (r : Relay) : Relay :=
  r.setChannels (r.channels.map
    (fun ch => { ch with normalDone := false, abnormalDone := false, continued := false }))

/-! ## The commands of chapter 8 -/

/-- STEP_BOUNDARY (R136). -/
def execStepBoundary (c : Fin 4) (s : State) : Host.Outcome State Fault Refusal :=
  s.onRelay (fun r => r.whenAwake (fun r => r.segmentEnds c))

/-- LOAD_CONDITION_CHANGE (R147). -/
def execLoadConditionChange (l : Fin 4) (condition : LoadCondition) (s : State) :
    Host.Outcome State Fault Refusal :=
  s.onRelay (fun r => r.loadChanges l condition)

/-- SENSING_TIMER_EXPIRY (R147). -/
def execSensingTimerExpiry (l : Fin 4) (s : State) : Host.Outcome State Fault Refusal :=
  s.onRelay (fun r => r.whenAwake (fun r => r.sensingExpires l))

end Sys2Proof.Machine
end

