-- ==== Sys2Proof/Machine/Alerts.lean ====
section
/-! DEFINITION. The alert emitter (chapter 7): building and repeating ALERT frames, and QUIET. The
feeder updates of section 7.5 stand in Levels.lean, as they evaluate barriers. -/

namespace Sys2Proof.Machine

/-! ## Building an ALERT (R120, R121) -/

/-- The payload of an ALERT for a barrier as its record stands (R120, R197). -/
def alertPayload (b : Fin 8) (d : BarrierDyn) (now : Nat) : List Byte :=
  byte b.val :: byte d.level.rank :: be2 d.measures.fill ++ rateBytes d.measures.rate
    ++ be2 d.measures.ttf ++ alertFlags d :: be3 d.serial ++ be4 now
    ++ byte d.causes.length :: d.causes.map (fun c => byte c.code)

/-- The alert serial goes up by one, and stays at its maximum (R121). -/
def BarrierDyn.nextSerial (d : BarrierDyn) : BarrierDyn :=
  { d with serial := min (d.serial + 1) Config.maxSerial }

/-- An ALERT for a barrier is built and offered to the urgent queue (R120 to R122). -/
def Relay.buildAlert (r : Relay) (b : Fin 8) : Relay :=
  let d := (r.barriers.get b).nextSerial
  let r1 := r.setBarrier b d
  (r1.offerOwn .urgent
    (r1.ownFrame .alert true r1.hopBudget r1.hubTarget (alertPayload b d r1.now)) .other).1

/-- The repeat interval of a level; CALM has none (R117, R122). -/
def Relay.repeatInterval (r : Relay) : Level → Option Nat
  | .calm => none
  | .watch => some r.tables.identity.repeatWatch
  | .warn => some r.tables.identity.repeatWarn
  | .evacuate => some r.tables.identity.repeatEvacuate

/-- The repeat deadline is set for a barrier's present level, or made absent at CALM (R122). -/
def Relay.restartRepeat (r : Relay) (b : Fin 8) : Relay :=
  let d := r.barriers.get b
  r.setBarrier b { d with repeatAt := (r.repeatInterval d.level).map (fun i => r.now + i) }

/-- The alert emitter is told of a change of a barrier's level (R122). -/
def Relay.toldOfChange (r : Relay) (b : Fin 8) : Relay :=
  (r.buildAlert b).restartRepeat b

/-- A quieted level withholds the soundings of a level at or below it (R111, R123, R129). -/
def BarrierDyn.quietFor (d : BarrierDyn) (level : Level) : Bool :=
  match d.quieted with
  | some q => decide (level.rank ≤ q.rank)
  | none => false

/-- A barrier's entry is requested at a level, unless the quieted level withholds it (R111,
R123). -/
def Relay.requestUnlessQuieted (r : Relay) (b : Fin 8) (level : Level) : Relay :=
  if (r.barriers.get b).quietFor level then r else r.requestSounding b level

/-- The repeat deadline of a barrier expires (R123). -/
def Relay.repeatExpires (r : Relay) (b : Fin 8) : Relay :=
  if reached (r.barriers.get b).repeatAt r.now then
    let r1 := (r.buildAlert b).restartRepeat b
    r1.requestUnlessQuieted b (r1.barriers.get b).level
  else r

/-! ## QUIET (R127, R128) -/

/-- A barrier is quieted with a named level (R128). -/
def Relay.quietBarrier (r : Relay) (b : Fin 8) (q : Level) : Relay :=
  let d := r.barriers.get b
  let standing := match d.quieted with
    | none => q
    | some old => old.max q
  (r.setBarrier b { d with quieted := some standing }).quietNotice b standing

/-- The barriers an index names in a QUIET: one, or all eight for 255 (R127). -/
def quietNames (index : Nat) : List (Fin 8) :=
  if index = 255 then List.finRange 8 else (finOf 8 index).toList

/-- The origin of a management frame is authorised by the manager address (R127, R165). -/
def Relay.authorised (r : Relay) (origin : Addr) : Bool :=
  match r.tables.identity.manager with
  | none => true
  | some m => m == origin

/-- A QUIET that is not acted on is counted (R127). -/
def Relay.quietNotActed (r : Relay) : Relay :=
  r.setEmitter { r.emitter with quietNotActed := bump r.emitter.quietNotActed }

/-- A QUIET of a good frame check: the named barriers at WATCH or higher are quieted in ascending
order, and the frame is counted (R127 steps 3 and 4). -/
def Relay.quietNamed (r : Relay) (names : List (Fin 8)) (q : Level) : Relay :=
  let hit := names.filter (fun b => decide (1 ≤ (r.barriers.get b).level.rank))
  if hit.isEmpty then r.quietNotActed
  else
    let r1 := hit.foldl (fun r b => r.quietBarrier b q) r
    r1.setEmitter { r1.emitter with quietActed := bump r1.emitter.quietActed }

/-- A QUIET is judged (R127). -/
def Relay.judgeQuiet (r : Relay) (origin : Addr) (payload : List Byte) : Relay :=
  let relay := pairAt payload 0
  let index := byteAt payload 2
  if relay ≠ r.store.own.toNat ∧ relay ≠ 4095 then r
  else
    match Level.ofCode (byteAt payload 3) with
    | some q =>
      if r.authorised origin = true ∧ (index < 8 ∨ index = 255) ∧ q ≠ .calm then
        r.quietNamed (quietNames index) q
      else r.quietNotActed
    | none => r.quietNotActed

/-! ## The command of chapter 7 -/

/-- REPEAT_EXPIRY (R123). -/
def execRepeatExpiry (b : Fin 8) (s : State) : Host.Outcome State Fault Refusal :=
  s.onRelay (fun r => r.whenAwake (fun r => r.repeatExpires b))

end Sys2Proof.Machine
end

