-- ==== Sys2Proof/Machine/Levels.lean ====
section
/-! DEFINITION. The level assessor (chapter 6): the twelve conditions, evaluation, the latches,
stand-down, hand-over, writes of a barrier record and the start evaluation; and the feeder updates
of section 7.5. -/

namespace Sys2Proof.Machine

/-! ## Conditions (R95, R96) -/

/-- A level where a test holds, and none (CALM) where it does not. -/
def demand (holds : Bool) (level : Level) : Level :=
  if holds then level else .calm

/-- The largest contribution still counting: the value of the oldest entry (R87). -/
def peak (entries : List Contribution) : Option Nat :=
  entries.head?.map Contribution.value

/-- A threshold that is on is met by a value, where one is present (R95). -/
def meets (threshold : Nat) (value : Option Nat) : Bool :=
  match value with
  | some v => threshold != 0 && decide (threshold ≤ v)
  | none => false

/-- A fill threshold is met, with a hysteresis of 0 for the demand and the record's own for the
sustain bound, which is at least 1 (R95, R96). -/
def fillMeets (threshold hysteresis fill : Nat) : Bool :=
  threshold != 0 && decide (max 1 (threshold - hysteresis) ≤ fill)

/-- RATE is met (R95). -/
def rateMeets (threshold : Nat) (rate : Option Int) : Bool :=
  match rate with
  | some v => threshold != 0 && decide ((threshold : Int) ≤ v)
  | none => false

/-- The level one cause demands of a barrier, or sustains with its hysteresis (R95, R96). `lost` is
the signal upper line lost. -/
def BarrierDyn.calls (d : BarrierDyn) (c : BarrierConfig) (lost : Bool) (hysteresis : Nat) :
    Cause → Level
  | .fill =>
    ((demand (fillMeets c.watchFill hysteresis d.measures.fill) .watch).max
      (demand (fillMeets c.warnFill hysteresis d.measures.fill) .warn)).max
        (demand (fillMeets c.fullFill hysteresis d.measures.fill) .evacuate)
  | .rate => demand (rateMeets c.rateWatch d.measures.rate) .watch
  | .ttf => demand (c.ttfWarn != 0 && decide (d.measures.ttf ≤ c.ttfWarn)) .warn
  | .shake =>
    (demand (meets c.shakeWatch (peak d.measures.shake)) .watch).max
      (demand (meets c.shakeWarn (peak d.measures.shake)) .warn)
  | .rain => demand (meets c.rainWatch (peak d.measures.rain)) .watch
  | .inflowWire =>
    demand d.inflowBroken (if d.measures.sight = .blind then .evacuate else .warn)
  | .overflowWire => demand d.overflowBroken .evacuate
  | .feeder =>
    match d.feeder with
    | some (.warn, _) => .watch
    | some (.evacuate, _) => .warn
    | some (.watch, _) => .calm
    | some (.calm, _) => .calm
    | none => .calm
  | .lineLost =>
    match d.lineBase with
    | some base => demand (c.lineWatched && lost) (if base = .calm then .watch else .warn)
    | none => .calm
  | .gaugeLost => demand d.gaugeLost .warn
  | .manual => demand d.manual .evacuate
  | .blind =>
    (demand (c.blindEvidence && d.measures.sight == .blind) .watch).max
      (demand (d.inflowBroken && d.measures.sight == .blind) .evacuate)

/-- The highest level called for by any cause (R95, R96). -/
def BarrierDyn.highestCall (d : BarrierDyn) (c : BarrierConfig) (lost : Bool)
    (hysteresis : Nat) : Level :=
  Cause.all.foldl (fun top cause => top.max (d.calls c lost hysteresis cause)) .calm

/-- The demanded level (R95). -/
def BarrierDyn.demanded (d : BarrierDyn) (c : BarrierConfig) (lost : Bool) : Level :=
  d.highestCall c lost 0

/-- The sustained level (R96). -/
def BarrierDyn.sustained (d : BarrierDyn) (c : BarrierConfig) (lost : Bool) : Level :=
  d.highestCall c lost c.hysteresis

/-! ## Evaluation (R97, R99, R108) -/

/-- The line-loss base brought up to date, with the level at the start of the event (R108). -/
def BarrierDyn.withBase (d : BarrierDyn) (c : BarrierConfig) (lost : Bool) (start : Level) :
    BarrierDyn :=
  { d with
    lineBase :=
      if c.lineWatched && lost then some (d.lineBase.getD start)
      else none }

/-- Rise and hold (R99 steps 3 and 4). -/
def BarrierDyn.settle (d : BarrierDyn) (c : BarrierConfig) (demanded sustained : Level)
    (now : Nat) : BarrierDyn :=
  if d.level.rank < demanded.rank then { d with level := demanded, hold := none }
  else if d.level.rank ≤ sustained.rank then { d with hold := none }
  else if d.level ≠ .evacuate ∧ d.hold = none then { d with hold := some (now + c.holdTime) }
  else d

/-- The cause set at a resulting level (R97). -/
def BarrierDyn.causeSet (d : BarrierDyn) (c : BarrierConfig) (lost : Bool) (level : Level) :
    List Cause :=
  if level = .calm then []
  else
    Cause.all.filter (fun cause =>
      decide (level.rank ≤ (d.calls c lost 0 cause).rank)
        || decide (level.rank ≤ (d.calls c lost c.hysteresis cause).rank))

/-- Steps 1 to 5 of an evaluation of a barrier record (R99). -/
def BarrierDyn.weigh (d : BarrierDyn) (c : BarrierConfig) (lost : Bool) (now : Nat)
    (start : Level) : BarrierDyn :=
  let d1 := d.withBase c lost start
  let d2 := d1.settle c (d1.demanded c lost) (d1.sustained c lost) now
  { d2 with causes := d1.causeSet c lost d2.level }

/-- Steps 1 to 5 of R99 at a barrier, with the level at the start of the event (R108). -/
def Relay.weighBarrier (r : Relay) (b : Fin 8) (start : Level) : Relay :=
  r.setBarrier b
    ((r.barriers.get b).weigh (r.tables.barriers.get b) r.lineLoss.lost r.now start)

/-! ## Hand-over of a change (R110, R111) -/

/-- What falls away at CALM (R110 step 1). -/
def BarrierDyn.atCalm (d : BarrierDyn) : BarrierDyn :=
  if d.level = .calm then { d with gaugeLost := false, quieted := none } else d

/-- The requests and notices a change hands to the dispatch channels (R111). -/
def Relay.soundChange (r : Relay) (b : Fin 8) (old new : Level) : Relay :=
  if old.rank < new.rank then r.requestUnlessQuieted b new
  else if new = .calm then (r.fallNotice b .calm).requestSounding b .calm
  else r.fallNotice b new

/-- A change is handed on (R110). -/
def Relay.handChange (r : Relay) (b : Fin 8) (old new : Level) : Relay :=
  (((r.setBarrier b (r.barriers.get b).atCalm).toldOfChange b).soundChange b old new).when
    (decide (1 ≤ new.rank)) Relay.preemptTest

/-- The hand-over of an event at a barrier, where it changed the level (R99 step 6). -/
def Relay.handOver (r : Relay) (b : Fin 8) (old : Level) : Relay :=
  let new := (r.barriers.get b).level
  if new = old then r else r.handChange b old new

/-- An assessed barrier is evaluated (R98, R99); any other is not (R94). -/
def Relay.evaluate (r : Relay) (b : Fin 8) : Relay :=
  if r.assessed b then
    (r.weighBarrier b (r.barriers.get b).level).handOver b (r.barriers.get b).level
  else r

/-- The field reset falls at this moment: the key timer has run out (R161). -/
def Relay.resetFalls (r : Relay) : Bool :=
  r.key.state == .timing && reached r.key.timer r.instant

/-- The hold deadline of a barrier expires (R100); at the moment of a field reset that has no effect
(R102; log 47). -/
def Relay.holdExpires (r : Relay) (b : Fin 8) : Relay :=
  let d := r.barriers.get b
  if r.assessed b && reached d.hold r.now && !r.resetFalls then
    ((r.setBarrier b { d with hold := none, level := d.level.stepDown }).weighBarrier b
      d.level).handOver b d.level
  else r

/-! ## Latches (R103 to R105) -/

/-- The latch of a position is BROKEN. -/
def BarrierDyn.wireBroken (d : BarrierDyn) : WirePosition → Bool
  | .inflow => d.inflowBroken
  | .overflow => d.overflowBroken

/-- The latch of a position set. -/
def BarrierDyn.setWire (d : BarrierDyn) (p : WirePosition) (broken : Bool) : BarrierDyn :=
  match p with
  | .inflow => { d with inflowBroken := broken }
  | .overflow => { d with overflowBroken := broken }

/-- A wire break is delivered (R103). -/
def Relay.deliverBreak (r : Relay) (b : Fin 8) (p : WirePosition) : Relay :=
  if r.assessed b && !(r.barriers.get b).wireBroken p then
    (r.setBarrier b ((r.barriers.get b).setWire p true)).evaluate b
  else r

/-- A manual alarm is delivered (R105). -/
def Relay.deliverManual (r : Relay) (b : Fin 8) : Relay :=
  if r.assessed b && !(r.barriers.get b).manual then
    (r.setBarrier b { r.barriers.get b with manual := true }).evaluate b
  else r

/-- A contact input of a function is TRIPPED (R104, R109). -/
def Relay.inputTripped (r : Relay) (f : InputFunction) : Bool :=
  (List.finRange 8).any
    (fun i => (r.tables.inputs.get i).function == f && (r.inputs.get i).state == .tripped)

/-- The input function of a wire position at a barrier (R155). -/
def WirePosition.input (p : WirePosition) (b : Fin 8) : InputFunction :=
  match p with
  | .inflow => .inflowWire b
  | .overflow => .overflowWire b

/-- REARM-WIRE at a barrier: true when it is accepted (R104). -/
def Relay.rearmWire (r : Relay) (b : Fin 8) (p : WirePosition) : Relay × Bool :=
  if r.inputTripped (p.input b) then (r, false)
  else if r.assessed b then
    ((r.setBarrier b ((r.barriers.get b).setWire p false)).evaluate b, true)
  else (r, true)

/-! ## Stand-down (R109) -/

/-- How STAND-DOWN is decided (R109). -/
inductive StandDownAnswer where
  | accepted | notLatched | stillDemanded
deriving DecidableEq, Repr

/-- The effects of an accepted STAND-DOWN (R109; log 27). -/
def Relay.acceptStandDown (r : Relay) (b : Fin 8) : Relay :=
  let d := r.barriers.get b
  ((r.setBarrier b
      { d with
        level := .watch
        hold := some (r.now + (r.tables.barriers.get b).holdTime)
        quieted := none
        manual := false }).weighBarrier b d.level).handOver b d.level

/-- The manual latch as STAND-DOWN weighs it: taken as clear, unless a manual input of the barrier
is TRIPPED (R109; log 28). -/
def Relay.manualHeld (r : Relay) (b : Fin 8) : Bool :=
  r.inputTripped (.manualAlarm b)

/-- STAND-DOWN of a barrier (R109). -/
def Relay.standDown (r : Relay) (b : Fin 8) : Relay × StandDownAnswer :=
  let d := r.barriers.get b
  if d.level ≠ .evacuate then (r, .notLatched)
  else if ({ d with manual := r.manualHeld b } : BarrierDyn).demanded (r.tables.barriers.get b)
      r.lineLoss.lost = .evacuate then (r, .stillDemanded)
  else (r.acceptStandDown b, .accepted)

/-! ## Writing a barrier record (R107, R112, R113) -/

/-- A barrier's fields when it is disabled in ASSESSING mode (R113). -/
def BarrierDyn.disabled (d : BarrierDyn) : BarrierDyn :=
  { d with
    level := .calm
    hold := none
    lineBase := none
    causes := []
    gaugeLost := false
    quieted := none }

/-- A barrier's fields after a write, before its evaluation: a changed feeder (R107, R112 step 1),
the gauge-loss option left clear (R106, R112 step 2), the disabling (R113). -/
def BarrierDyn.written (d : BarrierDyn) (old new : BarrierConfig) (off : Bool) : BarrierDyn :=
  let d1 := if old.feeder = new.feeder then d else { d with feeder := none }
  let d2 := if new.gaugeLoss then d1 else { d1 with gaugeLost := false }
  if off then d2.disabled else d2

/-- The notice and the ALERT of a disabling, from the level before it (R113). -/
def Relay.announceDisabled (r : Relay) (b : Fin 8) (old : Level) : Relay :=
  (r.disableNotice b).when (old == .watch) (fun r => r.toldOfChange b)

/-- An accepted write of a barrier record (R112). In OPEN-LINE mode nothing is disabled or
evaluated (R113). -/
def Relay.writeBarrier (r : Relay) (b : Fin 8) (new : BarrierConfig) : Relay :=
  let old := r.tables.barriers.get b
  let d := r.barriers.get b
  let off := old.enabled && !new.enabled && r.store.mode == .assessing
  (((r.setTables { r.tables with barriers := r.tables.barriers.set b new }).setBarrier b
    (d.written old new off)).when off (fun r => r.announceDisabled b d.level)).evaluate b

/-! ## Start evaluation (R115) -/

/-- The start evaluation of one barrier: a barrier kept at EVACUATE is announced again (R115). -/
def Relay.startBarrier (r : Relay) (b : Fin 8) : Relay :=
  let kept := (r.barriers.get b).level == .evacuate
  let r1 := r.evaluate b
  r1.when (kept && r.assessed b)
    (fun r => ((r.toldOfChange b).requestUnlessQuieted b .evacuate).preemptTest)

/-- The start evaluation of barriers 0 to 7 in turn (R115). -/
def Relay.startEvaluation (r : Relay) : Relay :=
  (List.finRange 8).foldl (fun r b => r.startBarrier b) r

/-! ## Upper line lost (R17) and the feeders (R69, R125, R126) -/

/-- The signal upper line lost is set and delivered to every line-watched barrier, in ascending
order (R17, R98; log 17). -/
def Relay.setLineLost (r : Relay) (lost : Bool) : Relay :=
  let r1 := r.setLineLoss { r.lineLoss with lost := lost }
  (List.finRange 8).foldl
    (fun r b => r.when (r.tables.barriers.get b).lineWatched (fun r => r.evaluate b)) r1

/-- One matching barrier takes a feeder level (R125). -/
def Relay.feedBarrier (r : Relay) (b : Fin 8) (v : Level) : Relay :=
  let d := r.barriers.get b
  let same := match d.feeder with
    | some (held, _) => held == v
    | none => false
  let r1 := r.setBarrier b { d with feeder := some (v, false) }
  if same then r1 else r1.evaluate b

/-- The feeder update of an accepted ALERT from a RELAY station (R125, R126). -/
def Relay.feederUpdate (r : Relay) (origin : Addr) (payload : List Byte) : Relay :=
  match finOf 8 (byteAt payload 0), Level.ofCode (byteAt payload 1) with
  | some k, some v =>
    (List.finRange 8).foldl
      (fun r b =>
        r.when ((r.tables.barriers.get b).feeder == some (origin, k)) (fun r => r.feedBarrier b v)) r
  | _, _ => r

/-- A RELAY station goes SILENT: the feeder levels that name it become stale (R69). -/
def Relay.feederSilent (r : Relay) (address : Addr) : Relay :=
  r.setBarriers (Bank.ofFn (fun b =>
    let d := r.barriers.get b
    if (r.tables.barriers.get b).feeder.map Prod.fst = some address then
      { d with feeder := d.feeder.map (fun f => (f.1, true)) }
    else d))

/-! ## The command of chapter 6 -/

/-- HOLD_EXPIRY (R100). -/
def execHoldExpiry (b : Fin 8) (s : State) : Host.Outcome State Fault Refusal :=
  s.onRelay (fun r => r.whenAwake (fun r => r.holdExpires b))

end Sys2Proof.Machine
end

