-- ==== Sys2Proof/Machine/Fill.lean ====
section
/-! DEFINITION. The fill arithmetic (chapter 5): fills and windows, sighting, the recompute of a
barrier's measures, and the shake and rain contributions. -/

namespace Sys2Proof.Machine

/-! ## One gauge (R73, R74, R76) -/

/-- The fill of a distance, with the empty and full ranges of the calibration (R73). -/
def fillOf (emptyRange fullRange distance : Nat) : Nat :=
  if emptyRange ≤ distance then 0
  else min Config.maxFill (1000 * (emptyRange - distance) / (emptyRange - fullRange))

/-- A fill enters a window, which keeps its last three (R74). -/
def pushFill (window : List Nat) (fill : Nat) : List Nat :=
  (window ++ [fill]).drop (window.length + 1 - 3)

/-- The smoothed fill of a window (R74). -/
def smoothedOf : List Nat → Option Nat
  | [] => none
  | [a] => some a
  | [a, b] => some (min a b)
  | a :: b :: c :: _ => some (max (min a b) (min (max a b) c))

/-- The quality of the last reading allows sighting: it is present and not FAULT (R76). -/
def StationDyn.readable (d : StationDyn) : Bool :=
  match d.lastReading with
  | some reading => reading.2 != .fault
  | none => false

/-- The state of a gauge allows sighting (R76; log 20). -/
def StationDyn.hearable (d : StationDyn) : Bool :=
  match d.state with
  | .live => true
  | .late => d.heard
  | .unheard => false
  | .silent => false

/-- A gauge is sighting (R76). -/
def StationDyn.sighting (d : StationDyn) : Bool :=
  d.hearable && d.smoothed.isSome && d.readable

/-- The barrier a station record gauges: its barrier field where its role is GAUGE (R78). -/
def gaugeBarrier : Option StationConfig → Option (Fin 8)
  | some { role := .gauge b _ _, .. } => some b
  | _ => none

/-! ## The recompute (R78, R80) -/

/-- The gauges of a barrier, in index order (R78). -/
def Relay.gaugesOf (r : Relay) (b : Fin 8) : List (Fin 48) :=
  (List.finRange 48).filter (fun i => gaugeBarrier (r.tables.stations.get i) == some b)

/-- The sighting gauge with the largest smoothed fill, the lowest index among equals (R78). -/
def Relay.bestGauge (r : Relay) (b : Fin 8) : Option (Fin 48 × Nat) :=
  (r.gaugesOf b).foldl
    (fun best i =>
      let d := r.stations.get i
      match d.sighting, d.smoothed, best with
      | true, some f, none => some (i, f)
      | true, some f, some (j, g) => if g < f then some (i, f) else some (j, g)
      | _, _, _ => best) none

/-- Fill, held, sight and source from the gauges, and what a loss of sight takes away (R78,
R80). -/
def Measures.look (m : Measures) (gauged : Bool) (best : Option (Fin 48 × Nat)) : Measures :=
  match best with
  | some (i, f) => { m with fill := f, held := false, sight := .sighted, source := some i }
  | none =>
    if gauged then
      { m with held := true, sight := .blind, source := none, anchor := none, rate := none }
    else
      { m with
        fill := 0
        held := false
        sight := .ungauged
        source := none
        anchor := none
        rate := none }

/-! ## Rate and time to full (R82 to R85) -/

/-- A rate within its range (R84). -/
def clampRate (x : Int) : Int :=
  max (-999) (min 999 x)

/-- The anchor moved to the present point, where there is a source (R83, R84). -/
def Measures.reanchor (m : Measures) (t : Nat) : Measures :=
  { m with anchor := m.source.map (fun s => { fill := m.fill, time := t, source := s }) }

/-- The rate between the anchor and the present point: truncated toward zero, and clamped
(R84). -/
def rateBetween (a : Anchor) (fill t : Nat) : Int :=
  clampRate (Int.tdiv (((fill : Int) - a.fill) * 60) ((t : Int) - a.time))

/-- The rate step at a sample time, with the barrier's rate window (R83, R84). -/
def Measures.rateStep (m : Measures) (t window : Nat) : Measures :=
  match m.anchor with
  | none => m.reanchor t
  | some a =>
    if m.source ≠ some a.source then m.reanchor t
    else if t < a.time + 60 then m
    else
      let m1 := { m with rate := some (rateBetween a m.fill t) }
      if a.time + window ≤ t then m1.reanchor t else m1

/-- The time to full of a fill and rate (R85). -/
def timeToFull (fill : Nat) (rate : Option Int) : Nat :=
  match rate with
  | none => Config.noTime
  | some v =>
    if v ≤ 0 then Config.noTime
    else if 1000 ≤ fill then 0
    else min 65534 ((1000 - fill + v.toNat - 1) / v.toNat)

/-- The rate step where it is called for: a reading-driven recompute by an advancing reading, whose
sample time is given, that left the barrier SIGHTED (R82). -/
def Measures.stepIfCalled (m : Measures) (advancing : Option Nat) (window : Nat) : Measures :=
  match advancing with
  | some t => if m.sight = .sighted then m.rateStep t window else m
  | none => m

/-- A recompute's new measures (R78 to R85). -/
def Measures.recompute (m : Measures) (gauged : Bool) (best : Option (Fin 48 × Nat))
    (advancing : Option Nat) (window : Nat) : Measures :=
  let m1 := (m.look gauged best).stepIfCalled advancing window
  { m1 with ttf := timeToFull m1.fill m1.rate }

/-- A barrier's measures replaced. -/
def Relay.setMeasures (r : Relay) (b : Fin 8) (m : Measures) : Relay :=
  r.setBarrier b { r.barriers.get b with measures := m }

/-- A recompute of a barrier, without its evaluation (R78). -/
def Relay.recompute (r : Relay) (b : Fin 8) (advancing : Option Nat) : Relay :=
  r.setMeasures b
    ((r.barriers.get b).measures.recompute (!(r.gaugesOf b).isEmpty) (r.bestGauge b) advancing
      (r.tables.barriers.get b).rateWindow)

/-- A recompute handed to the level assessor (R79). -/
def Relay.remeasure (r : Relay) (b : Fin 8) (advancing : Option Nat) : Relay :=
  (r.recompute b advancing).evaluate b

/-- The start recompute of every barrier, from its starting values (R81). -/
def Relay.startRecompute (r : Relay) : Relay :=
  (List.finRange 8).foldl (fun r b => (r.setMeasures b Measures.start).recompute b none) r

/-! ## Contributions (R86 to R90) -/

/-- The list of a kind of evidence (section 5.7). -/
def Measures.entries (m : Measures) : Evidence → List Contribution
  | .shake => m.shake
  | .rain => m.rain

/-- The list of a kind of evidence replaced. -/
def Measures.setEntries (m : Measures) (k : Evidence) (xs : List Contribution) : Measures :=
  match k with
  | .shake => { m with shake := xs }
  | .rain => { m with rain := xs }

/-- The expiry time of a value: its oldest entry's sample time plus the evidence life (R87). -/
def expiryOf (life : Nat) (entries : List Contribution) : Option Nat :=
  entries.head?.map (fun e => e.time + life)

/-- A contribution is outranked by an entry that is no older and no smaller (R88 step 2). -/
def outranked (entries : List Contribution) (c : Contribution) : Bool :=
  entries.any (fun e => decide (c.time ≤ e.time) && decide (c.value ≤ e.value))

/-- A contribution placed by its sample time, with the entries it outranks removed (R88 step 3). -/
def placed (entries : List Contribution) (c : Contribution) : List Contribution :=
  let kept := entries.filter (fun e => !(decide (e.time ≤ c.time) && decide (e.value ≤ c.value)))
  kept.filter (fun e => decide (e.time < c.time))
    ++ c :: kept.filter (fun e => !decide (e.time < c.time))

/-- The distances in time between neighbouring entries (R89). -/
def spacings (entries : List Contribution) : List Nat :=
  List.zipWith (fun a b => b.time - a.time) entries entries.tail

/-- Two neighbours merged: the value of the older with the time of the younger (R89). -/
def mergeAt (entries : List Contribution) (i : Nat) : List Contribution :=
  match entries.drop i with
  | a :: b :: rest => entries.take i ++ { value := a.value, time := b.time } :: rest
  | _ => entries

/-- The closest neighbours merged, the oldest pair among equals (R89). -/
def mergeClosest (entries : List Contribution) : List Contribution :=
  match (spacings entries).min? with
  | some d => mergeAt entries ((spacings entries).idxOf d)
  | none => entries

/-- A contribution list after a contribution (R88, R89). -/
def contribute (entries : List Contribution) (c : Contribution) (life now : Nat) :
    List Contribution :=
  if c.time + life ≤ now then entries
  else if outranked entries c then entries
  else
    let xs := placed entries c
    if Config.contributionCap < xs.length then mergeClosest xs else xs

/-- A barrier's contribution list replaced; where its value changed, the barrier is evaluated
(R86, R88, R90). -/
def Relay.setEvidence (r : Relay) (b : Fin 8) (k : Evidence) (xs : List Contribution) : Relay :=
  let m := (r.barriers.get b).measures
  let r1 := r.setMeasures b (m.setEntries k xs)
  if peak xs = peak (m.entries k) then r1 else r1.evaluate b

/-- A contribution is handed over for a barrier (R88). -/
def Relay.contributeTo (r : Relay) (b : Fin 8) (k : Evidence) (c : Contribution) : Relay :=
  r.setEvidence b k
    (contribute ((r.barriers.get b).measures.entries k) c r.tables.identity.evidenceLife r.now)

/-- The shake or rain value of a barrier reaches its expiry time: the oldest entry goes and the
barrier is evaluated (R90). -/
def Relay.evidenceExpires (r : Relay) (b : Fin 8) (k : Evidence) : Relay :=
  let m := (r.barriers.get b).measures
  if reached (expiryOf r.tables.identity.evidenceLife (m.entries k)) r.now then
    (r.setMeasures b (m.setEntries k (m.entries k).tail)).evaluate b
  else r

/-- The entries of a list still counting under a life (R86). -/
def stillCounting (life now : Nat) (entries : List Contribution) : List Contribution :=
  entries.filter (fun e => decide (now < e.time + life))

/-- Every list of every barrier trimmed to a life (R86). -/
def Relay.trimEvidence (r : Relay) (life : Nat) : Relay :=
  r.setBarriers (r.barriers.map (fun d =>
    { d with
      measures :=
        { d.measures with
          shake := stillCounting life r.now d.measures.shake
          rain := stillCounting life r.now d.measures.rain } }))

/-- An accepted write of the evidence life: the lists are trimmed, and each barrier is evaluated
once for each value that changed (R86; order: log 17). -/
def Relay.changeLife (r : Relay) (life : Nat) : Relay :=
  let trimmed := r.trimEvidence life
  (List.finRange 8).foldl
    (fun acc b =>
      let before := (r.barriers.get b).measures
      let after := (trimmed.barriers.get b).measures
      (acc.when (peak after.shake != peak before.shake) (fun r => r.evaluate b)).when
        (peak after.rain != peak before.rain) (fun r => r.evaluate b)) trimmed

/-! ## The command of chapter 5 -/

/-- SHAKE_EXPIRY, for the shake list or, in the same words, the rain list (R90, section 5.7). -/
def execShakeExpiry (b : Fin 8) (k : Evidence) (s : State) : Host.Outcome State Fault Refusal :=
  s.onRelay (fun r => r.whenAwake (fun r => r.evidenceExpires b k))

end Sys2Proof.Machine
end

