-- ==== Sys2Proof/Machine/Stations.lean ====
section
/-! DEFINITION. The station table and the silence monitor (chapters 3 and 4). -/

namespace Sys2Proof.Machine

/-! ## Watching and starting (R61, R63, R64) -/

/-- The deadline from a hearing or a start at a time: report interval and grace later, absent for a
station that is not watched (R61, R63, R65). A sum beyond the largest relay time is kept as it is, and
then never reached: the model's choice (log 43). -/
def StationConfig.deadlineFrom (c : StationConfig) (grace now : Nat) : Option Nat :=
  if c.interval = 0 then none else some (now + c.interval + grace * c.interval / 100)

/-- A record started by the silence monitor (R63). -/
def StationDyn.started (d : StationDyn) (deadline : Option Nat) : StationDyn :=
  { d with state := .unheard, misses := 0, deadline := deadline, heard := false }

/-- The deadline a start gives: none while the monitor is at rest (R63, R64). -/
def Relay.startDeadline (r : Relay) (c : StationConfig) : Option Nat :=
  if r.store.mode = .assessing then c.deadlineFrom r.tables.identity.grace r.now else none

/-- Every occupied record is started from its starting values; an empty one holds nothing (R47,
R63, R64). -/
def Relay.startStations (r : Relay) : Relay :=
  r.setStations (Bank.ofFn (fun i =>
    match r.tables.stations.get i with
    | some c => StationDyn.start.started (r.startDeadline c)
    | none => StationDyn.start))

/-! ## Hearing (R65, R71) -/

/-- A record after the notice of an accepted frame (R65, R71). -/
def StationDyn.hear (d : StationDyn) (deadline : Option Nat) : StationDyn :=
  { d with
    state := .live
    misses := 0
    deadline := deadline
    heard := true
    counters :=
      { d.counters with
        returns := if d.state = .silent then bump d.counters.returns else d.counters.returns } }

/-- A station record replaced; where that changes a gauge's sighting, its barrier is recomputed,
sighting-driven (R76, R79). -/
def Relay.setSighting (r : Relay) (i : Fin 48) (d : StationDyn) : Relay :=
  let r1 := r.setStation i d
  match gaugeBarrier (r.tables.stations.get i) with
  | some b =>
    if d.sighting = (r.stations.get i).sighting then r1 else r1.remeasure b none
  | none => r1

/-- The silence monitor is notified of an arrival (R65). -/
def Relay.hearStation (r : Relay) (i : Fin 48) (c : StationConfig) : Relay :=
  r.setSighting i ((r.stations.get i).hear (c.deadlineFrom r.tables.identity.grace r.now))

/-! ## Missing and going silent (R66, R68 to R70) -/

/-- A record after a missed deadline that leaves it LATE (R66). -/
def StationDyn.late (d : StationDyn) (interval : Nat) : StationDyn :=
  { d with
    state := .late
    misses := d.misses + 1
    deadline := d.deadline.map (fun t => t + interval) }

/-- A record after its third missed deadline (R66). -/
def StationDyn.silenced (d : StationDyn) : StationDyn :=
  { d with state := .silent, misses := 3, deadline := none }

/-- The fill window emptied and the smoothed fill absent (R75). -/
def StationDyn.emptyWindow (d : StationDyn) : StationDyn :=
  { d with window := [], smoothed := none }

/-- A gauge of a barrier goes SILENT (R68). -/
def Relay.gaugeSilent (r : Relay) (i : Fin 48) (b : Fin 8) : Relay :=
  let sighted := (r.stations.get i).sighting
  let d := r.barriers.get b
  let r1 := r.setStation i (r.stations.get i).silenced.emptyWindow
  let r2 := r1.when (decide (1 ≤ d.level.rank) && (r.tables.barriers.get b).gaugeLoss)
    (fun r => r.setBarrier b { d with gaugeLost := true })
  (r2.when sighted (fun r => r.recompute b none)).evaluate b

/-- What a station's silence sets off, by its role (R68 to R70). -/
def Relay.goSilent (r : Relay) (i : Fin 48) (c : StationConfig) : Relay :=
  match c.role with
  | .gauge b _ _ => r.gaugeSilent i b
  | .relay => (r.setStation i (r.stations.get i).silenced).feederSilent c.address
  | .wire _ _ => r.setStation i (r.stations.get i).silenced
  | .shake _ => r.setStation i (r.stations.get i).silenced
  | .rain _ => r.setStation i (r.stations.get i).silenced

/-- The deadline of a station expires (R66). -/
def Relay.deadlineExpires (r : Relay) (i : Fin 48) : Relay :=
  match r.tables.stations.get i with
  | none => r
  | some c =>
    let d := r.stations.get i
    if reached d.deadline r.now then
      if d.misses + 1 < 3 then r.setStation i (d.late c.interval) else r.goSilent i c
    else r

/-! ## Readings (R50 to R57) -/

/-- A reading fits a role (R51). -/
def Role.takes (role : Role) (kind : Option ReadingKind) : Bool :=
  match role, kind with
  | .gauge _ _ _, some .range => true
  | .wire _ _, some .wire => true
  | .shake _, some .shake => true
  | .rain _, some .rain => true
  | _, _ => false

/-- The effective quality of a reading that is applied (R53). -/
def Reading.effective (x : Reading) : Quality :=
  match x.kind with
  | some .range => if x.value = 0 ∨ x.value = 65535 then .fault else x.quality
  | some .wire => if x.value ≤ 1 then x.quality else .fault
  | _ => x.quality

/-- The last reading and last sample time after an applied reading (R53). -/
def StationDyn.note (d : StationDyn) (value : Nat) (quality : Quality) (sample : Nat) :
    StationDyn :=
  { d with lastReading := some (value, quality), lastSample := some sample }

/-- A fill enters the record's window (R74). -/
def StationDyn.takeFill (d : StationDyn) (fill : Nat) : StationDyn :=
  { d with window := pushFill d.window fill, smoothed := smoothedOf (pushFill d.window fill) }

/-- A reading is advancing when no sample time was held or its own is later (R53). -/
def StationDyn.advancedBy (d : StationDyn) (sample : Nat) : Bool :=
  match d.lastSample with
  | some t => decide (t < sample)
  | none => true

/-- A reading is stale when its sample time is earlier than the last one (R52). -/
def StationDyn.staleAt (d : StationDyn) (sample : Nat) : Bool :=
  match d.lastSample with
  | some t => decide (sample < t)
  | none => false

/-- An applied reading is handed on by its kind (R53 to R56, R91). -/
def Relay.handReading (r : Relay) (i : Fin 48) (c : StationConfig) (x : Reading) (sample : Nat) :
    Relay :=
  let d := r.stations.get i
  let noted := d.note x.value x.effective sample
  match c.role, x.effective with
  | .gauge _ _ _, .fault => r.setSighting i noted
  | .gauge b e f, _ =>
    (r.setStation i (noted.takeFill (fillOf e f x.value))).remeasure b
      (if d.advancedBy sample then some sample else none)
  | .wire _ _, .fault => r.setStation i noted
  | .wire b p, _ =>
    if x.value = 1 then (r.setStation i noted).deliverBreak b p
    else if (r.barriers.get b).wireBroken p then
      r.setStation i
        { noted with
          counters := { noted.counters with heldBreaks := bump noted.counters.heldBreaks } }
    else r.setStation i noted
  | .shake _, .fault => r.setStation i noted
  | .shake b, _ => (r.setStation i noted).contributeTo b .shake { value := x.value, time := sample }
  | .rain _, .fault => r.setStation i noted
  | .rain b, _ => (r.setStation i noted).contributeTo b .rain { value := x.value, time := sample }
  | .relay, _ => r.setStation i noted

/-- A station's counters changed. -/
def Relay.countStation (r : Relay) (i : Fin 48) (f : StationCounters → StationCounters) : Relay :=
  r.setStation i { r.stations.get i with counters := f (r.stations.get i).counters }

/-- One reading of an accepted REPORT that arrived now (R51, R52). -/
def Relay.takeReading (r : Relay) (i : Fin 48) (c : StationConfig) (x : Reading) : Relay :=
  if c.role.takes x.kind then
    if (r.stations.get i).staleAt (r.now - x.age) then
      r.countStation i (fun k => { k with stale := bump k.stale })
    else r.handReading i c x (r.now - x.age)
  else r.countStation i (fun k => { k with ignored := bump k.ignored })

/-- The readings of an accepted REPORT, in list order (R50). No other event is taken between two
readings of one frame, though R50 allows it: the model's choice (log 41). -/
def Relay.takeReadings (r : Relay) (i : Fin 48) (c : StationConfig) (payload : List Byte) :
    Relay :=
  (readings payload).foldl (fun r x => r.takeReading i c x) r

/-! ## Sequence acceptance (R35, R49) -/

/-- The judgement of a frame by its sequence (R35). -/
inductive Judgement where
  | accepted | duplicate | old
deriving DecidableEq, Repr

/-- Sequence acceptance of a frame (R35). -/
def StationDyn.judge (d : StationDyn) (sequence : Byte) (fresh : Bool) : Judgement :=
  match d.lastSeq with
  | none => .accepted
  | some l =>
    if sequence = l then .duplicate
    else if (sequence - l).toNat ≤ 127 then .accepted
    else if fresh = true ∨ d.state = .silent then .accepted
    else .old

/-- Steps 1 to 3 of R49: the last sequence, the count, and the notice to the silence monitor. -/
def Relay.acceptFrame (r : Relay) (i : Fin 48) (c : StationConfig) (sequence : Byte) : Relay :=
  let d := r.stations.get i
  (r.setStation i
    { d with
      lastSeq := some sequence
      counters := { d.counters with accepted := bump d.counters.accepted } }).hearStation i c

/-- The record of an address (R48). -/
def Relay.lookup (r : Relay) (a : Addr) : Option (Fin 48 × StationConfig) :=
  (List.finRange 48).findSome? (fun i =>
    match r.tables.stations.get i with
    | some c => if c.address = a then some (i, c) else none
    | none => none)

/-- A station frame put to sequence acceptance; true when it goes on (R35, R49). -/
def Relay.judgeFrame (r : Relay) (i : Fin 48) (c : StationConfig) (sequence : Byte)
    (fresh : Bool) : Relay × Bool :=
  match (r.stations.get i).judge sequence fresh with
  | .accepted => (r.acceptFrame i c sequence, true)
  | .duplicate => (r.countStation i (fun k => { k with duplicates := bump k.duplicates }), false)
  | .old => (r.countStation i (fun k => { k with oldSequence := bump k.oldSequence }), false)

/-! ## Writing a record (R59, R63, R75, R79) -/

/-- Two configurations have the same role (R59). -/
def sameRole (a b : StationConfig) : Bool :=
  a.role.code == b.role.code

/-- The dynamic fields an accepted write leaves, before the record is started (R59). -/
def writtenFields (old new : Option StationConfig) (d : StationDyn) : StationDyn :=
  match old, new with
  | some a, some b =>
    if a.address = b.address ∧ sameRole a b = true then
      if a.role.calibration = b.role.calibration then d else d.emptyWindow
    else StationDyn.start
  | _, _ => StationDyn.start

/-- The record as the silence monitor leaves it after a write (R63, R64). -/
def Relay.writtenStation (r : Relay) (i : Fin 48) (new : Option StationConfig) : StationDyn :=
  let d := writtenFields (r.tables.stations.get i) new (r.stations.get i)
  match new with
  | some c => d.started (r.startDeadline c)
  | none => d

/-- The barriers a write of a station record has recomputed (R79; log 18, log 31): the old one and
the new one where the record moves, its own where its window is emptied or it stops sighting. -/
def writeBarriers (old new : Option StationConfig) (wasSighting : Bool) : List (Fin 8) :=
  match gaugeBarrier old, gaugeBarrier new with
  | none, none => []
  | some a, none => [a]
  | none, some b => [b]
  | some a, some b =>
    if a = b then
      if wasSighting = true
          ∨ old.map StationConfig.address ≠ new.map StationConfig.address
          ∨ old.map (fun c => c.role.calibration) ≠ new.map (fun c => c.role.calibration) then
        [a]
      else []
    else [a, b]

/-- An accepted write of a station record (R59, R63, R79). -/
def Relay.writeStation (r : Relay) (i : Fin 48) (new : Option StationConfig) : Relay :=
  let old := r.tables.stations.get i
  let r1 := (r.setTables { r.tables with stations := r.tables.stations.set i new }).setStation i
    (r.writtenStation i new)
  if r.store.mode = .assessing then
    (writeBarriers old new (r.stations.get i).sighting).foldl (fun r b => r.remeasure b none) r1
  else r1

/-- CLEAR of station counters (R58). -/
def Relay.clearStationCounters (r : Relay) : Relay :=
  r.setStations (r.stations.map (fun d => { d with counters := StationCounters.zero }))

/-! ## The command of chapter 4 -/

/-- STATION_DEADLINE_EXPIRY (R66). -/
def execStationDeadlineExpiry (i : Fin 48) (s : State) : Host.Outcome State Fault Refusal :=
  s.onRelay (fun r => r.whenAwake (fun r => r.deadlineExpires i))

end Sys2Proof.Machine
end

