-- ==== Sys2Proof/Machine/Inputs.lean ====
section
/-! DEFINITION. The contact inputs and the field reset key (chapter 9). The expiry of the key
timer stands in Reset.lean, as it restarts the part. -/

namespace Sys2Proof.Machine

/-! ## Comparison and debounce (R157) -/

/-- An input's level differs from its expected level (section 9.2). -/
def Relay.deviates (r : Relay) (i : Fin 8) : Bool :=
  r.pins.contacts.get i != (r.tables.inputs.get i).expected

/-- The moment a debounce timer started now expires (R156). -/
def Relay.debounceEnd (r : Relay) (i : Fin 8) : Nat :=
  r.instant + (r.tables.inputs.get i).debounce * 100

/-- An input reacts to a change of its level (R157). -/
def Relay.inputMoves (r : Relay) (i : Fin 8) : Relay :=
  let d := r.inputs.get i
  match d.state, r.deviates i with
  | .normal, true => r.setInput i { d with state := .deviating, timer := some (r.debounceEnd i) }
  | .normal, false => r
  | .deviating, false => r.setInput i { d with state := .normal, timer := none }
  | .deviating, true => r
  | .tripped, false => r.setInput i { d with timer := some (r.debounceEnd i) }
  | .tripped, true => r.setInput i { d with timer := none }

/-- A trip is delivered by the input's function (R159). -/
def Relay.deliverTrip (r : Relay) (f : InputFunction) : Relay :=
  match f with
  | .inflowWire b => r.deliverBreak b .inflow
  | .overflowWire b => r.deliverBreak b .overflow
  | .manualAlarm b => r.deliverManual b
  | .resetKey => r
  | .unused => r

/-! ## The field reset key (R161) -/

/-- The inputs whose function is RESET_KEY (R161). -/
def Relay.keyInputs (r : Relay) : List (Fin 8) :=
  (List.finRange 8).filter (fun i => (r.tables.inputs.get i).function == .resetKey)

/-- There are two RESET_KEY inputs and both stand in a state (R161). -/
def Relay.keysAll (r : Relay) (st : InputState) : Bool :=
  r.keyInputs.length == 2 && r.keyInputs.all (fun i => (r.inputs.get i).state == st)

/-- The key follows the states of its inputs (R161). -/
def Relay.settleKey (r : Relay) : Relay :=
  match r.key.state with
  | .disarmed => if r.keysAll .normal then r.setKey { state := .armed, timer := none } else r
  | .armed =>
    if r.keysAll .tripped then
      r.setKey { state := .timing, timer := some (r.instant + Config.keyMs) }
    else r
  | .timing => if r.keysAll .tripped then r else r.setKey { state := .armed, timer := none }

/-! ## Events at an input -/

/-- A contact's physical level changes; an input that is in use reacts (R157). The pin changes in
every condition of the part (log 30). -/
def Relay.levelChanges (r : Relay) (i : Fin 8) (level : PinLevel) : Relay :=
  if r.pins.contacts.get i = level then r
  else
    (r.setPins { r.pins with contacts := r.pins.contacts.set i level }).whenAwake
      (fun r => (r.when ((r.tables.inputs.get i).function != .unused)
        (fun r => r.inputMoves i)).settleKey)

/-- The debounce timer of an input expires (R157). An UNUSED input has a timer only where the load after a
SAVE made it UNUSED (log 53). -/
def Relay.debounceExpires (r : Relay) (i : Fin 8) : Relay :=
  let d := r.inputs.get i
  if reached d.timer r.instant then
    match d.state with
    | .deviating =>
      ((r.setInput i { state := .tripped, timer := none, trips := bump d.trips }).deliverTrip
        (r.tables.inputs.get i).function).settleKey
    | .tripped => (r.setInput i { d with state := .normal, timer := none }).settleKey
    | .normal => r
  else r

/-! ## Starting and writing (R162) -/

/-- An input is started afresh and compares its level at once (R162). -/
def Relay.startInput (r : Relay) (i : Fin 8) : Relay :=
  let r1 := r.setInput i { r.inputs.get i with state := .normal, timer := none }
  r1.when ((r.tables.inputs.get i).function != .unused) (fun r => r.inputMoves i)

/-- Every input is started; the key is weighed once they have all compared (R161, R162; log 33). -/
def Relay.startInputs (r : Relay) : Relay :=
  ((List.finRange 8).foldl (fun r i => r.startInput i) r).settleKey

/-- A write that starts an input: the key is left DISARMED where the write concerns it, and arms
again by R161 (R162). -/
def Relay.restartInput (r : Relay) (i : Fin 8) (old new : InputConfig) : Relay :=
  let r1 := r.startInput i
  (r1.when (old.function == .resetKey || new.function == .resetKey)
    (fun r => r.setKey { state := .disarmed, timer := none })).settleKey

/-- An accepted write of an input record (R162). -/
def Relay.writeInput (r : Relay) (i : Fin 8) (new : InputConfig) : Relay :=
  let old := r.tables.inputs.get i
  (r.setTables { r.tables with inputs := r.tables.inputs.set i new }).when
    (old.function != new.function || old.expected != new.expected)
    (fun r => r.restartInput i old new)

/-! ## The commands of chapter 9 -/

/-- INPUT_LEVEL_CHANGE (R157). -/
def execInputLevelChange (i : Fin 8) (level : PinLevel) (s : State) :
    Host.Outcome State Fault Refusal :=
  s.onRelay (fun r => r.levelChanges i level)

/-- DEBOUNCE_EXPIRY (R157). -/
def execDebounceExpiry (i : Fin 8) (s : State) : Host.Outcome State Fault Refusal :=
  s.onRelay (fun r => r.whenAwake (fun r => r.debounceExpires i))

end Sys2Proof.Machine
end

