-- ==== Sys2Proof/Machine/Health.lean ====
section
/-! DEFINITION. HEALTH frames and the health timer (section 10.9). -/

namespace Sys2Proof.Machine

/-- The payload of a HEALTH frame in a supply band (R181, R197). -/
def Relay.healthPayload (r : Relay) (band : Band) : List Byte :=
  be4 r.now ++ byte r.store.mode.code :: byte r.store.cause.code :: byte r.store.status.code
    :: be2 r.store.version ++ byte band.code :: linkByte r
    :: byte (stationCount r .unheard) :: byte (stationCount r .live)
    :: byte (stationCount r .late) :: byte (stationCount r .silent)
    :: be2 r.pool.drops.urgentDrops ++ be2 r.pool.drops.routineDrops
    ++ be2 r.pool.drops.evictions ++ lineFaultByte r :: channelFlagBytes r
    ++ [byte r.highestLevel.rank]

/-- The health timer is started afresh with the health interval (R180; log 35). -/
def Relay.startHealthTimer (r : Relay) : Relay :=
  r.setAgent
    { r.agent with healthTimer := some (r.instant + r.tables.identity.healthInterval * 1000) }

/-- A HEALTH frame is built in a band and offered, urgent for a change into CRITICAL; then the
timer is started afresh (R180, R181). -/
def Relay.buildHealth (r : Relay) (band : Band) (urgent : Bool) : Relay :=
  (r.offerOwn (if urgent then .urgent else .routine)
    (r.ownFrame .health urgent r.hopBudget r.hubTarget (r.healthPayload band))
    .other).1.startHealthTimer

/-- The HEALTH frame of a start, a restart, a load or the timer (R180). -/
def Relay.sendHealth (r : Relay) : Relay :=
  r.buildHealth r.store.band false

/-- The health timer expires (R180). -/
def Relay.healthExpires (r : Relay) : Relay :=
  r.when (reached r.agent.healthTimer r.instant) Relay.sendHealth

/-- HEALTH_TIMER_EXPIRY (R180). -/
def execHealthTimerExpiry (s : State) : Host.Outcome State Fault Refusal :=
  s.onRelay (fun r => r.whenAwake Relay.healthExpires)

end Sys2Proof.Machine
end

