-- ==== Sys2Proof/Machine/Tables.lean ====
section
/-! DEFINITION. The table image: writing it, judging it and loading it (sections 11.1, 11.2,
12.4). -/

namespace Sys2Proof.Machine

/-! ## The image (R182, R198) -/

/-- Every record of a table in index order. -/
def bankBytes {α : Type} {n : Nat} (v : Bank α n) (encode : α → List Byte) : List Byte :=
  v.cells.flatMap encode

/-- The records of the seven tables in image order (R182). -/
def Tables.bytes (t : Tables) : List Byte :=
  encodeIdentity t.identity ++ bankBytes t.stations encodeStation
    ++ bankBytes t.barriers encodeBarrier ++ bankBytes t.cadences encodeCadence
    ++ bankBytes t.dispatch encodeDispatch ++ bankBytes t.inputs encodeInput
    ++ bankBytes t.bindings encodeBinding

/-- The checksum of the bytes after the header (R182). -/
def checksum (bs : List Byte) : Nat :=
  (bs.foldl (fun n b => n + b.toNat) 0) % 65536

/-- A whole image: length, version, checksum and records (R182, R198). -/
def imageBytes (t : Tables) (version : Nat) : List Byte :=
  be2 Config.imageLength ++ be2 version ++ be2 (checksum t.bytes) ++ t.bytes

/-! ## Judging (R184) -/

/-- The image version as the header holds it (R182). -/
def headerVersion (m : SerialMemory) : Nat :=
  pairAt (Memory.readBytes m.cells 0 Config.imageHeader) 2

/-- The status of the image in a memory, which answers for the whole read or not at all (R184;
log 54). -/
def judgeImage (m : SerialMemory) : ImageStatus :=
  let header := Memory.readBytes m.cells 0 Config.imageHeader
  if m.answers then
    if pairAt header 0 = Config.imageLength
        ∧ checksum (Memory.readBytes m.cells Config.imageHeader Config.imageLength)
          = pairAt header 4 then .valid
    else .invalid
  else .absent

/-- The version an image read leaves (R184). A memory that answers for the header and not for the rest of
the image counts as one that does not answer, with version 0: the model's choice (log 54). -/
def readVersion (m : SerialMemory) : Nat :=
  if m.answers then headerVersion m else 0

/-! ## Loading (R184, R46) -/

/-- The bytes of a record in the image: its table's place, its length and its index (R198). -/
def recordAt (cells : List Host.Cell) (base width index : Nat) : List Byte :=
  Memory.readBytes cells (base + width * index) width

/-- The records of a table judged alone: a record that fails its checks is absent (R184). -/
def readBank {α : Type} (n : Nat) (cells : List Host.Cell) (base width : Nat)
    (decode : List Byte → Option α) : Bank (Option α) n :=
  Bank.ofFn (fun i => decode (recordAt cells base width i.val))

/-- The number of records that fail a check (R184). -/
def missing {α : Type} {n : Nat} (v : Bank (Option α) n) : Nat :=
  (v.cells.filter Option.isNone).length

/-- The indexes of a table at which a clash is found. -/
def clashes {n : Nat} (f : Fin n → Bool) : Nat :=
  ((List.finRange n).filter f).length

/-- A station record's address is the own address, or that of a lower-indexed record (R46). -/
def stationClash (v : Bank (Option StationConfig) 48) (own : Addr) (i : Fin 48) : Bool :=
  match v.get i with
  | none => false
  | some c =>
    c.address == own
      || (List.finRange 48).any (fun j =>
          decide (j < i) && (v.get j).map StationConfig.address == some c.address)

/-- A binding names a line that a lower-indexed binding names (R184). -/
def bindingClash (v : Bank Binding 4) (i : Fin 4) : Bool :=
  (v.get i).line.isSome
    && (List.finRange 4).any (fun j => decide (j < i) && (v.get j).line == (v.get i).line)

/-- An input record would be the third RESET_KEY (R184). -/
def keyClash (v : Bank InputConfig 8) (i : Fin 8) : Bool :=
  (v.get i).function == .resetKey
    && decide (2 ≤ ((List.finRange 8).filter
        (fun j => decide (j < i) && (v.get j).function == .resetKey)).length)

/-- The identity record of the image, and the number of its replacements (R184). -/
def loadIdentity (cells : List Host.Cell) (own : Addr) : Identity × Nat :=
  match decodeIdentity (recordAt cells 6 27 0) with
  | none => (Identity.defaults, 1)
  | some d => if d.manager = some own then ({ d with manager := none }, 1) else (d, 0)

/-- The station records of the image, and the number of their replacements (R46, R184). -/
def loadStations (cells : List Host.Cell) (own : Addr) : Bank (Option StationConfig) 48 × Nat :=
  let raw := readBank 48 cells 33 12 decodeStation
  let judged := raw.map (fun x => x.getD none)
  (Bank.ofFn (fun i => if stationClash judged own i then none else judged.get i),
    missing raw + clashes (stationClash judged own))

/-- The barrier records of the image, and the number of their replacements (R184). -/
def loadBarriers (cells : List Host.Cell) : Bank BarrierConfig 8 × Nat :=
  let raw := readBank 8 cells 609 25 decodeBarrier
  (raw.map (fun x => x.getD BarrierConfig.emptied), missing raw)

/-- The cadence records of the image, and the number of their replacements (R184). -/
def loadCadences (cells : List Host.Cell) : Bank (Option Cadence) 16 × Nat :=
  let raw := readBank 16 cells 809 19 decodeCadence
  (raw.map (fun x => x.getD none), missing raw)

/-- The dispatch entries of the image, and the number of their replacements (R184). -/
def loadDispatch (cells : List Host.Cell) : Bank DispatchEntry 32 × Nat :=
  let raw := readBank 32 cells 1113 3 decodeDispatch
  (raw.map (fun x => x.getD DispatchEntry.emptied), missing raw)

/-- The input records of the image, and the number of their replacements (R184). -/
def loadInputs (cells : List Host.Cell) : Bank InputConfig 8 × Nat :=
  let raw := readBank 8 cells 1209 4 decodeInput
  let judged := raw.map (fun x => x.getD InputConfig.emptied)
  (Bank.ofFn (fun i =>
      if keyClash judged i then { judged.get i with function := .unused } else judged.get i),
    missing raw + clashes (keyClash judged))

/-- The binding records of the image, and the number of their replacements (R184). -/
def loadBindings (cells : List Host.Cell) : Bank Binding 4 × Nat :=
  let raw := readBank 4 cells 1241 2 decodeBinding
  let judged : Bank Binding 4 := Bank.ofFn (fun i => (raw.get i).getD (Binding.emptied i))
  (Bank.ofFn (fun i =>
      if bindingClash judged i then { judged.get i with line := none } else judged.get i),
    missing raw + clashes (bindingClash judged))

/-- The tables loaded from a VALID image, and the number of replacements (R184). -/
def loadTables (cells : List Host.Cell) (own : Addr) : Tables × Nat :=
  let identity := loadIdentity cells own
  let stations := loadStations cells own
  let barriers := loadBarriers cells
  let cadences := loadCadences cells
  let dispatch := loadDispatch cells
  let inputs := loadInputs cells
  let bindings := loadBindings cells
  ({ identity := identity.1
     stations := stations.1
     barriers := barriers.1
     cadences := cadences.1
     dispatch := dispatch.1
     inputs := inputs.1
     bindings := bindings.1 },
   identity.2 + stations.2 + barriers.2 + cadences.2 + dispatch.2 + inputs.2 + bindings.2)

/-- The image read from what the memory shows: status and version, and a VALID image loaded over the
working tables, with every replacement counted (R184; log 32). -/
def Relay.readImageAs (r : Relay) (m : SerialMemory) : Relay :=
  let status := judgeImage m
  let store := { r.store with status := status, version := readVersion m }
  if status = .valid then
    let loaded := loadTables m.cells r.store.own
    (r.setTables loaded.1).setStore
      { store with conflicts := min (r.store.conflicts + loaded.2) Config.maxCount }
  else r.setStore store

/-- The image read of a start-up (R184, R186). -/
def Relay.readImage (r : Relay) : Relay :=
  r.readImageAs r.memory

end Sys2Proof.Machine
end

