-- ==== Sys2Proof/Machine/Reset.lean ====
section
/-! DEFINITION. Start-up, restart, the end of a save, the oscillator and the supply watch
(chapter 11). -/

namespace Sys2Proof.Machine

/-! ## The supply band (R192, R193) -/

/-- The band of the first sample after a reset, in steps of 0.01 V (R192). -/
def firstBand (centivolts : Nat) : Band :=
  if 1180 ≤ centivolts then .normal
  else if 1100 ≤ centivolts then .low
  else .critical

/-- The band after a later sample (R192). -/
def nextBand (band : Band) (centivolts : Nat) : Band :=
  match band with
  | .normal => firstBand centivolts
  | .low =>
    if 1200 ≤ centivolts then .normal
    else if 1100 ≤ centivolts then .low
    else .critical
  | .critical =>
    if 1200 ≤ centivolts then .normal
    else if 1120 ≤ centivolts then .low
    else .critical

/-- The band in force. -/
def Relay.setBand (r : Relay) (band : Band) : Relay :=
  r.setStore { r.store with band := band }

/-- A new band delivered to one block (R193). The cap of the routine queue follows the band in
force, which the classifier's own delivery sets (R38, R180). -/
def Relay.deliverBand (r : Relay) (band : Band) : BandDelivery → Relay
  | .classifier => (r.setBand band).shedRoutine
  | .generator => r.when (band != .normal) Relay.preemptTest
  | .channels => r.bandAtChannels band
  | .agent => r.buildHealth band (band == .critical)

/-- A change of band is delivered to its four blocks in an order (R193; log 16). -/
def Relay.changeBand (r : Relay) (band : Band) (order : List BandDelivery) : Relay :=
  order.foldl (fun r d => r.deliverBand band d) r

/-- A sample of the battery: the next is 10 s later, and the band may change; in STARTING no
change is delivered (R192, R193). -/
def Relay.sampleBattery (r : Relay) (order : List BandDelivery) : Relay :=
  let band := nextBand r.store.band r.pins.centivolts
  let r1 := r.setStore { r.store with nextSample := r.store.nextSample + Config.samplePeriod }
  if r.store.mode = .starting then r1.setBand band
  else if band = r.store.band then r1
  else r1.changeBand band order

/-! ## A save cut short (R190) -/

/-- The memory as a save that did not finish left it: its header invalidated, and an unstated
number of record bytes written (R190; log 7). -/
def Relay.cutMemory (r : Relay) : SerialMemory :=
  if r.store.saveBegun then
    { r.memory with
      cells := Memory.writeBytes r.memory.cells Config.imageHeader
        (r.tables.bytes.take (Config.savedBytes r.freeCount % (Config.imageLength + 1))) }
  else r.memory

/-- The count of free values after a save that was cut short. -/
def Relay.cutCount (r : Relay) : Nat :=
  if r.store.saveBegun then r.freeCount + 1 else r.freeCount

/-! ## Released and started (R186, R191) -/

/-- UPPER and LOWER are released: the confirm timer starts (R6, R17; log 35). -/
def Relay.releasePorts (r : Relay) : Relay :=
  r.setLineLoss
    { r.lineLoss with confirm := some (r.instant + r.tables.identity.confirmTime * 1000) }

/-- In ASSESSING mode every record and barrier is started (R63, R81, R115). -/
def Relay.startAssessing (r : Relay) : Relay :=
  r.when (r.store.mode == .assessing)
    (fun r => r.startStations.startRecompute.startEvaluation)

/-- What leaving STARTING and a restart hand on, in order (R186, R191). -/
def Relay.goLive (r : Relay) : Relay :=
  r.releasePorts.startInputs.startAssessing.sendHealth

/-! ## Power-on and clock-loss resets (R185, R186) -/

/-- An address the straps can give a device (R185). -/
def strapsValid (straps : Addr) : Bool :=
  straps.isDevice

/-- The image read and the leaving of STARTING, after the time the read takes (R186 steps 4 and 5;
log 9). -/
def Relay.finishStart (r : Relay) (readMs : Nat) : Relay :=
  let r1 := (r.setClock { r.clock with ms := r.clock.ms + readMs }).readImage
  (r1.setStore
    { r1.store with
      mode := if r1.store.status = .valid then .assessing else .openLine }).goLive

/-- The straps are read; a valid address goes on to the image read, any other holds the part in
STARTING until the next reading (R185). -/
def Relay.readStraps (r : Relay) (straps : Addr) (readMs : Nat) : Relay :=
  let r1 := r.setPins { r.pins with straps := straps }
  if strapsValid straps then (r1.setStore { r.store with own := straps }).finishStart readMs
  else r1.setStore { r.store with nextStrap := r.now + 1 }

/-- The pins at a reset: the battery and straps given, the contacts and loads as they stand. -/
def Pins.atStart (p : Pins) (q : StartPins) : Pins :=
  { p with centivolts := q.centivolts, straps := q.straps, rate := q.rate }

/-- A power-on or clock-loss reset (R186). -/
def Relay.startUp (r : Relay) (cause : ResetCause) (q : StartPins) : Relay :=
  let r1 := Relay.cleared cause (r.pins.atStart q) (q.memory.getD r.cutMemory) r.cutCount
  (r1.setStore { r1.store with band := firstBand q.centivolts, rate := q.rate }).readStraps
    q.straps q.readMs.val

/-! ## Restart (R191) -/

/-- A barrier's dynamic fields after a restart (R93, R114). -/
def BarrierDyn.restarted (d : BarrierDyn) : BarrierDyn :=
  { BarrierDyn.start with
    level := if d.level = .evacuate then .evacuate else .calm
    inflowBroken := d.inflowBroken
    overflowBroken := d.overflowBroken
    manual := d.manual
    serial := d.serial }

/-- What the stored-tables block keeps through a restart (R183, R190). -/
def Store.restarted (s : Store) (centivolts : Nat) : Store :=
  { Store.start .restart with
    mode := s.mode
    own := s.own
    rate := s.rate
    status := if s.saveBegun then .invalid else s.status
    version := s.version
    band := firstBand centivolts }

/-- What a restart keeps and clears (R191). -/
def Relay.keptByRestart (r : Relay) : Relay :=
  { Relay.cleared .restart r.pins r.cutMemory r.cutCount with
    store := r.store.restarted r.pins.centivolts
    tables := r.tables
    barriers := r.barriers.map BarrierDyn.restarted }

/-- A restart takes place (R191). -/
def Relay.restart (r : Relay) : Relay :=
  r.keptByRestart.goLive

/-- The key timer expires: a field reset, which is a restart (R161). -/
def Relay.keyExpires (r : Relay) : Relay :=
  r.when r.resetFalls Relay.restart

/-! ## Saving (R189) -/

/-- The save begins: the header's length becomes 0 where the memory answers (R189 step 1). The version
is kept, as the rule says; that the old checksum is kept beside it is the model's choice (log 45). -/
def Relay.beginSave (r : Relay) : Relay :=
  if r.memory.answers then
    (r.setMemory { r.memory with cells := Memory.writeBytes r.memory.cells 0 (be2 0) }).setStore
      { r.store with saving := true, saveBegun := true }
  else r.setStore { r.store with saving := true, saveBegun := false }

/-- The version a save writes (R189 step 3). -/
def Relay.nextVersion (r : Relay) : Nat :=
  (r.store.version + 1) % 65536

/-- The memory after the whole image has been written, where the device took some bytes wrongly
(R189; log 8). -/
def Relay.writtenMemory (r : Relay) (flaws : List Host.Cell) : SerialMemory :=
  { answers := true
    cells := Memory.writeCells
      (Memory.writeBytes r.memory.cells 0 (imageBytes r.tables r.nextVersion)) flaws }

/-- The read-back matches what was written (R189 step 4). -/
def Relay.readsBack (r : Relay) (m : SerialMemory) : Bool :=
  Memory.readBytes m.cells 0 (Config.imageHeader + Config.imageLength)
    == imageBytes r.tables r.nextVersion

/-- The save ends in the store, with an image status (R189). -/
def Relay.saveOver (r : Relay) (status : ImageStatus) (version : Nat) : Relay :=
  r.setStore
    { r.store with saving := false, saveBegun := false, status := status, version := version }

/-- The memory did not answer: what it holds is as a save cut short leaves it (R189; log 7). -/
def Relay.loseMemory (r : Relay) : Relay :=
  ((r.setMemory { r.cutMemory with answers := false }).setFreeCount r.cutCount).saveOver .absent
    r.store.version

/-- The end of a save; true when it is done (R189; log 8). A memory that answers again after a save
that it did not answer is written like any other. -/
def Relay.endSave (r : Relay) (answers : Bool) (flaws : List Host.Cell) : Relay × Bool :=
  if answers then
    let m := r.writtenMemory flaws
    if r.readsBack m then ((r.setMemory m).saveOver .valid r.nextVersion, true)
    else ((r.setMemory m).saveOver .invalid r.store.version, false)
  else (r.loseMemory, false)

/-- What a read shows of the memory's contents (R189; log 8). -/
def memoryShown (m : SerialMemory) (load : LoadRead) : SerialMemory :=
  { answers := load.answers, cells := Memory.writeCells m.cells load.flaws }

/-- The load that follows a save done in OPEN-LINE mode (R189): where its read finds the image INVALID
or ABSENT, the status shows it and the tables and the mode are kept. The channels run on; that a sounding
moves at once to the line of a binding that the load changed is the model's choice (log 51), and the
sensing timers follow the lines then driven (R147). The inputs run on as well; that an input whose record
the load changed keeps its state and timer, though it become UNUSED (R157), and that the key is not
weighed here, is the model's choice (log 53). -/
def Relay.loadAfterSave (r : Relay) (load : LoadRead) : Relay :=
  let r1 := (r.setMemory { r.memory with answers := load.answers }).readImageAs
    (memoryShown r.memory load)
  if r1.store.status = .valid then
    (r1.senseLines.setStore { r1.store with mode := .assessing }).startAssessing.sendHealth
  else r1

/-! ## The commands of chapter 11 and the key -/

/-- KEY_TIMER_EXPIRY (R161). -/
def execKeyTimerExpiry (s : State) : Host.Outcome State Fault Refusal :=
  s.onRelay (fun r => r.whenAwake Relay.keyExpires)

/-- POWER_ON (R186). -/
def execPowerOn (pins : StartPins) (s : State) : Host.Outcome State Fault Refusal :=
  s.onRelay (fun r => r.startUp .powerOn pins)

/-- CLOCK_LOSS (R187). -/
def execClockLoss (s : State) : Host.Outcome State Fault Refusal :=
  s.onRelay (fun r => r.setClock { r.clock with lost := true })

/-- CLOCK_RESUME: a clock-loss reset, where the clock was lost (R186, R187). -/
def execClockResume (pins : StartPins) (s : State) : Host.Outcome State Fault Refusal :=
  s.onRelay (fun r => r.when r.clock.lost (fun r => r.startUp .clockLoss pins))

/-- STRAP_RETRY: the straps are read again in STARTING, once every second (R185). -/
def execStrapRetry (straps : Addr) (readMs : Fin 1000) (s : State) :
    Host.Outcome State Fault Refusal :=
  s.onRelay (fun r =>
    r.when (!r.clock.lost && r.store.mode == .starting && decide (r.store.nextStrap ≤ r.now))
      (fun r => r.readStraps straps readMs.val))

/-- BATTERY_SAMPLE: the pin shows a voltage, and a sample that is due is taken (R192). -/
def execBatterySample (centivolts : Nat) (order : List BandDelivery) (s : State) :
    Host.Outcome State Fault Refusal :=
  s.onRelay (fun r =>
    (r.setPins { r.pins with centivolts := centivolts }).when
      (!r.clock.lost && decide (r.store.nextSample ≤ r.now)) (fun r => r.sampleBattery order))

end Sys2Proof.Machine
end

