-- ==== Sys2Proof/Machine/Views.lean ====
section
/-! DEFINITION. What READ-RECORD and READ-STATE return (sections 10.3, 12.4 and 12.6). -/

namespace Sys2Proof.Machine

/-! ## Places of records and parts (R164, R169) -/

/-- The result codes of a request (R164). -/
inductive Result where
  | done | badRequest | badTable | badIndex | badField | duplicate | active | busy
  | stillDemanded | notLatched | stillBroken | event | memoryFault
deriving DecidableEq, Repr

/-- The code of a result (R199). -/
def Result.code : Result → Nat
  | .done => 0
  | .badRequest => 1
  | .badTable => 2
  | .badIndex => 3
  | .badField => 4
  | .duplicate => 5
  | .active => 6
  | .busy => 7
  | .stillDemanded => 8
  | .notLatched => 9
  | .stillBroken => 10
  | .event => 11
  | .memoryFault => 12

/-- A record of a table (R164). -/
inductive Slot where
  | identity
  | station (i : Fin 48)
  | barrier (b : Fin 8)
  | cadence (k : Fin 16)
  | dispatch (k : Fin 32)
  | input (i : Fin 8)
  | binding (c : Fin 4)
deriving DecidableEq, Repr

/-- An index that is in its range, or BAD_INDEX (R166 step 4). -/
def indexed {α : Type} (n x : Nat) (f : Fin n → α) : Except Result α :=
  match finOf n x with
  | some i => .ok (f i)
  | none => .error .badIndex

/-- The record a table code and an index name (R164, R166 steps 3 and 4). -/
def findSlot (table index : Nat) : Except Result Slot :=
  match table with
  | 0 => if index = 0 then .ok .identity else .error .badIndex
  | 1 => indexed 48 index .station
  | 2 => indexed 8 index .barrier
  | 3 => indexed 16 index .cadence
  | 4 => indexed 32 index .dispatch
  | 5 => indexed 8 index .input
  | 6 => indexed 4 index .binding
  | _ => .error .badTable

/-- The length of a table's records (R198). -/
def recordLength : Nat → Option Nat
  | 0 => some 27
  | 1 => some 12
  | 2 => some 25
  | 3 => some 19
  | 4 => some 3
  | 5 => some 4
  | 6 => some 2
  | _ => none

/-- The working record at a place (R168). -/
def Tables.record (t : Tables) : Slot → List Byte
  | .identity => encodeIdentity t.identity
  | .station i => encodeStation (t.stations.get i)
  | .barrier b => encodeBarrier (t.barriers.get b)
  | .cadence k => encodeCadence (t.cadences.get k)
  | .dispatch k => encodeDispatch (t.dispatch.get k)
  | .input i => encodeInput (t.inputs.get i)
  | .binding c => encodeBinding (t.bindings.get c)

/-- A part that READ-STATE returns (R169). -/
inductive View where
  | station (i : Fin 48) (part : Fin 2)
  | barrier (b : Fin 8) (part : Fin 3)
  | channel (c : Fin 4) (part : Fin 2)
  | input (i : Fin 8)
  | port (p : PortName)
  | queue
  | test (part : Fin 2)
  | relay (part : Fin 2)
deriving DecidableEq, Repr

/-- An index and a part in their ranges, or BAD_INDEX (R169). -/
def indexedPart {α : Type} (n m index part : Nat) (f : Fin n → Fin m → α) : Except Result α :=
  match finOf n index, finOf m part with
  | some i, some k => .ok (f i k)
  | _, _ => .error .badIndex

/-- The three ports by their index in READ-STATE (R169). -/
def portOfIndex (i : Fin 3) : PortName :=
  match i with
  | 0 => .upper
  | 1 => .lower
  | 2 => .field

/-- The part a READ-STATE names (R169, R166 steps 3 and 4). -/
def findView (what index part : Nat) : Except Result View :=
  match what with
  | 0 => indexedPart 48 2 index part .station
  | 1 => indexedPart 8 3 index part .barrier
  | 2 => indexedPart 4 2 index part .channel
  | 3 => indexedPart 8 1 index part (fun i _ => .input i)
  | 4 => indexedPart 3 1 index part (fun i _ => .port (portOfIndex i))
  | 5 => indexedPart 1 1 index part (fun _ _ => .queue)
  | 6 => indexedPart 1 2 index part (fun _ p => .test p)
  | 7 => indexedPart 1 2 index part (fun _ p => .relay p)
  | _ => .error .badTable

/-! ## Contents of the parts (section 12.6) -/

/-- An optional field of one byte with its presence byte (R195). -/
def optPresent (x : Option Byte) : List Byte :=
  match x with
  | some v => [1#8, v]
  | none => [0#8, 0#8]

/-- An optional index, absent at 255 (R195). -/
def optIndex {n : Nat} (x : Option (Fin n)) : Byte :=
  optByte (x.map Fin.val)

/-- An optional level, absent at 255 (R195). -/
def optLevel (x : Option Level) : Byte :=
  optByte (x.map Level.rank)

/-- A remaining time in tenths; a part of a tenth is a free choice of rounding (12.6; log 24). -/
def tenthsLeft (now expiry : Nat) : Nat :=
  let left := expiry - now
  if left % 100 = 0 then left / 100
  else left / 100 + (if Config.tenthsRoundUp left then 1 else 0)

/-- A running timer as its remaining tenths (12.6). -/
def optTenths (now : Nat) (timer : Option Nat) : List Byte :=
  optTime (timer.map (tenthsLeft now))

/-- STATION part 0 (12.6). -/
def stationPart0 (c : StationConfig) (d : StationDyn) : List Byte :=
  encodeStation (some c) ++ byte d.state.code :: byte d.misses :: optTime d.deadline
    ++ optPresent d.lastSeq ++ optTime d.lastSample

/-- The last reading of a station record (12.6). -/
def lastReadingBytes (x : Option (Nat × Quality)) : List Byte :=
  match x with
  | some (v, q) => 1#8 :: be2 v ++ [byte q.code]
  | none => [0#8, 0#8, 0#8, 0#8]

/-- STATION part 1 (12.6). -/
def stationPart1 (d : StationDyn) : List Byte :=
  lastReadingBytes d.lastReading ++ byte d.window.length
    :: be2 (d.window.getD 0 0) ++ be2 (d.window.getD 1 0) ++ be2 (d.window.getD 2 0)
    ++ be2 (d.smoothed.getD 65535)
    ++ be2 d.counters.accepted ++ be2 d.counters.duplicates ++ be2 d.counters.oldSequence
    ++ be2 d.counters.stale ++ be2 d.counters.ignored ++ be2 d.counters.returns
    ++ be2 d.counters.heldBreaks

/-- A part of a station record; an empty one returns the empty mark (R169; log 23). -/
def Relay.stationView (r : Relay) (i : Fin 48) (part : Fin 2) : List Byte :=
  match r.tables.stations.get i, part with
  | some c, 0 => stationPart0 c (r.stations.get i)
  | some _, 1 => stationPart1 (r.stations.get i)
  | none, 0 => encodeStation none ++ (Config.emptyStationRest 0).take 14
  | none, 1 => 0#8 :: (Config.emptyStationRest 1).take 26

/-- BARRIER part 1 (12.6). -/
def barrierPart1 (d : BarrierDyn) : List Byte :=
  byte d.level.rank :: byte d.causes.length :: d.causes.map (fun c => byte c.code)
    ++ List.replicate (12 - d.causes.length) 0#8
    ++ optTime d.hold ++ latchByte d :: optLevel (d.feeder.map Prod.fst) :: optLevel d.lineBase
    :: optLevel d.quieted :: be3 d.serial ++ optTime d.repeatAt

/-- The rate anchor (12.6). -/
def anchorBytes (a : Option Anchor) : List Byte :=
  match a with
  | some x => 1#8 :: be2 x.fill ++ be4 x.time ++ [byte x.source.val]
  | none => List.replicate 8 0#8

/-- A shake or rain value with its expiry (12.6). -/
def evidenceBytes (life : Nat) (entries : List Contribution) : List Byte :=
  match entries.head? with
  | some e => 1#8 :: be2 e.value ++ be4 (e.time + life)
  | none => List.replicate 7 0#8

/-- BARRIER part 2 (12.6). -/
def barrierPart2 (m : Measures) (life : Nat) : List Byte :=
  be2 m.fill ++ byte (sightBits m) :: optIndex m.source :: anchorBytes m.anchor
    ++ rateBytes m.rate ++ be2 m.ttf ++ evidenceBytes life m.shake ++ evidenceBytes life m.rain

/-- A part of a barrier record (R116). -/
def Relay.barrierView (r : Relay) (b : Fin 8) (part : Fin 3) : List Byte :=
  match part with
  | 0 => encodeBarrier (r.tables.barriers.get b)
  | 1 => barrierPart1 (r.barriers.get b)
  | 2 => barrierPart2 (r.barriers.get b).measures r.tables.identity.evidenceLife

/-- The owner's barrier and level; TEST and an absent owner carry 255 (12.6). -/
def ownerBytes : Option Owner → List Byte
  | some (.barrier b level) => [byte b.val, byte level.rank]
  | some .test => [255#8, 255#8]
  | none => [255#8, 255#8]

/-- CHANNEL part 0 (12.6). -/
def channelPart0 (ch : Channel) (now : Nat) : List Byte :=
  byte ch.state.code :: ownerBytes ch.owner ++ optIndex ch.cadence :: byte ch.step
    :: byte ch.rounds :: optByte (ch.segment.map Segment.code) :: optTenths now ch.segmentEnd
    ++ [optIndex ch.next, flagByte ch.continueMark,
      optByte (ch.stop.map (fun x => x.outcome.code))]

/-- A waiting request (12.6). -/
def waitingBytes : Option Request → List Byte
  | some q =>
    [1#8, byte q.barrier.val, byte q.level.rank, optIndex q.attention, optIndex q.sustain]
  | none => List.replicate 5 0#8

/-- The line-fault indicator of a channel's line (R154; log 37). -/
def Relay.boundFault (r : Relay) (c : Fin 4) : Byte :=
  match r.lineOf c with
  | some l => flagByte (r.lines.get l).fault
  | none => Config.unboundLineFault

/-- A part of a channel (R154). -/
def Relay.channelView (r : Relay) (c : Fin 4) (part : Fin 2) : List Byte :=
  match part with
  | 0 => channelPart0 (r.channels.get c) r.instant
  | 1 =>
    waitingBytes (r.channels.get c).waiting ++ byte (channelFlags (r.channels.get c))
      :: optByte ((r.channels.get c).last.map ChannelOutcome.code)
      :: encodeBinding (r.tables.bindings.get c) ++ [r.boundFault c]

/-- The state of an input (R156). -/
def Relay.inputView (r : Relay) (i : Fin 8) : List Byte :=
  let c := r.tables.inputs.get i
  let d := r.inputs.get i
  encodeInput c ++ byte d.state.code :: byte (pinCode (r.pins.contacts.get i))
    :: optTenths r.instant d.timer ++ be2 d.trips
    ++ [if c.function = .resetKey then byte r.key.state.code else 255#8]

/-- The counters, link state and polarity of UPPER or LOWER (R14, 12.6). -/
def portBytes (p : Port) : List Byte :=
  be2 p.counters.goodFrames ++ be2 p.counters.crcErrors ++ be2 p.counters.runtsGiants
    ++ be2 p.counters.linkDrops ++ be2 p.counters.polarityChanges ++ be2 p.counters.framesSent
    ++ be2 p.counters.transmitAborts ++ [byte p.link.code, byte (polarityCode p.polarity)]

/-- A port (R169). -/
def Relay.portView (r : Relay) : PortName → List Byte
  | .upper => portBytes r.upper ++ [flagByte r.lineLoss.lost]
  | .lower => portBytes r.lower
  | .field => be2 r.field.goodFrames ++ be2 r.field.crcErrors ++ be2 r.field.inversions

/-- The drop counters, queue lengths and free buffers (R27). -/
def Relay.queueView (r : Relay) : List Byte :=
  let d := r.pool.drops
  be2 d.malformed ++ be2 d.wrongDirection ++ be2 d.foreign ++ be2 d.hopExpired
    ++ be2 d.routineDrops ++ be2 d.upDrops ++ be2 d.urgentDrops ++ be2 d.evictions
    ++ [byte r.pool.urgent.length, byte r.pool.routine.length, byte r.pool.up.length,
      byte r.pool.free]

/-- One checker set without its last seed (12.6). -/
def countsBytes (t : TestCounts) : List Byte :=
  be2 t.frames ++ be2 t.bytes ++ be2 t.mismatched ++ be2 t.lost ++ [byte t.overflow]

/-- The snapshot field of TEST part 1 (12.6). -/
def Checker.snapshotBytes (k : Checker) : List Byte :=
  match k.snapshot with
  | some (u, l) => 1#8 :: countsBytes u ++ countsBytes l
  | none => List.replicate 19 0#8

/-- The run parameters (12.6). -/
def paramsBytes : Option TestParams → List Byte
  | some q =>
    1#8 :: byte (portCode q.port) :: be2 q.count ++ byte q.length :: byte q.gap
      :: be2 q.target.toNat
  | none => List.replicate 8 0#8

/-- The generator's last outcome, absent at 255 (R195). -/
def Generator.outcomeByte (g : Generator) : Byte :=
  optByte (g.last.map TestOutcome.code)

/-- The generator's fields (12.6). -/
def Generator.bytes (g : Generator) : List Byte :=
  flagByte g.running :: paramsBytes g.params ++ be2 g.finished ++ [g.seed, g.outcomeByte]

/-- A part of the line test (R169). -/
def Relay.testView (r : Relay) (part : Fin 2) : List Byte :=
  match part with
  | 0 =>
    countsBytes r.checker.upper ++ optPresent r.checker.upperSeed
      ++ countsBytes r.checker.lower ++ optPresent r.checker.lowerSeed
  | 1 => r.checker.snapshotBytes ++ r.generator.bytes

/-- A part of the relay status (R169). -/
def Relay.statusView (r : Relay) (part : Fin 2) : List Byte :=
  match part with
  | 0 =>
    be2 r.store.own.toNat ++ be2 (addrCode r.tables.identity.manager)
      ++ byte r.store.mode.code :: byte r.store.cause.code :: byte r.store.status.code
      :: be2 r.store.version
      ++ [flagByte r.store.saving, byte r.store.band.code, linkByte r,
        flagByte r.agent.restartPending] ++ be2 r.store.conflicts
  | 1 =>
    be2 r.agent.actedOn ++ be2 r.agent.unauthorised ++ be2 r.agent.repliesRefused
      ++ be2 r.emitter.quietActed ++ be2 r.emitter.quietNotActed
      ++ [r.emitter.sequence, byte r.emitter.fresh, byte r.highestLevel.rank]

/-- The contents of a part (R169, 12.6). -/
def Relay.view (r : Relay) : View → List Byte
  | .station i part => r.stationView i part
  | .barrier b part => r.barrierView b part
  | .channel c part => r.channelView c part
  | .input i => r.inputView i
  | .port p => r.portView p
  | .queue => r.queueView
  | .test part => r.testView part
  | .relay part => r.statusView part

end Sys2Proof.Machine
end

