-- ==== Sys2Proof/Machine/Agent.lean ====
section
/-! DEFINITION. The management agent: taking, checking, carrying out and answering a request
(chapter 10). -/

namespace Sys2Proof.Machine

/-! ## Records to be written (R170 to R172) -/

/-- A record that passed the field checks on itself, with its place. -/
inductive Record where
  | identity (d : Identity)
  | station (i : Fin 48) (x : Option StationConfig)
  | barrier (b : Fin 8) (c : BarrierConfig)
  | cadence (k : Fin 16) (x : Option Cadence)
  | dispatch (k : Fin 32) (e : DispatchEntry)
  | input (i : Fin 8) (c : InputConfig)
  | binding (c : Fin 4) (b : Binding)
deriving DecidableEq, Repr

/-- The record that bytes spell for a place, where its own fields are fit (R170). -/
def decodeRecord (s : Slot) (bs : List Byte) : Option Record :=
  match s with
  | .identity => (decodeIdentity bs).map .identity
  | .station i => (decodeStation bs).map (.station i)
  | .barrier b => (decodeBarrier bs).map (.barrier b)
  | .cadence k => (decodeCadence bs).map (.cadence k)
  | .dispatch k => (decodeDispatch bs).map (.dispatch k)
  | .input i => (decodeInput bs).map (.input i)
  | .binding c => (decodeBinding bs).map (.binding c)

/-- An address is held by an occupied station record of role RELAY (R170). -/
def Relay.relayStation (r : Relay) (a : Addr) : Bool :=
  match r.lookup a with
  | some (_, c) => c.role == .relay
  | none => false

/-- The conditions of R170 that concern other records of the working tables (step 6 of R166). -/
def Relay.fits (r : Relay) : Record → Bool
  | .identity d => d.manager != some r.store.own
  | .station _ _ => true
  | .barrier _ c =>
    match c.feeder with
    | some (a, _) => r.relayStation a
    | none => true
  | .cadence _ _ => true
  | .dispatch _ _ => true
  | .input i c => c.function != .resetKey || decide ((r.keyInputs.filter (· != i)).length < 2)
  | .binding c b =>
    match b.line with
    | some l => (List.finRange 4).all (fun o => o == c || r.lineOf o != some l)
    | none => true

/-- A station address is already taken (step 7 of R166; R46, R171). -/
def Relay.addressTaken (r : Relay) : Record → Bool
  | .station i (some c) =>
    c.address == r.store.own
      || (List.finRange 48).any (fun j =>
          j != i && (r.tables.stations.get j).map StationConfig.address == some c.address)
  | _ => false

/-- A barrier stands at WARN or higher. -/
def Relay.atWarn (r : Relay) (b : Fin 8) : Bool :=
  decide (2 ≤ (r.barriers.get b).level.rank)

/-- The record concerned is in use (step 8 of R166; R171). -/
def Relay.inUse (r : Relay) : Record → Bool
  | .identity _ => false
  | .station i x =>
    match gaugeBarrier (r.tables.stations.get i) with
    | some b => r.atWarn b && gaugeBarrier x != some b
    | none => false
  | .barrier b c => (r.tables.barriers.get b).enabled && !c.enabled && r.atWarn b
  | .cadence k _ => (List.finRange 4).any (fun c => (r.channels.get c).cadence == some k)
  | .dispatch _ _ => false
  | .input _ _ => false
  | .binding c _ => (r.channels.get c).state != .idle

/-- An accepted write of the identity record: the evidence life at once, the rest at its next
reading (R163, R86). A write that leaves the life as it was removes no contribution: the model's choice
(log 50). -/
def Relay.writeIdentity (r : Relay) (d : Identity) : Relay :=
  let old := r.tables.identity.evidenceLife
  (r.setTables { r.tables with identity := d }).when (old != d.evidenceLife)
    (fun r => r.changeLife d.evidenceLife)

/-- An accepted write (R172). -/
def Relay.writeRecord (r : Relay) : Record → Relay
  | .identity d => r.writeIdentity d
  | .station i x => r.writeStation i x
  | .barrier b c => r.writeBarrier b c
  | .cadence k x => r.setTables { r.tables with cadences := r.tables.cadences.set k x }
  | .dispatch k e => r.setTables { r.tables with dispatch := r.tables.dispatch.set k e }
  | .input i c => r.writeInput i c
  | .binding c b => r.setTables { r.tables with bindings := r.tables.bindings.set c b }

/-! ## Checking a request (R166) -/

/-- What CLEAR names (R173). -/
inductive ClearWhat where
  | port | drop | station | channel
deriving DecidableEq, Repr

/-- A request that passed the eight checks, ready to be carried out (R166). -/
inductive Action where
  | readRecord (s : Slot)
  | writeRecord (x : Record)
  | readState (v : View)
  | clear (w : ClearWhat)
  | lockCounters
  | lockAndClear
  | standDown (b : Fin 8)
  | rearmWire (b : Fin 8) (p : WirePosition)
  | testSound (c : Fin 4) (k : Fin 16)
  | stopChannel (c : Fin 4)
  | lineTest (q : TestParams)
  | lineTestStop
  | save
  | restart
deriving DecidableEq, Repr

/-- The length of a request's arguments; an unknown code has none (R197, R198). -/
def argsLength (code : Nat) (args : List Byte) : Option Nat :=
  match code with
  | 1 => some 2
  | 2 => some (2 + (recordLength (byteAt args 0)).getD 0)
  | 3 => some 3
  | 4 => some 1
  | 5 => some 0
  | 6 => some 0
  | 7 => some 1
  | 8 => some 2
  | 9 => some 2
  | 10 => some 1
  | 11 => some 7
  | 12 => some 0
  | 13 => some 0
  | 14 => some 0
  | _ => none

/-- Step 1 of R166: the code is known and the arguments are all there. -/
def wellSized (code : Nat) (args : List Byte) : Bool :=
  match argsLength code args with
  | some n => decide (n ≤ args.length)
  | none => false

/-- A result where a check fails, and otherwise what follows. -/
def refuseIf {α : Type} (c : Bool) (result : Result) (rest : Except Result α) : Except Result α :=
  if c then .error result else rest

/-- What the CLEAR codes name (R199); any other is BAD_FIELD (R173). -/
def clearWhat (w : Nat) : Except Result Action :=
  match w with
  | 0 => .ok (.clear .port)
  | 1 => .ok (.clear .drop)
  | 2 => .ok (.clear .station)
  | 3 => .ok (.clear .channel)
  | _ => .error .badField

/-- Steps 6 to 8 of R166 for a WRITE-RECORD (R170, R171). -/
def Relay.checkWrite (r : Relay) (s : Slot) (bs : List Byte) : Except Result Action :=
  match decodeRecord s bs with
  | none => .error .badField
  | some x =>
    refuseIf (!r.fits x) .badField
      (refuseIf (r.addressTaken x) .duplicate
        (refuseIf (r.inUse x) .active (.ok (.writeRecord x))))

/-- The checks of REARM-WIRE (R175). -/
def checkRearm (b p : Nat) : Except Result Action :=
  match finOf 8 b, WirePosition.ofCode p with
  | none, _ => .error .badIndex
  | some _, none => .error .badField
  | some b, some p => .ok (.rearmWire b p)

/-- The checks of LINE-TEST (R177). -/
def checkLineTest (args : List Byte) : Except Result Action :=
  let q : TestParams :=
    { port := if byteAt args 0 = 0 then .upper else .lower
      count := pairAt args 1
      length := byteAt args 3
      gap := byteAt args 4
      target := BitVec.ofNat 12 (pairAt args 5) }
  if byteAt args 0 ≤ 1 ∧ within 1 56 (byteAt args 3) = true ∧ pairAt args 5 ≤ 4094 then
    .ok (.lineTest q)
  else .error .badField

/-- A result carried through, and an answer turned into a request to carry out. -/
def andThen {α β : Type} (x : Except Result α) (f : α → Except Result β) : Except Result β :=
  match x with
  | .ok a => f a
  | .error e => .error e

/-- Steps 3 to 8 of R166, by the request's code (R199). -/
def Relay.checkArgs (r : Relay) (code : Nat) (args : List Byte) : Except Result Action :=
  match code with
  | 1 => andThen (findSlot (byteAt args 0) (byteAt args 1)) (fun s => .ok (.readRecord s))
  | 2 =>
    andThen (findSlot (byteAt args 0) (byteAt args 1)) (fun s =>
      refuseIf r.store.saving .busy (r.checkWrite s (args.drop 2)))
  | 3 =>
    andThen (findView (byteAt args 0) (byteAt args 1) (byteAt args 2))
      (fun v => .ok (.readState v))
  | 4 => clearWhat (byteAt args 0)
  | 5 => .ok .lockCounters
  | 6 => .ok .lockAndClear
  | 7 => indexed 8 (byteAt args 0) .standDown
  | 8 => checkRearm (byteAt args 0) (byteAt args 1)
  | 9 => indexedPart 4 16 (byteAt args 0) (byteAt args 1) .testSound
  | 10 => indexed 4 (byteAt args 0) .stopChannel
  | 11 => checkLineTest args
  | 12 => .ok .lineTestStop
  | 13 => refuseIf r.store.saving .busy (.ok .save)
  | 14 => refuseIf r.store.saving .busy (.ok .restart)
  | _ => .error .badRequest

/-- The eight checks in their order; the first that fails gives the result (R166). -/
def Relay.check (r : Relay) (code : Nat) (args : List Byte) : Except Result Action :=
  refuseIf (!wellSized code args) .badRequest
    (refuseIf r.agent.restartPending .busy (r.checkArgs code args))

/-! ## Replies (R167) -/

/-- A request's reply address and name: its origin, its code and its tag. -/
structure Sender where
  origin : Addr
  code : Byte
  tag : Byte
deriving DecidableEq, Repr

/-- A reply is built (R167). -/
def Relay.replyFrame (r : Relay) (q : Sender) (result : Result) (data : List Byte)
    (urgent : Bool) : Frame :=
  r.ownFrame .mgmtRep urgent r.hopBudget q.origin (q.code :: q.tag :: byte result.code :: data)

/-- A reply refused at admission is counted (R167). -/
def Relay.countRefusedReply (r : Relay) : Relay :=
  r.setAgent { r.agent with repliesRefused := bump r.agent.repliesRefused }

/-- A reply is built and offered to the routine queue (R167, R42). -/
def Relay.reply (r : Relay) (q : Sender) (result : Result) (data : List Byte) : Relay :=
  let offered := r.offerOwn .routine (r.replyFrame q result data false) .other
  if offered.2 then offered.1 else offered.1.countRefusedReply

/-- The reply to a RESTART that is refused: offered to the urgent queue with its urgent mark set. It is
not the reply that a pending restart awaits, so its fate is told to nobody (R42, R167, R179;
log 46). -/
def Relay.replyUrgent (r : Relay) (q : Sender) (result : Result) : Relay :=
  let offered := r.offerOwn .urgent (r.replyFrame q result [] true) .other
  if offered.2 then offered.1 else offered.1.countRefusedReply

/-- A request that fails a check is answered with its result: RESTART on the urgent queue, every other
on the routine queue (R42, R166, R167). -/
def Relay.refuse (r : Relay) (q : Sender) (result : Result) : Relay :=
  if q.code = 14#8 then r.replyUrgent q result else r.reply q result []

/-! ## Carrying out (R168 to R179) -/

/-- READ-RECORD is answered (R168). -/
def Relay.carryReadRecord (r : Relay) (q : Sender) (s : Slot) (args : List Byte) : Relay :=
  r.reply q .done (args.take 2 ++ r.tables.record s)

/-- READ-STATE is answered with the relay time (R169). -/
def Relay.carryReadState (r : Relay) (q : Sender) (v : View) (args : List Byte) : Relay :=
  r.reply q .done (args.take 3 ++ be4 r.now ++ r.view v)

/-- CLEAR of port counters (R14, R173). -/
def Relay.clearPortCounters (r : Relay) : Relay :=
  ((r.setUpper { r.upper with counters := PortCounters.zero }).setLower
    { r.lower with counters := PortCounters.zero }).setField
    { r.field with goodFrames := 0, crcErrors := 0, inversions := 0 }

/-- CLEAR of the classifier's drop counters (R27, R173). -/
def Relay.clearDropCounters (r : Relay) : Relay :=
  r.countDrop (fun _ => DropCounters.zero)

/-- CLEAR by what it names (R173). -/
def Relay.clearBy (r : Relay) : ClearWhat → Relay
  | .port => r.clearPortCounters
  | .drop => r.clearDropCounters
  | .station => r.clearStationCounters
  | .channel => r.clearChannelFlags

/-- LOCK-COUNTERS and LOCK-AND-CLEAR: the checker as locked, and the snapshot answered (R23,
R174). -/
def Relay.carryLock (r : Relay) (q : Sender) (k : Checker) : Relay :=
  (r.setChecker k).reply q .done k.snapshotBytes

/-- The result of a STAND-DOWN (R109, R175). -/
def StandDownAnswer.result : StandDownAnswer → Result
  | .accepted => .done
  | .notLatched => .notLatched
  | .stillDemanded => .stillDemanded

/-- STAND-DOWN is carried out and answered with the level and the cause set (R175). -/
def Relay.carryStandDown (r : Relay) (q : Sender) (b : Fin 8) : Relay :=
  let answered := r.standDown b
  let d := answered.1.barriers.get b
  answered.1.reply q answered.2.result
    (byte d.level.rank :: byte d.causes.length :: d.causes.map (fun c => byte c.code))

/-- REARM-WIRE is carried out and answered with both latches and the level (R175). -/
def Relay.carryRearm (r : Relay) (q : Sender) (b : Fin 8) (p : WirePosition) : Relay :=
  let answered := r.rearmWire b p
  let d := answered.1.barriers.get b
  answered.1.reply q (if answered.2 then .done else .stillBroken)
    [flagByte d.inflowBroken, flagByte d.overflowBroken, byte d.level.rank]

/-- TEST-SOUND is carried out and answered (R176). -/
def Relay.carryTestSound (r : Relay) (q : Sender) (c : Fin 4) (k : Fin 16) : Relay :=
  let answered := r.testSound c k
  let ch := answered.1.channels.get c
  match answered.2 with
  | .taken =>
    answered.1.reply q .done
      [byte ch.state.code, optByte (ch.last.map ChannelOutcome.code)]
  | .event => answered.1.reply q .event []
  | .busy => answered.1.reply q .busy []

/-- STOP-CHANNEL is carried out and answered with the state (R176). -/
def Relay.carryStop (r : Relay) (q : Sender) (c : Fin 4) : Relay :=
  let r1 := r.stopChannel c
  r1.reply q .done [byte (r1.channels.get c).state.code]

/-- An accepted LINE-TEST starts its run (R19, R177). -/
def Relay.startRun (r : Relay) (q : TestParams) : Relay :=
  (r.setGenerator
    { r.generator with
      running := true
      params := some q
      finished := 0
      outstanding := false
      gapTimer := none
      run := r.generator.run + 1 }).makeTestFrame

/-- LINE-TEST is decided (R177). -/
def Relay.carryLineTest (r : Relay) (q : Sender) (p : TestParams) : Relay :=
  if 1 ≤ r.highestLevel.rank ∨ r.store.band ≠ .normal then r.reply q .event []
  else if r.generator.running then r.reply q .busy []
  else (r.startRun p).reply q .done []

/-- LINE-TEST-STOP is carried out and answered with the last outcome (R20, R177). -/
def Relay.carryLineTestStop (r : Relay) (q : Sender) : Relay :=
  let r1 := r.when r.generator.running (fun r => r.endRun .stopped)
  r1.reply q .done [r1.generator.outcomeByte]

/-- SAVE is accepted, without a reply (R178). -/
def Relay.carrySave (r : Relay) (q : Sender) : Relay :=
  (r.setAgent { r.agent with requester := some (q.origin, q.tag) }).beginSave

/-- RESTART is accepted: at once where LOWER is not UP or the reply is refused, and otherwise
when the reply's fate is known (R179). -/
def Relay.carryRestart (r : Relay) (q : Sender) : Relay :=
  if r.lower.link = .up then
    let r1 := r.setAgent { r.agent with restartPending := true }
    let offered := r1.offerOwn .urgent (r1.replyFrame q .done [] true) .restartReply
    if offered.2 then offered.1 else offered.1.restart
  else r.restart

/-- A request that passed the checks is carried out and answered (R166). -/
def Relay.carryOut (r : Relay) (q : Sender) (args : List Byte) : Action → Relay
  | .readRecord s => r.carryReadRecord q s args
  | .writeRecord x => (r.writeRecord x).reply q .done []
  | .readState v => r.carryReadState q v args
  | .clear w => (r.clearBy w).reply q .done []
  | .lockCounters => r.carryLock q r.checker.lock
  | .lockAndClear => r.carryLock q r.checker.lockAndClear
  | .standDown b => r.carryStandDown q b
  | .rearmWire b p => r.carryRearm q b p
  | .testSound c k => r.carryTestSound q c k
  | .stopChannel c => r.carryStop q c
  | .lineTest p => r.carryLineTest q p
  | .lineTestStop => r.carryLineTestStop q
  | .save => r.carrySave q
  | .restart => r.carryRestart q

/-! ## Taking a request (R165) -/

/-- The agent acts on requests of an origin (R165). -/
def Relay.actsFor (r : Relay) (origin : Addr) : Bool :=
  r.store.mode == .openLine || r.authorised origin

/-- A request that is acted on is counted, whatever its result (R165). -/
def Relay.counted (r : Relay) : Relay :=
  r.setAgent { r.agent with actedOn := bump r.agent.actedOn }

/-- A request handed over to the agent (R165, R166). It is counted before it is checked and carried out,
so a READ-STATE of the count shows itself in it: the model's choice (log 52). -/
def Relay.request (r : Relay) (q : Sender) (args : List Byte) : Relay :=
  if r.actsFor q.origin then
    match r.counted.check q.code.toNat args with
    | .ok action => r.counted.carryOut q args action
    | .error result => r.counted.refuse q result
  else r.setAgent { r.agent with unauthorised := bump r.agent.unauthorised }

/-- A management request as a command: it is handed to the agent while the part is awake
(log 21). -/
def Relay.command (r : Relay) (origin : Addr) (tag : Byte) (code : Nat) (args : List Byte) :
    Relay :=
  r.whenAwake (fun r => r.request { origin := origin, code := byte code, tag := tag } args)

/-! ## The end of a save (R178, R189) -/

/-- The data of the reply to SAVE: the new image version (R178, R197). -/
def Relay.saveData (r : Relay) (done : Bool) : List Byte :=
  if done then be2 r.store.version else []

/-- The reply to SAVE is built for the save requester, which becomes absent (R178). -/
def Relay.replyToSave (r : Relay) (done : Bool) : Relay :=
  match r.agent.requester with
  | none => r
  | some (origin, tag) =>
    let r1 := r.reply { origin := origin, code := 13#8, tag := tag }
      (if done then .done else .memoryFault) (r.saveData done)
    r1.setAgent { r1.agent with requester := none }

/-- A save in flight ends: the outcome, the reply, and in OPEN-LINE mode the load (R178, R189). -/
def Relay.finishSave (r : Relay) (answers : Bool) (reads : SaveReads) : Relay :=
  let ended := r.endSave answers reads.flaws
  (ended.1.replyToSave ended.2).when (ended.2 && r.store.mode == .openLine)
    (fun r => r.loadAfterSave reads.load)

/-! ## The commands of chapter 10, and the end of a save -/

/-- READ_RECORD (R168). -/
def execReadRecord (origin : Addr) (tag table index : Byte) (s : State) :
    Host.Outcome State Fault Refusal :=
  s.onRelay (fun r => r.command origin tag 1 [table, index])

/-- WRITE_RECORD (R170 to R172). -/
def execWriteRecord (origin : Addr) (tag table index : Byte) (record : List Byte) (s : State) :
    Host.Outcome State Fault Refusal :=
  s.onRelay (fun r => r.command origin tag 2 (table :: index :: record))

/-- READ_STATE (R169). -/
def execReadState (origin : Addr) (tag what index part : Byte) (s : State) :
    Host.Outcome State Fault Refusal :=
  s.onRelay (fun r => r.command origin tag 3 [what, index, part])

/-- CLEAR of port counters (R173). -/
def execClearPortCounters (origin : Addr) (tag : Byte) (s : State) :
    Host.Outcome State Fault Refusal :=
  s.onRelay (fun r => r.command origin tag 4 [0#8])

/-- CLEAR of drop counters (R173). -/
def execClearDropCounters (origin : Addr) (tag : Byte) (s : State) :
    Host.Outcome State Fault Refusal :=
  s.onRelay (fun r => r.command origin tag 4 [1#8])

/-- CLEAR of station counters (R173). -/
def execClearStationCounters (origin : Addr) (tag : Byte) (s : State) :
    Host.Outcome State Fault Refusal :=
  s.onRelay (fun r => r.command origin tag 4 [2#8])

/-- CLEAR of channel flags (R152, R173). -/
def execClearChannelFlags (origin : Addr) (tag : Byte) (s : State) :
    Host.Outcome State Fault Refusal :=
  s.onRelay (fun r => r.command origin tag 4 [3#8])

/-- LOCK_COUNTERS (R23, R174). -/
def execLockCounters (origin : Addr) (tag : Byte) (s : State) :
    Host.Outcome State Fault Refusal :=
  s.onRelay (fun r => r.command origin tag 5 [])

/-- LOCK_AND_CLEAR (R23, R174). -/
def execLockAndClear (origin : Addr) (tag : Byte) (s : State) :
    Host.Outcome State Fault Refusal :=
  s.onRelay (fun r => r.command origin tag 6 [])

/-- STAND_DOWN (R109, R175). -/
def execStandDown (origin : Addr) (tag barrier : Byte) (s : State) :
    Host.Outcome State Fault Refusal :=
  s.onRelay (fun r => r.command origin tag 7 [barrier])

/-- REARM_WIRE (R104, R175). -/
def execRearmWire (origin : Addr) (tag barrier position : Byte) (s : State) :
    Host.Outcome State Fault Refusal :=
  s.onRelay (fun r => r.command origin tag 8 [barrier, position])

/-- TEST_SOUND (R150, R176). -/
def execTestSound (origin : Addr) (tag channel cadence : Byte) (s : State) :
    Host.Outcome State Fault Refusal :=
  s.onRelay (fun r => r.command origin tag 9 [channel, cadence])

/-- STOP_CHANNEL (R151, R176). -/
def execStopChannel (origin : Addr) (tag channel : Byte) (s : State) :
    Host.Outcome State Fault Refusal :=
  s.onRelay (fun r => r.command origin tag 10 [channel])

/-- LINE_TEST (R177). -/
def execLineTest (origin : Addr) (tag port : Byte) (count : BitVec 16) (length gap : Byte)
    (target : BitVec 16) (s : State) : Host.Outcome State Fault Refusal :=
  s.onRelay (fun r =>
    r.command origin tag 11
      (port :: be2 count.toNat ++ length :: gap :: be2 target.toNat))

/-- LINE_TEST_STOP (R20, R177). -/
def execLineTestStop (origin : Addr) (tag : Byte) (s : State) :
    Host.Outcome State Fault Refusal :=
  s.onRelay (fun r => r.command origin tag 12 [])

/-- SAVE (R178, R189). -/
def execSave (origin : Addr) (tag : Byte) (s : State) : Host.Outcome State Fault Refusal :=
  s.onRelay (fun r => r.command origin tag 13 [])

/-- RESTART (R179, R191). -/
def execRestart (origin : Addr) (tag : Byte) (s : State) : Host.Outcome State Fault Refusal :=
  s.onRelay (fun r => r.command origin tag 14 [])

/-- SAVE_END: a save in flight ends (R178, R189). -/
def execSaveEnd (answers : Bool) (reads : SaveReads) (s : State) :
    Host.Outcome State Fault Refusal :=
  s.onRelay (fun r =>
    r.whenAwake (fun r => r.when r.store.saving (fun r => r.finishSave answers reads)))

end Sys2Proof.Machine
end

