-- ==== Sys2Proof/Machine/Classifier.lean ====
section
/-! DEFINITION. The classifier: the header and direction checks, and what becomes of each class of
frame (sections 2.1 to 2.5). -/

namespace Sys2Proof.Machine

/-! ## Header and direction (R24, R25) -/

/-- A frame as the classifier takes it: its port, its header and its payload. -/
structure Arrival where
  port : PortName
  cls : FrameClass
  urgent : Bool
  fresh : Bool
  hops : BitVec 4
  origin : Addr
  target : Addr
  sequence : Byte
  payload : List Byte
deriving DecidableEq, Repr

/-- The payload length a class can have (R24). -/
def FrameClass.fitsLength (c : FrameClass) (n : Nat) : Bool :=
  match c with
  | .report => n != 0 && n % 4 == 0
  | _ => decide (c.fixedPart ≤ n)

/-- A frame whose header passes R24; `bs` is the frame without its CRC. A malformed one is
absent. -/
def parseFrame (port : PortName) (bs : List Byte) : Option Arrival :=
  let h := readHeader bs
  match h.cls with
  | none => none
  | some c =>
    if h.mustZero = false ∧ h.length ≤ 56 ∧ h.length + 6 = bs.length ∧ h.origin.isDevice = true
        ∧ c.fitsLength h.length = true then
      some
        { port := port
          cls := c
          urgent := h.urgent
          fresh := h.fresh
          hops := h.hops
          origin := h.origin
          target := h.target
          sequence := h.sequence
          payload := bs.drop 6 }
    else none

/-- The classes taken at a port (R25). -/
def takesClass (port : PortName) (c : FrameClass) : Bool :=
  match port, c with
  | .lower, .mgmtReq => true
  | .lower, .quiet => true
  | .lower, .test => true
  | .upper, .report => true
  | .upper, .alert => true
  | .upper, .health => true
  | .upper, .mgmtRep => true
  | .upper, .test => true
  | .field, .report => true
  | _, _ => false

/-! ## Forwarding (R26) -/

/-- The copy that is forwarded: hops one less, every other field unchanged (R26). -/
def Arrival.forwarded (a : Arrival) : Frame where
  cls := a.cls
  urgent := a.urgent
  fresh := a.fresh
  hops := a.hops - 1#4
  origin := a.origin
  target := a.target
  sequence := a.sequence
  payload := a.payload

/-- A forward to a queue; a frame that arrived with 0 hops is not forwarded (R26). -/
def Relay.forward (r : Relay) (a : Arrival) (lane : Lane) : Relay :=
  if a.hops = 0#4 then r.countDrop (fun d => { d with hopExpired := bump d.hopExpired })
  else (r.offer lane { frame := a.forwarded, maker := .other }).1

/-- The lane down: urgent where the urgent mark or another reason says so (R28 to R30, R34). -/
def laneDown (urgent : Bool) : Lane :=
  if urgent then .urgent else .routine

/-! ## Frames travelling down in ASSESSING mode (R28 to R30) -/

/-- The bin of an origin in the foreign pass set (R29). -/
def foreignBin (origin : Addr) : Nat :=
  (origin.toNat % 64) ^^^ (origin.toNat / 64 % 64)

/-- A foreign REPORT (R29). -/
def Relay.foreignReport (r : Relay) (a : Arrival) : Relay :=
  if r.tables.identity.passSet.getLsbD (foreignBin a.origin) then
    r.forward a (laneDown a.urgent)
  else r.countDrop (fun d => { d with foreign := bump d.foreign })

/-- The barrier of a role stands at WATCH or higher; a RELAY has none (R28). -/
def Relay.roleAlert (r : Relay) (role : Role) : Bool :=
  match role.barrier with
  | some b => decide (1 ≤ (r.barriers.get b).level.rank)
  | none => false

/-- The forward decision of an accepted REPORT (R28 step 4). -/
def Relay.forwardReport (r : Relay) (c : StationConfig) (a : Arrival) : Relay :=
  match c.forwarding with
  | .none => r
  | .routine => r.forward a (laneDown a.urgent)
  | .eventUrgent => r.forward a (laneDown (a.urgent || r.roleAlert c.role))

/-- A REPORT from a station frame (R28). -/
def Relay.stationReport (r : Relay) (i : Fin 48) (c : StationConfig) (a : Arrival) : Relay :=
  let judged := r.judgeFrame i c a.sequence a.fresh
  if judged.2 then (judged.1.takeReadings i c a.payload).forwardReport c a else judged.1

/-- A REPORT in ASSESSING mode (R28, R29). -/
def Relay.takeReport (r : Relay) (a : Arrival) : Relay :=
  match r.lookup a.origin with
  | some (i, c) => r.stationReport i c a
  | none => r.foreignReport a

/-- An ALERT in ASSESSING mode (R30). -/
def Relay.takeAlert (r : Relay) (a : Arrival) : Relay :=
  match r.lookup a.origin with
  | some (i, c) =>
    let judged := r.judgeFrame i c a.sequence a.fresh
    if judged.2 then
      (judged.1.when (c.role == .relay) (fun r => r.feederUpdate a.origin a.payload)).forward a
        .urgent
    else judged.1
  | none => r.forward a .urgent

/-- A HEALTH in ASSESSING mode (R30). -/
def Relay.takeHealth (r : Relay) (a : Arrival) : Relay :=
  match r.lookup a.origin with
  | some (i, c) =>
    let judged := r.judgeFrame i c a.sequence a.fresh
    if judged.2 then judged.1.forward a (laneDown a.urgent) else judged.1
  | none => r.forward a (laneDown a.urgent)

/-- A REPORT, ALERT, HEALTH or MGMT-REP, by the relay mode (R28 to R30, R34). -/
def Relay.takeDown (r : Relay) (a : Arrival) (inAssessing : Relay → Relay) : Relay :=
  if r.store.mode = .assessing then inAssessing r else r.forward a (laneDown a.urgent)

/-! ## Frames travelling up, and TEST frames (R31, R32, R34) -/

/-- The hand-over of a consumed MGMT-REQ to the agent (R31). -/
def Relay.handRequest (r : Relay) (a : Arrival) : Relay :=
  r.request
    { origin := a.origin, code := a.payload.getD 0 0#8, tag := a.payload.getD 1 0#8 }
    (a.payload.drop 2)

/-- A MGMT-REQ, by its target (R31, R34). A RESTART for all relays is forwarded before the agent
takes it (R179; log 22). -/
def Relay.takeRequest (r : Relay) (a : Arrival) : Relay :=
  if a.target = r.store.own then r.handRequest a
  else if a.target = 4095#12 then
    if a.payload.getD 0 0#8 = 14#8 then (r.forward a .up).handRequest a
    else (r.handRequest a).forward a .up
  else r.forward a .up

/-- A QUIET: consumed in ASSESSING mode, and forwarded up (R31, R34). -/
def Relay.takeQuiet (r : Relay) (a : Arrival) : Relay :=
  (r.when (r.store.mode == .assessing) (fun r => r.judgeQuiet a.origin a.payload)).forward a .up

/-- A TEST frame at UPPER or LOWER, for this relay or for 0 (R32). -/
def Relay.takeTest (r : Relay) (a : Arrival) : Relay :=
  if a.target = r.store.own ∨ a.target = 0#12 then
    match a.port with
    | .upper => r.checkTest .upper a.payload
    | .lower => r.checkTest .lower a.payload
    | .field => r
  else r

/-! ## Classification -/

/-- A frame that passed both checks, by its class (sections 2.3, 2.4). -/
def Relay.takeFrame (r : Relay) (a : Arrival) : Relay :=
  match a.cls with
  | .report => r.takeDown a (fun r => r.takeReport a)
  | .alert => r.takeDown a (fun r => r.takeAlert a)
  | .health => r.takeDown a (fun r => r.takeHealth a)
  | .mgmtRep => r.forward a (laneDown a.urgent)
  | .mgmtReq => r.takeRequest a
  | .quiet => r.takeQuiet a
  | .test => r.takeTest a

/-- A good frame is handed over with its port, without its CRC bytes (R12, R24, R25). -/
def Relay.classify (r : Relay) (port : PortName) (bs : List Byte) : Relay :=
  match parseFrame port bs with
  | none => r.countDrop (fun d => { d with malformed := bump d.malformed })
  | some a =>
    if takesClass port a.cls then r.takeFrame a
    else r.countDrop (fun d => { d with wrongDirection := bump d.wrongDirection })

end Sys2Proof.Machine
end

