-- ==== Sys2Proof/Machine/Ports.lean ====
section
/-! DEFINITION. The line ports: link state, words, assembly and transmission (chapter 1). -/

namespace Sys2Proof.Machine

/-! ## Counters and settings -/

/-- A port's counters changed. -/
def Port.count (p : Port) (f : PortCounters → PortCounters) : Port :=
  { p with counters := f p.counters }

/-- One more good frame (R12). -/
def Port.countGood (p : Port) : Port :=
  p.count (fun k => { k with goodFrames := bump k.goodFrames })

/-- One more CRC error (R11, R12). -/
def Port.countCrc (p : Port) : Port :=
  p.count (fun k => { k with crcErrors := bump k.crcErrors })

/-- One more runt or giant (R11, R12). -/
def Port.countRunt (p : Port) : Port :=
  p.count (fun k => { k with runtsGiants := bump k.runtsGiants })

/-- The activity count of a port (R1). -/
def Relay.activityCount (r : Relay) : LinkPort → Nat
  | .upper => r.tables.identity.activityUpper
  | .lower => r.tables.identity.activityLower

/-- The receive feed order of a port (R1). -/
def Relay.rxOrder (r : Relay) : PortName → FeedOrder
  | .upper => r.tables.identity.rxOrderUpper
  | .lower => r.tables.identity.rxOrderLower
  | .field => r.tables.identity.rxOrderField

/-- A maker is told of the completion or abandonment of its frame (R16, R42, R179). -/
def Relay.reportFate (r : Relay) (m : Maker) : Relay :=
  match m with
  | .other => r
  | .testRun run => r.testFrameFinished run
  | .restartReply => r.when r.agent.restartPending Relay.restart

/-! ## Entering and leaving UP (R3 to R5, R16, R17) -/

/-- A port in SEEK at an instant: seek run 0, the silence timer at 2 s (R3, R5). -/
def Port.seekFrom (p : Port) (now : Nat) : Port :=
  { p with
    link := .seek
    seekRun := 0
    silence := some (now + Config.silenceMs)
    window := none
    tally := 0 }

/-- UPPER enters UP: the confirm timer stops, and upper line lost ends (R17). -/
def Relay.upperUp (r : Relay) : Relay :=
  let r1 := r.setLineLoss { r.lineLoss with confirm := none }
  r1.when r.lineLoss.lost (fun r => r.setLineLost false)

/-- A port enters UP: the first window opens, and a waiting frame is taken at once (R4, R15,
R17). -/
def Relay.enterUp (r : Relay) (p : LinkPort) : Relay :=
  let r1 := r.setPort p
    { r.port p with
      link := .up
      seekRun := 3
      silence := none
      window := some (r.instant + Config.windowMs)
      tally := 0 }
  match p with
  | .upper => r1.upperUp.take .upper
  | .lower => r1.take .lower

/-- The frame in assembly is discarded as the port leaves UP (R11). -/
def Port.discard (p : Port) : Port :=
  match p.assembly with
  | none => p
  | some a =>
    if a.bytes.length < Config.runtBytes then { p.countRunt with assembly := none }
    else { p.countCrc with assembly := none }

/-- The frame in transmission is abandoned (R16): its buffer is free again and its maker told. -/
def Relay.abandon (r : Relay) (p : LinkPort) : Relay :=
  match (r.port p).sending with
  | none => r
  | some t =>
    ((r.setPort p
        ((({ r.port p with sending := none } : Port)).count
          (fun k => { k with transmitAborts := bump k.transmitAborts }))).setPool
      { r.pool with free := r.pool.free + 1 }).reportFate t.buffer.maker

/-- UPPER's confirm timer starts (R17; log 35). -/
def Relay.startConfirm (r : Relay) : Relay :=
  r.setLineLoss
    { r.lineLoss with confirm := some (r.instant + r.tables.identity.confirmTime * 1000) }

/-- A pending restart takes place when LOWER leaves UP (R179). -/
def Relay.restartIfPending (r : Relay) : Relay :=
  r.when r.agent.restartPending Relay.restart

/-- A port leaves UP for SEEK (R5). -/
def Relay.leaveUp (r : Relay) (p : LinkPort) : Relay :=
  let r1 := r.setPort p
    ((((r.port p).seekFrom r.instant).count
      (fun k => { k with linkDrops := bump k.linkDrops })).discard)
  match p with
  | .upper => r1.startConfirm.abandon .upper
  | .lower => (r1.abandon .lower).restartIfPending

/-- Energy on a pair (R3): from DOWN to SEEK, and in SEEK a new silence timer. -/
def Relay.energy (r : Relay) (p : LinkPort) : Relay :=
  let q := r.port p
  match q.link with
  | .down => r.setPort p (q.seekFrom r.instant)
  | .seek => r.setPort p { q with silence := some (r.instant + Config.silenceMs) }
  | .up => r

/-- The silence timer of a port in SEEK expires (R3). -/
def Relay.silenceExpires (r : Relay) (p : LinkPort) : Relay :=
  let q := r.port p
  if q.link = .seek ∧ reached q.silence r.instant = true then
    r.setPort p { q with link := .down, silence := none }
  else r

/-- An activity window closes (R5). -/
def Relay.windowCloses (r : Relay) (p : LinkPort) : Relay :=
  let q := r.port p
  match q.window with
  | some t =>
    if q.link = .up ∧ t ≤ r.instant then
      if r.activityCount p ≤ q.tally then
        r.setPort p { q with window := some (t + Config.windowMs), tally := 0 }
      else r.leaveUp p
    else r
  | none => r

/-! ## Checking a received frame (R10 to R12) -/

/-- The bytes of a frame without its two CRC bytes (R12). -/
def frameBody (bs : List Byte) : List Byte :=
  bs.take (bs.length - 2)

/-- A received frame passes the CRC check (R10, R194). -/
def crcGood (order : FeedOrder) (bs : List Byte) : Bool :=
  bs.drop (bs.length - 2) == crcBytes order (frameBody bs)

/-- How an ended assembly is judged (R12). -/
inductive Verdict where
  | good | runt | bad
deriving DecidableEq, Repr

/-- The check of an assembly that ends at an idle word (R12). -/
def Assembly.verdict (a : Assembly) : Verdict :=
  if a.bytes.length < Config.runtBytes then .runt
  else if crcGood a.order a.bytes then .good
  else .bad

/-- The assembly of UPPER or LOWER ends at an idle word (R12). -/
def Relay.endAssembly (r : Relay) (p : LinkPort) : Relay :=
  let q := r.port p
  match q.assembly with
  | none => r
  | some a =>
    let emptied : Port := { q with assembly := none }
    match a.verdict with
    | .runt => r.setPort p emptied.countRunt
    | .bad => r.setPort p emptied.countCrc
    | .good => (r.setPort p emptied.countGood).classify p.name (frameBody a.bytes)

/-- FIELD after an assembly it discards (R13). -/
def FieldPort.discarded (f : FieldPort) : FieldPort :=
  { f with assembly := none, quiet := none, crcErrors := bump f.crcErrors }

/-- The assembly of FIELD ends at an idle word or at a quiet line (R12, R13). -/
def Relay.endFieldAssembly (r : Relay) : Relay :=
  match r.field.assembly with
  | none => r
  | some a =>
    match a.verdict with
    | .runt => r.setField r.field.discarded
    | .bad => r.setField r.field.discarded
    | .good =>
      (r.setField
        { r.field with
          assembly := none
          quiet := none
          goodFrames := bump r.field.goodFrames }).classify .field (frameBody a.bytes)

/-- The time of two words of 12 bit times in quarters of a millisecond (R13). -/
def twoWordQuarters : LineRate → Nat
  | .bps4800 => 20
  | .bps9600 => 10
  | .bps19200 => 5

/-- The first whole millisecond at which the time of two words has passed, on the time base in
milliseconds (R13; log 13). -/
def quietMs (rate : LineRate) : Nat :=
  (twoWordQuarters rate + 3) / 4

/-- The instant at which a FIELD line that carries no further word ends the frame in assembly
(R13). -/
def Relay.quietFrom (r : Relay) : Nat :=
  r.instant + quietMs r.store.rate

/-- The line has carried no word for the time of two words: the frame in assembly ends as at an idle
word (R13). -/
def Relay.fieldQuiet (r : Relay) : Relay :=
  if reached r.field.quiet r.instant then
    (r.setField { r.field with quiet := none }).endFieldAssembly
  else r

/-! ## Words (R4, R5, R7, R9, R11) -/

/-- An empty assembly begun by a start word (R11). -/
def newAssembly (polarity : Polarity) (order : FeedOrder) : Assembly :=
  { bytes := [], polarity := polarity, order := order }

/-- An assembly with one byte more; none where it would hold a 65th (R11). -/
def Assembly.append (a : Assembly) (b : Byte) : Option Assembly :=
  if a.bytes.length < Config.assemblyBytes then
    some { a with bytes := a.bytes ++ [readByte a.polarity b] }
  else none

/-- The received polarity follows a word (R7). -/
def Port.turn (q : Port) (polarity : Polarity) : Port :=
  if q.polarity = polarity then q
  else
    ({ q with polarity := polarity } : Port).count
      (fun k => { k with polarityChanges := bump k.polarityChanges })

/-- An idle or frame-start word counts toward the seek run in SEEK (R4). -/
def Relay.seekWord (r : Relay) (p : LinkPort) : Relay :=
  let q := r.port p
  if q.seekRun + 1 < 3 then r.setPort p { q with seekRun := q.seekRun + 1 }
  else r.enterUp p

/-- An idle word at UPPER or LOWER (R4, R5, R7, R12). -/
def Relay.idleWord (r : Relay) (p : LinkPort) (polarity : Polarity) : Relay :=
  let r1 := r.setPort p ((r.port p).turn polarity)
  match (r1.port p).link with
  | .down => r1
  | .seek => r1.seekWord p
  | .up => (r1.setPort p { r1.port p with tally := (r1.port p).tally + 1 }).endAssembly p

/-- A frame start cuts short a frame in assembly, which counts as a runt or giant (R11). -/
def Port.cutShort (q : Port) : Port :=
  if q.assembly.isSome then q.countRunt else q

/-- A frame-start word at UPPER or LOWER (R4, R5, R7, R11). -/
def Relay.startWord (r : Relay) (p : LinkPort) (polarity : Polarity) : Relay :=
  let r1 := r.setPort p ((r.port p).turn polarity)
  match (r1.port p).link with
  | .down => r1
  | .seek => r1.seekWord p
  | .up =>
    r1.setPort p
      { (r1.port p).cutShort with
        tally := (r1.port p).tally + 1
        assembly := some (newAssembly polarity (r.rxOrder p.name)) }

/-- A data byte at UPPER or LOWER (R11). -/
def Relay.dataWord (r : Relay) (p : LinkPort) (b : Byte) : Relay :=
  let q := r.port p
  match q.assembly with
  | none => r
  | some a =>
    match a.append b with
    | some a => r.setPort p { q with assembly := some a }
    | none => r.setPort p { q.countRunt with assembly := none }

/-- A malformed word at UPPER or LOWER (R4, R11). -/
def Relay.malformedWord (r : Relay) (p : LinkPort) : Relay :=
  let q := r.port p
  match q.link with
  | .down => r
  | .seek => r.setPort p { q with seekRun := 0 }
  | .up =>
    match q.assembly with
    | none => r
    | some _ => r.setPort p { q.countCrc with assembly := none }

/-- A word at UPPER or LOWER, which is energy on the pair as well (R3, R4; log 10). -/
def Relay.linkWord (r : Relay) (p : LinkPort) (w : LineWord) : Relay :=
  let r1 := r.energy p
  match w with
  | .idle polarity => r1.idleWord p polarity
  | .frameStart polarity => r1.startWord p polarity
  | .data b => r1.dataWord p b
  | .malformed => r1.malformedWord p

/-- A frame-start word at FIELD (R9, R11, R13). -/
def FieldPort.startFrame (f : FieldPort) (polarity : Polarity) (order : FeedOrder) (quiet : Nat) :
    FieldPort :=
  { f with
    quiet := some quiet
    crcErrors := if f.assembly.isSome then bump f.crcErrors else f.crcErrors
    inversions := if polarity = .inverted then bump f.inversions else f.inversions
    assembly := some (newAssembly polarity order) }

/-- A data byte at FIELD (R11, R13). -/
def FieldPort.takeByte (f : FieldPort) (b : Byte) (quiet : Nat) : FieldPort :=
  match f.assembly with
  | none => f
  | some a =>
    match a.append b with
    | some a => { f with assembly := some a, quiet := some quiet }
    | none => f.discarded

/-- A word at FIELD (R9, R11 to R13). -/
def Relay.fieldWord (r : Relay) (w : LineWord) : Relay :=
  match w with
  | .idle _ => r.endFieldAssembly
  | .frameStart polarity =>
    r.setField (r.field.startFrame polarity (r.rxOrder .field) r.quietFrom)
  | .data b => r.setField (r.field.takeByte b r.quietFrom)
  | .malformed => r.when r.field.assembly.isSome (fun r => r.setField r.field.discarded)

/-- A word at one of the three ports. -/
def Relay.word (r : Relay) (p : PortName) (w : LineWord) : Relay :=
  match p with
  | .upper => r.linkWord .upper w
  | .lower => r.linkWord .lower w
  | .field => r.fieldWord w

/-- A port has a frame in assembly. -/
def Relay.assembling (r : Relay) : PortName → Bool
  | .upper => r.upper.assembly.isSome
  | .lower => r.lower.assembly.isSome
  | .field => r.field.assembly.isSome

/-! ## Transmission (R16) -/

/-- A transmission completes: the buffer is free, the frame counted and its maker told; then the
transmitter may take again (R15, R16). That the maker is told before the next take, so that a frame it
offers at once is on its queue for that take, is the model's choice (R43; log 42). -/
def Relay.completeTransmission (r : Relay) (p : LinkPort) : Relay :=
  match (r.port p).sending with
  | none => r
  | some t =>
    (((r.setPort p
        ((({ r.port p with sending := none } : Port)).count
          (fun k => { k with framesSent := bump k.framesSent }))).setPool
      { r.pool with free := r.pool.free + 1 }).reportFate t.buffer.maker).take p

/-- The confirm timer of UPPER expires (R17). -/
def Relay.confirmExpires (r : Relay) : Relay :=
  if reached r.lineLoss.confirm r.instant then
    (r.setLineLoss { r.lineLoss with confirm := none }).setLineLost true
  else r

/-! ## The commands of chapter 1 -/

/-- LINE_ENERGY (R3). -/
def execLineEnergy (p : LinkPort) (s : State) : Host.Outcome State Fault Refusal :=
  s.onRelay (fun r => r.whenAwake (fun r => r.energy p))

/-- SILENCE_TIMER_EXPIRY (R3). -/
def execSilenceTimerExpiry (p : LinkPort) (s : State) : Host.Outcome State Fault Refusal :=
  s.onRelay (fun r => r.whenAwake (fun r => r.silenceExpires p))

/-- LINE_WORD (R4, R5, R7, R9, R11). -/
def execLineWord (p : PortName) (w : LineWord) (s : State) : Host.Outcome State Fault Refusal :=
  s.onRelay (fun r => r.whenAwake (fun r => r.word p w))

/-- ACTIVITY_WINDOW_CLOSE (R5). -/
def execActivityWindowClose (p : LinkPort) (s : State) : Host.Outcome State Fault Refusal :=
  s.onRelay (fun r => r.whenAwake (fun r => r.windowCloses p))

/-- FRAME_RECEIVED: the idle word that ends an assembly in progress (R12; log 11). -/
def execFrameReceived (p : PortName) (polarity : Polarity) (s : State) :
    Host.Outcome State Fault Refusal :=
  s.onRelay (fun r => r.whenAwake (fun r => r.when (r.assembling p)
    (fun r => r.word p (.idle polarity))))

/-- FIELD_LINE_QUIET (R13). -/
def execFieldLineQuiet (s : State) : Host.Outcome State Fault Refusal :=
  s.onRelay (fun r => r.whenAwake Relay.fieldQuiet)

/-- TRANSMIT_TAKE (R15). -/
def execTransmitTake (p : LinkPort) (s : State) : Host.Outcome State Fault Refusal :=
  s.onRelay (fun r => r.whenAwake (fun r => r.take p))

/-- TRANSMIT_COMPLETE (R16). -/
def execTransmitComplete (p : LinkPort) (s : State) : Host.Outcome State Fault Refusal :=
  s.onRelay (fun r => r.whenAwake (fun r => r.completeTransmission p))

/-- UPPER_CONFIRM_EXPIRY (R17). -/
def execUpperConfirmExpiry (s : State) : Host.Outcome State Fault Refusal :=
  s.onRelay (fun r => r.whenAwake Relay.confirmExpires)

end Sys2Proof.Machine
end

