-- ==== Sys2Proof/Machine/Clock.lean ====
section
/-! DEFINITION. What the part's own clock does when no command waits: the timer events in the order
the model takes them, and the passing of a millisecond (log 2). -/

namespace Sys2Proof.Machine

/-- The order in which a band change found by the part's own clock is delivered (log 16). -/
def usualOrder : List BandDelivery :=
  [.classifier, .generator, .channels, .agent]

/-- The timer events of the ports and the line test. -/
def Relay.portEvents (r : Relay) : List (Bool × Instr) :=
  let due := fun timer => reached timer r.instant
  [ (due r.field.quiet, .fieldLineQuiet),
    (due r.upper.silence, .silenceTimerExpiry .upper),
    (due r.lower.silence, .silenceTimerExpiry .lower),
    (due r.upper.window, .activityWindowClose .upper),
    (due r.lower.window, .activityWindowClose .lower),
    (due r.lineLoss.confirm, .upperConfirmExpiry),
    (due r.generator.gapTimer, .testGapExpiry) ]

/-- The deadlines of the stations and barriers. -/
def Relay.deadlineEvents (r : Relay) : List (Bool × Instr) :=
  let life := r.tables.identity.evidenceLife
  (List.finRange 48).map
      (fun i => (reached (r.stations.get i).deadline r.now, .stationDeadlineExpiry i))
    ++ (List.finRange 8).flatMap (fun b =>
      [ (reached (expiryOf life (r.barriers.get b).measures.shake) r.now, .shakeExpiry b .shake),
        (reached (expiryOf life (r.barriers.get b).measures.rain) r.now, .shakeExpiry b .rain),
        (reached (r.barriers.get b).hold r.now, .holdExpiry b),
        (reached (r.barriers.get b).repeatAt r.now, .repeatExpiry b) ])

/-- The key timer, whose expiry is a field reset: it comes before the deadlines, since an expiry at the
moment of a reset has no effect (R102; log 47). -/
def Relay.keyEvents (r : Relay) : List (Bool × Instr) :=
  [(reached r.key.timer r.instant, .keyTimerExpiry)]

/-- The timers of the channels, lines, inputs and agent. -/
def Relay.localEvents (r : Relay) : List (Bool × Instr) :=
  let due := fun timer => reached timer r.instant
  (List.finRange 4).map (fun c => (due (r.channels.get c).segmentEnd, .stepBoundary c))
    ++ (List.finRange 4).map (fun l => (due (r.lines.get l).sensing, .sensingTimerExpiry l))
    ++ (List.finRange 8).map (fun i => (due (r.inputs.get i).timer, .debounceExpiry i))
    ++ [(due r.agent.healthTimer, .healthTimerExpiry)]

/-- The supply watch and, in STARTING, the straps. -/
def Relay.watchEvents (r : Relay) : List (Bool × Instr) :=
  [ (decide (r.store.nextSample ≤ r.now), .batterySample r.pins.centivolts usualOrder),
    (r.store.mode == .starting && decide (r.store.nextStrap ≤ r.now),
      .strapRetry r.pins.straps 0) ]

/-- Every timer event, with whether it is due, in the order the model takes them (log 2). -/
def Relay.timerEvents (r : Relay) : List (Bool × Instr) :=
  if r.store.mode = .starting then r.watchEvents
  else r.keyEvents ++ r.portEvents ++ r.deadlineEvents ++ r.localEvents ++ r.watchEvents

/-- The timer event that comes next, if one is due and the clock runs. -/
def Relay.nextEvent (r : Relay) : Option Instr :=
  if r.clock.lost then none else (r.timerEvents.find? Prod.fst).map Prod.snd

/-- One millisecond passes, while the oscillator runs (R187). -/
def Relay.passTime (r : Relay) : Relay :=
  if r.clock.lost then r else r.setClock { r.clock with ms := r.clock.ms + 1 }

end Sys2Proof.Machine
end

