-- ==== Sys2Proof/Machine/Dispatch.lean ====
section
/-! DEFINITION. One arm per command: each command's effect on everything but the queue. -/

namespace Sys2Proof.Machine

/-- The effect of a command (spec/opcode_table.json). -/
def exec (i : Instr) (s : State) : Host.Outcome State Fault Refusal :=
  match i with
  | .lineEnergy port => Sys2Proof.Machine.execLineEnergy port s
  | .silenceTimerExpiry port => Sys2Proof.Machine.execSilenceTimerExpiry port s
  | .lineWord port word => Sys2Proof.Machine.execLineWord port word s
  | .activityWindowClose port => Sys2Proof.Machine.execActivityWindowClose port s
  | .frameReceived port polarity => Sys2Proof.Machine.execFrameReceived port polarity s
  | .fieldLineQuiet => Sys2Proof.Machine.execFieldLineQuiet s
  | .transmitTake port => Sys2Proof.Machine.execTransmitTake port s
  | .transmitComplete port => Sys2Proof.Machine.execTransmitComplete port s
  | .upperConfirmExpiry => Sys2Proof.Machine.execUpperConfirmExpiry s
  | .testGapExpiry => Sys2Proof.Machine.execTestGapExpiry s
  | .stationDeadlineExpiry station => Sys2Proof.Machine.execStationDeadlineExpiry station s
  | .shakeExpiry barrier kind => Sys2Proof.Machine.execShakeExpiry barrier kind s
  | .holdExpiry barrier => Sys2Proof.Machine.execHoldExpiry barrier s
  | .repeatExpiry barrier => Sys2Proof.Machine.execRepeatExpiry barrier s
  | .stepBoundary channel => Sys2Proof.Machine.execStepBoundary channel s
  | .loadConditionChange line condition => Sys2Proof.Machine.execLoadConditionChange line condition s
  | .sensingTimerExpiry line => Sys2Proof.Machine.execSensingTimerExpiry line s
  | .inputLevelChange input level => Sys2Proof.Machine.execInputLevelChange input level s
  | .debounceExpiry input => Sys2Proof.Machine.execDebounceExpiry input s
  | .keyTimerExpiry => Sys2Proof.Machine.execKeyTimerExpiry s
  | .readRecord origin tag table index => Sys2Proof.Machine.execReadRecord origin tag table index s
  | .writeRecord origin tag table index record => Sys2Proof.Machine.execWriteRecord origin tag table index record s
  | .readState origin tag what index part => Sys2Proof.Machine.execReadState origin tag what index part s
  | .clearPortCounters origin tag => Sys2Proof.Machine.execClearPortCounters origin tag s
  | .clearDropCounters origin tag => Sys2Proof.Machine.execClearDropCounters origin tag s
  | .clearStationCounters origin tag => Sys2Proof.Machine.execClearStationCounters origin tag s
  | .clearChannelFlags origin tag => Sys2Proof.Machine.execClearChannelFlags origin tag s
  | .lockCounters origin tag => Sys2Proof.Machine.execLockCounters origin tag s
  | .lockAndClear origin tag => Sys2Proof.Machine.execLockAndClear origin tag s
  | .standDown origin tag barrier => Sys2Proof.Machine.execStandDown origin tag barrier s
  | .rearmWire origin tag barrier position => Sys2Proof.Machine.execRearmWire origin tag barrier position s
  | .testSound origin tag channel cadence => Sys2Proof.Machine.execTestSound origin tag channel cadence s
  | .stopChannel origin tag channel => Sys2Proof.Machine.execStopChannel origin tag channel s
  | .lineTest origin tag port count length gap target => Sys2Proof.Machine.execLineTest origin tag port count length gap target s
  | .lineTestStop origin tag => Sys2Proof.Machine.execLineTestStop origin tag s
  | .save origin tag => Sys2Proof.Machine.execSave origin tag s
  | .restart origin tag => Sys2Proof.Machine.execRestart origin tag s
  | .saveEnd answers reads => Sys2Proof.Machine.execSaveEnd answers reads s
  | .powerOn pins => Sys2Proof.Machine.execPowerOn pins s
  | .clockLoss => Sys2Proof.Machine.execClockLoss s
  | .clockResume pins => Sys2Proof.Machine.execClockResume pins s
  | .strapRetry straps readMs => Sys2Proof.Machine.execStrapRetry straps readMs s
  | .batterySample centivolts order => Sys2Proof.Machine.execBatterySample centivolts order s
  | .healthTimerExpiry => Sys2Proof.Machine.execHealthTimerExpiry s

end Sys2Proof.Machine
end

