-- ==== Sys2Proof/Safety.lean ====
section
/-! DEFINITION. What stays true of the part, and what one command can leave unchanged: the
predicates that statements about it are made of. -/

namespace Sys2Proof.Machine

/-! ## What stays true -/

/-- The buffers in all five places of R37. -/
def Relay.buffers (r : Relay) : Nat :=
  r.pool.free + r.pool.urgent.length + r.pool.routine.length + r.pool.up.length
    + flag r.upper.sending.isSome + flag r.lower.sending.isSome

/-- The pool is in balance (R37). -/
def Relay.PoolBalanced (r : Relay) : Prop :=
  r.buffers = 40

/-- Neither capped queue is above its cap (R38). -/
def Relay.WithinCaps (r : Relay) : Prop :=
  r.pool.routine.length ≤ r.routineCap ∧ r.pool.up.length ≤ 8

/-- The serial memory is in its canonical form (log 6). -/
def Relay.MemoryOk (r : Relay) : Prop :=
  Memory.wf r.memory.cells = true

/-- Miss count and deadline agree with the state of a station (R62). -/
def StationDyn.Agrees (d : StationDyn) : Prop :=
  match d.state with
  | .unheard => d.misses = 0
  | .live => d.misses = 0
  | .late => (d.misses = 1 ∨ d.misses = 2) ∧ d.deadline.isSome = true
  | .silent => d.misses = 3 ∧ d.deadline = none

/-- A station at rest: UNHEARD without a deadline (R64, R67). -/
def StationDyn.Resting (d : StationDyn) : Prop :=
  d.state = .unheard ∧ d.deadline = none

/-- The deadline of a station is present exactly when it is watched, and only a watched one is LATE or
SILENT; an empty record, and one outside ASSESSING mode, rests (R62, R64, R67). -/
def StationDyn.Watched (d : StationDyn) (mode : Mode) (x : Option StationConfig) : Prop :=
  match x with
  | none => d.Resting
  | some c =>
    (mode = .assessing →
        (d.state = .unheard ∨ d.state = .live → (d.deadline.isSome = true ↔ c.interval ≠ 0))
        ∧ (d.state = .late ∨ d.state = .silent → c.interval ≠ 0))
      ∧ (mode ≠ .assessing → d.Resting)

/-- The fills of a station lie in their range (R74, R77). -/
def StationDyn.FillsOk (d : StationDyn) : Prop :=
  d.window.length ≤ 3 ∧ (∀ f ∈ d.window, f ≤ 1200) ∧ ∀ f ∈ d.smoothed, f ≤ 1200

/-- The measures of a barrier lie in their ranges (R77). -/
def Measures.InRange (m : Measures) : Prop :=
  m.fill ≤ 1200 ∧ (∀ v ∈ m.rate, -999 ≤ v ∧ v ≤ 999) ∧ m.ttf ≤ 65535

/-- Every station's state, miss count and deadline agree (R62). -/
def Relay.StationsAgree (r : Relay) : Prop :=
  ∀ i, (r.stations.get i).Agrees

/-- Every station's deadline is present exactly when the station is watched (R62, R64). -/
def Relay.DeadlinesAgree (r : Relay) : Prop :=
  ∀ i, (r.stations.get i).Watched r.store.mode (r.tables.stations.get i)

/-- Every fill, rate and time to full lies in its range (R77). -/
def Relay.FiguresOk (r : Relay) : Prop :=
  (∀ i, (r.stations.get i).FillsOk) ∧ ∀ b, (r.barriers.get b).measures.InRange

/-- A barrier that is not assessed is CALM (R94). -/
def Relay.CalmUnlessAssessed (r : Relay) : Prop :=
  ∀ b, r.assessed b = false → (r.barriers.get b).level = .calm

/-- No hold deadline runs at EVACUATE (R101). -/
def Relay.NoHoldAtEvacuate (r : Relay) : Prop :=
  ∀ b, (r.barriers.get b).level = .evacuate → (r.barriers.get b).hold = none

/-- A channel in IDLE holds nothing of a sounding (R135). -/
def Channel.Settled (ch : Channel) : Prop :=
  ch.state = .idle →
    ch.owner = none ∧ ch.cadence = none ∧ ch.segment = none ∧ ch.segmentEnd = none
      ∧ ch.next = none ∧ ch.stop = none ∧ ch.continueMark = false ∧ ch.waiting = none

/-- Every channel in IDLE holds nothing of a sounding (R135). -/
def Relay.ChannelsSettled (r : Relay) : Prop :=
  ∀ c, (r.channels.get c).Settled

/-- No two occupied station records hold one address (R46). -/
def Tables.AddressesDistinct (t : Tables) : Prop :=
  ∀ i j c e, t.stations.get i = some c → t.stations.get j = some e → c.address = e.address → i = j

/-- Each output line is bound to at most one channel (R131). -/
def Tables.LinesDistinct (t : Tables) : Prop :=
  ∀ c e l, (t.bindings.get c).line = some l → (t.bindings.get e).line = some l → c = e

/-- At most two input records carry RESET_KEY (R155). -/
def Tables.KeysOk (t : Tables) : Prop :=
  ((List.finRange 8).filter (fun i => (t.inputs.get i).function == .resetKey)).length ≤ 2

/-- An identity record whose every field holds a value of its range (section 10.1, R163). -/
def Identity.Ok (d : Identity) : Prop :=
  d.inRange = true ∧ ∀ m, d.manager = some m → m.isDevice = true

/-- A station record whose every field holds a value of its range (R45). -/
def StationConfig.Ok (c : StationConfig) : Prop :=
  c.address.isDevice = true ∧ c.interval ≤ 3600
    ∧ ∀ b e f, c.role = .gauge b e f → 200 ≤ e ∧ e ≤ 60000 ∧ 100 ≤ f ∧ f + 100 ≤ e

/-- A barrier record whose every field holds a value of its range (R92). -/
def BarrierConfig.Ok (c : BarrierConfig) : Prop :=
  c.inRange = true ∧ ∀ a k, c.feeder = some (a, k) → a.isDevice = true

/-- An input record whose debounce count lies in its range (R155). -/
def InputConfig.Ok (c : InputConfig) : Prop :=
  1 ≤ c.debounce ∧ c.debounce ≤ 25

/-- Every record of the working tables holds values of its ranges only (R170, R184). -/
def Tables.InRange (t : Tables) : Prop :=
  t.identity.Ok ∧ (∀ i c, t.stations.get i = some c → c.Ok) ∧ (∀ b, (t.barriers.get b).Ok)
    ∧ (∀ k c, t.cadences.get k = some c → c.inRange = true) ∧ ∀ i, (t.inputs.get i).Ok

/-- A record that holds values of its ranges only (R170). -/
def Record.InRange : Record → Prop
  | .identity d => d.Ok
  | .station _ x => ∀ c, x = some c → c.Ok
  | .barrier _ c => c.Ok
  | .cadence _ x => ∀ c, x = some c → c.inRange = true
  | .dispatch _ _ => True
  | .input _ c => c.Ok
  | .binding _ _ => True

/-- The ranges of the records of the working tables, and the rules that concern more than one of
them and the own address (R46, R131, R155, R163, R170). -/
def Relay.TablesOk (r : Relay) : Prop :=
  r.tables.InRange ∧ r.tables.AddressesDistinct ∧ r.tables.LinesDistinct ∧ r.tables.KeysOk
    ∧ (∀ i c, r.tables.stations.get i = some c → c.address ≠ r.store.own)
    ∧ ∀ m, r.tables.identity.manager = some m → m ≠ r.store.own

/-- In STARTING everything but the clock, the pins, the memory and the stored-tables block is as the
reset cleared it (R186). -/
def Relay.ClearInStarting (r : Relay) : Prop :=
  r.store.mode = .starting →
    r = { Relay.cleared r.store.cause r.pins r.memory r.freeCount with
          clock := r.clock, store := r.store }

/-! ## What a command can leave unchanged -/

/-- Two parts that differ at most in what an offer to the routine queue touches: the pool, the LOWER
transmitter, the relay sequence with its fresh count, and the agent's counters. -/
structure SameButReply (r t : Relay) : Prop where
  clock : t.clock = r.clock
  pins : t.pins = r.pins
  memory : t.memory = r.memory
  store : t.store = r.store
  tables : t.tables = r.tables
  upper : t.upper = r.upper
  lower : t.lower = { r.lower with sending := t.lower.sending }
  field : t.field = r.field
  lineLoss : t.lineLoss = r.lineLoss
  generator : t.generator = r.generator
  checker : t.checker = r.checker
  stations : t.stations = r.stations
  barriers : t.barriers = r.barriers
  quiet : t.emitter.quietActed = r.emitter.quietActed
    ∧ t.emitter.quietNotActed = r.emitter.quietNotActed
  channels : t.channels = r.channels
  lines : t.lines = r.lines
  inputs : t.inputs = r.inputs
  key : t.key = r.key
  agent : t.agent = { r.agent with repliesRefused := t.agent.repliesRefused }
  freeCount : t.freeCount = r.freeCount

/-- Two parts that differ at most in what the evaluation of barriers, the hand-over of their changes
and the building of ALERT frames touch: the barriers, the pool and its transmitters, the generator,
the relay sequence with its fresh count, the channels and the lines (R110). -/
structure SameButHandOver (r t : Relay) : Prop where
  clock : t.clock = r.clock
  pins : t.pins = r.pins
  memory : t.memory = r.memory
  store : t.store = r.store
  tables : t.tables = r.tables
  upper : t.upper = { r.upper with sending := t.upper.sending }
  lower : t.lower = { r.lower with sending := t.lower.sending }
  field : t.field = r.field
  lineLoss : t.lineLoss = r.lineLoss
  checker : t.checker = r.checker
  stations : t.stations = r.stations
  quiet : t.emitter.quietActed = r.emitter.quietActed
    ∧ t.emitter.quietNotActed = r.emitter.quietNotActed
  inputs : t.inputs = r.inputs
  key : t.key = r.key
  agent : t.agent = r.agent
  freeCount : t.freeCount = r.freeCount

/-! ## When a request is carried out -/

/-- The agent acts on requests of an origin and no restart is pending (R165, R166 step 2); in
STARTING and while the clock is lost no request reaches it (R186, R187). -/
def Relay.Serves (r : Relay) (origin : Addr) : Prop :=
  r.awake = true ∧ r.actsFor origin = true ∧ r.agent.restartPending = false

/-- The request that a management command carries: origin, tag, code and arguments (R197). -/
def requestOf : Instr → Option (Addr × Byte × Nat × List Byte)
  | .readRecord o g t i => some (o, g, 1, [t, i])
  | .writeRecord o g t i bs => some (o, g, 2, t :: i :: bs)
  | .readState o g w i p => some (o, g, 3, [w, i, p])
  | .clearPortCounters o g => some (o, g, 4, [0#8])
  | .clearDropCounters o g => some (o, g, 4, [1#8])
  | .clearStationCounters o g => some (o, g, 4, [2#8])
  | .clearChannelFlags o g => some (o, g, 4, [3#8])
  | .lockCounters o g => some (o, g, 5, [])
  | .lockAndClear o g => some (o, g, 6, [])
  | .standDown o g b => some (o, g, 7, [b])
  | .rearmWire o g b p => some (o, g, 8, [b, p])
  | .testSound o g c k => some (o, g, 9, [c, k])
  | .stopChannel o g c => some (o, g, 10, [c])
  | .lineTest o g p n l gap t =>
    some (o, g, 11, p :: be2 n.toNat ++ l :: gap :: be2 t.toNat)
  | .lineTestStop o g => some (o, g, 12, [])
  | .save o g => some (o, g, 13, [])
  | .restart o g => some (o, g, 14, [])
  | _ => none

/-- An accepted STAND-DOWN can be among the effects of a command: a request of its own, or a frame
that ends at LOWER, the one port that takes MGMT-REQ frames (R25). -/
def mayStandDown : Instr → Bool
  | .standDown _ _ _ => true
  | .lineWord .lower _ => true
  | .frameReceived .lower _ => true
  | _ => false

/-- A command acts whatever the part's condition: it sets an input pin, stops the clock or begins a
reset (R185, R186, R187; log 30). Every other one is received or timed by the part. -/
def actsAsleep : Instr → Bool
  | .loadConditionChange _ _ => true
  | .inputLevelChange _ _ => true
  | .powerOn _ => true
  | .clockLoss => true
  | .clockResume _ => true
  | .strapRetry _ _ => true
  | .batterySample _ _ => true
  | _ => false

/-- The timer of an expiry command has been reached (log 3); a command that is no expiry, or one
whose moment the stored-tables block keeps, is not asked. -/
def Relay.due (r : Relay) : Instr → Bool
  | .fieldLineQuiet => reached r.field.quiet r.clock.ms
  | .silenceTimerExpiry p => reached (r.port p).silence r.clock.ms
  | .activityWindowClose p => reached (r.port p).window r.clock.ms
  | .upperConfirmExpiry => reached r.lineLoss.confirm r.clock.ms
  | .testGapExpiry => reached r.generator.gapTimer r.clock.ms
  | .stationDeadlineExpiry i => reached (r.stations.get i).deadline r.now
  | .shakeExpiry b k =>
    reached (expiryOf r.tables.identity.evidenceLife ((r.barriers.get b).measures.entries k)) r.now
  | .holdExpiry b => reached (r.barriers.get b).hold r.now
  | .repeatExpiry b => reached (r.barriers.get b).repeatAt r.now
  | .stepBoundary c => reached (r.channels.get c).segmentEnd r.clock.ms
  | .sensingTimerExpiry l => reached (r.lines.get l).sensing r.clock.ms
  | .debounceExpiry i => reached (r.inputs.get i).timer r.clock.ms
  | .keyTimerExpiry => reached r.key.timer r.clock.ms
  | .healthTimerExpiry => reached r.agent.healthTimer r.clock.ms
  | _ => true

end Sys2Proof.Machine
end

