-- ==== Sys2Proof/Certificates/Slice0/Obligations.lean ====
section
/-! DEFINITION. The statements put to the provers. A state is written ⟨r, q⟩: the part r and the
queue q of waiting commands. -/

section
open Sys2Proof Sys2Proof.Machine

/-! ## The queue, the clock and reset -/

/-- A step runs the command at the front of the queue, on the state with the queue's rest (log 1). -/
def Obligations.StepRunsTheFrontCommand : Prop :=
  ∀ (c : Instr) (r : Relay) (q : List Instr), step ⟨r, c :: q⟩ = exec c ⟨r, q⟩

/-- With nothing waiting, a step takes the timer event that is due, or lets one millisecond pass, or, with
the clock lost, changes nothing (the model's choice, log 2; R187: no timer advances then). The event it
takes is due: an expiry whose timer has been reached, a battery sample at its moment, of the voltage at
the pin, or in STARTING a strap read at its moment. None is taken exactly when none is due: while the part
is awake no timer, deadline or sample has been reached, and in STARTING neither sample nor strap read; of
several due ones it takes one, in the model's order (log 2). -/
def Obligations.EmptyQueueLetsTheClockRun : Prop :=
  (∀ r : Relay,
    (∀ c, r.nextEvent = some c → step ⟨r, []⟩ = exec c ⟨r, []⟩)
    ∧ (r.nextEvent = none → r.clock.lost = false →
        step ⟨r, []⟩ = .next ⟨r.setClock { r.clock with ms := r.clock.ms + 1 }, []⟩)
    ∧ (r.clock.lost = true → step ⟨r, []⟩ = .next ⟨r, []⟩))
  ∧ (∀ (r : Relay) (c : Instr), r.nextEvent = some c →
      r.clock.lost = false ∧ r.due c = true
      ∧ ((∃ p, c = .silenceTimerExpiry p) ∨ (∃ p, c = .activityWindowClose p)
        ∨ (∃ i, c = .stationDeadlineExpiry i) ∨ (∃ b k, c = .shakeExpiry b k)
        ∨ (∃ b, c = .holdExpiry b) ∨ (∃ b, c = .repeatExpiry b) ∨ (∃ n, c = .stepBoundary n)
        ∨ (∃ l, c = .sensingTimerExpiry l) ∨ (∃ i, c = .debounceExpiry i)
        ∨ c ∈ [.fieldLineQuiet, .upperConfirmExpiry, .testGapExpiry, .keyTimerExpiry,
            .healthTimerExpiry]
        ∨ ((∃ order, c = .batterySample r.pins.centivolts order) ∧ r.store.nextSample ≤ r.now)
        ∨ (c = .strapRetry r.pins.straps 0 ∧ r.store.mode = .starting
            ∧ r.store.nextStrap ≤ r.now))
      ∧ (r.store.mode = .starting →
          (∃ v order, c = .batterySample v order) ∨ ∃ a n, c = .strapRetry a n))
  ∧ ∀ (r : Relay) (early : Option Nat → Nat → Prop) (life : Nat),
      (∀ timer now, early timer now ↔ ∀ e, timer = some e → now < e) →
      life = r.tables.identity.evidenceLife →
      (r.awake = true →
        (r.nextEvent = none ↔
          (∀ timer ∈ [r.field.quiet, r.upper.silence, r.lower.silence, r.upper.window,
              r.lower.window, r.lineLoss.confirm, r.generator.gapTimer, r.key.timer,
              r.agent.healthTimer], early timer r.clock.ms)
          ∧ (∀ i, early (r.stations.get i).deadline r.now)
          ∧ (∀ b, early (r.barriers.get b).hold r.now ∧ early (r.barriers.get b).repeatAt r.now
            ∧ early ((r.barriers.get b).measures.shake.head?.map (fun x => x.time + life)) r.now
            ∧ early ((r.barriers.get b).measures.rain.head?.map (fun x => x.time + life)) r.now)
          ∧ (∀ c, early (r.channels.get c).segmentEnd r.clock.ms)
          ∧ (∀ l, early (r.lines.get l).sensing r.clock.ms)
          ∧ (∀ i, early (r.inputs.get i).timer r.clock.ms)
          ∧ r.now < r.store.nextSample))
      ∧ (r.clock.lost = false → r.store.mode = .starting →
          (r.nextEvent = none ↔ r.now < r.store.nextSample ∧ r.now < r.store.nextStrap))

/-- What reset leaves, block by block (R6, R7, R11, R14, R17, R18, R21, R37, R43, R47, R77, R93, R118,
R135, R148, R156, R161, R165, R183, R186), and that every predicate that each step keeps holds there. -/
def Obligations.ResetClearsThePart : Prop :=
  State.reset.pending = []
  ∧ State.reset.relay.store.mode = .starting ∧ State.reset.relay.store.cause = .powerOn
  ∧ State.reset.relay.now = 0 ∧ State.reset.relay.store.saving = false
  ∧ (∀ p, (State.reset.relay.port p).link = .down ∧ (State.reset.relay.port p).window = none
      ∧ (State.reset.relay.port p).silence = none ∧ (State.reset.relay.port p).assembly = none
      ∧ (State.reset.relay.port p).sending = none ∧ (State.reset.relay.port p).polarity = .normal
      ∧ (State.reset.relay.port p).counters = PortCounters.zero)
  ∧ State.reset.relay.field
    = { assembly := none, quiet := none, goodFrames := 0, crcErrors := 0, inversions := 0 }
  ∧ State.reset.relay.transmittersOn = false
  ∧ State.reset.relay.lineLoss = { lost := false, confirm := none }
  ∧ State.reset.relay.pool.free = 40 ∧ State.reset.relay.pool.urgent = []
  ∧ State.reset.relay.pool.routine = [] ∧ State.reset.relay.pool.up = []
  ∧ State.reset.relay.pool.run = 0 ∧ State.reset.relay.pool.drops = DropCounters.zero
  ∧ State.reset.relay.generator.running = false ∧ State.reset.relay.generator.params = none
  ∧ State.reset.relay.generator.last = none ∧ State.reset.relay.generator.seed = 0#8
  ∧ State.reset.relay.generator.finished = 0 ∧ State.reset.relay.generator.outstanding = false
  ∧ State.reset.relay.generator.gapTimer = none
  ∧ State.reset.relay.checker.upper = TestCounts.zero
  ∧ State.reset.relay.checker.lower = TestCounts.zero
  ∧ State.reset.relay.checker.upperSeed = none ∧ State.reset.relay.checker.lowerSeed = none
  ∧ State.reset.relay.checker.snapshot = none
  ∧ (∀ i, State.reset.relay.tables.stations.get i = none)
  ∧ (∀ i, (State.reset.relay.stations.get i).state = .unheard
      ∧ (State.reset.relay.stations.get i).misses = 0
      ∧ (State.reset.relay.stations.get i).deadline = none
      ∧ (State.reset.relay.stations.get i).lastSeq = none
      ∧ (State.reset.relay.stations.get i).lastSample = none
      ∧ (State.reset.relay.stations.get i).lastReading = none
      ∧ (State.reset.relay.stations.get i).window = []
      ∧ (State.reset.relay.stations.get i).smoothed = none
      ∧ (State.reset.relay.stations.get i).counters = StationCounters.zero)
  ∧ (∀ b, State.reset.relay.barriers.get b =
      { level := .calm
        causes := []
        hold := none
        inflowBroken := false
        overflowBroken := false
        gaugeLost := false
        manual := false
        feeder := none
        lineBase := none
        quieted := none
        serial := 0
        repeatAt := none
        measures :=
          { fill := 0
            held := false
            sight := .ungauged
            source := none
            anchor := none
            rate := none
            ttf := 65535
            shake := []
            rain := [] } })
  ∧ State.reset.relay.emitter
    = { sequence := 0#8, fresh := 0, quietActed := 0, quietNotActed := 0 }
  ∧ (∀ c, State.reset.relay.channels.get c =
      { state := .idle
        owner := none
        cadence := none
        step := 1
        rounds := 0
        segment := none
        segmentEnd := none
        next := none
        continueMark := false
        stop := none
        waiting := none
        normalDone := false
        abnormalDone := false
        continued := false
        last := none })
  ∧ (∀ l, State.reset.relay.lines.get l = { fault := false, sensing := none }
      ∧ State.reset.relay.lineDriven l = false)
  ∧ (∀ i, (State.reset.relay.inputs.get i).state = .normal
      ∧ (State.reset.relay.inputs.get i).timer = none
      ∧ (State.reset.relay.inputs.get i).trips = 0)
  ∧ State.reset.relay.key = { state := .disarmed, timer := none }
  ∧ State.reset.relay.agent =
    { restartPending := false
      requester := none
      healthTimer := none
      actedOn := 0
      unauthorised := 0
      repliesRefused := 0 }
  ∧ State.reset.relay.PoolBalanced ∧ State.reset.relay.WithinCaps ∧ State.reset.relay.MemoryOk
  ∧ State.reset.relay.StationsAgree ∧ State.reset.relay.DeadlinesAgree
  ∧ State.reset.relay.FiguresOk
  ∧ State.reset.relay.CalmUnlessAssessed ∧ State.reset.relay.NoHoldAtEvacuate
  ∧ State.reset.relay.TablesOk ∧ State.reset.relay.ChannelsSettled
  ∧ State.reset.relay.ClearInStarting

/-- Every command answers a next state and leaves the queue as it is: that no fault stops the part is the
model's reading of a manual that names none (log 40). In STARTING and while the clock is lost a command
other than a pin, the clock or a reset changes nothing (R6, R186, R187; which commands act then, log 30);
an expiry command whose timer has not been reached changes nothing (the model's reading, log 3). -/
def Obligations.EveryCommandAnswersANextState : Prop :=
  ∀ (c : Instr) (r : Relay) (q : List Instr),
    (∃ t, exec c ⟨r, q⟩ = .next ⟨t, q⟩)
    ∧ (r.awake = false → actsAsleep c = false → exec c ⟨r, q⟩ = .next ⟨r, q⟩)
    ∧ (r.due c = false → exec c ⟨r, q⟩ = .next ⟨r, q⟩)

/-! ## What every step keeps -/

/-- Free buffers, queued frames and frames in transmission are 40 at every moment (R37). -/
def Obligations.BuffersAreAlwaysForty : Prop :=
  ∀ s t, s.relay.PoolBalanced → step s = .next t → t.relay.PoolBalanced

/-- The routine queue stays within the cap of the band and the up queue within 8 (R38); in STARTING
the part is as the reset cleared it (R186). -/
def Obligations.QueuesStayWithinTheirCaps : Prop :=
  ∀ s t, s.relay.WithinCaps ∧ s.relay.ClearInStarting → step s = .next t →
    t.relay.WithinCaps ∧ t.relay.ClearInStarting

/-- The serial memory keeps its canonical form (log 6), with commands whose operands are fit. -/
def Obligations.MemoryStaysCanonical : Prop :=
  ∀ s t, (∀ c ∈ s.pending, c.wellFormed = true) → s.relay.MemoryOk → step s = .next t →
    t.relay.MemoryOk

/-- State, miss count and deadline of every station agree (R62), and every fill, rate and time to full
stays in its range (R77). The deadline of an UNHEARD or LIVE station is present exactly when the station
is watched, only a watched station is LATE or SILENT, and an empty record, or one outside ASSESSING
mode, is UNHEARD without a deadline (R62, R64, R67). -/
def Obligations.StationsAndFiguresStayInRange : Prop :=
  (∀ s t, s.relay.StationsAgree → s.relay.FiguresOk → step s = .next t →
    t.relay.StationsAgree ∧ t.relay.FiguresOk)
  ∧ ∀ s t, s.relay.DeadlinesAgree → step s = .next t → t.relay.DeadlinesAgree

/-- A barrier that is not assessed stays CALM (R94). -/
def Obligations.OnlyAssessedBarriersLeaveCalm : Prop :=
  ∀ s t, s.relay.CalmUnlessAssessed → step s = .next t → t.relay.CalmUnlessAssessed

/-- No hold deadline runs at EVACUATE, and a barrier leaves EVACUATE only through a STAND-DOWN, which
a request or a frame that ends at LOWER can carry, or a power-on or clock-loss reset (R101). -/
def Obligations.EvacuateIsHeldByItsLatch : Prop :=
  (∀ s t, s.relay.NoHoldAtEvacuate → step s = .next t → t.relay.NoHoldAtEvacuate)
  ∧ ∀ (c : Instr) (s t : State) (b : Fin 8), s.relay.NoHoldAtEvacuate →
      mayStandDown c = false → (∀ p, c ≠ .powerOn p) → (∀ p, c ≠ .clockResume p) →
      (s.relay.barriers.get b).level = .evacuate → exec c s = .next t →
      (t.relay.barriers.get b).level = .evacuate

/-- An alert serial stays within 16777215 and never decreases except at a power-on or clock-loss
reset (R121). -/
def Obligations.AlertSerialNeverDecreases : Prop :=
  ∀ (c : Instr) (s t : State), (∀ b, (s.relay.barriers.get b).serial ≤ 16777215) →
    exec c s = .next t →
    ∀ b, (t.relay.barriers.get b).serial ≤ 16777215
      ∧ ((∀ p, c ≠ .powerOn p) → (∀ p, c ≠ .clockResume p) →
          (s.relay.barriers.get b).serial ≤ (t.relay.barriers.get b).serial)

/-- Every record of the working tables keeps values of its ranges; station addresses stay distinct and
apart from the own address, each output line is bound to at most one channel, at most two inputs carry
RESET_KEY, and the manager address is not the own address (R46, R131, R155, R163, R170); in STARTING
the part is as the reset cleared it. -/
def Obligations.TablesStayConsistent : Prop :=
  ∀ s t, s.relay.TablesOk ∧ s.relay.ClearInStarting → step s = .next t →
    t.relay.TablesOk ∧ t.relay.ClearInStarting

/-- A channel in IDLE holds nothing of a sounding (R135). -/
def Obligations.IdleChannelsHoldNothing : Prop :=
  ∀ s t, s.relay.ChannelsSettled → step s = .next t → t.relay.ChannelsSettled

/-! ## Layouts -/

/-- Every record of the seven tables that is in range is read back from its bytes, whole (R198). A load of
an image judges each record alone, at its place, and gives it its emptied value where it fails; then, in
index order, a station address held before or by the part itself empties the record, a line named before
is made absent, a third RESET_KEY becomes UNUSED, and a manager address that is the own one is made
absent; each replacement is counted (R46, R184). -/
def Obligations.RecordsReadBackFromTheirBytes : Prop :=
  ((∀ d : Identity, d.Ok → decodeIdentity (encodeIdentity d) = some d)
  ∧ decodeStation (encodeStation none) = some none
  ∧ (∀ c : StationConfig, c.Ok → decodeStation (encodeStation (some c)) = some (some c))
  ∧ (∀ c : BarrierConfig, c.Ok → decodeBarrier (encodeBarrier c) = some c)
  ∧ decodeCadence (encodeCadence none) = some none
  ∧ (∀ c : Cadence, c.inRange = true → decodeCadence (encodeCadence (some c)) = some (some c))
  ∧ (∀ e : DispatchEntry, decodeDispatch (encodeDispatch e) = some e)
  ∧ (∀ c : InputConfig, c.Ok → decodeInput (encodeInput c) = some c)
  ∧ (∀ b : Binding, decodeBinding (encodeBinding b) = some b))
  ∧ ∀ (cells : List Host.Cell) (own : Addr) (place : Nat → Nat → Nat → List Byte)
      (loaded : Tables × Nat) (station : Fin 48 → Option StationConfig) (input : Fin 8 → InputConfig)
      (binding : Fin 4 → Binding) (held : Fin 48 → Bool) (third : Fin 8 → Bool)
      (named : Fin 4 → Bool), loaded = loadTables cells own →
      place = (fun base width i => Memory.readBytes cells (base + width * i) width) →
      (∀ i, station i = (decodeStation (place 33 12 i)).getD none) →
      (∀ i, input i = (decodeInput (place 1209 4 i)).getD InputConfig.emptied) →
      (∀ i, binding i = (decodeBinding (place 1241 2 i)).getD (Binding.emptied i)) →
      (∀ i, held i = true ↔ ∃ c, station i = some c
        ∧ (c.address = own ∨ ∃ j e, j < i ∧ station j = some e ∧ e.address = c.address)) →
      (∀ i, third i = true ↔ (input i).function = .resetKey ∧
        2 ≤ (List.finRange 8).countP (fun j => decide (j < i ∧ (input j).function = .resetKey))) →
      (∀ i, named i = true ↔ ∃ l j, (binding i).line = some l ∧ j < i ∧ (binding j).line = some l) →
      (decodeIdentity (place 6 27 0) = none → loaded.1.identity = Identity.defaults)
      ∧ (∀ d, decodeIdentity (place 6 27 0) = some d →
          (d.manager = some own → loaded.1.identity = { d with manager := none })
          ∧ (d.manager ≠ some own → loaded.1.identity = d))
      ∧ (∀ i, loaded.1.stations.get i = if held i = true then none else station i)
      ∧ (∀ i, loaded.1.barriers.get i
          = (decodeBarrier (place 609 25 i)).getD BarrierConfig.emptied)
      ∧ (∀ i, loaded.1.cadences.get i = (decodeCadence (place 809 19 i)).getD none)
      ∧ (∀ i, loaded.1.dispatch.get i = (decodeDispatch (place 1113 3 i)).getD DispatchEntry.emptied)
      ∧ (∀ i, loaded.1.inputs.get i
          = if third i = true then { input i with function := .unused } else input i)
      ∧ (∀ i, loaded.1.bindings.get i
          = if named i = true then { binding i with line := none } else binding i)
      ∧ loaded.2 = (match decodeIdentity (place 6 27 0) with
          | none => 1
          | some d => if d.manager = some own then 1 else 0)
        + (List.finRange 48).countP (fun i : Fin 48 => decide (decodeStation (place 33 12 i) = none))
        + (List.finRange 48).countP held
        + (List.finRange 8).countP (fun i : Fin 8 => decide (decodeBarrier (place 609 25 i) = none))
        + (List.finRange 16).countP (fun i : Fin 16 => decide (decodeCadence (place 809 19 i) = none))
        + (List.finRange 32).countP (fun i : Fin 32 => decide (decodeDispatch (place 1113 3 i) = none))
        + (List.finRange 8).countP (fun i : Fin 8 => decide (decodeInput (place 1209 4 i) = none))
        + (List.finRange 8).countP third
        + (List.finRange 4).countP (fun i : Fin 4 => decide (decodeBinding (place 1241 2 i) = none))
        + (List.finRange 4).countP named

/-- A frame the part sends passes the check of a receiver with the same feed order, and its header and
payload are read back whole (R10, R24, R196). -/
def Obligations.SentFramesPassTheChecks : Prop :=
  ∀ (t : Transmission), t.buffer.frame.origin.isDevice = true →
    t.buffer.frame.payload.length ≤ 56 →
    t.buffer.frame.cls.fitsLength t.buffer.frame.payload.length = true →
    crcGood t.order t.lineBytes = true
    ∧ ∀ port, parseFrame port (frameBody t.lineBytes)
        = some
          { port := port
            cls := t.buffer.frame.cls
            urgent := t.buffer.frame.urgent
            fresh := t.buffer.frame.fresh
            hops := t.buffer.frame.hops
            origin := t.buffer.frame.origin
            target := t.buffer.frame.target
            sequence := t.buffer.frame.sequence
            payload := t.buffer.frame.payload }

/-! ## Line ports -/

/-- Energy and the silence timer move a port between DOWN and SEEK, in either order of the two
(R3). -/
def Obligations.EnergyAndSilenceMoveTheLink : Prop :=
  ∀ (r : Relay) (q : List Instr) (p : LinkPort), r.awake = true →
    ((r.port p).link = .down →
      exec (.lineEnergy p) ⟨r, q⟩ = .next ⟨r.setPort p
        { r.port p with
          link := .seek
          seekRun := 0
          silence := some (r.clock.ms + 2000)
          window := none
          tally := 0 }, q⟩)
    ∧ ((r.port p).link = .seek →
        exec (.lineEnergy p) ⟨r, q⟩ = .next ⟨r.setPort p
          { r.port p with silence := some (r.clock.ms + 2000) }, q⟩)
    ∧ ((r.port p).link = .up → exec (.lineEnergy p) ⟨r, q⟩ = .next ⟨r, q⟩)
    ∧ ∀ e, (r.port p).link = .seek → (r.port p).silence = some e → e ≤ r.clock.ms →
        exec (.silenceTimerExpiry p) ⟨r, q⟩ = .next ⟨r.setPort p
          { r.port p with link := .down, silence := none }, q⟩
        ∧ exec (.lineEnergy p)
            ⟨r.setPort p { r.port p with link := .down, silence := none }, q⟩
          = .next ⟨r.setPort p
            { r.port p with
              link := .seek
              seekRun := 0
              silence := some (r.clock.ms + 2000)
              window := none
              tally := 0 }, q⟩

/-- Words count toward the seek run in SEEK, in either polarity, and are energy as well; the received
polarity follows an idle or frame-start word, and the change is counted. So a word at a port in DOWN moves
it to SEEK with a run of 0 and is then counted in its turn (that a word is energy first is read from R3,
log 10). The third word in a row enters UP: the silence timer stops, the first window opens with a tally
of 0, and at UPPER the confirm timer stops and upper line lost ends; where it was true, every line-watched
barrier is evaluated, in ascending order (the model's choice of order, log 17), before the transmitter
takes a frame (R3, R4, R7, R15, R17). -/
def Obligations.SeekRunCountsWordsAndEntersUp : Prop :=
  ((∀ (r : Relay) (q : List Instr) (p : LinkPort) (w : LineWord), r.awake = true →
      (r.port p).link = .seek →
      (∀ x, w = .idle x ∨ w = .frameStart x → (r.port p).seekRun < 2 →
        exec (.lineWord p.name w) ⟨r, q⟩ = .next ⟨r.setPort p
          { r.port p with
            seekRun := (r.port p).seekRun + 1
            silence := some (r.clock.ms + 2000)
            polarity := x
            counters :=
              if (r.port p).polarity = x then (r.port p).counters
              else
                { (r.port p).counters with
                  polarityChanges := min ((r.port p).counters.polarityChanges + 1) 65535 } }, q⟩)
      ∧ (w = .malformed →
          exec (.lineWord p.name w) ⟨r, q⟩ = .next ⟨r.setPort p
            { r.port p with seekRun := 0, silence := some (r.clock.ms + 2000) }, q⟩)
      ∧ (∀ b, w = .data b → (r.port p).assembly = none →
          exec (.lineWord p.name w) ⟨r, q⟩ = .next ⟨r.setPort p
            { r.port p with silence := some (r.clock.ms + 2000) }, q⟩))
  ∧ ∀ (r : Relay) (q : List Instr) (p : LinkPort) (w : LineWord) (x : Polarity),
      r.awake = true → (r.port p).link = .seek → (r.port p).seekRun = 2 →
      w = .idle x ∨ w = .frameStart x →
      ∃ t, exec (.lineWord p.name w) ⟨r, q⟩ = .next ⟨t, q⟩
        ∧ (t.port p).link = .up ∧ (t.port p).seekRun = 3 ∧ (t.port p).silence = none
        ∧ (t.port p).window = some (r.clock.ms + 500) ∧ (t.port p).tally = 0
        ∧ (t.port p).polarity = x ∧ (t.port p).assembly = (r.port p).assembly
        ∧ (t.port p).counters.linkDrops = (r.port p).counters.linkDrops
        ∧ (p = .upper → t.lineLoss = { lost := false, confirm := none })
        ∧ (p = .lower → t.lineLoss = r.lineLoss ∧ t.barriers = r.barriers)
        ∧ t.tables = r.tables ∧ t.stations = r.stations ∧ t.inputs = r.inputs)
  ∧ (∀ (r : Relay) (q : List Instr) (p : LinkPort) (w : LineWord) (x : Polarity) (entered : Relay),
      r.awake = true → (r.port p).link = .seek → (r.port p).seekRun = 2 →
      w = .idle x ∨ w = .frameStart x →
      entered = r.setPort p
        { r.port p with
          link := .up
          seekRun := 3
          silence := none
          window := some (r.clock.ms + 500)
          tally := 0
          polarity := x
          counters :=
            if (r.port p).polarity = x then (r.port p).counters
            else
              { (r.port p).counters with
                polarityChanges := min ((r.port p).counters.polarityChanges + 1) 65535 } } →
      (p = .lower → exec (.lineWord p.name w) ⟨r, q⟩ = .next ⟨entered.take .lower, q⟩)
      ∧ (p = .upper → r.lineLoss.lost = false →
          exec (.lineWord p.name w) ⟨r, q⟩
            = .next ⟨(entered.setLineLoss { lost := false, confirm := none }).take .upper, q⟩)
      ∧ (p = .upper → r.lineLoss.lost = true →
          exec (.lineWord p.name w) ⟨r, q⟩ = .next ⟨((List.finRange 8).foldl
            (fun t b => if (t.tables.barriers.get b).lineWatched = true then t.evaluate b else t)
            (entered.setLineLoss { lost := false, confirm := none })).take .upper, q⟩))
  ∧ ∀ (r : Relay) (q : List Instr) (p : LinkPort) (sought : Port), r.awake = true →
      (r.port p).link = .down →
      sought =
        { r.port p with
          link := .seek
          seekRun := 0
          silence := some (r.clock.ms + 2000)
          window := none
          tally := 0 } →
      (∀ w x, w = .idle x ∨ w = .frameStart x →
        exec (.lineWord p.name w) ⟨r, q⟩ = .next ⟨r.setPort p
          { sought with
            seekRun := 1
            polarity := x
            counters :=
              if (r.port p).polarity = x then (r.port p).counters
              else
                { (r.port p).counters with
                  polarityChanges := min ((r.port p).counters.polarityChanges + 1) 65535 } }, q⟩)
      ∧ exec (.lineWord p.name .malformed) ⟨r, q⟩ = .next ⟨r.setPort p sought, q⟩
      ∧ ∀ b, (r.port p).assembly = none →
          exec (.lineWord p.name (.data b)) ⟨r, q⟩ = .next ⟨r.setPort p sought, q⟩

/-- Words at a port that is UP fill its assembly buffer of 64 bytes; an idle or frame-start word of the
other polarity turns the port and is counted (R5, R7, R11). That a data byte on an inverted pair shows
its complement is the model's reading (log 15), and that the window's tally has no upper limit is its
choice (log 26). An idle word with a frame in assembly is said with the frame's check
(EndedFrameIsChecked). -/
def Obligations.WordsFillTheAssembly : Prop :=
  ∀ (r : Relay) (q : List Instr) (p : LinkPort), r.awake = true → (r.port p).link = .up →
    (∀ (x : Polarity) (k : Port),
      k = (if (r.port p).polarity = x then r.port p
        else
          { r.port p with
            polarity := x
            counters :=
              { (r.port p).counters with
                polarityChanges := min ((r.port p).counters.polarityChanges + 1) 65535 } }) →
      exec (.lineWord p.name (.frameStart x)) ⟨r, q⟩ = .next ⟨r.setPort p
        { k with
          tally := (r.port p).tally + 1
          counters :=
            if (r.port p).assembly = none then k.counters
            else
              { k.counters with
                runtsGiants := min ((r.port p).counters.runtsGiants + 1) 65535 }
          assembly := some { bytes := [], polarity := x, order := r.rxOrder p.name } }, q⟩
      ∧ ((r.port p).assembly = none →
          exec (.lineWord p.name (.idle x)) ⟨r, q⟩ = .next ⟨r.setPort p
            { k with tally := (r.port p).tally + 1 }, q⟩))
    ∧ (∀ b a, (r.port p).assembly = some a → a.bytes.length < 64 →
        exec (.lineWord p.name (.data b)) ⟨r, q⟩ = .next ⟨r.setPort p
          { r.port p with
            assembly := some
              { a with bytes := a.bytes ++ [if a.polarity = .normal then b else ~~~b] } }, q⟩)
    ∧ (∀ b a, (r.port p).assembly = some a → 64 ≤ a.bytes.length →
        exec (.lineWord p.name (.data b)) ⟨r, q⟩ = .next ⟨r.setPort p
          { r.port p with
            assembly := none
            counters :=
              { (r.port p).counters with
                runtsGiants := min ((r.port p).counters.runtsGiants + 1) 65535 } }, q⟩)
    ∧ (∀ a, (r.port p).assembly = some a →
        exec (.lineWord p.name .malformed) ⟨r, q⟩ = .next ⟨r.setPort p
          { r.port p with
            assembly := none
            counters :=
              { (r.port p).counters with
                crcErrors := min ((r.port p).counters.crcErrors + 1) 65535 } }, q⟩)
    ∧ ((r.port p).assembly = none →
        exec (.lineWord p.name .malformed) ⟨r, q⟩ = .next ⟨r, q⟩
        ∧ ∀ b, exec (.lineWord p.name (.data b)) ⟨r, q⟩ = .next ⟨r, q⟩)

/-- An ended assembly is checked for length and CRC, and a good frame goes to the classifier with its
port and without its CRC bytes. The idle word that ends it turns the port where its polarity differs;
FRAME_RECEIVED stands for that word and changes nothing with no frame in assembly (log 11). At FIELD an
idle word of either polarity and a line without a word for the time of two words end the frame in
assembly, and every failure, runts included, is a CRC error; before that time has passed, on the model's
base of whole milliseconds (log 13), the quiet line changes nothing (R12, R13). -/
def Obligations.EndedFrameIsChecked : Prop :=
  (∀ (r : Relay) (q : List Instr) (p : LinkPort) (x : Polarity) (a : Assembly)
      (k : Port) (c : Instr),
      r.awake = true → (r.port p).link = .up → (r.port p).assembly = some a →
      c = .frameReceived p.name x ∨ c = .lineWord p.name (.idle x) →
      k = (if (r.port p).polarity = x then r.port p
        else
          { r.port p with
            polarity := x
            counters :=
              { (r.port p).counters with
                polarityChanges := min ((r.port p).counters.polarityChanges + 1) 65535 } }) →
      (a.bytes.length < 8 →
        exec c ⟨r, q⟩ = .next ⟨r.setPort p
          { k with
            tally := (r.port p).tally + 1
            assembly := none
            counters :=
              { k.counters with
                runtsGiants := min ((r.port p).counters.runtsGiants + 1) 65535 } }, q⟩)
      ∧ (8 ≤ a.bytes.length → crcGood a.order a.bytes = false →
          exec c ⟨r, q⟩ = .next ⟨r.setPort p
            { k with
              tally := (r.port p).tally + 1
              assembly := none
              counters :=
                { k.counters with
                  crcErrors := min ((r.port p).counters.crcErrors + 1) 65535 } }, q⟩)
      ∧ (8 ≤ a.bytes.length → crcGood a.order a.bytes = true →
          exec c ⟨r, q⟩ = .next ⟨(r.setPort p
            { k with
              tally := (r.port p).tally + 1
              assembly := none
              counters :=
                { k.counters with
                  goodFrames := min ((r.port p).counters.goodFrames + 1) 65535 } }).classify
              p.name (a.bytes.take (a.bytes.length - 2)), q⟩))
  ∧ (∀ (r : Relay) (q : List Instr) (p : LinkPort) (x : Polarity), r.awake = true →
      (r.port p).assembly = none →
      exec (.frameReceived p.name x) ⟨r, q⟩ = .next ⟨r, q⟩)
  ∧ ∀ (r : Relay) (q : List Instr), r.awake = true →
      (∀ x, r.field.assembly = none →
        exec (.lineWord .field (.idle x)) ⟨r, q⟩ = .next ⟨r, q⟩
        ∧ exec (.frameReceived .field x) ⟨r, q⟩ = .next ⟨r, q⟩)
      ∧ (r.field.quiet = none → exec .fieldLineQuiet ⟨r, q⟩ = .next ⟨r, q⟩)
      ∧ (∀ e, r.field.quiet = some e → r.clock.ms < e →
          exec .fieldLineQuiet ⟨r, q⟩ = .next ⟨r, q⟩)
      ∧ ∀ (a : Assembly) (c : Instr), r.field.assembly = some a →
          (∃ x, c = .lineWord .field (.idle x) ∨ c = .frameReceived .field x)
            ∨ (c = .fieldLineQuiet ∧ ∃ e, r.field.quiet = some e ∧ e ≤ r.clock.ms) →
          (8 ≤ a.bytes.length ∧ crcGood a.order a.bytes = true →
            exec c ⟨r, q⟩ = .next ⟨(r.setField
              { r.field with
                assembly := none
                quiet := none
                goodFrames := min (r.field.goodFrames + 1) 65535 }).classify .field
                (a.bytes.take (a.bytes.length - 2)), q⟩)
          ∧ (¬ (8 ≤ a.bytes.length ∧ crcGood a.order a.bytes = true) →
            exec c ⟨r, q⟩ = .next ⟨r.setField
              { r.field with
                assembly := none
                quiet := none
                crcErrors := min (r.field.crcErrors + 1) 65535 }, q⟩)

/-- FIELD decides its polarity from each frame-start word alone, reads the frame in it, counts an
inverted start when it arrives, and takes nothing from idle words (R9). A start word that cuts a frame
short, a 65th byte and a malformed word inside a frame count as CRC errors (R11, R13). Each word that
belongs to a frame starts the time of two words anew: 5, 2.5 or 1.25 ms by the line rate, which the
model takes on its base of whole milliseconds as 5, 3 and 2 (log 13). That a data byte on an inverted
pair shows its complement is the model's reading (log 15). -/
def Obligations.FieldPolarityIsDecidedPerFrame : Prop :=
  ∀ (r : Relay) (q : List Instr) (twoWords : Nat), r.awake = true →
    twoWords = (match r.store.rate with
      | .bps4800 => 5
      | .bps9600 => 3
      | .bps19200 => 2) →
    (∀ x, exec (.lineWord .field (.frameStart x)) ⟨r, q⟩ = .next ⟨r.setField
      { assembly :=
          some { bytes := [], polarity := x, order := r.tables.identity.rxOrderField }
        quiet := some (r.clock.ms + twoWords)
        goodFrames := r.field.goodFrames
        crcErrors := if r.field.assembly = none then r.field.crcErrors
          else min (r.field.crcErrors + 1) 65535
        inversions := if x = .inverted then min (r.field.inversions + 1) 65535
          else r.field.inversions }, q⟩)
    ∧ (∀ a b, r.field.assembly = some a → a.bytes.length < 64 →
        exec (.lineWord .field (.data b)) ⟨r, q⟩ = .next ⟨r.setField
          { r.field with
            assembly := some
              { a with bytes := a.bytes ++ [if a.polarity = .normal then b else ~~~b] }
            quiet := some (r.clock.ms + twoWords) }, q⟩)
    ∧ (∀ a b, r.field.assembly = some a → 64 ≤ a.bytes.length →
        exec (.lineWord .field (.data b)) ⟨r, q⟩ = .next ⟨r.setField
          { r.field with
            assembly := none
            quiet := none
            crcErrors := min (r.field.crcErrors + 1) 65535 }, q⟩)
    ∧ (∀ a, r.field.assembly = some a →
        exec (.lineWord .field .malformed) ⟨r, q⟩ = .next ⟨r.setField
          { r.field with
            assembly := none
            quiet := none
            crcErrors := min (r.field.crcErrors + 1) 65535 }, q⟩)
    ∧ (r.field.assembly = none →
        exec (.lineWord .field .malformed) ⟨r, q⟩ = .next ⟨r, q⟩
        ∧ ∀ b, exec (.lineWord .field (.data b)) ⟨r, q⟩ = .next ⟨r, q⟩)
    ∧ (∀ x y, exec (.lineWord .field (.idle x)) ⟨r, q⟩ = exec (.lineWord .field (.idle y)) ⟨r, q⟩)
    ∧ (r.field.assembly = none → ∀ x, exec (.lineWord .field (.idle x)) ⟨r, q⟩ = .next ⟨r, q⟩)

/-- An activity window that closes with enough words opens the next one; with fewer the port leaves UP for
SEEK: the drop is counted, the frames in assembly and in transmission are gone, and UPPER's confirm timer
starts; at LOWER a pending restart takes place (R5, R11, R16, R17, R179). The frame in assembly counts as
a runt with fewer than eight bytes and as a CRC error otherwise; the buffer of the frame in transmission
is free again, the abort is counted, and the frame's maker is told as of a completion: the line test of
its finished frame, the agent of the reply to its RESTART. -/
def Obligations.WindowCloseKeepsOrDropsTheLink : Prop :=
  (∀ (r : Relay) (q : List Instr) (p : LinkPort) (e : Nat), r.awake = true →
    (r.port p).link = .up → (r.port p).window = some e → e ≤ r.clock.ms →
    (r.activityCount p ≤ (r.port p).tally →
      exec (.activityWindowClose p) ⟨r, q⟩ = .next ⟨r.setPort p
        { r.port p with window := some (e + 500), tally := 0 }, q⟩)
    ∧ ((r.port p).tally < r.activityCount p →
        (r.agent.restartPending = false ∨ p = .upper
          ∧ ∀ x, r.upper.sending = some x → x.buffer.maker ≠ .restartReply) →
        ∃ t, exec (.activityWindowClose p) ⟨r, q⟩ = .next ⟨t, q⟩
          ∧ (t.port p).link = .seek ∧ (t.port p).seekRun = 0
          ∧ (t.port p).silence = some (r.clock.ms + 2000)
          ∧ (t.port p).window = none ∧ (t.port p).assembly = none ∧ (t.port p).sending = none
          ∧ (t.port p).polarity = (r.port p).polarity
          ∧ (t.port p).counters.linkDrops = min ((r.port p).counters.linkDrops + 1) 65535
          ∧ (t.port p).counters.transmitAborts
            = (if (r.port p).sending = none then (r.port p).counters.transmitAborts
                else min ((r.port p).counters.transmitAborts + 1) 65535)
          ∧ t.lineLoss.lost = r.lineLoss.lost
          ∧ (p = .upper → t.lineLoss.confirm
              = some (r.clock.ms + r.tables.identity.confirmTime * 1000))
          ∧ (p = .lower → t.lineLoss.confirm = r.lineLoss.confirm)
          ∧ t.barriers = r.barriers ∧ t.channels = r.channels ∧ t.tables = r.tables)
    ∧ ((r.port p).tally < r.activityCount p → p = .lower → r.agent.restartPending = true →
        ∃ t : Relay, exec (.activityWindowClose p) ⟨r, q⟩ = .next ⟨t.restart, q⟩
          ∧ t.barriers = r.barriers ∧ t.tables = r.tables ∧ t.store = r.store
          ∧ t.memory = r.memory ∧ t.pins = r.pins))
  ∧ ∀ (r : Relay) (q : List Instr) (p : LinkPort) (e : Nat) (k : PortCounters) (gone : Port)
      (left told : Relay), r.awake = true → (r.port p).link = .up →
      (r.port p).window = some e → e ≤ r.clock.ms → (r.port p).tally < r.activityCount p →
      ((r.port p).assembly = none → k = (r.port p).counters) →
      (∀ a, (r.port p).assembly = some a → a.bytes.length < 8 →
        k = { (r.port p).counters with
          runtsGiants := min ((r.port p).counters.runtsGiants + 1) 65535 }) →
      (∀ a, (r.port p).assembly = some a → 8 ≤ a.bytes.length →
        k = { (r.port p).counters with
          crcErrors := min ((r.port p).counters.crcErrors + 1) 65535 }) →
      gone =
        { r.port p with
          link := .seek
          seekRun := 0
          silence := some (r.clock.ms + 2000)
          window := none
          tally := 0
          assembly := none
          sending := none
          counters :=
            { k with
              linkDrops := min (k.linkDrops + 1) 65535
              transmitAborts :=
                if (r.port p).sending = none then k.transmitAborts
                else min (k.transmitAborts + 1) 65535 } } →
      (p = .upper → left = (r.setPort p gone).setLineLoss
        { r.lineLoss with
          confirm := some (r.clock.ms + r.tables.identity.confirmTime * 1000) }) →
      (p = .lower → left = r.setPort p gone) →
      ((r.port p).sending = none → told = left) →
      (∀ x freed, (r.port p).sending = some x →
        freed = left.setPool { r.pool with free := r.pool.free + 1 } →
        (x.buffer.maker = .other → told = freed)
        ∧ (∀ run, x.buffer.maker = .testRun run → told = freed.testFrameFinished run)
        ∧ (x.buffer.maker = .restartReply → r.agent.restartPending = true →
            told = freed.restart)
        ∧ (x.buffer.maker = .restartReply → r.agent.restartPending = false → told = freed)) →
      (p = .upper ∨ r.agent.restartPending = false →
        exec (.activityWindowClose p) ⟨r, q⟩ = .next ⟨told, q⟩)
      ∧ (p = .lower → r.agent.restartPending = true →
          ((∀ x, (r.port p).sending = some x → x.buffer.maker ≠ .restartReply) →
            exec (.activityWindowClose p) ⟨r, q⟩ = .next ⟨told.restart, q⟩)
          ∧ (∀ x, (r.port p).sending = some x → x.buffer.maker = .restartReply →
            exec (.activityWindowClose p) ⟨r, q⟩ = .next ⟨told, q⟩))

/-- The confirm timer's expiry makes upper line lost true and evaluates every line-watched barrier, in
ascending order (the model's choice of order, log 17); where no barrier is line-watched nothing else
changes (R17). -/
def Obligations.ConfirmExpiryLosesTheUpperLine : Prop :=
  ∀ (r : Relay) (q : List Instr) (e : Nat), r.awake = true → r.lineLoss.confirm = some e →
    e ≤ r.clock.ms →
    exec .upperConfirmExpiry ⟨r, q⟩ = .next ⟨(List.finRange 8).foldl
      (fun t b => if (t.tables.barriers.get b).lineWatched = true then t.evaluate b else t)
      (r.setLineLoss { lost := true, confirm := none }), q⟩
    ∧ (∃ t, exec .upperConfirmExpiry ⟨r, q⟩ = .next ⟨t, q⟩
      ∧ t.lineLoss = { lost := true, confirm := none }
      ∧ SameButHandOver (r.setLineLoss { lost := true, confirm := none }) t)
    ∧ ((∀ b, (r.tables.barriers.get b).lineWatched = false) →
        exec .upperConfirmExpiry ⟨r, q⟩
          = .next ⟨r.setLineLoss { lost := true, confirm := none }, q⟩)

/-! ## Queues and transmission -/

/-- The LOWER arbiter's choice and its run count, by the table of R43; the run count is 0 after a
reset, and the default limit is 4. -/
def Obligations.LowerArbiterChoosesByTheTable : Prop :=
  (∀ (r : Relay) (q : List Instr), r.awake = true → r.lower.link = .up → r.lower.sending = none →
    (∀ x xs, r.pool.urgent = [] → r.pool.routine = x :: xs →
      exec (.transmitTake .lower) ⟨r, q⟩
        = .next ⟨(r.setPool { r.pool with routine := xs, run := 0 }).beginSending .lower x, q⟩)
    ∧ (∀ u us, r.pool.urgent = u :: us → r.pool.routine = [] →
        exec (.transmitTake .lower) ⟨r, q⟩
          = .next ⟨(r.setPool { r.pool with urgent := us, run := 0 }).beginSending .lower u, q⟩)
    ∧ (∀ u us x xs, r.pool.urgent = u :: us → r.pool.routine = x :: xs →
        r.tables.identity.starvation = 0 →
        exec (.transmitTake .lower) ⟨r, q⟩
          = .next ⟨(r.setPool { r.pool with urgent := us }).beginSending .lower u, q⟩)
    ∧ (∀ u us x xs, r.pool.urgent = u :: us → r.pool.routine = x :: xs →
        r.tables.identity.starvation ≠ 0 → r.pool.run < r.tables.identity.starvation →
        exec (.transmitTake .lower) ⟨r, q⟩
          = .next ⟨(r.setPool
              { r.pool with urgent := us, run := r.pool.run + 1 }).beginSending .lower u, q⟩)
    ∧ (∀ u us x xs, r.pool.urgent = u :: us → r.pool.routine = x :: xs →
        r.tables.identity.starvation ≠ 0 → r.tables.identity.starvation ≤ r.pool.run →
        exec (.transmitTake .lower) ⟨r, q⟩
          = .next ⟨(r.setPool { r.pool with routine := xs, run := 0 }).beginSending .lower x, q⟩))
  ∧ State.reset.relay.pool.run = 0
  ∧ (∀ r : Relay, r.keptByRestart.pool.run = 0)
  ∧ (∀ cause pins memory n, (Relay.cleared cause pins memory n).pool.run = 0)
  ∧ Identity.defaults.starvation = 4

/-- The UPPER transmitter takes the head of the up queue; a transmitter whose port is not UP, that is
sending, or that finds no frame takes nothing; a frame begins in the polarity and feed order that stand
then. The words of a frame are its start word, its bytes and CRC bytes in the polarity of the start word,
and an idle word in the polarity that stands when it begins, which the model reads at the state it is
asked in (R8, R15; log 48; the complement on an inverted pair, log 15); that a written transmit polarity
governs from the next idle word on, be a frame in transmission or not, is the model's choice (log 49). A
completed transmission frees its buffer and counts the frame; its maker is told first (the generator of
its finished frame as GapExpiryMakesTheNextTestFrame says), and then the transmitter may take again: of
the two the spec gives no order, and this is the model's choice (log 42) (R1, R8, R15, R16, R42, R44,
R179). -/
def Obligations.TransmittersTakeAndComplete : Prop :=
  (∀ (r : Relay) (q : List Instr), r.awake = true →
      (∀ x xs, r.upper.link = .up → r.upper.sending = none → r.pool.up = x :: xs →
        exec (.transmitTake .upper) ⟨r, q⟩ = .next ⟨(r.setPool { r.pool with up := xs }).setUpper
          { r.upper with
            sending := some
              { buffer := x
                polarity :=
                  match r.tables.identity.txUpper with
                  | .normal => .normal
                  | .inverted => .inverted
                  | .follow => r.upper.polarity
                order := r.tables.identity.txOrderUpper } }, q⟩)
      ∧ (r.pool.up = [] → exec (.transmitTake .upper) ⟨r, q⟩ = .next ⟨r, q⟩)
      ∧ (r.pool.urgent = [] → r.pool.routine = [] →
          exec (.transmitTake .lower) ⟨r, q⟩ = .next ⟨r, q⟩)
      ∧ (∀ p, exec (.transmitTake p) ⟨r, q⟩ = .next ⟨r.take p, q⟩)
      ∧ (∀ p, ((r.port p).link ≠ .up ∨ (r.port p).sending ≠ none) →
          exec (.transmitTake p) ⟨r, q⟩ = .next ⟨r, q⟩)
      ∧ ∀ x, r.beginSending .lower x = r.setLower
          { r.lower with
            sending := some
              { buffer := x
                polarity :=
                  match r.tables.identity.txLower with
                  | .normal => .normal
                  | .inverted => .inverted
                  | .follow => r.lower.polarity
                order := r.tables.identity.txOrderLower } })
  ∧ (∀ (r : Relay) (p : LinkPort) (t : Transmission), (r.port p).sending = some t →
      t.words = .start :: (t.buffer.frame.bytes ++ crcBytes t.order t.buffer.frame.bytes).map .byte
        ++ [.idle]
      ∧ r.wordOnLine p .start = .frameStart t.polarity
      ∧ (∀ b, r.wordOnLine p (.byte b) = .data (if t.polarity = .normal then b else ~~~b))
      ∧ r.wordOnLine p .idle = .idle
        (match (match p with
          | .upper => r.tables.identity.txUpper
          | .lower => r.tables.identity.txLower) with
        | .normal => .normal
        | .inverted => .inverted
        | .follow => (r.port p).polarity))
  ∧ ∀ (r : Relay) (q : List Instr) (p : LinkPort) (t : Transmission) (released : Relay),
      r.awake = true → (r.port p).sending = some t →
      released = (r.setPort p
        { r.port p with
          sending := none
          counters :=
            { (r.port p).counters with
              framesSent := min ((r.port p).counters.framesSent + 1) 65535 } }).setPool
        { r.pool with free := r.pool.free + 1 } →
      (t.buffer.maker = .other →
        exec (.transmitComplete p) ⟨r, q⟩ = .next ⟨released.take p, q⟩)
      ∧ (∀ run, t.buffer.maker = .testRun run →
          exec (.transmitComplete p) ⟨r, q⟩ = .next ⟨(released.testFrameFinished run).take p, q⟩)
      ∧ (t.buffer.maker = .restartReply → r.agent.restartPending = false →
          exec (.transmitComplete p) ⟨r, q⟩ = .next ⟨released.take p, q⟩)
      ∧ (t.buffer.maker = .restartReply → r.agent.restartPending = true →
          exec (.transmitComplete p) ⟨r, q⟩ = .next ⟨released.restart.take p, q⟩)

/-- Admission to the routine and the up queue: below the cap and with a free buffer a frame joins the
tail, and an idle transmitter that is UP takes at once; otherwise it is refused and counted; in
CRITICAL the routine queue refuses every offer (R39, with R15's take). -/
def Obligations.RoutineAndUpQueuesAdmitByCap : Prop :=
  ∀ (r : Relay) (b : Buffer),
    (r.pool.routine.length < r.routineCap → 0 < r.pool.free →
      r.offerRoutine b = ((r.setPool
        { r.pool with
          free := r.pool.free - 1
          routine := r.pool.routine ++ [b] }).take .lower, true))
    ∧ (¬ (r.pool.routine.length < r.routineCap ∧ 0 < r.pool.free) →
        r.offerRoutine b = (r.setPool
          { r.pool with
            drops :=
              { r.pool.drops with
                routineDrops := min (r.pool.drops.routineDrops + 1) 65535 } }, false))
    ∧ (r.pool.up.length < 8 → 0 < r.pool.free →
        r.offerUp b = ((r.setPool
          { r.pool with free := r.pool.free - 1, up := r.pool.up ++ [b] }).take .upper, true))
    ∧ (¬ (r.pool.up.length < 8 ∧ 0 < r.pool.free) →
        r.offerUp b = (r.setPool
          { r.pool with
            drops :=
              { r.pool.drops with upDrops := min (r.pool.drops.upDrops + 1) 65535 } }, false))
    ∧ (r.store.band = .critical → (r.offerRoutine b).2 = false)

/-- An urgent frame takes a free buffer, or the buffer of the oldest routine frame, or of the oldest
up frame, or is refused; a refusal needs all 40 buffers on the urgent queue and at the transmitters
(R40, with the reports of R42 and R15's take). -/
def Obligations.UrgentFramesArePlacedByEviction : Prop :=
  ∀ (r : Relay) (b : Buffer),
    (0 < r.pool.free →
      r.offerUrgent b = ((r.setPool
        { r.pool with
          free := r.pool.free - 1
          urgent := r.pool.urgent ++ [b] }).take .lower, true))
    ∧ (∀ x xs, r.pool.free = 0 → r.pool.routine = x :: xs →
        r.offerUrgent b = (((r.setPool
          { r.pool with
            urgent := r.pool.urgent ++ [b]
            routine := xs
            drops :=
              { r.pool.drops with
                evictions := min (r.pool.drops.evictions + 1) 65535 } }).reportLoss
          x.maker).take .lower, true))
    ∧ (∀ x xs, r.pool.free = 0 → r.pool.routine = [] → r.pool.up = x :: xs →
        r.offerUrgent b = (((r.setPool
          { r.pool with
            urgent := r.pool.urgent ++ [b]
            up := xs
            drops :=
              { r.pool.drops with
                evictions := min (r.pool.drops.evictions + 1) 65535 } }).reportLoss
          x.maker).take .lower, true))
    ∧ (r.pool.free = 0 → r.pool.routine = [] → r.pool.up = [] →
        r.offerUrgent b = (r.setPool
          { r.pool with
            drops :=
              { r.pool.drops with
                urgentDrops := min (r.pool.drops.urgentDrops + 1) 65535 } }, false)
        ∧ (r.PoolBalanced →
            r.pool.urgent.length + flag r.upper.sending.isSome + flag r.lower.sending.isSome = 40))

/-! ## Classification -/

/-- A header is read by its layout and is malformed where R24 says so (R24, R196). The classifier drops a
malformed frame, and one of a class its port does not take, each with its count. A forward lowers the hops
by one and leaves every other field; a frame that arrived with 0 hops is counted in its place. A foreign
REPORT passes by its origin's bin; a MGMT-REQ is consumed, as the request command its payload spells, or
forwarded by its target, a RESTART for all forwarded first (log 22); a QUIET is forwarded up, and judged
in ASSESSING mode; in OPEN-LINE mode frames travelling down are forwarded by their urgent mark (R24 to
R26, R29 to R31, R34, R179). A frame of a known station is put to sequence acceptance; accepted, a
REPORT's readings are taken in list order, with no other event between two of them (the model's choice,
log 41), and it is forwarded by the station's forwarding, an ALERT of a RELAY updates the feeders before
it is forwarded urgent, and a HEALTH is forwarded by its urgent mark (R28, R30, R50). A feeder update sets
the level and clears the stale mark of every barrier whose feeder names the sender's barrier, and
evaluates it where the level changed (R125, R126). -/
def Obligations.FramesAreClassifiedAndForwarded : Prop :=
  ((∀ (r : Relay) (port : PortName) (bs : List Byte),
    (parseFrame port bs = none →
      r.classify port bs = r.setPool
        { r.pool with
          drops :=
            { r.pool.drops with malformed := min (r.pool.drops.malformed + 1) 65535 } })
    ∧ ∀ a, parseFrame port bs = some a →
        (takesClass port a.cls = false →
          r.classify port bs = r.setPool
            { r.pool with
              drops :=
                { r.pool.drops with
                  wrongDirection := min (r.pool.drops.wrongDirection + 1) 65535 } })
        ∧ (takesClass port a.cls = true → r.classify port bs = r.takeFrame a))
  ∧ (∀ (port : PortName) (c : FrameClass), takesClass port c = true ↔
      (port = .lower ∧ (c = .mgmtReq ∨ c = .quiet ∨ c = .test))
      ∨ (port = .upper ∧ (c = .report ∨ c = .alert ∨ c = .health ∨ c = .mgmtRep ∨ c = .test))
      ∨ (port = .field ∧ c = .report))
  ∧ (∀ (r : Relay) (a : Arrival) (lane : Lane),
      (a.hops = 0#4 →
        r.forward a lane = r.setPool
          { r.pool with
            drops :=
              { r.pool.drops with hopExpired := min (r.pool.drops.hopExpired + 1) 65535 } })
      ∧ (a.hops ≠ 0#4 →
          r.forward a lane = (r.offer lane
            { frame :=
                { cls := a.cls
                  urgent := a.urgent
                  fresh := a.fresh
                  hops := a.hops - 1#4
                  origin := a.origin
                  target := a.target
                  sequence := a.sequence
                  payload := a.payload }
              maker := .other }).1))
  ∧ (∀ (r : Relay) (a : Arrival) (lane : Lane) (i : Fin 48) (c : StationConfig)
      (judged : Relay × Bool),
      lane = (if a.urgent = true then .urgent else .routine) → r.store.mode = .assessing →
      r.lookup a.origin = some (i, c) → judged = r.judgeFrame i c a.sequence a.fresh →
      (a.cls = .report ∨ a.cls = .alert ∨ a.cls = .health → judged.2 = false →
        r.takeFrame a = judged.1)
      ∧ (∀ read : Relay, a.cls = .report → judged.2 = true →
          read = (readings a.payload).foldl (fun t x => t.takeReading i c x) judged.1 →
          (c.forwarding = .none → r.takeFrame a = read)
          ∧ (c.forwarding = .routine → r.takeFrame a = read.forward a lane)
          ∧ (c.forwarding = .eventUrgent →
              ((∃ b, c.role.barrier = some b ∧ (read.barriers.get b).level ≠ .calm) →
                r.takeFrame a = read.forward a .urgent)
              ∧ ((∀ b, c.role.barrier = some b → (read.barriers.get b).level = .calm) →
                r.takeFrame a = read.forward a lane)))
      ∧ (a.cls = .alert → judged.2 = true →
          (c.role = .relay →
            r.takeFrame a = (judged.1.feederUpdate a.origin a.payload).forward a .urgent)
          ∧ (c.role ≠ .relay → r.takeFrame a = judged.1.forward a .urgent))
      ∧ (a.cls = .health → judged.2 = true → r.takeFrame a = judged.1.forward a lane))
  ∧ (∀ (r : Relay) (origin : Addr) (payload : List Byte),
      (∀ (k : Fin 8) (v : Level), (payload.getD 0 0#8).toNat = k.val →
        (payload.getD 1 0#8).toNat = v.rank →
        r.feederUpdate origin payload = (List.finRange 8).foldl
          (fun t b => if (t.tables.barriers.get b).feeder = some (origin, k) then t.feedBarrier b v
            else t) r)
      ∧ (8 ≤ (payload.getD 0 0#8).toNat ∨ 4 ≤ (payload.getD 1 0#8).toNat →
          r.feederUpdate origin payload = r)
      ∧ ∀ (b : Fin 8) (v : Level) (fed : Relay),
          fed = r.setBarrier b { r.barriers.get b with feeder := some (v, false) } →
          ((r.barriers.get b).feeder.map Prod.fst = some v → r.feedBarrier b v = fed)
          ∧ ((r.barriers.get b).feeder.map Prod.fst ≠ some v →
              r.feedBarrier b v = fed.evaluate b))
  ∧ ∀ (r : Relay) (a : Arrival) (lane : Lane),
      lane = (if a.urgent = true then .urgent else .routine) →
      (a.cls = .alert → r.store.mode = .assessing → r.lookup a.origin = none →
        r.takeFrame a = r.forward a .urgent)
      ∧ (a.cls = .health → r.store.mode = .assessing → r.lookup a.origin = none →
        r.takeFrame a = r.forward a lane)
      ∧ (a.cls = .report ∨ a.cls = .alert ∨ a.cls = .health → r.store.mode ≠ .assessing →
        r.takeFrame a = r.forward a lane)
      ∧ (a.cls = .mgmtRep → r.takeFrame a = r.forward a lane)
      ∧ (∀ bin, a.cls = .report → r.store.mode = .assessing → r.lookup a.origin = none →
          bin = (a.origin.toNat % 64) ^^^ (a.origin.toNat / 64 % 64) →
          (r.tables.identity.passSet.getLsbD bin = true → r.takeFrame a = r.forward a lane)
          ∧ (r.tables.identity.passSet.getLsbD bin = false →
              r.takeFrame a = r.setPool
                { r.pool with
                  drops :=
                    { r.pool.drops with foreign := min (r.pool.drops.foreign + 1) 65535 } }))
      ∧ (a.cls = .mgmtReq →
          (a.target = r.store.own → r.takeFrame a = r.handRequest a)
          ∧ (a.target ≠ r.store.own → a.target = 4095#12 → a.payload.getD 0 0#8 ≠ 14#8 →
              r.takeFrame a = (r.handRequest a).forward a .up)
          ∧ (a.target ≠ r.store.own → a.target = 4095#12 → a.payload.getD 0 0#8 = 14#8 →
              r.takeFrame a = (r.forward a .up).handRequest a)
          ∧ (a.target ≠ r.store.own → a.target ≠ 4095#12 → r.takeFrame a = r.forward a .up))
      ∧ (a.cls = .quiet → r.store.mode = .assessing →
          r.takeFrame a = (r.judgeQuiet a.origin a.payload).forward a .up)
      ∧ (a.cls = .quiet → r.store.mode ≠ .assessing → r.takeFrame a = r.forward a .up))
  ∧ (∀ (port : PortName) (bs : List Byte) (b : Nat → Nat) (len origin code : Nat) (sound : Prop),
      b = (fun n => (bs.getD n 0#8).toNat) → len = b 1 % 64 → origin = b 2 * 16 + b 3 / 16 →
      code = b 0 / 32 →
      (sound ↔ code ≤ 6 ∧ b 0 / 16 % 2 = 0 ∧ len ≤ 56 ∧ len + 6 = bs.length ∧ 1 ≤ origin
        ∧ origin ≤ 4094 ∧ (code = 0 → len ≠ 0 ∧ len % 4 = 0)
        ∧ (code ≠ 0 → [0, 17, 25, 3, 2, 4, 1].getD code 0 ≤ len)) →
      (¬ sound → parseFrame port bs = none)
      ∧ (sound → ∃ a, parseFrame port bs = some a ∧ a.port = port
          ∧ [FrameClass.report, .alert, .health, .mgmtRep, .mgmtReq, .quiet, .test][code]?
            = some a.cls
          ∧ a.hops.toNat = b 0 % 16 ∧ (a.urgent = true ↔ 128 ≤ b 1)
          ∧ (a.fresh = true ↔ b 1 / 64 % 2 = 1) ∧ a.origin.toNat = origin
          ∧ a.target.toNat = b 3 % 16 * 256 + b 4 ∧ a.sequence.toNat = b 5
          ∧ a.payload = bs.drop 6))
  ∧ ∀ (c : Instr) (r : Relay) (q : List Instr) (a : Arrival) (tag : Byte) (code : Nat)
      (args : List Byte), requestOf c = some (a.origin, tag, code, args) → r.awake = true →
      a.payload = byte code :: tag :: args → exec c ⟨r, q⟩ = .next ⟨r.handRequest a, q⟩

/-! ## The line test -/

/-- The gap timer's expiry makes the next TEST frame: its payload is the pattern from the next seed, each
byte five times the one before it plus one. A run on LOWER offers it to the routine queue, one on UPPER to
the up queue, where an idle transmitter that is UP takes at once. Admitted, the relay sequence and the
seed advance and the frame is outstanding; refused, the gap timer starts again with the run's gap, or one
tenth where that is 0 (R19). The end of the outstanding frame is counted: at the run's count the run ends
as DONE; else the next frame is made at once with a gap of 0, and after the gap otherwise; a frame of an
earlier run, or one that ends when no run waits for it, changes nothing (R19, R20). That runs are numbered
and a run that ended keeps its parameters is the model's reading (log 19), and that the finished count
stays at 65535 its choice (log 26). -/
def Obligations.GapExpiryMakesTheNextTestFrame : Prop :=
  (∀ (r : Relay) (q : List Instr) (p : TestParams) (e : Nat), r.awake = true →
    r.generator.running = true → r.generator.params = some p →
    r.generator.gapTimer = some e → e ≤ r.clock.ms →
    (p.port = .lower → r.lower.link ≠ .up → r.pool.routine.length < r.routineCap →
      0 < r.pool.free →
      exec .testGapExpiry ⟨r, q⟩ = .next ⟨((r.setPool
        { r.pool with
          free := r.pool.free - 1
          routine := r.pool.routine ++
            [{ frame :=
                { cls := .test
                  urgent := false
                  fresh := decide (r.emitter.fresh < 4)
                  hops := 0#4
                  origin := r.store.own
                  target := p.target
                  sequence := r.emitter.sequence
                  payload := testPattern p.length r.generator.seed }
               maker := .testRun r.generator.run }] }).setEmitter
        { r.emitter with
          sequence := r.emitter.sequence + 1#8
          fresh := min (r.emitter.fresh + 1) 4 }).setGenerator
        { r.generator with
          seed := r.generator.seed + 1#8
          outstanding := true
          gapTimer := none }, q⟩)
    ∧ (p.port = .lower → ¬ (r.pool.routine.length < r.routineCap ∧ 0 < r.pool.free) →
        exec .testGapExpiry ⟨r, q⟩ = .next ⟨(r.setPool
          { r.pool with
            drops :=
              { r.pool.drops with
                routineDrops := min (r.pool.drops.routineDrops + 1) 65535 } }).setGenerator
          { r.generator with
            gapTimer := some (r.clock.ms + max 1 p.gap * 100) }, q⟩)
    ∧ (p.port = .upper → ¬ (r.pool.up.length < 8 ∧ 0 < r.pool.free) →
        exec .testGapExpiry ⟨r, q⟩ = .next ⟨(r.setPool
          { r.pool with
            drops :=
              { r.pool.drops with
                upDrops := min (r.pool.drops.upDrops + 1) 65535 } }).setGenerator
          { r.generator with
            gapTimer := some (r.clock.ms + max 1 p.gap * 100) }, q⟩))
  ∧ (∀ (r : Relay) (q : List Instr), r.awake = true → r.generator.running = true →
      (∃ e, r.generator.gapTimer = some e ∧ e ≤ r.clock.ms) →
      exec .testGapExpiry ⟨r, q⟩
        = .next ⟨(r.setGenerator { r.generator with gapTimer := none }).makeTestFrame, q⟩)
  ∧ (∀ (n : Nat) (seed : Byte),
      testPattern n seed = (List.range n).map (fun k => (fun x => 5#8 * x + 1#8)^[k] seed))
  ∧ (∀ (r : Relay) (p : TestParams) (b : Buffer) (offered : Relay × Bool),
      r.generator.params = some p →
      b =
        { frame :=
            { cls := .test
              urgent := false
              fresh := decide (r.emitter.fresh < 4)
              hops := 0#4
              origin := r.store.own
              target := p.target
              sequence := r.emitter.sequence
              payload := testPattern p.length r.generator.seed }
          maker := .testRun r.generator.run } →
      (p.port = .lower → offered = r.offerRoutine b) →
      (p.port = .upper → offered = r.offerUp b) →
      (offered.2 = true → r.makeTestFrame = (offered.1.setEmitter
        { r.emitter with
          sequence := r.emitter.sequence + 1#8
          fresh := min (r.emitter.fresh + 1) 4 }).setGenerator
        { r.generator with
          seed := r.generator.seed + 1#8
          outstanding := true
          gapTimer := none })
      ∧ (offered.2 = false → r.makeTestFrame = offered.1.setGenerator
        { r.generator with gapTimer := some (r.clock.ms + max 1 p.gap * 100) }))
  ∧ ∀ (r : Relay) (run done : Nat), done = min (r.generator.finished + 1) 65535 →
      (r.generator.params = none ∨ r.generator.running = false ∨ r.generator.outstanding = false
          ∨ run ≠ r.generator.run → r.testFrameFinished run = r)
      ∧ ∀ p, r.generator.params = some p → r.generator.running = true →
          r.generator.outstanding = true → run = r.generator.run →
          (p.count ≠ 0 → done = p.count → r.testFrameFinished run = r.setGenerator
            { r.generator with
              running := false
              outstanding := false
              finished := done
              gapTimer := none
              last := some .done })
          ∧ (p.count = 0 ∨ done ≠ p.count → p.gap = 0 →
              r.testFrameFinished run = (r.setGenerator
                { r.generator with outstanding := false, finished := done }).makeTestFrame)
          ∧ (p.count = 0 ∨ done ≠ p.count → p.gap ≠ 0 → r.testFrameFinished run = r.setGenerator
            { r.generator with
              outstanding := false
              finished := done
              gapTimer := some (r.clock.ms + p.gap * 100) })

/-- A good TEST frame at UPPER or LOWER for this relay or for 0 goes to the checker with its port; any
other is discarded without a count; neither is forwarded, and neither counts as hop-expired, in any
mode (R32). The checker changes nothing else; in SINGLE mode its port's set counts the frame, its
bytes, the bytes that differ from the pattern and the frames lost, and the last seed is the frame's
(R22); in CONTINUOUS mode the four counters wrap modulo 65536, and the overflow counter takes one for
every wrap and stays at 255 (R23). -/
def Obligations.TestFramesGoToTheCheckerAlone : Prop :=
  (∀ (r : Relay) (a : Arrival), a.cls = .test → (a.port = .upper ∨ a.port = .lower) →
    (a.target = r.store.own ∨ a.target = 0#12 →
      (a.port = .upper → r.takeFrame a = r.checkTest .upper a.payload)
      ∧ (a.port = .lower → r.takeFrame a = r.checkTest .lower a.payload))
    ∧ (a.target ≠ r.store.own → a.target ≠ 0#12 → r.takeFrame a = r))
  ∧ ∀ (r : Relay) (payload rest : List Byte) (first : Byte) (differing : Nat)
      (gap : Option Byte → Nat) (counted wrapped : TestCounts → Option Byte → TestCounts),
      payload = first :: rest →
      differing = (List.range payload.length).countP (fun n =>
        payload.getD n 0#8 != (fun x => 5#8 * x + 1#8)^[n] first) →
      gap = (fun last => match last with
        | none => 0
        | some l => (first - l).toNat - 1) →
      counted = (fun k last =>
        { frames := min (k.frames + 1) 65535
          bytes := min (k.bytes + payload.length) 65535
          mismatched := min (k.mismatched + differing) 65535
          lost := min (k.lost + gap last) 65535
          overflow := k.overflow }) →
      wrapped = (fun k last =>
        { frames := (k.frames + 1) % 65536
          bytes := (k.bytes + payload.length) % 65536
          mismatched := (k.mismatched + differing) % 65536
          lost := (k.lost + gap last) % 65536
          overflow := min (k.overflow + (k.frames + 1) / 65536
            + (k.bytes + payload.length) / 65536 + (k.mismatched + differing) / 65536
            + (k.lost + gap last) / 65536) 255 }) →
      (∀ p, ∃ checker, r.checkTest p payload = r.setChecker checker)
      ∧ (r.tables.identity.countMode = .single → r.checker.upper.overflow ≤ 255 →
          r.checkTest .upper payload = r.setChecker
            { r.checker with
              upper := counted r.checker.upper r.checker.upperSeed
              upperSeed := some first })
      ∧ (r.tables.identity.countMode = .single → r.checker.lower.overflow ≤ 255 →
          r.checkTest .lower payload = r.setChecker
            { r.checker with
              lower := counted r.checker.lower r.checker.lowerSeed
              lowerSeed := some first })
      ∧ (r.tables.identity.countMode = .continuous →
          r.checkTest .upper payload = r.setChecker
            { r.checker with
              upper := wrapped r.checker.upper r.checker.upperSeed
              upperSeed := some first }
          ∧ r.checkTest .lower payload = r.setChecker
            { r.checker with
              lower := wrapped r.checker.lower r.checker.lowerSeed
              lowerSeed := some first })

/-- LINE-TEST is decided by the levels and the band, then by the generator; accepted, the run starts and
its first frame is offered before the reply; LINE-TEST-STOP ends a run as STOPPED and answers with the
last outcome (R19, R20, R177). That a stopped run keeps its parameters and its finished count, and that
the runs are numbered, is the model's reading (log 19). -/
def Obligations.LineTestIsDecidedAndStopped : Prop :=
  ∀ (r : Relay) (q : List Instr) (origin : Addr) (tag : Byte), r.Serves origin →
    (∀ (port length gap : Byte) (count target : BitVec 16), port.toNat ≤ 1 →
      1 ≤ length.toNat → length.toNat ≤ 56 → target.toNat ≤ 4094 →
      (r.highestLevel ≠ .calm ∨ r.store.band ≠ .normal →
        exec (.lineTest origin tag port count length gap target) ⟨r, q⟩
          = .next ⟨r.counted.reply ⟨origin, 11#8, tag⟩ .event [], q⟩)
      ∧ (r.highestLevel = .calm → r.store.band = .normal → r.generator.running = true →
          exec (.lineTest origin tag port count length gap target) ⟨r, q⟩
            = .next ⟨r.counted.reply ⟨origin, 11#8, tag⟩ .busy [], q⟩)
      ∧ (r.highestLevel = .calm → r.store.band = .normal → r.generator.running = false →
          exec (.lineTest origin tag port count length gap target) ⟨r, q⟩
            = .next ⟨((r.counted.setGenerator
                { r.generator with
                  running := true
                  params := some
                    { port := if port = 0#8 then .upper else .lower
                      count := count.toNat
                      length := length.toNat
                      gap := gap.toNat
                      target := BitVec.ofNat 12 target.toNat }
                  finished := 0
                  outstanding := false
                  gapTimer := none
                  run := r.generator.run + 1 }).makeTestFrame).reply
                ⟨origin, 11#8, tag⟩ .done [], q⟩))
    ∧ (∀ (port length gap : Byte) (count target : BitVec 16),
        1 < port.toNat ∨ length.toNat = 0 ∨ 56 < length.toNat ∨ 4094 < target.toNat →
        exec (.lineTest origin tag port count length gap target) ⟨r, q⟩
          = .next ⟨r.counted.reply ⟨origin, 11#8, tag⟩ .badField [], q⟩)
    ∧ (r.generator.running = true →
        exec (.lineTestStop origin tag) ⟨r, q⟩
          = .next ⟨(r.counted.setGenerator
              { r.generator with
                running := false
                outstanding := false
                gapTimer := none
                last := some .stopped }).reply ⟨origin, 12#8, tag⟩ .done [1#8], q⟩)
    ∧ (r.generator.running = false →
        exec (.lineTestStop origin tag) ⟨r, q⟩
          = .next ⟨r.counted.reply ⟨origin, 12#8, tag⟩ .done
              [match r.generator.last with
                | some .done => 0#8
                | some .stopped => 1#8
                | some .preempted => 2#8
                | none => 255#8], q⟩)

/-! ## Stations -/

/-- Sequence acceptance and what follows each judgement (R35). At an accepted frame the silence monitor
makes the station LIVE with no misses and a new deadline, report interval and grace from now, or none
where the station is not watched, and counts the return of a SILENT one (R65, R71). At a gauge whose
sighting that changes (a LATE one that sights again by the mark of a frame accepted since its start, the
model's reading, log 20) the barrier is remeasured; one without a smoothed fill, as after a silence,
changes nothing at its barrier (R71, R76, R79). -/
def Obligations.SequenceIsJudged : Prop :=
  ∀ (r : Relay) (i : Fin 48) (c : StationConfig) (n : Byte) (fresh : Bool),
    ((r.stations.get i).lastSeq = some n →
      r.judgeFrame i c n fresh = (r.setStation i
        { r.stations.get i with
          counters :=
            { (r.stations.get i).counters with
              duplicates := min ((r.stations.get i).counters.duplicates + 1) 65535 } }, false))
    ∧ (∀ l, (r.stations.get i).lastSeq = some l → 128 ≤ (n - l).toNat → fresh = false →
        (r.stations.get i).state ≠ .silent →
        r.judgeFrame i c n fresh = (r.setStation i
          { r.stations.get i with
            counters :=
              { (r.stations.get i).counters with
                oldSequence := min ((r.stations.get i).counters.oldSequence + 1) 65535 } }, false))
    ∧ ((r.stations.get i).lastSeq = none
        ∨ (∃ l, (r.stations.get i).lastSeq = some l ∧ n ≠ l
            ∧ ((n - l).toNat ≤ 127 ∨ fresh = true ∨ (r.stations.get i).state = .silent)) →
        r.judgeFrame i c n fresh = ((r.setStation i
          { r.stations.get i with
            lastSeq := some n
            counters :=
              { (r.stations.get i).counters with
                accepted := min ((r.stations.get i).counters.accepted + 1) 65535 } }).hearStation
            i c, true))
    ∧ ∀ (deadline : Option Nat) (heard : StationDyn), r.tables.stations.get i = some c →
        (c.interval = 0 → deadline = none) →
        (c.interval ≠ 0 → deadline
          = some (r.now + c.interval + r.tables.identity.grace * c.interval / 100)) →
        heard =
          { r.stations.get i with
            state := .live
            misses := 0
            deadline := deadline
            heard := true
            counters :=
              { (r.stations.get i).counters with
                returns :=
                  if (r.stations.get i).state = .silent then
                    min ((r.stations.get i).counters.returns + 1) 65535
                  else (r.stations.get i).counters.returns } } →
        ((∀ b e f, c.role ≠ .gauge b e f) → r.hearStation i c = r.setStation i heard)
        ∧ ((r.stations.get i).smoothed = none → r.hearStation i c = r.setStation i heard)
        ∧ ∀ b e f, c.role = .gauge b e f →
            (heard.sighting = (r.stations.get i).sighting →
              r.hearStation i c = r.setStation i heard)
            ∧ (heard.sighting ≠ (r.stations.get i).sighting →
                r.hearStation i c = (r.setStation i heard).remeasure b none)

/-- A missed deadline: the first and second make a station LATE, one interval on; the third makes it
SILENT with its effects, by role (R66, R68 to R70). At a GAUGE the gauge-lost latch is set where the
barrier stands above CALM and takes gauge loss as evidence, the window is emptied, the barrier is
recomputed where the gauge was sighting, and is then evaluated once. -/
def Obligations.MissedDeadlinesMakeLateThenSilent : Prop :=
  ∀ (r : Relay) (q : List Instr) (i : Fin 48) (c : StationConfig) (e : Nat), r.awake = true →
    r.tables.stations.get i = some c → (r.stations.get i).deadline = some e → e ≤ r.now →
    ((r.stations.get i).misses < 2 →
      exec (.stationDeadlineExpiry i) ⟨r, q⟩ = .next ⟨r.setStation i
        { r.stations.get i with
          state := .late
          misses := (r.stations.get i).misses + 1
          deadline := some (e + c.interval) }, q⟩)
    ∧ (2 ≤ (r.stations.get i).misses →
        (∀ b p, c.role = .wire b p ∨ c.role = .shake b ∨ c.role = .rain b →
          exec (.stationDeadlineExpiry i) ⟨r, q⟩ = .next ⟨r.setStation i
            { r.stations.get i with state := .silent, misses := 3, deadline := none }, q⟩)
        ∧ (c.role = .relay →
            exec (.stationDeadlineExpiry i) ⟨r, q⟩ = .next ⟨(r.setStation i
              { r.stations.get i with
                state := .silent
                misses := 3
                deadline := none }).setBarriers
              (Bank.ofFn (fun b =>
                if (r.tables.barriers.get b).feeder.map Prod.fst = some c.address then
                  { r.barriers.get b with
                    feeder := (r.barriers.get b).feeder.map (fun f => (f.1, true)) }
                else r.barriers.get b)), q⟩)
        ∧ (∀ (b : Fin 8) (ef ff : Nat) (fell latched t : Relay), c.role = .gauge b ef ff →
            fell = r.setStation i
              { r.stations.get i with
                state := .silent
                misses := 3
                deadline := none
                window := []
                smoothed := none } →
            latched = (if (r.barriers.get b).level ≠ .calm
                ∧ (r.tables.barriers.get b).gaugeLoss = true
              then fell.setBarrier b { r.barriers.get b with gaugeLost := true }
              else fell) →
            t = (if (r.stations.get i).sighting = true then latched.recompute b none
              else latched).evaluate b →
            exec (.stationDeadlineExpiry i) ⟨r, q⟩ = .next ⟨t, q⟩
              ∧ t.stations = fell.stations
              ∧ ((r.barriers.get b).level ≠ .calm → (r.tables.barriers.get b).gaugeLoss = true →
                  r.assessed b = true → (t.barriers.get b).gaugeLost = true)
              ∧ t.tables = r.tables ∧ t.inputs = r.inputs ∧ t.agent = r.agent
              ∧ ∀ o, o ≠ b → t.barriers.get o = r.barriers.get o))

/-- A reading that does not fit the role is ignored, and one older than the last sample is stale, each
with its count; any other is applied (R51, R52). Its effective quality is FAULT where its value is no
echo, saturated or no wire state; it becomes the last reading and is handed on by its kind (R53 to R56).
A RANGE reading of a gauge forms one fill, which enters the window of three; the smoothed fill is their
median, or the lower of two, or the one, and the barrier is remeasured, with the rate step where the
reading is advancing; a FAULT reading changes neither (R73, R74). A broken wire is delivered, and one that
a latch holds broken is counted where the reading shows it intact; a wire break sets an intact latch of
an assessed barrier and evaluates it (R54, R103). A shake or rain reading is a contribution. -/
def Obligations.RangeReadingFormsTheSmoothedFill : Prop :=
  (∀ (r : Relay) (i : Fin 48) (c : StationConfig) (b : Fin 8) (e f sample : Nat) (x : Reading),
    c.role = .gauge b e f →
    (x.effective ≠ .fault →
      ∃ fill, (e ≤ x.value → fill = 0)
        ∧ (x.value < e → fill = min 1200 (1000 * (e - x.value) / (e - f)))
        ∧ ((r.handReading i c x sample).stations.get i).window
          = ((r.stations.get i).window ++ [fill]).drop
              ((r.stations.get i).window.length + 1 - 3)
        ∧ ((r.handReading i c x sample).stations.get i).lastSample = some sample
        ∧ ((r.stations.get i).window = [] →
            ((r.handReading i c x sample).stations.get i).smoothed = some fill)
        ∧ (∀ u, (r.stations.get i).window = [u] →
            ((r.handReading i c x sample).stations.get i).smoothed = some (min u fill))
        ∧ (∀ u v w, (r.stations.get i).window = [u, v] ∨ (r.stations.get i).window = [w, u, v] →
            ∃ m, ((r.handReading i c x sample).stations.get i).smoothed = some m
              ∧ m ∈ [u, v, fill] ∧ 2 ≤ [u, v, fill].countP (fun n => decide (n ≤ m))
              ∧ 2 ≤ [u, v, fill].countP (fun n => decide (m ≤ n)))
        ∧ ∀ d, d = (r.handReading i c x sample).stations.get i →
            r.handReading i c x sample = (r.setStation i
              { r.stations.get i with
                lastReading := some (x.value, x.effective)
                lastSample := some sample
                window := d.window
                smoothed := d.smoothed }).remeasure b
              (if ∀ last, (r.stations.get i).lastSample = some last → last < sample then some sample
                else none))
    ∧ (x.effective = .fault →
        ((r.handReading i c x sample).stations.get i).window = (r.stations.get i).window
        ∧ ((r.handReading i c x sample).stations.get i).smoothed = (r.stations.get i).smoothed
        ∧ ((r.handReading i c x sample).stations.get i).lastReading = some (x.value, .fault)))
  ∧ (∀ (r : Relay) (i : Fin 48) (c : StationConfig) (x : Reading) (fits : Prop),
      (fits ↔ ((∃ b e f, c.role = .gauge b e f) ∧ x.kind = some .range)
        ∨ ((∃ b p, c.role = .wire b p) ∧ x.kind = some .wire)
        ∨ ((∃ b, c.role = .shake b) ∧ x.kind = some .shake)
        ∨ ((∃ b, c.role = .rain b) ∧ x.kind = some .rain)) →
      (¬ fits →
        r.takeReading i c x = r.setStation i
          { r.stations.get i with
            counters :=
              { (r.stations.get i).counters with
                ignored := min ((r.stations.get i).counters.ignored + 1) 65535 } })
      ∧ (∀ last, fits → (r.stations.get i).lastSample = some last → r.now - x.age < last →
          r.takeReading i c x = r.setStation i
            { r.stations.get i with
              counters :=
                { (r.stations.get i).counters with
                  stale := min ((r.stations.get i).counters.stale + 1) 65535 } })
      ∧ (fits → (∀ last, (r.stations.get i).lastSample = some last → last ≤ r.now - x.age) →
          r.takeReading i c x = r.handReading i c x (r.now - x.age)))
  ∧ (∀ x : Reading,
      (x.kind = some .range → x.value = 0 ∨ x.value = 65535 → x.effective = .fault)
      ∧ (x.kind = some .wire → 1 < x.value → x.effective = .fault)
      ∧ ((x.kind = some .range → x.value ≠ 0 ∧ x.value ≠ 65535) →
          (x.kind = some .wire → x.value ≤ 1) → x.effective = x.quality))
  ∧ (∀ (r : Relay) (i : Fin 48) (c : StationConfig) (x : Reading) (sample : Nat)
      (noted : StationDyn) (told : Relay),
      noted = { r.stations.get i with
        lastReading := some (x.value, x.effective), lastSample := some sample } →
      told = r.setStation i noted →
      (∀ b e f, c.role = .gauge b e f → r.tables.stations.get i = some c → x.effective = .fault →
        (noted.sighting = (r.stations.get i).sighting → r.handReading i c x sample = told)
        ∧ (noted.sighting ≠ (r.stations.get i).sighting →
            r.handReading i c x sample = told.remeasure b none))
      ∧ (∀ b p broken, c.role = .wire b p →
          broken = (match p with
            | .inflow => (r.barriers.get b).inflowBroken
            | .overflow => (r.barriers.get b).overflowBroken) →
          (x.effective = .fault → r.handReading i c x sample = told)
          ∧ (x.effective ≠ .fault → x.value = 1 →
              r.handReading i c x sample = told.deliverBreak b p)
          ∧ (x.effective ≠ .fault → x.value ≠ 1 → broken = true →
              r.handReading i c x sample = r.setStation i
                { noted with
                  counters :=
                    { (r.stations.get i).counters with
                      heldBreaks := min ((r.stations.get i).counters.heldBreaks + 1) 65535 } })
          ∧ (x.effective ≠ .fault → x.value ≠ 1 → broken = false →
              r.handReading i c x sample = told))
      ∧ (∀ b, c.role = .shake b →
          (x.effective = .fault → r.handReading i c x sample = told)
          ∧ (x.effective ≠ .fault → r.handReading i c x sample
              = told.contributeTo b .shake { value := x.value, time := sample }))
      ∧ ∀ b, c.role = .rain b →
          (x.effective = .fault → r.handReading i c x sample = told)
          ∧ (x.effective ≠ .fault → r.handReading i c x sample
              = told.contributeTo b .rain { value := x.value, time := sample }))
  ∧ ∀ (r : Relay) (b : Fin 8),
      (r.assessed b = true → (r.barriers.get b).inflowBroken = false →
        r.deliverBreak b .inflow
          = (r.setBarrier b { r.barriers.get b with inflowBroken := true }).evaluate b)
      ∧ (r.assessed b = true → (r.barriers.get b).overflowBroken = false →
          r.deliverBreak b .overflow
            = (r.setBarrier b { r.barriers.get b with overflowBroken := true }).evaluate b)
      ∧ (r.assessed b = false ∨ (r.barriers.get b).inflowBroken = true →
          r.deliverBreak b .inflow = r)
      ∧ (r.assessed b = false ∨ (r.barriers.get b).overflowBroken = true →
          r.deliverBreak b .overflow = r)

/-! ## Measures and levels -/

/-- The time to full that every recompute leaves, by the table of R85; a recompute that leaves no sighting
gauge leaves 65535. Before it a recompute takes fill, sight and source from the sighting gauge with the
largest smoothed fill, the lowest index among equals, and holds the fill without one (R76, R78, R80; that a
LATE gauge sights by the mark of a frame accepted since its record was started, log 20); an advancing
reading that leaves the barrier sighted then takes the rate step from its anchor (R82 to R84). A remeasure
evaluates the barrier once after it (R79). -/
def Obligations.TimeToFullFollowsFillAndRate : Prop :=
  (∀ (m t : Measures) (gauged : Bool) (best : Option (Fin 48 × Nat)) (advancing : Option Nat)
    (window : Nat), t = m.recompute gauged best advancing window →
    (t.rate = none → t.ttf = 65535)
    ∧ (∀ v, t.rate = some v → v ≤ 0 → t.ttf = 65535)
    ∧ (∀ v, t.rate = some v → 0 < v → 1000 ≤ t.fill → t.ttf = 0)
    ∧ (∀ v, t.rate = some v → 0 < v → t.fill < 1000 →
        (t.ttf : Int) ≤ 1000 ∧ (1000 - t.fill : Int) ≤ t.ttf * v
          ∧ (t.ttf : Int) * v < 1000 - t.fill + v)
    ∧ (best = none → t.ttf = 65535)
    ∧ (∀ i f s, best = some (i, f) → advancing = some s →
        t = { ({ m with fill := f, held := false, sight := .sighted, source := some i } :
          Measures).rateStep s window with ttf := t.ttf })
    ∧ (∀ i f, best = some (i, f) → advancing = none →
        t = { m with fill := f, held := false, sight := .sighted, source := some i, ttf := t.ttf })
    ∧ (best = none → gauged = true →
        t = { m with
          held := true
          sight := .blind
          source := none
          anchor := none
          rate := none
          ttf := 65535 })
    ∧ (best = none → gauged = false →
        t = { m with
          fill := 0
          held := false
          sight := .ungauged
          source := none
          anchor := none
          rate := none
          ttf := 65535 }))
  ∧ (∀ (m : Measures) (t window : Nat) (src : Fin 48) (here : Anchor), m.source = some src →
      here = { fill := m.fill, time := t, source := src } →
      (m.anchor = none ∨ (∃ a, m.anchor = some a ∧ a.source ≠ src) →
        m.rateStep t window = { m with anchor := some here })
      ∧ ∀ a, m.anchor = some a → a.source = src →
          (t < a.time + 60 → m.rateStep t window = m)
          ∧ ∀ v, a.time + 60 ≤ t →
              v = max (-999) (min 999
                (Int.tdiv (((m.fill : Int) - a.fill) * 60) ((t : Int) - a.time))) →
              (t < a.time + window → m.rateStep t window = { m with rate := some v })
              ∧ (a.time + window ≤ t →
                  m.rateStep t window = { m with rate := some v, anchor := some here }))
  ∧ (∀ d : StationDyn, d.sighting = true ↔
      (d.state = .live ∨ (d.state = .late ∧ d.heard = true)) ∧ d.smoothed ≠ none
        ∧ ∃ v grade, d.lastReading = some (v, grade) ∧ grade ≠ .fault)
  ∧ ∀ (r : Relay) (b : Fin 8) (advancing : Option Nat) (gauges : Fin 48 → Prop),
      (∀ i, gauges i ↔ ∃ c e f, r.tables.stations.get i = some c ∧ c.role = .gauge b e f) →
      r.remeasure b advancing = (r.recompute b advancing).evaluate b
      ∧ ∃ gauged best,
          r.recompute b advancing = r.setBarrier b
            { r.barriers.get b with
              measures := (r.barriers.get b).measures.recompute gauged best advancing
                (r.tables.barriers.get b).rateWindow }
          ∧ (gauged = true ↔ ∃ i, gauges i)
          ∧ (best = none → ∀ i, gauges i → (r.stations.get i).sighting = false)
          ∧ ∀ i f, best = some (i, f) →
              gauges i ∧ (r.stations.get i).sighting = true
              ∧ (r.stations.get i).smoothed = some f
              ∧ ∀ j g, gauges j → (r.stations.get j).sighting = true →
                  (r.stations.get j).smoothed = some g → g ≤ f ∧ (g = f → i ≤ j)

/-- At its expiry time the oldest entry of a contribution list goes, and the barrier is evaluated
once; nothing beside the hand-over is touched (R90, section 5.7). A contribution that has aged or is
outranked changes nothing; any other is placed by its sample time with the entries it outranks removed,
and a list of nine is merged at its closest pair, the oldest among equals (R88, R89). The barrier is
evaluated where the value, that of the oldest entry, changed. -/
def Obligations.EvidenceAgesOut : Prop :=
  (∀ (r : Relay) (q : List Instr) (b : Fin 8) (x : Contribution) (xs : List Contribution),
    r.awake = true → x.time + r.tables.identity.evidenceLife ≤ r.now →
    ((r.barriers.get b).measures.shake = x :: xs →
      exec (.shakeExpiry b .shake) ⟨r, q⟩ = .next ⟨(r.setBarrier b
        { r.barriers.get b with
          measures := { (r.barriers.get b).measures with shake := xs } }).evaluate b, q⟩)
    ∧ ((r.barriers.get b).measures.rain = x :: xs →
        exec (.shakeExpiry b .rain) ⟨r, q⟩ = .next ⟨(r.setBarrier b
          { r.barriers.get b with
            measures := { (r.barriers.get b).measures with rain := xs } }).evaluate b, q⟩))
  ∧ (∀ (entries kept list : List Contribution) (c : Contribution) (life now : Nat)
      (spacing : Nat → Nat),
      (c.time + life ≤ now → contribute entries c life now = entries)
      ∧ ((∃ e ∈ entries, c.time ≤ e.time ∧ c.value ≤ e.value) →
          contribute entries c life now = entries)
      ∧ (now < c.time + life → (∀ e ∈ entries, ¬ (c.time ≤ e.time ∧ c.value ≤ e.value)) →
          kept = entries.filter (fun e => decide (¬ (e.time ≤ c.time ∧ e.value ≤ c.value))) →
          list = kept.filter (fun e => decide (e.time < c.time))
            ++ c :: kept.filter (fun e => decide (c.time ≤ e.time)) →
          spacing = (fun n => (list.getD (n + 1) c).time - (list.getD n c).time) →
          (list.length ≤ 8 → contribute entries c life now = list)
          ∧ (8 < list.length → ∃ n, n + 1 < list.length
              ∧ contribute entries c life now = list.take n
                ++ { value := (list.getD n c).value, time := (list.getD (n + 1) c).time }
                  :: list.drop (n + 2)
              ∧ ∀ k, k + 1 < list.length →
                  spacing n ≤ spacing k ∧ (spacing n = spacing k → n ≤ k))))
  ∧ ∀ (r : Relay) (b : Fin 8) (c : Contribution) (list : List Contribution) (m : Measures)
      (placed : Relay), m = (r.barriers.get b).measures →
      (list = contribute m.shake c r.tables.identity.evidenceLife r.now →
        placed = r.setBarrier b { r.barriers.get b with measures := { m with shake := list } } →
        (list.head?.map Contribution.value = m.shake.head?.map Contribution.value →
          r.contributeTo b .shake c = placed)
        ∧ (list.head?.map Contribution.value ≠ m.shake.head?.map Contribution.value →
            r.contributeTo b .shake c = placed.evaluate b))
      ∧ (list = contribute m.rain c r.tables.identity.evidenceLife r.now →
          placed = r.setBarrier b { r.barriers.get b with measures := { m with rain := list } } →
          (list.head?.map Contribution.value = m.rain.head?.map Contribution.value →
            r.contributeTo b .rain c = placed)
          ∧ (list.head?.map Contribution.value ≠ m.rain.head?.map Contribution.value →
              r.contributeTo b .rain c = placed.evaluate b))

/-- Steps 1 to 5 of an evaluation: the line-loss base, rise, hold and cause set, the causes in ascending
order of their codes; an evaluation never lowers a level, and one of a barrier that is not assessed
changes nothing (R94, R97, R99, R108). Each of the twelve conditions demands, and with the hysteresis
sustains, the levels of its row: a threshold of 0 is off, and a fill sustains from its threshold less the
hysteresis on, but never at 0; the demanded and the sustained level are the highest of them (R95, R96). An
assessed barrier is weighed from its own level, and a change is then handed on: what CALM takes away, an
ALERT with the new repeat deadline, the request of a rise that the quieted level does not withhold, the
notice of a fall and the all-clear at CALM, and the end of a line test above CALM (R20, R98, R99, R110,
R111, R122). That the ended run keeps its parameters and finished count is log 19. -/
def Obligations.EvaluationRaisesAndHolds : Prop :=
  (∀ (r : Relay) (b : Fin 8) (start : Level) (based d : BarrierDyn) (dem sus : Level),
    based = { r.barriers.get b with
      lineBase :=
        if (r.tables.barriers.get b).lineWatched = true ∧ r.lineLoss.lost = true then
          (match (r.barriers.get b).lineBase with
            | some base => some base
            | none => some start)
        else none } →
    dem = based.demanded (r.tables.barriers.get b) r.lineLoss.lost →
    sus = based.sustained (r.tables.barriers.get b) r.lineLoss.lost →
    d = (r.weighBarrier b start).barriers.get b →
    d.lineBase = based.lineBase
    ∧ ((r.barriers.get b).level.rank < dem.rank → d.level = dem ∧ d.hold = none)
    ∧ (dem.rank ≤ (r.barriers.get b).level.rank → d.level = (r.barriers.get b).level)
    ∧ (dem.rank ≤ (r.barriers.get b).level.rank → (r.barriers.get b).level.rank ≤ sus.rank →
        d.hold = none)
    ∧ (dem.rank ≤ (r.barriers.get b).level.rank → sus.rank < (r.barriers.get b).level.rank →
        (r.barriers.get b).level ≠ .evacuate → (r.barriers.get b).hold = none →
        d.hold = some (r.now + (r.tables.barriers.get b).holdTime))
    ∧ (∀ e, dem.rank ≤ (r.barriers.get b).level.rank →
        sus.rank < (r.barriers.get b).level.rank → (r.barriers.get b).hold = some e →
        d.hold = some e)
    ∧ (d.level = .calm → d.causes = [])
    ∧ (d.level ≠ .calm → ∀ cause, cause ∈ d.causes ↔
        (d.level.rank ≤ (based.calls (r.tables.barriers.get b) r.lineLoss.lost 0 cause).rank
          ∨ d.level.rank ≤ (based.calls (r.tables.barriers.get b) r.lineLoss.lost
              (r.tables.barriers.get b).hysteresis cause).rank))
    ∧ d.causes.Pairwise (fun x y => x.code < y.code)
    ∧ (∀ o, o ≠ b → (r.weighBarrier b start).barriers.get o = r.barriers.get o)
    ∧ (r.assessed b = false → r.evaluate b = r)
    ∧ (r.assessed b = true → r.evaluate b
      = (r.weighBarrier b (r.barriers.get b).level).handOver b (r.barriers.get b).level)
    ∧ SameButHandOver r (r.evaluate b))
  ∧ [Cause.fill, .rate, .ttf, .shake, .rain, .inflowWire, .overflowWire, .feeder, .lineLost,
      .gaugeLost, .manual, .blind].map Cause.code = [1, 2, 3, 4, 5, 6, 7, 8, 9, 10, 11, 12]
  ∧ (∀ (d : BarrierDyn) (c : BarrierConfig) (lost : Bool) (h : Nat) (m : Measures)
      (calls : Cause → Level) (met : Nat → Prop) (shaken : Nat → Prop)
      (only : Cause → Level → Prop → Prop), m = d.measures → calls = d.calls c lost h →
      (∀ bound, met bound ↔ bound ≠ 0 ∧ 1 ≤ m.fill ∧ bound ≤ m.fill + h) →
      (∀ bound, shaken bound ↔ bound ≠ 0 ∧ ∃ e, m.shake.head? = some e ∧ bound ≤ e.value) →
      (∀ k v p, only k v p ↔ (p → calls k = v) ∧ (¬ p → calls k = .calm)) →
      (3 ≤ (calls .fill).rank ↔ met c.fullFill)
      ∧ (2 ≤ (calls .fill).rank ↔ met c.fullFill ∨ met c.warnFill)
      ∧ (1 ≤ (calls .fill).rank ↔ met c.fullFill ∨ met c.warnFill ∨ met c.watchFill)
      ∧ only .rate .watch
          (c.rateWatch ≠ 0 ∧ ∃ v, m.rate = some v ∧ (c.rateWatch : Int) ≤ v)
      ∧ only .ttf .warn (c.ttfWarn ≠ 0 ∧ m.ttf ≤ c.ttfWarn)
      ∧ (calls .shake).rank ≤ 2
      ∧ (2 ≤ (calls .shake).rank ↔ shaken c.shakeWarn)
      ∧ (1 ≤ (calls .shake).rank ↔ shaken c.shakeWarn ∨ shaken c.shakeWatch)
      ∧ only .rain .watch
          (c.rainWatch ≠ 0 ∧ ∃ e, m.rain.head? = some e ∧ c.rainWatch ≤ e.value)
      ∧ (d.inflowBroken = false → calls .inflowWire = .calm)
      ∧ (d.inflowBroken = true → m.sight ≠ .blind → calls .inflowWire = .warn)
      ∧ (d.inflowBroken = true → m.sight = .blind → calls .inflowWire = .evacuate)
      ∧ only .overflowWire .evacuate (d.overflowBroken = true)
      ∧ (∀ stale, d.feeder = some (.warn, stale) → calls .feeder = .watch)
      ∧ (∀ stale, d.feeder = some (.evacuate, stale) → calls .feeder = .warn)
      ∧ ((∀ v stale, d.feeder = some (v, stale) → v.rank ≤ 1) → calls .feeder = .calm)
      ∧ (c.lineWatched = true → lost = true → d.lineBase = some .calm → calls .lineLost = .watch)
      ∧ (∀ base, c.lineWatched = true → lost = true → d.lineBase = some base → base ≠ .calm →
          calls .lineLost = .warn)
      ∧ (c.lineWatched = false ∨ lost = false ∨ d.lineBase = none → calls .lineLost = .calm)
      ∧ only .gaugeLost .warn (d.gaugeLost = true)
      ∧ only .manual .evacuate (d.manual = true)
      ∧ (m.sight = .blind → d.inflowBroken = true → calls .blind = .evacuate)
      ∧ (m.sight = .blind → d.inflowBroken = false → c.blindEvidence = true → calls .blind = .watch)
      ∧ (m.sight ≠ .blind ∨ d.inflowBroken = false ∧ c.blindEvidence = false →
          calls .blind = .calm))
  ∧ (∀ (d : BarrierDyn) (c : BarrierConfig) (lost : Bool) (h : Nat) (top : Level),
      (h = 0 ∧ top = d.demanded c lost) ∨ (h = c.hysteresis ∧ top = d.sustained c lost) →
      (∀ k, (d.calls c lost h k).rank ≤ top.rank) ∧ (top = .calm ∨ ∃ k, d.calls c lost h k = top))
  ∧ (∀ (r : Relay) (b : Fin 8), r.toldOfChange b = (r.buildAlert b).setBarrier b
      { r.barriers.get b with
        serial := min ((r.barriers.get b).serial + 1) 16777215
        repeatAt :=
          match (r.barriers.get b).level with
          | .calm => none
          | .watch => some (r.now + r.tables.identity.repeatWatch)
          | .warn => some (r.now + r.tables.identity.repeatWarn)
          | .evacuate => some (r.now + r.tables.identity.repeatEvacuate) })
  ∧ ∀ (r : Relay) (b : Fin 8) (old new : Level) (told sounded : Relay),
      new = (r.barriers.get b).level →
      (new = .calm → told = (r.setBarrier b
        { r.barriers.get b with gaugeLost := false, quieted := none }).toldOfChange b) →
      (new ≠ .calm → told = r.toldOfChange b) →
      (old.rank < new.rank →
        (∀ v, (r.barriers.get b).quieted = some v → v.rank < new.rank) →
        sounded = told.requestSounding b new) →
      (∀ v, old.rank < new.rank → (r.barriers.get b).quieted = some v → new.rank ≤ v.rank →
        sounded = told) →
      (new.rank < old.rank → new ≠ .calm → sounded = told.fallNotice b new) →
      (new.rank < old.rank → new = .calm →
        sounded = (told.fallNotice b .calm).requestSounding b .calm) →
      (new = old → r.handOver b old = r)
      ∧ (new ≠ old → new = .calm ∨ sounded.generator.running = false →
          r.handOver b old = sounded)
      ∧ (new ≠ old → new ≠ .calm → sounded.generator.running = true →
          r.handOver b old = sounded.setGenerator
            { sounded.generator with
              running := false
              outstanding := false
              gapTimer := none
              last := some .preempted })

/-- A hold expiry lowers the level one step, evaluates from there, and hands the change on once from
the level before (R100). At the moment of a field reset, when the key timer has run out, it has no effect
(R102; the model's reading of a reset at the same moment, log 47). -/
def Obligations.HoldExpiryLowersOneStep : Prop :=
  ∀ (r : Relay) (q : List Instr) (b : Fin 8) (e : Nat), r.awake = true → r.assessed b = true →
    (r.barriers.get b).hold = some e → e ≤ r.now →
    (∀ k, r.key.state = .timing → r.key.timer = some k → k ≤ r.clock.ms →
      exec (.holdExpiry b) ⟨r, q⟩ = .next ⟨r, q⟩)
    ∧ ((r.key.state = .timing → ∀ k, r.key.timer = some k → r.clock.ms < k) →
    ((r.barriers.get b).level = .warn →
      exec (.holdExpiry b) ⟨r, q⟩ = .next ⟨((r.setBarrier b
        { r.barriers.get b with hold := none, level := .watch }).weighBarrier b .warn).handOver b
          .warn, q⟩)
    ∧ ((r.barriers.get b).level = .watch →
        exec (.holdExpiry b) ⟨r, q⟩ = .next ⟨((r.setBarrier b
          { r.barriers.get b with hold := none, level := .calm }).weighBarrier b .watch).handOver b
            .watch, q⟩)
    ∧ ∃ t, exec (.holdExpiry b) ⟨r, q⟩ = .next ⟨t, q⟩ ∧ SameButHandOver r t)

/-- A manual alarm sets the latch of an assessed barrier and evaluates it; with the latch set, or at a
barrier that is not assessed, it changes nothing; MANUAL demands EVACUATE; the latch is cleared by an
accepted STAND-DOWN and by a power-on or clock-loss reset, and kept by a restart (R105). -/
def Obligations.ManualAlarmLatches : Prop :=
  (∀ (r : Relay) (b : Fin 8),
    r.deliverTrip (.manualAlarm b) = r.deliverManual b
    ∧ (r.assessed b = true → (r.barriers.get b).manual = false →
        r.deliverManual b
          = (r.setBarrier b { r.barriers.get b with manual := true }).evaluate b)
    ∧ (r.assessed b = true → (r.barriers.get b).manual = true → r.deliverManual b = r)
    ∧ (r.assessed b = false → r.deliverManual b = r)
    ∧ ((r.acceptStandDown b).barriers.get b).manual = false
    ∧ (r.keptByRestart.barriers.get b).manual = (r.barriers.get b).manual
    ∧ ∀ cause pins memory n, ((Relay.cleared cause pins memory n).barriers.get b).manual = false)
  ∧ ∀ (d : BarrierDyn) (c : BarrierConfig) (lost : Bool) (h : Nat), d.manual = true →
      d.calls c lost h .manual = .evacuate ∧ d.demanded c lost = .evacuate

/-- A repeat expiry builds one ALERT, sets the next repeat for the present level, and asks for the
level's sounding unless the quieted level withholds it; level, causes, hold and measures stand
(R123). -/
def Obligations.RepeatExpiryRepeatsTheAlert : Prop :=
  ∀ (r : Relay) (q : List Instr) (b : Fin 8) (e : Nat) (told : Relay), r.awake = true →
    (r.barriers.get b).repeatAt = some e → e ≤ r.now → (r.barriers.get b).level ≠ .calm →
    told = (r.buildAlert b).setBarrier b
      { r.barriers.get b with
        serial := min ((r.barriers.get b).serial + 1) 16777215
        repeatAt := some (r.now +
          (match (r.barriers.get b).level with
            | .evacuate => r.tables.identity.repeatEvacuate
            | .warn => r.tables.identity.repeatWarn
            | _ => r.tables.identity.repeatWatch)) } →
    ((∀ v, (r.barriers.get b).quieted = some v → v.rank < (r.barriers.get b).level.rank) →
      exec (.repeatExpiry b) ⟨r, q⟩
        = .next ⟨told.requestSounding b (r.barriers.get b).level, q⟩)
    ∧ (∀ v, (r.barriers.get b).quieted = some v → (r.barriers.get b).level.rank ≤ v.rank →
        exec (.repeatExpiry b) ⟨r, q⟩ = .next ⟨told, q⟩)
    ∧ ∃ t, exec (.repeatExpiry b) ⟨r, q⟩ = .next ⟨t, q⟩ ∧ t.barriers = told.barriers
        ∧ SameButHandOver r t

/-- Building an ALERT raises the barrier's serial by one, up to its maximum, and offers to the urgent
queue a frame that carries the record as it stands with that serial: the rate in two's complement, -32768
where it is absent, and the flags of sight, held fill, quieted level and stale feeder among its bytes
(R120, R121, R195, R197, R199). -/
def Obligations.AlertCarriesTheBarrierRecord : Prop :=
  ∀ (r : Relay) (b : Fin 8) (d : BarrierDyn) (rate sight held quieted stale : Nat),
    d = { r.barriers.get b with serial := min ((r.barriers.get b).serial + 1) 16777215 } →
    rate = ((match d.measures.rate with
      | some v => v
      | none => -32768) % 65536).toNat →
    sight = (match d.measures.sight with
      | .sighted => 0
      | .blind => 1
      | .ungauged => 2) →
    held = (if d.measures.held = true then 1 else 0) →
    quieted = (if d.quieted = none then 0 else 1) →
    stale = (match d.feeder with
      | some (_, true) => 1
      | _ => 0) →
    r.buildAlert b = ((r.setBarrier b d).offerOwn .urgent
      { cls := .alert
        urgent := true
        fresh := decide (r.emitter.fresh < 4)
        hops := BitVec.ofNat 4 r.tables.identity.hopBudget
        origin := r.store.own
        target :=
          match r.tables.identity.manager with
          | some m => m
          | none => 0#12
        sequence := r.emitter.sequence
        payload :=
          [byte b.val, byte d.level.rank, byte (d.measures.fill / 256), byte d.measures.fill]
            ++ [byte (rate / 256), byte rate, byte (d.measures.ttf / 256), byte d.measures.ttf,
              byte (sight + 4 * held + 8 * quieted + 16 * stale),
              byte (d.serial / 65536), byte (d.serial / 256), byte d.serial,
              byte (r.now / 16777216), byte (r.now / 65536), byte (r.now / 256), byte r.now,
              byte d.causes.length] ++ d.causes.map (fun c => byte c.code) } .other).1

/-- A QUIET for another relay changes nothing; one of an origin, index or level that does not fit, or
whose named barriers are all CALM, is counted as not acted on. Otherwise it is counted as acted on, and
every named barrier above CALM takes the higher of its quieted level and the named one; a request of it
that waits at or below that level leaves its slot, and a sounding it owns at or below that level is
stopped with STOPPED_QUIET; no other channel field and nothing else changes (R127, R128, R145). -/
def Obligations.QuietFramesQuietTheirBarriers : Prop :=
  ∀ (r : Relay) (origin : Addr) (hi lo index level : Byte) (rest payload : List Byte) (relay : Nat)
    (fits : Prop) (named : Fin 8 → Prop) (t : Relay),
    payload = hi :: lo :: index :: level :: rest → relay = hi.toNat * 256 + lo.toNat →
    (fits ↔ (r.tables.identity.manager = none ∨ r.tables.identity.manager = some origin)
      ∧ (index.toNat < 8 ∨ index = 255#8) ∧ 1 ≤ level.toNat ∧ level.toNat ≤ 3) →
    (∀ b, named b ↔ (index.toNat = b.val ∨ index = 255#8) ∧ (r.barriers.get b).level ≠ .calm) →
    t = r.judgeQuiet origin payload →
    (relay ≠ r.store.own.toNat → relay ≠ 4095 → t = r)
    ∧ (relay = r.store.own.toNat ∨ relay = 4095 → (¬ fits ∨ ∀ b, ¬ named b) →
        t = r.setEmitter
          { r.emitter with quietNotActed := min (r.emitter.quietNotActed + 1) 65535 })
    ∧ (relay = r.store.own.toNat ∨ relay = 4095 → fits → (∃ b, named b) →
        t = ((r.setBarriers t.barriers).setChannels t.channels).setEmitter
          { r.emitter with quietActed := min (r.emitter.quietActed + 1) 65535 }
        ∧ (∀ b, ¬ named b → t.barriers.get b = r.barriers.get b)
        ∧ ∃ quieted : Fin 8 → Level,
            (∀ b, named b →
              t.barriers.get b = { r.barriers.get b with quieted := some (quieted b) }
              ∧ ((r.barriers.get b).quieted = none → (quieted b).rank = level.toNat)
              ∧ ∀ old, (r.barriers.get b).quieted = some old →
                  (quieted b).rank = max old.rank level.toNat)
            ∧ ∀ (c : Fin 4) (ch kept : Channel) (waits sounds : Prop), ch = r.channels.get c →
                (waits ↔ ∃ w, ch.waiting = some w ∧ named w.barrier
                  ∧ w.level.rank ≤ (quieted w.barrier).rank) →
                (sounds ↔ ch.state = .sounding ∧ ∃ b l, ch.owner = some (.barrier b l) ∧ named b
                  ∧ l.rank ≤ (quieted b).rank) →
                (waits → kept = { ch with waiting := none }) → (¬ waits → kept = ch) →
                (sounds →
                  t.channels.get c = { kept with state := .stopping, stop := some .stoppedQuiet })
                ∧ (¬ sounds → t.channels.get c = kept))

/-! ## Channels and lines -/

/-- A step boundary of a channel whose segment has ended: a STOPPING channel ends with its reason and
starts what waits; a SOUNDING one is renewed or preempted by its slot, or advances; a completed cadence
continues into the next one, ends with DONE, or, where the next one has become unfit, with CONFIG (R136,
R140 to R143). What follows a segment is said row by row of the table of R136; that a GAP segment has step
position 1 (log 44), and that a channel that becomes IDLE keeps its step position and rounds (log 25), are
the model's. A new segment starts the sensing timer of its line afresh (R147). A request is put to the
start check and fails with CONFIG, starts at an IDLE channel, or takes the pending slot of any other where
that is empty, lower or its own barrier's (R137 to R140). A fall notice, a disable notice and a band of
CRITICAL drop requests and stop or cut soundings at the channels they name, and change no other channel
(R144, R146, R149). -/
def Obligations.StepBoundaryAdvancesEndsOrHandsOver : Prop :=
  ((∀ (r : Relay) (q : List Instr) (c : Fin 4) (e : Nat) (ch : Channel), r.awake = true →
    ch = r.channels.get c → ch.segmentEnd = some e → e ≤ r.clock.ms →
    (∀ reason, ch.state = .stopping → ch.stop = some reason →
      exec (.stepBoundary c) ⟨r, q⟩ = .next ⟨(r.play c
        { ch with
          state := .idle
          owner := none
          cadence := none
          segment := none
          segmentEnd := none
          next := none
          continueMark := false
          stop := none
          waiting := none
          abnormalDone := true
          last := some reason.outcome }).startWaiting c ch.waiting, q⟩)
    ∧ (∀ w b level, ch.state = .sounding → ch.waiting = some w →
        ch.owner = some (.barrier b level) → w.barrier = b →
        exec (.stepBoundary c) ⟨r, q⟩ = .next ⟨(r.play c
          { ch with
            state := .idle
            owner := none
            cadence := none
            segment := none
            segmentEnd := none
            next := none
            continueMark := false
            stop := none
            waiting := none }).startRequest c w, q⟩)
    ∧ (∀ w, ch.state = .sounding → ch.waiting = some w →
        (ch.owner = some .test ∨ ∃ b level, ch.owner = some (.barrier b level) ∧ w.barrier ≠ b
          ∧ level.rank < w.level.rank) →
        exec (.stepBoundary c) ⟨r, q⟩ = .next ⟨(r.play c
          { ch with
            state := .idle
            owner := none
            cadence := none
            segment := none
            segmentEnd := none
            next := none
            continueMark := false
            stop := none
            waiting := none
            abnormalDone := true
            last := some .preempted }).startRequest c w, q⟩)
    ∧ (∀ cad seg, ch.state = .sounding → ch.takeover = .nothing →
        r.cadenceAt ch.cadence = some cad → ch.segment = some seg →
        (∀ next step rounds tenths, cad.following seg ch.step ch.rounds
            = .segment next step rounds tenths →
          exec (.stepBoundary c) ⟨r, q⟩ = .next ⟨r.play c
            { ch with
              step := step
              rounds := rounds
              segment := some next
              segmentEnd := some (e + tenths * 100) }, q⟩)
        ∧ (∀ rounds k, cad.following seg ch.step ch.rounds = .complete rounds →
            ch.continueMark = true → ch.next = some k → r.usable c k = true →
            exec (.stepBoundary c) ⟨r, q⟩ = .next ⟨r.play c
              { ch with
                cadence := some k
                step := 1
                rounds := 0
                segment := some .on
                segmentEnd := some (e + r.firstOn (some k))
                next := none
                continueMark := false
                continued := true }, q⟩)
        ∧ (∀ rounds k, cad.following seg ch.step ch.rounds = .complete rounds →
            ch.continueMark = true → ch.next = some k → r.usable c k = false →
            exec (.stepBoundary c) ⟨r, q⟩ = .next ⟨(r.play c
              { ch with
                state := .idle
                owner := none
                cadence := none
                rounds := rounds
                segment := none
                segmentEnd := none
                next := none
                continueMark := false
                stop := none
                waiting := none
                abnormalDone := true
                last := some .config }).startWaiting c ch.waiting, q⟩)
        ∧ (∀ rounds, cad.following seg ch.step ch.rounds = .complete rounds →
            ch.continueMark = false ∨ ch.next = none →
            exec (.stepBoundary c) ⟨r, q⟩ = .next ⟨(r.play c
              { ch with
                state := .idle
                owner := none
                cadence := none
                rounds := rounds
                segment := none
                segmentEnd := none
                next := none
                continueMark := false
                stop := none
                waiting := none
                normalDone := true
                last := some .done }).startWaiting c ch.waiting, q⟩)))
  ∧ (∀ (r : Relay) (c : Fin 4) (x : Request) (ch : Channel), ch = r.channels.get c →
      (∀ k, r.usable c k = true ↔ ∃ cad, r.tables.cadences.get k = some cad
        ∧ (cad.kind = .either ∨ (cad.kind = .siren ∧ (r.tables.bindings.get c).kind = .siren)
          ∨ (cad.kind = .beacon ∧ (r.tables.bindings.get c).kind = .beacon)))
      ∧ (∀ k, r.endlessAt k = true ↔
          ∃ n cad, k = some n ∧ r.tables.cadences.get n = some cad ∧ cad.rounds = 0)
      ∧ (r.startCheck c x.attention x.sustain = true ↔ (r.tables.bindings.get c).line ≠ none
          ∧ (∃ k, x.attention = some k ∧ r.usable c k = true)
          ∧ (∀ k, x.sustain = some k → r.usable c k = true ∧ r.endlessAt x.attention = false)
          ∧ (r.store.band = .critical → (r.tables.bindings.get c).kind = .siren))
      ∧ (r.startCheck c x.attention x.sustain = false →
          r.channelRequest x c
            = r.setChannel c { ch with abnormalDone := true, last := some .config }
          ∧ r.startRequest c x = r.channelRequest x c)
      ∧ (r.startCheck c x.attention x.sustain = true →
          r.startRequest c x = (r.markLine c false).play c
            { ch with
              state := .sounding
              owner := some (.barrier x.barrier x.level)
              cadence := x.attention
              step := 1
              rounds := 0
              segment := some .on
              segmentEnd := some (r.clock.ms + r.firstOn x.attention)
              next := x.sustain
              continueMark := x.sustain.isSome
              stop := none
              normalDone := false
              continued := false }
          ∧ (ch.state = .idle → r.channelRequest x c = r.startRequest c x)
          ∧ (ch.state ≠ .idle →
              (∀ w, ch.waiting = some w → w.level.rank < x.level.rank ∨ w.barrier = x.barrier) →
              r.channelRequest x c = r.setChannel c { ch with waiting := some x })
          ∧ ∀ w, ch.state ≠ .idle → ch.waiting = some w → x.level.rank ≤ w.level.rank →
              w.barrier ≠ x.barrier → r.channelRequest x c = r)
      ∧ ∀ (b : Fin 8) (level : Level) (entry : DispatchEntry) (index : Fin 32),
          index.val = 4 * b.val + level.rank → entry = r.tables.dispatch.get index →
          x = { barrier := b, level := level, attention := entry.attention,
                sustain := entry.sustain } →
          r.requestSounding b level = (List.finRange 4).foldl
            (fun t c => if entry.channels.getLsbD c.val = true then t.channelRequest x c else t) r)
  ∧ (∀ (r : Relay) (b : Fin 8) (level : Level),
      r.fallNotice b level = r.setChannels (r.fallNotice b level).channels
      ∧ r.disableNotice b = r.setChannels (r.disableNotice b).channels
      ∧ ∀ (c : Fin 4) (ch kept gone : Channel) (waits sounds : Level → Prop) (endless : Prop),
          ch = r.channels.get c →
          (∀ l, waits l ↔ ∃ w, ch.waiting = some w ∧ w.barrier = b ∧ w.level = l) →
          (∀ l, sounds l ↔ ch.state = .sounding ∧ ch.owner = some (.barrier b l)) →
          (endless ↔ r.endlessAt ch.cadence = true
            ∨ (ch.continueMark = true ∧ r.endlessAt ch.next = true)) →
          ((∃ l, waits l ∧ level.rank < l.rank) → kept = { ch with waiting := none }) →
          ((¬ ∃ l, waits l ∧ level.rank < l.rank) → kept = ch) →
          ((∃ l, waits l) → gone = { ch with waiting := none }) →
          ((¬ ∃ l, waits l) → gone = ch) →
          ((∃ l, sounds l ∧ level.rank < l.rank) ∧ endless →
            (r.fallNotice b level).channels.get c
              = { kept with state := .stopping, stop := some .levelFell })
          ∧ (¬ ((∃ l, sounds l ∧ level.rank < l.rank) ∧ endless) →
              (r.fallNotice b level).channels.get c = kept)
          ∧ ((∃ l, sounds l) → (r.disableNotice b).channels.get c
              = { gone with state := .stopping, stop := some .levelFell })
          ∧ ((¬ ∃ l, sounds l) → (r.disableNotice b).channels.get c = gone))
  ∧ ∀ (r t : Relay), t = r.bandAtChannels .critical →
      (∀ band, band ≠ .critical → r.bandAtChannels band = r)
      ∧ t = (r.setChannels t.channels).setLines t.lines
      ∧ (∀ l, (t.lines.get l).fault = (r.lines.get l).fault)
      ∧ ∀ (c : Fin 4) (cut : Prop),
          (cut ↔ (r.tables.bindings.get c).line ≠ none
            ∧ (r.tables.bindings.get c).kind = .beacon ∧ (r.channels.get c).state ≠ .idle) →
          (cut → t.channels.get c
            = { r.channels.get c with
                state := .idle
                owner := none
                cadence := none
                segment := none
                segmentEnd := none
                next := none
                continueMark := false
                stop := none
                waiting := none
                abnormalDone := true
                last := some .config })
          ∧ (¬ cut → t.channels.get c = r.channels.get c))
  ∧ (∀ (cad : Cadence) (step rounds done : Nat) (times : Nat → Nat × Nat) (next : Following),
      times = (fun k => cad.steps.getD (k - 1) (0, 0)) → done = min (rounds + 1) 255 →
      (step < cad.steps.length → next = .segment .on (step + 1) rounds (times (step + 1)).1) →
      (cad.steps.length ≤ step → cad.rounds = 0 ∨ done < cad.rounds → 0 < cad.gap →
        next = .segment .gap 1 done cad.gap) →
      (cad.steps.length ≤ step → cad.rounds = 0 ∨ done < cad.rounds → cad.gap = 0 →
        next = .segment .on 1 done (times 1).1) →
      (cad.steps.length ≤ step → cad.rounds ≠ 0 → cad.rounds ≤ done → next = .complete done) →
      (0 < (times step).2 →
        cad.following .on step rounds = .segment .off step rounds (times step).2)
      ∧ ((times step).2 = 0 → cad.following .on step rounds = next)
      ∧ cad.following .off step rounds = next
      ∧ cad.following .gap step rounds = .segment .on 1 rounds (times 1).1)
  ∧ ∀ (r : Relay) (c : Fin 4) (ch : Channel) (fault : Bool),
      (ch.takeover = .nothing ↔ ch.waiting = none ∨ ch.owner = none
        ∨ ∃ w b level, ch.waiting = some w ∧ ch.owner = some (.barrier b level) ∧ w.barrier ≠ b
            ∧ w.level.rank ≤ level.rank)
      ∧ (∀ k, r.cadenceAt (some k) = r.tables.cadences.get k
          ∧ ∀ cad, r.tables.cadences.get k = some cad →
              r.firstOn (some k) = (cad.steps.getD 0 (0, 0)).1 * 100)
      ∧ r.startWaiting c none = r
      ∧ (∀ w, r.startWaiting c (some w) = r.startRequest c w)
      ∧ ((r.tables.bindings.get c).line = none →
          r.play c ch = r.setChannel c ch ∧ r.markLine c fault = r)
      ∧ ∀ l, (r.tables.bindings.get c).line = some l →
          r.play c ch = (r.setChannel c ch).setLine l
            { r.lines.get l with
              sensing :=
                if ch.state ≠ .idle ∧ ch.segment = some .on ∧ r.pins.loads.get l ≠ .sound then
                  some (r.clock.ms + 500)
                else none }
          ∧ r.markLine c fault = r.setLine l { r.lines.get l with fault := fault }

/-- A load condition of a line that no channel drives changes the pin alone, in every condition of the
part. On a driven line it starts the sensing timer of 5 tenths, a change starts it anew, its end stops
it; the expiry ends the sounding at once with the fault, and nothing waits any more (R147; log 30). -/
def Obligations.LoadFaultEndsTheSounding : Prop :=
  (∀ (r : Relay) (q : List Instr) (l : Fin 4) (x : LoadCondition), r.driverOf l = none →
    exec (.loadConditionChange l x) ⟨r, q⟩ = .next ⟨r.setPins
      { r.pins with loads := r.pins.loads.set l x }, q⟩)
  ∧ ∀ (r : Relay) (q : List Instr) (l c : Fin 4), r.awake = true → r.lineOf c = some l →
      r.driverOf l = some c →
      (∀ x, r.pins.loads.get l ≠ x →
        exec (.loadConditionChange l x) ⟨r, q⟩ = .next ⟨(r.setPins
          { r.pins with loads := r.pins.loads.set l x }).setLine l
          { r.lines.get l with
            sensing := if x = .sound then none else some (r.clock.ms + 500) }, q⟩)
      ∧ (∀ x, r.pins.loads.get l = x →
          exec (.loadConditionChange l x) ⟨r, q⟩ = .next ⟨r, q⟩)
      ∧ ∀ e, (r.lines.get l).sensing = some e → e ≤ r.clock.ms →
          ∃ t, exec (.sensingTimerExpiry l) ⟨r, q⟩ = .next ⟨t, q⟩
            ∧ t.channels = r.channels.set c
              { r.channels.get c with
                state := .idle
                owner := none
                cadence := none
                segment := none
                segmentEnd := none
                next := none
                continueMark := false
                stop := none
                waiting := none
                abnormalDone := true
                last := some (if r.pins.loads.get l = .shortLoad then .outputShort
                  else .outputOpen) }
            ∧ t.lines = r.lines.set l { fault := true, sensing := none }
            ∧ t = (r.setChannels t.channels).setLines t.lines

/-- TEST-SOUND is decided in its order: EVENT, BUSY, UNCLEARED, CONFIG, or a start with owner TEST.
STOP-CHANNEL stops a channel that is SOUNDING or STOPPING with reason STOPPED_MGMT and empties its
slot; in IDLE nothing changes; a channel outside 0 to 3 or a cadence outside 0 to 15 is BAD_INDEX
(R150, R151, R176). -/
def Obligations.TestSoundAndStopChannelAreDecided : Prop :=
  (∀ (r : Relay) (q : List Instr) (origin : Addr) (tag : Byte) (c : Fin 4) (k : Fin 16)
      (ch : Channel), r.Serves origin → ch = r.channels.get c →
      (r.highestLevel ≠ .calm →
        exec (.testSound origin tag (byte c.val) (byte k.val)) ⟨r, q⟩
          = .next ⟨r.counted.reply ⟨origin, 9#8, tag⟩ .event [], q⟩)
      ∧ (r.highestLevel = .calm → ch.state ≠ .idle →
          exec (.testSound origin tag (byte c.val) (byte k.val)) ⟨r, q⟩
            = .next ⟨r.counted.reply ⟨origin, 9#8, tag⟩ .busy [], q⟩)
      ∧ (r.highestLevel = .calm → ch.state = .idle →
          (ch.normalDone = true ∨ ch.abnormalDone = true) →
          exec (.testSound origin tag (byte c.val) (byte k.val)) ⟨r, q⟩
            = .next ⟨(r.counted.setChannel c
                { ch with abnormalDone := true, last := some .uncleared }).reply
                ⟨origin, 9#8, tag⟩ .done [0#8, 8#8], q⟩)
      ∧ (r.highestLevel = .calm → ch.state = .idle → ch.normalDone = false →
          ch.abnormalDone = false → r.startCheck c (some k) none = false →
          exec (.testSound origin tag (byte c.val) (byte k.val)) ⟨r, q⟩
            = .next ⟨(r.counted.setChannel c
                { ch with abnormalDone := true, last := some .config }).reply
                ⟨origin, 9#8, tag⟩ .done [0#8, 5#8], q⟩)
      ∧ (r.highestLevel = .calm → ch.state = .idle → ch.normalDone = false →
          ch.abnormalDone = false → r.startCheck c (some k) none = true →
          exec (.testSound origin tag (byte c.val) (byte k.val)) ⟨r, q⟩
            = .next ⟨((r.counted.markLine c false).play c
                { ch with
                  state := .sounding
                  owner := some .test
                  cadence := some k
                  step := 1
                  rounds := 0
                  segment := some .on
                  segmentEnd := some (r.clock.ms + r.firstOn (some k))
                  next := none
                  continueMark := false
                  stop := none
                  normalDone := false
                  continued := false }).reply ⟨origin, 9#8, tag⟩ .done
                [1#8, optByte (ch.last.map ChannelOutcome.code)], q⟩))
  ∧ ∀ (r : Relay) (q : List Instr) (origin : Addr) (tag : Byte), r.Serves origin →
      (∀ x y : Byte, 4 ≤ x.toNat ∨ 16 ≤ y.toNat →
        exec (.testSound origin tag x y) ⟨r, q⟩
          = .next ⟨r.counted.reply ⟨origin, 9#8, tag⟩ .badIndex [], q⟩)
      ∧ (∀ c : Fin 4, (r.channels.get c).state ≠ .idle →
        exec (.stopChannel origin tag (byte c.val)) ⟨r, q⟩
          = .next ⟨(r.counted.setChannel c
              { r.channels.get c with
                state := .stopping
                stop := some .stoppedMgmt
                waiting := none }).reply ⟨origin, 10#8, tag⟩ .done [2#8], q⟩)
      ∧ (∀ c : Fin 4, (r.channels.get c).state = .idle →
          exec (.stopChannel origin tag (byte c.val)) ⟨r, q⟩
            = .next ⟨r.counted.reply ⟨origin, 10#8, tag⟩ .done [0#8], q⟩)
      ∧ ∀ x : Byte, 4 ≤ x.toNat →
          exec (.stopChannel origin tag x) ⟨r, q⟩
            = .next ⟨r.counted.reply ⟨origin, 10#8, tag⟩ .badIndex [], q⟩

/-- A CLEAR of channel flags clears the three flags of all four channels and leaves every other field
of the channels and the lines as it stands (R152). -/
def Obligations.ClearChannelFlagsClearsThreeFlags : Prop :=
  ∀ (r : Relay) (q : List Instr) (origin : Addr) (tag : Byte), r.Serves origin →
    ∃ t, exec (.clearChannelFlags origin tag) ⟨r, q⟩
        = .next ⟨t.reply ⟨origin, 4#8, tag⟩ .done [], q⟩
      ∧ t = r.counted.setChannels t.channels
      ∧ ∀ c, t.channels.get c
        = { r.channels.get c with normalDone := false, abnormalDone := false, continued := false }

/-! ## Inputs, the key and restart -/

/-- A contact input in use moves between its states by the table of R157, and its trip is delivered by its
function: a wire break of its barrier and position, a manual alarm of its barrier, or nothing (R159; what
the two deliveries do, RangeReadingFormsTheSmoothedFill and ManualAlarmLatches say); the key then follows
its inputs: with two RESET_KEY inputs it goes from DISARMED to ARMED when both stand NORMAL, from ARMED to
TIMING with its timer of 4 s when both stand TRIPPED, and back to ARMED with the timer stopped when they
no longer do (R161). That the expiry of a timer acts alike at an UNUSED input, which has one only where
the load after a SAVE made it UNUSED, is the model's choice (log 53). -/
def Obligations.InputsDebounceAndTrip : Prop :=
  ((∀ (r : Relay) (q : List Instr) (i : Fin 8) (cfg : InputConfig) (d : InputDyn), r.awake = true →
    cfg = r.tables.inputs.get i → d = r.inputs.get i →
    (∀ (x : PinLevel) (moved : Relay), cfg.function ≠ .unused → r.pins.contacts.get i ≠ x →
      moved = r.setPins { r.pins with contacts := r.pins.contacts.set i x } →
      (d.state = .normal → x ≠ cfg.expected →
        exec (.inputLevelChange i x) ⟨r, q⟩ = .next ⟨(moved.setInput i
          { d with
            state := .deviating
            timer := some (r.clock.ms + cfg.debounce * 100) }).settleKey, q⟩)
      ∧ (d.state = .deviating → x = cfg.expected →
          exec (.inputLevelChange i x) ⟨r, q⟩ = .next ⟨(moved.setInput i
            { d with state := .normal, timer := none }).settleKey, q⟩)
      ∧ (d.state = .tripped → x = cfg.expected →
          exec (.inputLevelChange i x) ⟨r, q⟩ = .next ⟨(moved.setInput i
            { d with timer := some (r.clock.ms + cfg.debounce * 100) }).settleKey, q⟩)
      ∧ (d.state = .tripped → x ≠ cfg.expected →
          exec (.inputLevelChange i x) ⟨r, q⟩ = .next ⟨(moved.setInput i
            { d with timer := none }).settleKey, q⟩)
      ∧ (d.state = .normal ∧ x = cfg.expected ∨ d.state = .deviating ∧ x ≠ cfg.expected →
          exec (.inputLevelChange i x) ⟨r, q⟩ = .next ⟨moved.settleKey, q⟩))
    ∧ (∀ x, cfg.function = .unused → r.pins.contacts.get i ≠ x →
        exec (.inputLevelChange i x) ⟨r, q⟩ = .next ⟨(r.setPins
          { r.pins with contacts := r.pins.contacts.set i x }).settleKey, q⟩)
    ∧ (∀ e, d.timer = some e → e ≤ r.clock.ms →
        (d.state = .deviating →
          exec (.debounceExpiry i) ⟨r, q⟩ = .next ⟨((r.setInput i
            { state := .tripped
              timer := none
              trips := min (d.trips + 1) 65535 }).deliverTrip cfg.function).settleKey, q⟩)
        ∧ (d.state = .tripped →
            exec (.debounceExpiry i) ⟨r, q⟩ = .next ⟨(r.setInput i
              { d with state := .normal, timer := none }).settleKey, q⟩))
    ∧ (∀ x, r.pins.contacts.get i = x →
        exec (.inputLevelChange i x) ⟨r, q⟩ = .next ⟨r, q⟩))
  ∧ ∀ (r : Relay) (both : InputState → Prop),
      (∀ st, both st ↔ ((List.finRange 8).filter
          (fun i => decide ((r.tables.inputs.get i).function = .resetKey))).length = 2
        ∧ ∀ i, (r.tables.inputs.get i).function = .resetKey → (r.inputs.get i).state = st) →
      (r.key.state = .disarmed →
        (both .normal → r.settleKey = r.setKey { state := .armed, timer := none })
        ∧ (¬ both .normal → r.settleKey = r))
      ∧ (r.key.state = .armed →
          (both .tripped →
            r.settleKey = r.setKey { state := .timing, timer := some (r.clock.ms + 4000) })
          ∧ (¬ both .tripped → r.settleKey = r))
      ∧ (r.key.state = .timing →
          (both .tripped → r.settleKey = r)
          ∧ (¬ both .tripped → r.settleKey = r.setKey { state := .armed, timer := none })))
  ∧ ∀ (r : Relay) (b : Fin 8),
      r.deliverTrip (.inflowWire b) = r.deliverBreak b .inflow
      ∧ r.deliverTrip (.overflowWire b) = r.deliverBreak b .overflow
      ∧ r.deliverTrip (.manualAlarm b) = r.deliverManual b
      ∧ r.deliverTrip .resetKey = r ∧ r.deliverTrip .unused = r

/-- The key timer's expiry is a field reset, which keeps and clears what a restart does, block by block,
and then releases the ports, starts the inputs, starts assessment and builds a HEALTH frame, in that order
(R17, R37, R47, R93, R114, R118, R135, R148, R156, R161, R165, R191; what the four do,
ClockLossAndResetsStartThePart says). The image status becomes INVALID where a SAVE had begun (R190); that
a SAVE whose memory did not answer at its acceptance counts as not begun, and leaves status and memory as
they are, is the model's choice (log 7). The part's own clock takes the key timer's expiry before any
other timer event that is due at the same moment (the model's order, log 2, after R102, log 47). -/
def Obligations.KeyExpiryRestartsThePart : Prop :=
  ∀ (r : Relay) (q : List Instr) (e : Nat) (kept : Relay), r.awake = true →
    r.key.state = .timing → r.key.timer = some e → e ≤ r.clock.ms → kept = r.keptByRestart →
    exec .keyTimerExpiry ⟨r, q⟩
      = .next ⟨kept.releasePorts.startInputs.startAssessing.sendHealth, q⟩
    ∧ r.nextEvent = some .keyTimerExpiry
    ∧ kept.tables = r.tables ∧ kept.store.own = r.store.own ∧ kept.store.mode = r.store.mode
    ∧ kept.store.rate = r.store.rate ∧ kept.store.version = r.store.version
    ∧ kept.store.cause = .restart ∧ kept.store.conflicts = 0
    ∧ kept.store.saving = false ∧ kept.store.saveBegun = false ∧ kept.now = 0
    ∧ kept.store.nextSample = 10
    ∧ kept.store.band = firstBand r.pins.centivolts
    ∧ (r.store.saveBegun = false → kept.store.status = r.store.status ∧ kept.memory = r.memory)
    ∧ (r.store.saveBegun = true → kept.store.status = .invalid)
    ∧ (∀ b, kept.barriers.get b =
        { r.barriers.get b with
          level := if (r.barriers.get b).level = .evacuate then .evacuate else .calm
          causes := []
          hold := none
          gaugeLost := false
          feeder := none
          lineBase := none
          quieted := none
          repeatAt := none
          measures := Measures.start })
    ∧ (∀ l, kept.lines.get l = { fault := false, sensing := none })
    ∧ kept.lineLoss = { lost := false, confirm := none }
    ∧ kept.pool = Pool.start ∧ kept.upper = Port.start ∧ kept.lower = Port.start
    ∧ kept.field = FieldPort.start ∧ kept.generator = Generator.start
    ∧ kept.checker = Checker.start ∧ kept.emitter = Emitter.start
    ∧ (∀ i, kept.stations.get i = StationDyn.start) ∧ (∀ c, kept.channels.get c = Channel.start)
    ∧ (∀ i, kept.inputs.get i = InputDyn.start) ∧ kept.key = ResetKey.start
    ∧ kept.agent = Agent.start

/-! ## The management agent -/

/-- A request of an origin that is not authorised is dropped and counted, with no reply; one whose code or
length does not fit is BAD_REQUEST; with a restart pending every other one is BUSY; each of these changes
nothing else but the requests-acted-on counter and the reply (R165, R166). The reply is offered to the
routine queue, and that to a RESTART, its code 14, is refused as RESTART is answered, on the urgent queue
(R42, R167; ReplyGoesToTheRoutineQueue). A MGMT-REQ frame can carry what no request command spells: of any
payload it is dropped, BAD_REQUEST where its code is not 1 to 14 or it is shorter than its code's
arguments, with a WRITE-RECORD's record among them where its table is known (R198), or BUSY likewise; a
CLEAR of a "what" above 3 is BAD_FIELD (R173); bytes beyond the arguments are without effect (R198). -/
def Obligations.RequestsAreScreenedFirst : Prop :=
  (∀ (c : Instr) (r : Relay) (q : List Instr) (origin : Addr) (tag : Byte) (code : Nat)
    (args : List Byte), requestOf c = some (origin, tag, code, args) → r.awake = true →
    (r.actsFor origin = true ↔ r.store.mode = .openLine ∨ r.tables.identity.manager = none
      ∨ r.tables.identity.manager = some origin)
    ∧ (r.actsFor origin = false →
        exec c ⟨r, q⟩ = .next ⟨r.setAgent
          { r.agent with unauthorised := min (r.agent.unauthorised + 1) 65535 }, q⟩)
    ∧ (r.actsFor origin = true → wellSized code args = false →
        exec c ⟨r, q⟩ = .next ⟨(r.setAgent
          { r.agent with actedOn := min (r.agent.actedOn + 1) 65535 }).reply
            ⟨origin, byte code, tag⟩ .badRequest [], q⟩)
    ∧ (r.actsFor origin = true → code = 14 → r.agent.restartPending = true →
        exec c ⟨r, q⟩ = .next ⟨(r.setAgent
          { r.agent with actedOn := min (r.agent.actedOn + 1) 65535 }).refuse
            ⟨origin, 14#8, tag⟩ .busy, q⟩)
    ∧ (r.actsFor origin = true → wellSized code args = true → code ≠ 14 →
        r.agent.restartPending = true →
        exec c ⟨r, q⟩ = .next ⟨(r.setAgent
          { r.agent with actedOn := min (r.agent.actedOn + 1) 65535 }).reply
            ⟨origin, byte code, tag⟩ .busy [], q⟩))
  ∧ ∀ (r : Relay) (a : Arrival) (code table : Nat) (args : List Byte) (q : Sender) (acted : Relay)
      (short : Prop), code = (a.payload.getD 0 0#8).toNat → args = a.payload.drop 2 →
      table = (args.getD 0 0#8).toNat →
      q = ⟨a.origin, a.payload.getD 0 0#8, a.payload.getD 1 0#8⟩ →
      acted = r.setAgent { r.agent with actedOn := min (r.agent.actedOn + 1) 65535 } →
      (short ↔ code = 0 ∨ 14 < code
        ∨ args.length < [0, 2, 2, 3, 1, 0, 0, 1, 2, 2, 1, 7, 0, 0, 0].getD code 0
        ∨ (code = 2 ∧ args.length < 2 + [27, 12, 25, 19, 3, 4, 2].getD table 0)) →
      (r.actsFor a.origin = false → r.handRequest a = r.setAgent
        { r.agent with unauthorised := min (r.agent.unauthorised + 1) 65535 })
      ∧ (r.actsFor a.origin = true → short → r.handRequest a = acted.reply q .badRequest [])
      ∧ (r.actsFor a.origin = true → ¬ short → r.agent.restartPending = true →
          r.handRequest a = acted.refuse q .busy)
      ∧ (r.actsFor a.origin = true → ¬ short → r.agent.restartPending = false → code = 4 →
          4 ≤ (args.getD 0 0#8).toNat → r.handRequest a = acted.reply q .badField [])
      ∧ ∀ extra, ¬ short → 2 ≤ a.payload.length →
          r.handRequest { a with payload := a.payload ++ extra } = r.handRequest a

/-- A reply is a MGMT-REP to the request's origin with code, tag, result and data; it is offered to the
routine queue, and a refused one is counted; nothing else changes (R39, R119, R167). The reply to a
RESTART that is turned away has its urgent mark set and is offered to the urgent queue, with nobody to
tell of its fate (R42, R167; that it is urgent too and that its fate is told to nobody is read from these
rules, log 46). A frame the relay makes is offered to its queue with the present relay sequence; where it
is admitted the sequence advances, modulo 256, with the fresh count, and where it is refused both stand
(R119). -/
def Obligations.ReplyGoesToTheRoutineQueue : Prop :=
  ((∀ (r : Relay) (q : Sender) (result : Result) (data : List Byte) (b : Buffer),
    b =
      { frame :=
          { cls := .mgmtRep
            urgent := false
            fresh := decide (r.emitter.fresh < 4)
            hops := BitVec.ofNat 4 r.tables.identity.hopBudget
            origin := r.store.own
            target := q.origin
            sequence := r.emitter.sequence
            payload := q.code :: q.tag :: byte result.code :: data }
        maker := .other } →
    (r.pool.routine.length < r.routineCap → 0 < r.pool.free →
      r.reply q result data = (((r.setPool
        { r.pool with
          free := r.pool.free - 1
          routine := r.pool.routine ++ [b] }).take .lower)).setEmitter
        { r.emitter with
          sequence := r.emitter.sequence + 1#8
          fresh := min (r.emitter.fresh + 1) 4 })
    ∧ (¬ (r.pool.routine.length < r.routineCap ∧ 0 < r.pool.free) →
        r.reply q result data = (r.setPool
          { r.pool with
            drops :=
              { r.pool.drops with
                routineDrops := min (r.pool.drops.routineDrops + 1) 65535 } }).setAgent
          { r.agent with repliesRefused := min (r.agent.repliesRefused + 1) 65535 })
    ∧ SameButReply r (r.reply q result data))
  ∧ ∀ (r : Relay) (q : Sender) (result : Result) (offered : Relay × Bool),
      (q.code ≠ 14#8 → r.refuse q result = r.reply q result [])
      ∧ (q.code = 14#8 →
          offered = r.offerUrgent
            { frame :=
                { cls := .mgmtRep
                  urgent := true
                  fresh := decide (r.emitter.fresh < 4)
                  hops := BitVec.ofNat 4 r.tables.identity.hopBudget
                  origin := r.store.own
                  target := q.origin
                  sequence := r.emitter.sequence
                  payload := [14#8, q.tag, byte result.code] }
              maker := .other } →
          (offered.2 = true → r.refuse q result = offered.1.setEmitter
            { offered.1.emitter with
              sequence := offered.1.emitter.sequence + 1#8
              fresh := min (offered.1.emitter.fresh + 1) 4 })
          ∧ (offered.2 = false → r.refuse q result = offered.1.setAgent
              { offered.1.agent with
                repliesRefused := min (offered.1.agent.repliesRefused + 1) 65535 })))
  ∧ ∀ (r : Relay) (b : Buffer) (lane : Lane) (frame : Frame) (maker : Maker)
      (offered : Relay × Bool),
      r.offer .urgent b = r.offerUrgent b ∧ r.offer .routine b = r.offerRoutine b
      ∧ r.offer .up b = r.offerUp b
      ∧ (offered = r.offer lane { frame := frame, maker := maker } →
          (offered.2 = true → r.offerOwn lane frame maker = (offered.1.setEmitter
            { r.emitter with
              sequence := r.emitter.sequence + 1#8
              fresh := min (r.emitter.fresh + 1) 4 }, true))
          ∧ (offered.2 = false → r.offerOwn lane frame maker = (offered.1, false)
              ∧ offered.1.emitter = r.emitter))

/-- READ-RECORD answers with the working record, and READ-STATE with relay time and the part named; a
table or a "what" that is unknown is BAD_TABLE, an index or part out of range BAD_INDEX (R164, R166, R168,
R169). Each part has the contents of section 12.6, in the codes of R199 and the encodings of R195. The
model's choices: the request is counted before it is answered, so RELAY part 1 counts it (log 52); the
bytes after an empty record's mark (log 23), the rounding of a remaining time to tenths (log 24) and the
fault indicator of an unbound channel (log 37) are free; and a deadline beyond the largest relay time is
carried modulo 2^32 (log 43). -/
def Obligations.ReadsAreAnswered : Prop :=
  (∀ (r : Relay) (q : List Instr) (origin : Addr) (tag : Byte), r.Serves origin →
    (∀ table index slot, findSlot (BitVec.toNat table) (BitVec.toNat index) = .ok slot →
      exec (.readRecord origin tag table index) ⟨r, q⟩
        = .next ⟨r.counted.reply ⟨origin, 1#8, tag⟩ .done
            (table :: index :: r.tables.record slot), q⟩)
    ∧ (∀ table index e, findSlot (BitVec.toNat table) (BitVec.toNat index) = .error e →
        exec (.readRecord origin tag table index) ⟨r, q⟩
          = .next ⟨r.counted.reply ⟨origin, 1#8, tag⟩ e [], q⟩)
    ∧ (∀ what index part v,
        findView (BitVec.toNat what) (BitVec.toNat index) (BitVec.toNat part) = .ok v →
        exec (.readState origin tag what index part) ⟨r, q⟩
          = .next ⟨r.counted.reply ⟨origin, 3#8, tag⟩ .done
              (what :: index :: part :: be4 r.now ++ r.counted.view v), q⟩)
    ∧ (∀ what index part e,
        findView (BitVec.toNat what) (BitVec.toNat index) (BitVec.toNat part) = .error e →
        exec (.readState origin tag what index part) ⟨r, q⟩
          = .next ⟨r.counted.reply ⟨origin, 3#8, tag⟩ e [], q⟩))
  ∧ (∀ (r : Relay) (bit : Bool → Byte) (opt : Option Nat → Byte) (two four : Nat → List Byte)
      (time : Option Nat → List Byte) (one : Option Byte → List Byte)
      (left : Option Nat → Option Nat → Prop),
      bit = (fun x => if x = true then 1#8 else 0#8) →
      opt = (fun x => match x with
        | some v => byte v
        | none => 255#8) →
      two = (fun n => [byte (n / 256), byte n]) →
      four = (fun n => [byte (n / 16777216), byte (n / 65536), byte (n / 256), byte n]) →
      time = (fun x => match x with
        | some t => 1#8 :: four t
        | none => [0#8, 0#8, 0#8, 0#8, 0#8]) →
      one = (fun x => match x with
        | some v => [1#8, v]
        | none => [0#8, 0#8]) →
      (∀ timer shown, left timer shown ↔ (timer = none → shown = none) ∧ ∀ e, timer = some e →
        ∃ k, shown = some k ∧ e - r.clock.ms < k * 100 + 100 ∧ k * 100 < e - r.clock.ms + 100) →
      (∀ (i : Fin 48) (d : StationDyn) (k : StationCounters), d = r.stations.get i →
        k = d.counters →
        (r.tables.stations.get i = none →
          (∃ rest, rest.length ≤ 14 ∧ r.view (.station i 0) = encodeStation none ++ rest)
          ∧ ∃ rest, rest.length ≤ 26 ∧ r.view (.station i 1) = 0#8 :: rest)
        ∧ ∀ c, r.tables.stations.get i = some c →
            r.view (.station i 0) = encodeStation (some c) ++ [byte d.state.code, byte d.misses]
              ++ time d.deadline ++ one d.lastSeq ++ time d.lastSample
            ∧ r.view (.station i 1) = (match d.lastReading with
                | some (v, grade) => 1#8 :: two v ++ [byte grade.code]
                | none => [0#8, 0#8, 0#8, 0#8])
              ++ [byte d.window.length] ++ two (d.window.getD 0 0) ++ two (d.window.getD 1 0)
              ++ two (d.window.getD 2 0) ++ two (d.smoothed.getD 65535)
              ++ two k.accepted ++ two k.duplicates ++ two k.oldSequence ++ two k.stale
              ++ two k.ignored ++ two k.returns ++ two k.heldBreaks)
      ∧ (∀ (b : Fin 8) (d : BarrierDyn) (m : Measures) (stale : Bool)
          (value : List Contribution → List Byte), d = r.barriers.get b → m = d.measures →
          stale = (match d.feeder with
            | some f => f.2
            | none => false) →
          value = (fun xs => match xs.head? with
            | some e => 1#8 :: two e.value ++ four (e.time + r.tables.identity.evidenceLife)
            | none => [0#8, 0#8, 0#8, 0#8, 0#8, 0#8, 0#8]) →
          r.view (.barrier b 0) = encodeBarrier (r.tables.barriers.get b)
          ∧ r.view (.barrier b 1) = [byte d.level.rank, byte d.causes.length]
            ++ d.causes.map (fun c => byte c.code) ++ List.replicate (12 - d.causes.length) 0#8
            ++ time d.hold
            ++ [byte (d.inflowBroken.toNat + 2 * d.overflowBroken.toNat + 4 * d.gaugeLost.toNat
                + 8 * d.manual.toNat + 16 * stale.toNat),
              opt (d.feeder.map (fun f => f.1.rank)), opt (d.lineBase.map Level.rank),
              opt (d.quieted.map Level.rank),
              byte (d.serial / 65536), byte (d.serial / 256), byte d.serial]
            ++ time d.repeatAt
          ∧ r.view (.barrier b 2) = two m.fill
            ++ [byte (m.sight.code + 4 * m.held.toNat), opt (m.source.map Fin.val)]
            ++ (match m.anchor with
              | some a => 1#8 :: two a.fill ++ four a.time ++ [byte a.source.val]
              | none => List.replicate 8 0#8)
            ++ two (match m.rate with
              | some v => (BitVec.ofInt 16 v).toNat
              | none => 32768)
            ++ two m.ttf ++ value m.shake ++ value m.rain)
      ∧ (∀ (c : Fin 4) (ch : Channel), ch = r.channels.get c →
          (∃ tenths, left ch.segmentEnd tenths ∧ r.view (.channel c 0) = [byte ch.state.code]
            ++ (match ch.owner with
              | some (.barrier b l) => [byte b.val, byte l.rank]
              | some .test => [255#8, 255#8]
              | none => [255#8, 255#8])
            ++ [opt (ch.cadence.map Fin.val), byte ch.step, byte ch.rounds,
              opt (ch.segment.map Segment.code)]
            ++ time tenths
            ++ [opt (ch.next.map Fin.val), bit ch.continueMark,
              opt (ch.stop.map (fun x => x.outcome.code))])
          ∧ ∃ fault, (∀ l, (r.tables.bindings.get c).line = some l →
                fault = bit (r.lines.get l).fault)
              ∧ r.view (.channel c 1) = (match ch.waiting with
                | some w => [1#8, byte w.barrier.val, byte w.level.rank,
                    opt (w.attention.map Fin.val), opt (w.sustain.map Fin.val)]
                | none => [0#8, 0#8, 0#8, 0#8, 0#8])
              ++ [byte (ch.normalDone.toNat + 2 * ch.abnormalDone.toNat + 4 * ch.continued.toNat),
                opt (ch.last.map ChannelOutcome.code)]
              ++ encodeBinding (r.tables.bindings.get c) ++ [fault])
      ∧ (∀ i : Fin 8, ∃ tenths, left (r.inputs.get i).timer tenths
          ∧ r.view (.input i) = encodeInput (r.tables.inputs.get i)
            ++ [byte (r.inputs.get i).state.code,
              match r.pins.contacts.get i with
              | .low => 0#8
              | .high => 1#8]
            ++ time tenths ++ two (r.inputs.get i).trips
            ++ [if (r.tables.inputs.get i).function = .resetKey then byte r.key.state.code
              else 255#8])
      ∧ (∀ (p : LinkPort) (k : PortCounters), k = (r.port p).counters →
          r.view (.port p.name) = two k.goodFrames ++ two k.crcErrors ++ two k.runtsGiants
            ++ two k.linkDrops ++ two k.polarityChanges ++ two k.framesSent ++ two k.transmitAborts
            ++ [byte (r.port p).link.code,
              match (r.port p).polarity with
              | .normal => 0#8
              | .inverted => 1#8]
            ++ (match p with
              | .upper => [bit r.lineLoss.lost]
              | .lower => []))
      ∧ r.view (.port .field)
        = two r.field.goodFrames ++ two r.field.crcErrors ++ two r.field.inversions
      ∧ (∀ k, k = r.pool.drops → r.view .queue = two k.malformed ++ two k.wrongDirection
          ++ two k.foreign ++ two k.hopExpired ++ two k.routineDrops ++ two k.upDrops
          ++ two k.urgentDrops ++ two k.evictions
          ++ [byte r.pool.urgent.length, byte r.pool.routine.length, byte r.pool.up.length,
            byte r.pool.free])
      ∧ (∀ (g : Generator) (counts : TestCounts → List Byte), g = r.generator →
          counts = (fun t => two t.frames ++ two t.bytes ++ two t.mismatched ++ two t.lost
            ++ [byte t.overflow]) →
          r.view (.test 0) = counts r.checker.upper ++ one r.checker.upperSeed
            ++ counts r.checker.lower ++ one r.checker.lowerSeed
          ∧ r.view (.test 1) = (match r.checker.snapshot with
              | some (u, l) => 1#8 :: counts u ++ counts l
              | none => List.replicate 19 0#8)
            ++ [bit g.running]
            ++ (match g.params with
              | some x => [1#8, match x.port with
                  | .upper => 0#8
                  | .lower => 1#8] ++ two x.count ++ [byte x.length, byte x.gap]
                  ++ two x.target.toNat
              | none => List.replicate 8 0#8)
            ++ two g.finished ++ [g.seed, opt (g.last.map TestOutcome.code)])
      ∧ r.view (.relay 0) = two r.store.own.toNat
        ++ two (match r.tables.identity.manager with
          | some m => m.toNat
          | none => 0)
        ++ [byte r.store.mode.code, byte r.store.cause.code, byte r.store.status.code]
        ++ two r.store.version ++ [bit r.store.saving, byte r.store.band.code,
          byte (r.upper.link.code + 4 * r.lower.link.code + 16 * r.lineLoss.lost.toNat),
          bit r.agent.restartPending] ++ two r.store.conflicts
      ∧ r.view (.relay 1) = two r.agent.actedOn ++ two r.agent.unauthorised
        ++ two r.agent.repliesRefused ++ two r.emitter.quietActed ++ two r.emitter.quietNotActed
        ++ [r.emitter.sequence, byte r.emitter.fresh, byte r.highestLevel.rank])
  ∧ [StationState.unheard, .live, .late, .silent].map StationState.code = [0, 1, 2, 3]
  ∧ [Quality.good, .suspect, .fault].map Quality.code = [0, 1, 2]
  ∧ [Sight.sighted, .blind, .ungauged].map Sight.code = [0, 1, 2]
  ∧ [LinkState.down, .seek, .up].map LinkState.code = [0, 1, 2]
  ∧ [Mode.assessing, .openLine].map Mode.code = [1, 2]
  ∧ [ResetCause.powerOn, .clockLoss, .restart].map ResetCause.code = [0, 1, 2]
  ∧ [ImageStatus.valid, .invalid, .absent].map ImageStatus.code = [0, 1, 2]
  ∧ [Band.normal, .low, .critical].map Band.code = [0, 1, 2]
  ∧ [InputState.normal, .deviating, .tripped].map InputState.code = [0, 1, 2]
  ∧ [KeyState.disarmed, .armed, .timing].map KeyState.code = [0, 1, 2]
  ∧ [ChannelState.idle, .sounding, .stopping].map ChannelState.code = [0, 1, 2]
  ∧ [Segment.on, .off, .gap].map Segment.code = [0, 1, 2]
  ∧ [ChannelOutcome.done, .levelFell, .stoppedQuiet, .stoppedMgmt, .preempted, .config, .outputOpen,
      .outputShort, .uncleared].map ChannelOutcome.code = [0, 1, 2, 3, 4, 5, 6, 7, 8]
  ∧ [TestOutcome.done, .stopped, .preempted].map TestOutcome.code = [0, 1, 2]
  ∧ (findSlot 0 0 = .ok .identity ∧ (∀ i : Fin 48, findSlot 1 i = .ok (.station i))
      ∧ (∀ i : Fin 8, findSlot 2 i = .ok (.barrier i))
      ∧ (∀ i : Fin 16, findSlot 3 i = .ok (.cadence i))
      ∧ (∀ i : Fin 32, findSlot 4 i = .ok (.dispatch i))
      ∧ (∀ i : Fin 8, findSlot 5 i = .ok (.input i))
      ∧ (∀ i : Fin 4, findSlot 6 i = .ok (.binding i))
      ∧ ∀ table index, (7 ≤ table → findSlot table index = .error .badTable)
          ∧ (table < 7 → [1, 48, 8, 16, 32, 8, 4].getD table 0 ≤ index →
              findSlot table index = .error .badIndex))
  ∧ (∀ (i : Fin 48) (p : Fin 2), findView 0 i p = .ok (.station i p))
  ∧ (∀ (b : Fin 8) (p : Fin 3), findView 1 b p = .ok (.barrier b p))
  ∧ (∀ (c : Fin 4) (p : Fin 2), findView 2 c p = .ok (.channel c p))
  ∧ (∀ i : Fin 8, findView 3 i 0 = .ok (.input i))
  ∧ findView 4 0 0 = .ok (.port .upper) ∧ findView 4 1 0 = .ok (.port .lower)
  ∧ findView 4 2 0 = .ok (.port .field) ∧ findView 5 0 0 = .ok .queue
  ∧ (∀ p : Fin 2, findView 6 0 p = .ok (.test p) ∧ findView 7 0 p = .ok (.relay p))
  ∧ ∀ what index part, (8 ≤ what → findView what index part = .error .badTable)
      ∧ (what < 8 → [48, 8, 4, 8, 3, 1, 1, 1].getD what 0 ≤ index
          ∨ [2, 3, 2, 1, 1, 1, 2, 2].getD what 0 ≤ part →
          findView what index part = .error .badIndex)

/-- WRITE-RECORD is checked in order and then carried out with DONE: BAD_TABLE, BAD_INDEX, BUSY with a
SAVE in flight, BAD_FIELD, DUPLICATE, ACTIVE. BAD_FIELD answers a record out of its ranges and one that
does not fit the other records, the manager or feeder address, a third RESET_KEY, a line of another
channel; DUPLICATE a station address already held; ACTIVE what is in use (R166, R170, R171). An accepted
write replaces the record at its index and no other, in the working tables and not in the serial memory
(R172). A station record is started, from its old fields where address and role are the old ones, without
its window where the calibration changed, and afresh otherwise; the barriers whose gauges the write
changes are remeasured (R59, R63, R79; which they are, logs 18 and 31). A barrier record drops the feeder
level with its feeder and the gauge-lost latch with its option, is made CALM and announced where it is
disabled in ASSESSING mode, and is evaluated (R112, R113). An input whose function or expected level
changed is started, with its trips kept and the key DISARMED where the write concerns it, and the key is
then settled (R162). An identity record with a new evidence life removes every contribution aged out under
it and evaluates each barrier once for each value that changed (R86), in ascending order, shake before
rain (the model's choice, log 17); one that leaves the life as it was removes nothing (the model's choice,
log 50). -/
def Obligations.WritesAreCheckedThenCarriedOut : Prop :=
  ((∀ (r : Relay) (q : List Instr) (origin : Addr) (tag table index : Byte) (bs : List Byte),
      r.Serves origin →
      (7 ≤ table.toNat → exec (.writeRecord origin tag table index bs) ⟨r, q⟩
        = .next ⟨r.counted.reply ⟨origin, 2#8, tag⟩ .badTable [], q⟩)
      ∧ ∀ n, recordLength table.toNat = some n → n ≤ bs.length →
          [1, 48, 8, 16, 32, 8, 4].getD table.toNat 0 ≤ index.toNat →
          exec (.writeRecord origin tag table index bs) ⟨r, q⟩
            = .next ⟨r.counted.reply ⟨origin, 2#8, tag⟩ .badIndex [], q⟩)
  ∧ (∀ (r : Relay) (q : List Instr) (origin : Addr) (tag table index : Byte) (bs : List Byte)
      (slot : Slot) (n : Nat), r.Serves origin →
      findSlot table.toNat index.toNat = .ok slot → recordLength table.toNat = some n →
      n ≤ bs.length →
      (r.store.saving = true →
        exec (.writeRecord origin tag table index bs) ⟨r, q⟩
          = .next ⟨r.counted.reply ⟨origin, 2#8, tag⟩ .busy [], q⟩)
      ∧ (r.store.saving = false → decodeRecord slot bs = none →
          exec (.writeRecord origin tag table index bs) ⟨r, q⟩
            = .next ⟨r.counted.reply ⟨origin, 2#8, tag⟩ .badField [], q⟩)
      ∧ ∀ x, r.store.saving = false → decodeRecord slot bs = some x →
          (r.fits x = false →
            exec (.writeRecord origin tag table index bs) ⟨r, q⟩
              = .next ⟨r.counted.reply ⟨origin, 2#8, tag⟩ .badField [], q⟩)
          ∧ (r.fits x = true → r.addressTaken x = true →
              exec (.writeRecord origin tag table index bs) ⟨r, q⟩
                = .next ⟨r.counted.reply ⟨origin, 2#8, tag⟩ .duplicate [], q⟩)
          ∧ (r.fits x = true → r.addressTaken x = false → r.inUse x = true →
              exec (.writeRecord origin tag table index bs) ⟨r, q⟩
                = .next ⟨r.counted.reply ⟨origin, 2#8, tag⟩ .active [], q⟩)
          ∧ (r.fits x = true → r.addressTaken x = false → r.inUse x = false →
              exec (.writeRecord origin tag table index bs) ⟨r, q⟩
                = .next ⟨(r.counted.writeRecord x).reply ⟨origin, 2#8, tag⟩ .done [], q⟩))
  ∧ (∀ (r : Relay) (i : Fin 48) (new : Option StationConfig) (d x : StationDyn)
      (old : Option StationConfig) (deadline : StationConfig → Option Nat),
      old = r.tables.stations.get i → d = r.stations.get i →
      deadline = (fun c => if r.store.mode = .assessing ∧ c.interval ≠ 0
        then some (r.now + c.interval + r.tables.identity.grace * c.interval / 100) else none) →
      (new = none → x = StationDyn.start) →
      (∀ c, new = some c →
        (∀ e, old = some e → e.address = c.address → e.role.code = c.role.code →
          (e.role.calibration = c.role.calibration →
            x = { d with
              state := .unheard, misses := 0, deadline := deadline c, heard := false })
          ∧ (e.role.calibration ≠ c.role.calibration →
              x = { d with
                state := .unheard
                misses := 0
                deadline := deadline c
                heard := false
                window := []
                smoothed := none }))
        ∧ ((∀ e, old = some e → e.address ≠ c.address ∨ e.role.code ≠ c.role.code) →
            x = { StationDyn.start with deadline := deadline c })) →
      ∀ started, started = (r.setTables
        { r.tables with stations := r.tables.stations.set i new }).setStation i x →
        (r.store.mode ≠ .assessing → r.writeRecord (.station i new) = started)
        ∧ (r.store.mode = .assessing → r.writeRecord (.station i new)
          = (writeBarriers old new d.sighting).foldl (fun t b => t.remeasure b none) started))
  ∧ (∀ (old new : Option StationConfig) (sighting : Bool),
      (gaugeBarrier old = none → gaugeBarrier new = none → writeBarriers old new sighting = [])
      ∧ (∀ a, gaugeBarrier old = some a → gaugeBarrier new = none →
          writeBarriers old new sighting = [a])
      ∧ (∀ a, gaugeBarrier old = none → gaugeBarrier new = some a →
          writeBarriers old new sighting = [a])
      ∧ (∀ a b, gaugeBarrier old = some a → gaugeBarrier new = some b → a ≠ b →
          writeBarriers old new sighting = [a, b])
      ∧ ∀ a e c, old = some e → new = some c → gaugeBarrier old = some a →
          gaugeBarrier new = some a →
          (sighting = true ∨ e.address ≠ c.address ∨ e.role.calibration ≠ c.role.calibration →
            writeBarriers old new sighting = [a])
          ∧ (sighting = false → e.address = c.address → e.role.calibration = c.role.calibration →
              writeBarriers old new sighting = []))
  ∧ (∀ (r : Relay) (b : Fin 8) (new old : BarrierConfig) (d kept : BarrierDyn)
      (written off : Relay), old = r.tables.barriers.get b → d = r.barriers.get b →
      kept = { d with
        feeder := if old.feeder = new.feeder then d.feeder else none
        gaugeLost := if new.gaugeLoss = true then d.gaugeLost else false } →
      written = r.setTables { r.tables with barriers := r.tables.barriers.set b new } →
      off = (written.setBarrier b
        { kept with
          level := .calm
          hold := none
          lineBase := none
          causes := []
          gaugeLost := false
          quieted := none }).disableNotice b →
      (old.enabled = false ∨ new.enabled = true ∨ r.store.mode ≠ .assessing →
        r.writeRecord (.barrier b new) = (written.setBarrier b kept).evaluate b)
      ∧ (old.enabled = true → new.enabled = false → r.store.mode = .assessing →
          (d.level = .watch → r.writeRecord (.barrier b new) = (off.toldOfChange b).evaluate b)
          ∧ (d.level ≠ .watch → r.writeRecord (.barrier b new) = off.evaluate b)))
  ∧ (∀ (r : Relay) (i : Fin 8) (new old : InputConfig) (written started keyed : Relay),
      old = r.tables.inputs.get i →
      written = r.setTables { r.tables with inputs := r.tables.inputs.set i new } →
      started = written.setInput i
        (if new.function ≠ .unused ∧ r.pins.contacts.get i ≠ new.expected then
          { r.inputs.get i with
            state := .deviating, timer := some (r.clock.ms + new.debounce * 100) }
        else { r.inputs.get i with state := .normal, timer := none }) →
      keyed = (if old.function = .resetKey ∨ new.function = .resetKey then
          started.setKey { state := .disarmed, timer := none }
        else started) →
      (old.function = new.function → old.expected = new.expected →
        r.writeRecord (.input i new) = written)
      ∧ (old.function ≠ new.function ∨ old.expected ≠ new.expected →
          r.writeRecord (.input i new) = keyed.settleKey))
  ∧ ∀ r : Relay,
      (∀ d, (r.writeRecord (.identity d)).tables = { r.tables with identity := d })
      ∧ (∀ i c, (r.writeRecord (.station i c)).tables
          = { r.tables with stations := r.tables.stations.set i c })
      ∧ (∀ b c, (r.writeRecord (.barrier b c)).tables
          = { r.tables with barriers := r.tables.barriers.set b c })
      ∧ (∀ k c, r.writeRecord (.cadence k c)
          = r.setTables { r.tables with cadences := r.tables.cadences.set k c })
      ∧ (∀ k e, r.writeRecord (.dispatch k e)
          = r.setTables { r.tables with dispatch := r.tables.dispatch.set k e })
      ∧ (∀ i c, (r.writeRecord (.input i c)).tables
          = { r.tables with inputs := r.tables.inputs.set i c })
      ∧ (∀ c b, r.writeRecord (.binding c b)
          = r.setTables { r.tables with bindings := r.tables.bindings.set c b })
      ∧ ∀ x, (r.writeRecord x).memory = r.memory)
  ∧ (∀ (slot : Slot) (bs : List Byte) (x : Record), decodeRecord slot bs = some x →
      x.InRange)
  ∧ (∀ r : Relay,
      (∀ d, r.fits (.identity d) = true ↔ d.manager ≠ some r.store.own)
      ∧ (∀ i c, r.fits (.station i c) = true) ∧ (∀ k c, r.fits (.cadence k c) = true)
      ∧ (∀ k e, r.fits (.dispatch k e) = true)
      ∧ (∀ b c, r.TablesOk → (r.fits (.barrier b c) = true ↔ ∀ a k, c.feeder = some (a, k) →
          ∃ i s, r.tables.stations.get i = some s ∧ s.address = a ∧ s.role = .relay))
      ∧ (∀ i c, r.fits (.input i c) = true ↔ c.function ≠ .resetKey
          ∨ (List.finRange 8).countP (fun j =>
              decide (j ≠ i ∧ (r.tables.inputs.get j).function = .resetKey)) < 2)
      ∧ (∀ c b, r.fits (.binding c b) = true ↔ ∀ l o, b.line = some l → o ≠ c →
          (r.tables.bindings.get o).line ≠ some l)
      ∧ ∀ x, r.addressTaken x = true ↔ ∃ i c, x = .station i (some c)
          ∧ (c.address = r.store.own ∨ ∃ j e, j ≠ i ∧ r.tables.stations.get j = some e
              ∧ e.address = c.address))
  ∧ (∀ (s : Option StationConfig) (b : Fin 8), gaugeBarrier s = some b ↔
      ∃ c e f, s = some c ∧ c.role = .gauge b e f)
  ∧ (∀ r : Relay,
      (∀ d, r.inUse (.identity d) = false) ∧ (∀ k e, r.inUse (.dispatch k e) = false)
      ∧ (∀ i c, r.inUse (.input i c) = false)
      ∧ (∀ i x, r.inUse (.station i x) = true ↔ ∃ b,
          gaugeBarrier (r.tables.stations.get i) = some b ∧ gaugeBarrier x ≠ some b
          ∧ 2 ≤ (r.barriers.get b).level.rank)
      ∧ (∀ b c, r.inUse (.barrier b c) = true ↔ (r.tables.barriers.get b).enabled = true
          ∧ c.enabled = false ∧ 2 ≤ (r.barriers.get b).level.rank)
      ∧ (∀ k x, r.inUse (.cadence k x) = true ↔ ∃ c, (r.channels.get c).cadence = some k)
      ∧ ∀ c b, r.inUse (.binding c b) = true ↔ (r.channels.get c).state ≠ .idle)
  ∧ ∀ (r : Relay) (d : Identity) (keep : List Contribution → List Contribution)
      (value : List Contribution → Option Nat) (trimmed : Relay),
      keep = (fun xs => xs.filter (fun e => decide (r.now < e.time + d.evidenceLife))) →
      value = (fun xs => xs.head?.map Contribution.value) →
      trimmed = (r.setTables { r.tables with identity := d }).setBarriers (Bank.ofFn (fun b =>
        { r.barriers.get b with
          measures :=
            { (r.barriers.get b).measures with
              shake := keep (r.barriers.get b).measures.shake
              rain := keep (r.barriers.get b).measures.rain } })) →
      (r.tables.identity.evidenceLife = d.evidenceLife →
        r.writeRecord (.identity d) = r.setTables { r.tables with identity := d })
      ∧ (r.tables.identity.evidenceLife ≠ d.evidenceLife →
          r.writeRecord (.identity d) = (List.finRange 8).foldl
            (fun t b =>
              let shaken :=
                if value (keep (r.barriers.get b).measures.shake)
                    = value (r.barriers.get b).measures.shake then t
                else t.evaluate b
              if value (keep (r.barriers.get b).measures.rain)
                  = value (r.barriers.get b).measures.rain then shaken
              else shaken.evaluate b) trimmed)

/-- CLEAR of port, drop and station counters zeroes exactly those counters and answers DONE (R14, R27,
R58, R173). -/
def Obligations.ClearsZeroTheirCounters : Prop :=
  ∀ (r : Relay) (q : List Instr) (origin : Addr) (tag : Byte), r.Serves origin →
    exec (.clearPortCounters origin tag) ⟨r, q⟩
      = .next ⟨(((r.counted.setUpper { r.upper with counters := PortCounters.zero }).setLower
          { r.lower with counters := PortCounters.zero }).setField
          { assembly := r.field.assembly
            quiet := r.field.quiet
            goodFrames := 0
            crcErrors := 0
            inversions := 0 }).reply
          ⟨origin, 4#8, tag⟩ .done [], q⟩
    ∧ exec (.clearDropCounters origin tag) ⟨r, q⟩
      = .next ⟨(r.counted.setPool
          { r.pool with
            drops :=
              { malformed := 0
                wrongDirection := 0
                foreign := 0
                hopExpired := 0
                routineDrops := 0
                upDrops := 0
                urgentDrops := 0
                evictions := 0 } }).reply
          ⟨origin, 4#8, tag⟩ .done [], q⟩
    ∧ exec (.clearStationCounters origin tag) ⟨r, q⟩
      = .next ⟨(r.counted.setStations (Bank.ofFn (fun i =>
          { r.stations.get i with
            counters :=
              { accepted := 0
                duplicates := 0
                oldSequence := 0
                stale := 0
                ignored := 0
                returns := 0
                heldBreaks := 0 } }))).reply
          ⟨origin, 4#8, tag⟩ .done [], q⟩

/-- LOCK-COUNTERS copies both counter sets into the snapshot, and LOCK-AND-CLEAR then zeroes the live
ones and keeps the last seeds; each is answered with DONE and the snapshot, whether or not a line test
runs (R23, R174). -/
def Obligations.LocksAnswerWithTheSnapshot : Prop :=
  ∀ (r : Relay) (q : List Instr) (origin : Addr) (tag : Byte), r.Serves origin →
    exec (.lockCounters origin tag) ⟨r, q⟩
      = .next ⟨(r.counted.setChecker
          { r.checker with snapshot := some (r.checker.upper, r.checker.lower) }).reply
          ⟨origin, 5#8, tag⟩ .done
          (1#8 :: countsBytes r.checker.upper ++ countsBytes r.checker.lower), q⟩
    ∧ exec (.lockAndClear origin tag) ⟨r, q⟩
      = .next ⟨(r.counted.setChecker
          { upper := { frames := 0, bytes := 0, mismatched := 0, lost := 0, overflow := 0 }
            upperSeed := r.checker.upperSeed
            lower := { frames := 0, bytes := 0, mismatched := 0, lost := 0, overflow := 0 }
            lowerSeed := r.checker.lowerSeed
            snapshot := some (r.checker.upper, r.checker.lower) }).reply
          ⟨origin, 6#8, tag⟩ .done
          (1#8 :: countsBytes r.checker.upper ++ countsBytes r.checker.lower), q⟩

/-- STAND-DOWN is refused below EVACUATE and while EVACUATE is still demanded; accepted, the level
becomes WATCH with a new hold, the quieted level and the manual latch go, and the barrier is evaluated
and handed on from EVACUATE (R109, R175). That the line-loss base of this evaluation is formed from
EVACUATE, the level at the start of the event, is the model's reading of R108 beside R109's starting
level (log 27); that a manual latch held by a TRIPPED input still demands is log 28. -/
def Obligations.StandDownIsDecidedByTheDemand : Prop :=
  ∀ (r : Relay) (q : List Instr) (origin : Addr) (tag : Byte), r.Serves origin →
    (∀ (b : Fin 8) (d : BarrierDyn) (answer : Relay → List Byte), d = r.barriers.get b →
      answer = (fun t => byte (t.barriers.get b).level.rank
        :: byte (t.barriers.get b).causes.length
        :: (t.barriers.get b).causes.map (fun c => byte c.code)) →
      (d.level ≠ .evacuate →
        exec (.standDown origin tag (byte b.val)) ⟨r, q⟩
          = .next ⟨r.counted.reply ⟨origin, 7#8, tag⟩ .notLatched (answer r), q⟩)
      ∧ (d.level = .evacuate →
          ({ d with manual := r.manualHeld b } : BarrierDyn).demanded (r.tables.barriers.get b)
            r.lineLoss.lost = .evacuate →
          exec (.standDown origin tag (byte b.val)) ⟨r, q⟩
            = .next ⟨r.counted.reply ⟨origin, 7#8, tag⟩ .stillDemanded (answer r), q⟩)
      ∧ (∀ t : Relay, d.level = .evacuate →
          ({ d with manual := r.manualHeld b } : BarrierDyn).demanded (r.tables.barriers.get b)
            r.lineLoss.lost ≠ .evacuate →
          t = (((r.counted.setBarrier b
            { d with
              level := .watch
              hold := some (r.now + (r.tables.barriers.get b).holdTime)
              quieted := none
              manual := false }).weighBarrier b .evacuate).handOver b .evacuate) →
          exec (.standDown origin tag (byte b.val)) ⟨r, q⟩
            = .next ⟨t.reply ⟨origin, 7#8, tag⟩ .done (answer t), q⟩
          ∧ SameButHandOver r.counted t))
    ∧ ∀ x : Byte, 8 ≤ x.toNat →
        exec (.standDown origin tag x) ⟨r, q⟩
          = .next ⟨r.counted.reply ⟨origin, 7#8, tag⟩ .badIndex [], q⟩

/-- REARM-WIRE is refused while an input holds the wire broken; accepted at an assessed barrier, the
latch becomes INTACT and the barrier is evaluated; at any other nothing changes; the arguments are
checked first (R104, R175). -/
def Obligations.RearmWireReleasesTheLatch : Prop :=
  ∀ (r : Relay) (q : List Instr) (origin : Addr) (tag : Byte), r.Serves origin →
    (∀ (b : Fin 8) (p : WirePosition) (answer : Relay → List Byte),
      answer = (fun t => [flagByte (t.barriers.get b).inflowBroken,
        flagByte (t.barriers.get b).overflowBroken, byte (t.barriers.get b).level.rank]) →
      (r.inputTripped (p.input b) = true →
        exec (.rearmWire origin tag (byte b.val) (byte p.code)) ⟨r, q⟩
          = .next ⟨r.counted.reply ⟨origin, 8#8, tag⟩ .stillBroken (answer r), q⟩)
      ∧ (∀ t : Relay, r.inputTripped (p.input b) = false → r.assessed b = true →
          t = (r.counted.setBarrier b
            (match p with
              | .inflow => { r.barriers.get b with inflowBroken := false }
              | .overflow => { r.barriers.get b with overflowBroken := false })).evaluate b →
          exec (.rearmWire origin tag (byte b.val) (byte p.code)) ⟨r, q⟩
            = .next ⟨t.reply ⟨origin, 8#8, tag⟩ .done (answer t), q⟩)
      ∧ (r.inputTripped (p.input b) = false → r.assessed b = false →
          exec (.rearmWire origin tag (byte b.val) (byte p.code)) ⟨r, q⟩
            = .next ⟨r.counted.reply ⟨origin, 8#8, tag⟩ .done (answer r), q⟩))
    ∧ (∀ x y : Byte, 8 ≤ x.toNat →
        exec (.rearmWire origin tag x y) ⟨r, q⟩
          = .next ⟨r.counted.reply ⟨origin, 8#8, tag⟩ .badIndex [], q⟩)
    ∧ ∀ x y : Byte, x.toNat < 8 → 2 ≤ y.toNat →
        exec (.rearmWire origin tag x y) ⟨r, q⟩
          = .next ⟨r.counted.reply ⟨origin, 8#8, tag⟩ .badField [], q⟩

/-- RESTART takes place at once where LOWER is not UP, or where its urgent reply is refused; else it
waits for that reply's fate with restart pending; with a SAVE in flight it is BUSY, in a reply that is
urgent as well (R42, R166, R167, R179; log 46). -/
def Obligations.RestartWaitsForItsReply : Prop :=
  ∀ (r : Relay) (q : List Instr) (origin : Addr) (tag : Byte) (offered : Relay × Bool),
    r.Serves origin →
    (r.store.saving = true →
      exec (.restart origin tag) ⟨r, q⟩
        = .next ⟨r.counted.refuse ⟨origin, 14#8, tag⟩ .busy, q⟩)
    ∧ (r.store.saving = false → r.lower.link ≠ .up →
        exec (.restart origin tag) ⟨r, q⟩ = .next ⟨r.counted.restart, q⟩)
    ∧ (r.store.saving = false → r.lower.link = .up →
        offered = (r.setAgent
          { r.agent with
            actedOn := min (r.agent.actedOn + 1) 65535
            restartPending := true }).offerOwn .urgent
          { cls := .mgmtRep
            urgent := true
            fresh := decide (r.emitter.fresh < 4)
            hops := BitVec.ofNat 4 r.tables.identity.hopBudget
            origin := r.store.own
            target := origin
            sequence := r.emitter.sequence
            payload := [14#8, tag, 0#8] } .restartReply →
        (offered.2 = true → exec (.restart origin tag) ⟨r, q⟩ = .next ⟨offered.1, q⟩
          ∧ offered.1.agent.restartPending = true)
        ∧ (offered.2 = false →
            exec (.restart origin tag) ⟨r, q⟩ = .next ⟨offered.1.restart, q⟩))

/-! ## Saving, start-up and the supply -/

/-- SAVE is BUSY with another in flight; accepted, it invalidates the header and is in flight, without a
reply. Its end writes the whole image with the next version, its header and the records of the seven
tables in their order; where the image reads back, as it does without a byte shown otherwise, it answers
DONE with that version and in OPEN-LINE the load follows; where a byte differs it answers MEMORY_FAULT
with status INVALID, and where the memory does not answer, with status ABSENT (R178, R182, R189). The load
reads the image: a VALID one replaces the tables, and the mode becomes ASSESSING; from any other the
status and version show what was read, and tables and mode stay (R189). The model's choices and readings:
at which moments the steps of R189 fall, the header at the acceptance and the records at the end, what a
memory that stops answering holds, and that no save counts as begun in one that does not answer (log 7);
the operands of the end, what it meets in the memory then and at the load (log 8); that the load-conflict
count goes on (log 32); the old checksum kept in the invalidated header (log 45); that a sounding follows
at once the line of a binding that the load changed, with the sensing timers of the lines then driven (log
51); that the inputs and the key stand at the load, whatever it makes of the input records (log 53); and
that the memory answers for the whole read or not at all, so that the version is 0 where it does not (log
54). -/
def Obligations.SaveWritesTheImage : Prop :=
  (∀ (r : Relay) (q : List Instr) (origin : Addr) (tag : Byte), r.Serves origin →
    (r.store.saving = true →
      exec (.save origin tag) ⟨r, q⟩
        = .next ⟨r.counted.reply ⟨origin, 13#8, tag⟩ .busy [], q⟩)
    ∧ (r.store.saving = false → r.memory.answers = true →
        exec (.save origin tag) ⟨r, q⟩ = .next ⟨((r.counted.setAgent
          { r.agent with
            actedOn := min (r.agent.actedOn + 1) 65535
            requester := some (origin, tag) }).setMemory
          { r.memory with
            cells := Memory.write (Memory.write r.memory.cells 1 0#8) 0 0#8 }).setStore
          { r.store with saving := true, saveBegun := true }, q⟩)
    ∧ (r.store.saving = false → r.memory.answers = false →
        exec (.save origin tag) ⟨r, q⟩ = .next ⟨(r.counted.setAgent
          { r.agent with
            actedOn := min (r.agent.actedOn + 1) 65535
            requester := some (origin, tag) }).setStore
          { r.store with saving := true, saveBegun := false }, q⟩))
  ∧ (∀ (r : Relay) (load : LoadRead) (shown : SerialMemory) (read : Relay),
      shown =
        { answers := load.answers, cells := Memory.writeCells r.memory.cells load.flaws } →
      read = (r.setMemory { r.memory with answers := load.answers }).setStore
        { r.store with
          status := judgeImage shown
          version := if load.answers = true then headerVersion shown else 0 } →
      (load.answers = false → judgeImage shown = .absent)
      ∧ (judgeImage shown ≠ .valid → r.loadAfterSave load = read)
      ∧ ∀ (loaded : Tables × Nat) (lines : Bank OutputLine 4) (senses : Fin 4 → Prop),
          judgeImage shown = .valid → loaded = loadTables shown.cells r.store.own →
          (∀ l, senses l ↔ r.pins.loads.get l ≠ .sound
            ∧ ∃ c, (loaded.1.bindings.get c).line = some l ∧ (r.channels.get c).state ≠ .idle
              ∧ (r.channels.get c).segment = some .on) →
          (∀ l, senses l → lines.get l =
            { r.lines.get l with
              sensing :=
                match (r.lines.get l).sensing with
                | some e => some e
                | none => some (r.clock.ms + 500) }) →
          (∀ l, ¬ senses l → lines.get l = { r.lines.get l with sensing := none }) →
          r.loadAfterSave load = ((((read.setTables loaded.1).setLines lines).setStore
            { read.store with
              mode := .assessing
              conflicts := min (r.store.conflicts + loaded.2) 65535 }).startAssessing).sendHealth)
  ∧ (∀ (t : Tables) (version sum : Nat), sum = (t.bytes.map BitVec.toNat).sum →
      imageBytes t version = [byte 4, byte 219, byte (version / 256), byte version,
        byte (sum % 65536 / 256), byte (sum % 65536)] ++ t.bytes
      ∧ t.bytes = encodeIdentity t.identity
        ++ (List.finRange 48).flatMap (fun i => encodeStation (t.stations.get i))
        ++ (List.finRange 8).flatMap (fun i => encodeBarrier (t.barriers.get i))
        ++ (List.finRange 16).flatMap (fun i => encodeCadence (t.cadences.get i))
        ++ (List.finRange 32).flatMap (fun i => encodeDispatch (t.dispatch.get i))
        ++ (List.finRange 8).flatMap (fun i => encodeInput (t.inputs.get i))
        ++ (List.finRange 4).flatMap (fun i => encodeBinding (t.bindings.get i)))
  ∧ ∀ (r : Relay) (q : List Instr) (o : Addr) (g : Byte) (version : Nat) (image : List Byte)
      (ended : Relay → ImageStatus → Nat → Relay) (answered : Relay → Result → List Byte → Relay),
      r.awake = true → r.store.saving = true → r.agent.requester = some (o, g) →
      version = (r.store.version + 1) % 65536 → image = imageBytes r.tables version →
      ended = (fun t status v => t.setStore
        { r.store with saving := false, saveBegun := false, status := status, version := v }) →
      answered = (fun t result data => (t.reply ⟨o, 13#8, g⟩ result data).setAgent
        { (t.reply ⟨o, 13#8, g⟩ result data).agent with requester := none }) →
      (∀ (saved t : Relay) (load : LoadRead), r.MemoryOk → r.TablesOk →
        saved = r.setMemory
          { answers := true, cells := Memory.writeBytes r.memory.cells 0 image } →
        t = answered (ended saved .valid version) .done
          [byte (version / 256), byte version] →
        Memory.readBytes t.memory.cells 0 1249 = image
        ∧ (r.store.mode = .assessing → exec (.saveEnd true ⟨[], load⟩) ⟨r, q⟩ = .next ⟨t, q⟩)
        ∧ (r.store.mode = .openLine →
            exec (.saveEnd true ⟨[], load⟩) ⟨r, q⟩ = .next ⟨t.loadAfterSave load, q⟩))
      ∧ (∀ (flaws : List Host.Cell) (load : LoadRead) (saved t : Relay),
          saved = r.setMemory
            { answers := true
              cells := Memory.writeCells (Memory.writeBytes r.memory.cells 0 image) flaws } →
          Memory.readBytes saved.memory.cells 0 1249 = image →
          t = answered (ended saved .valid version) .done
            [byte (version / 256), byte version] →
          (r.store.mode = .assessing → exec (.saveEnd true ⟨flaws, load⟩) ⟨r, q⟩ = .next ⟨t, q⟩)
          ∧ (r.store.mode = .openLine →
              exec (.saveEnd true ⟨flaws, load⟩) ⟨r, q⟩ = .next ⟨t.loadAfterSave load, q⟩))
      ∧ (∀ (flaws : List Host.Cell) (load : LoadRead) (saved : Relay),
          saved = r.setMemory
            { answers := true
              cells := Memory.writeCells (Memory.writeBytes r.memory.cells 0 image) flaws } →
          Memory.readBytes saved.memory.cells 0 1249 ≠ image →
          exec (.saveEnd true ⟨flaws, load⟩) ⟨r, q⟩
            = .next ⟨answered (ended saved .invalid r.store.version) .memoryFault [], q⟩)
      ∧ ∀ flaws load, exec (.saveEnd false ⟨flaws, load⟩) ⟨r, q⟩ = .next ⟨answered
          (ended ((r.setMemory { r.cutMemory with answers := false }).setFreeCount r.cutCount)
            .absent r.store.version) .memoryFault [], q⟩

/-- A clock loss: no line is driven and neither transmitter is on; a clock that was not lost does not
resume. A power-on reset clears the part, takes the band from the first sample and reads the straps: those
of 0 or 4095 hold the part in STARTING; any others become the own address. The image is read and judged, a
VALID one is loaded, and the mode becomes ASSESSING where it is VALID and OPEN-LINE otherwise. STRAP_RETRY
reads the straps again when it is due. A clock-loss reset is the same with its own cause (R182, R184 to
R187, R192). The hand-on then releases the ports with the confirm timer started, starts the inputs and the
key, in ASSESSING mode starts every station record, takes the start recompute of every barrier, BLIND with
gauges and UNGAUGED without, and the start evaluation of barriers 0 to 7 with the announcement of those
kept at EVACUATE, and builds a HEALTH frame (R17, R63, R81, R115, R162, R186). The model's choices: the
values held before straps and image are read (log 4), the bytes a save cut short left, and when it counts
as begun (R190, log 7), the length of the read as an operand (log 9), a memory that answers for the whole
read or not at all, with version 0 where it does not (log 54), and that the key weighs its inputs once all
have compared (log 33). -/
def Obligations.ClockLossAndResetsStartThePart : Prop :=
  ((∀ (r : Relay) (q : List Instr),
      exec .clockLoss ⟨r, q⟩ = .next ⟨r.setClock { r.clock with lost := true }, q⟩
      ∧ (∀ t : Relay, t.clock.lost = true →
          (∀ l, t.lineDriven l = false) ∧ t.transmittersOn = false ∧ t.awake = false)
      ∧ ∀ x, r.clock.lost = false → exec (.clockResume x) ⟨r, q⟩ = .next ⟨r, q⟩)
  ∧ ∀ (r : Relay) (q : List Instr) (x : StartPins) (cleared : ResetCause → Relay),
      cleared = (fun cause =>
        { Relay.cleared cause (r.pins.atStart x) (x.memory.getD r.cutMemory) r.cutCount with
          store := { Store.start cause with band := firstBand x.centivolts, rate := x.rate } }) →
      (x.straps = 0#12 ∨ x.straps = 4095#12 →
        exec (.powerOn x) ⟨r, q⟩ = .next ⟨cleared .powerOn, q⟩
        ∧ (r.clock.lost = true →
            exec (.clockResume x) ⟨r, q⟩ = .next ⟨cleared .clockLoss, q⟩))
      ∧ (x.straps ≠ 0#12 → x.straps ≠ 4095#12 →
          exec (.powerOn x) ⟨r, q⟩ = .next ⟨((cleared .powerOn).setStore
            { (cleared .powerOn).store with own := x.straps }).finishStart x.readMs.val, q⟩
          ∧ (r.clock.lost = true →
              exec (.clockResume x) ⟨r, q⟩ = .next ⟨((cleared .clockLoss).setStore
                { (cleared .clockLoss).store with own := x.straps }).finishStart x.readMs.val, q⟩))
      ∧ (∀ (n : Nat) (late : Relay),
          late = r.setClock { r.clock with ms := r.clock.ms + n } →
          (judgeImage r.memory = .valid →
            r.finishStart n = ((late.setTables (loadTables r.memory.cells r.store.own).1).setStore
              { r.store with
                mode := .assessing
                status := .valid
                version := headerVersion r.memory
                conflicts := min
                  (r.store.conflicts + (loadTables r.memory.cells r.store.own).2) 65535 }).goLive)
          ∧ (judgeImage r.memory ≠ .valid → r.finishStart n = (late.setStore
              { r.store with
                mode := .openLine
                status := judgeImage r.memory
                version := if r.memory.answers = true then headerVersion r.memory
                  else 0 }).goLive))
      ∧ (∀ (a : Addr) (n : Fin 1000), r.clock.lost = false → r.store.mode = .starting →
          r.store.nextStrap ≤ r.now →
          (a = 0#12 ∨ a = 4095#12 →
            exec (.strapRetry a n) ⟨r, q⟩ = .next ⟨(r.setPins { r.pins with straps := a }).setStore
              { r.store with nextStrap := r.now + 1 }, q⟩)
          ∧ (a ≠ 0#12 → a ≠ 4095#12 →
              exec (.strapRetry a n) ⟨r, q⟩ = .next ⟨((r.setPins
                { r.pins with straps := a }).setStore
                { r.store with own := a }).finishStart n.val, q⟩)))
  ∧ (∀ (cause : ResetCause) (pins : Pins) (memory : SerialMemory) (n : Nat),
      Relay.cleared cause pins memory n =
        { State.reset.relay with
          store := { State.reset.relay.store with cause := cause }
          pins := pins
          memory := memory
          freeCount := n })
  ∧ (∀ r : Relay,
      (r.store.saveBegun = false → r.cutMemory = r.memory ∧ r.cutCount = r.freeCount)
      ∧ (r.store.saveBegun = true → r.cutCount = r.freeCount + 1
          ∧ ∃ k, k ≤ 1243 ∧ r.cutMemory =
            { r.memory with
              cells := Memory.writeBytes r.memory.cells 6 (r.tables.bytes.take k) }))
  ∧ (∀ (m : SerialMemory) (pair : Nat → Nat),
      pair = (fun x => (Memory.read m.cells x).toNat * 256 + (Memory.read m.cells (x + 1)).toNat) →
      headerVersion m = pair 2
      ∧ (m.answers = false → judgeImage m = .absent)
      ∧ (m.answers = true →
          (pair 0 = 1243
              ∧ ((Memory.readBytes m.cells 6 1243).map BitVec.toNat).sum % 65536 = pair 4 →
            judgeImage m = .valid)
          ∧ (¬ (pair 0 = 1243
              ∧ ((Memory.readBytes m.cells 6 1243).map BitVec.toNat).sum % 65536 = pair 4) →
            judgeImage m = .invalid)))
  ∧ (∀ r started : Relay,
      started = r.setInputs (Bank.ofFn (fun i =>
        if (r.tables.inputs.get i).function ≠ .unused
            ∧ r.pins.contacts.get i ≠ (r.tables.inputs.get i).expected then
          { r.inputs.get i with
            state := .deviating
            timer := some (r.clock.ms + (r.tables.inputs.get i).debounce * 100) }
        else { r.inputs.get i with state := .normal, timer := none })) →
      r.goLive = r.releasePorts.startInputs.startAssessing.sendHealth
      ∧ r.releasePorts = r.setLineLoss
        { r.lineLoss with confirm := some (r.clock.ms + r.tables.identity.confirmTime * 1000) }
      ∧ r.startInputs = started.settleKey
      ∧ (r.store.mode ≠ .assessing → r.startAssessing = r)
      ∧ (r.store.mode = .assessing →
          r.startAssessing = r.startStations.startRecompute.startEvaluation
          ∧ r.startStations = r.setStations r.startStations.stations
          ∧ (∀ i, r.tables.stations.get i = none →
              r.startStations.stations.get i = StationDyn.start)
          ∧ (∀ i c, r.tables.stations.get i = some c →
              r.startStations.stations.get i =
                { StationDyn.start with
                  deadline :=
                    if c.interval = 0 then none
                    else some (r.now + c.interval
                      + r.tables.identity.grace * c.interval / 100) })
          ∧ r.startStations.startRecompute
            = r.startStations.setBarriers r.startStations.startRecompute.barriers
          ∧ ∀ (b : Fin 8) (gauged : Prop),
              (gauged ↔ ∃ i c e f, r.tables.stations.get i = some c ∧ c.role = .gauge b e f) →
              (gauged → r.startStations.startRecompute.barriers.get b =
                { r.barriers.get b with
                  measures := { Measures.start with held := true, sight := .blind } })
              ∧ (¬ gauged → r.startStations.startRecompute.barriers.get b =
                { r.barriers.get b with
                  measures := { Measures.start with sight := .ungauged } }))
      ∧ r.startEvaluation = (List.finRange 8).foldl (fun t b => t.startBarrier b) r)
  ∧ ∀ (r told sounded : Relay) (b : Fin 8), told = (r.evaluate b).toldOfChange b →
      ((told.barriers.get b).quieted ≠ some .evacuate →
        sounded = told.requestSounding b .evacuate) →
      ((told.barriers.get b).quieted = some .evacuate → sounded = told) →
      (r.assessed b = false → r.startBarrier b = r)
      ∧ ((r.barriers.get b).level ≠ .evacuate → r.startBarrier b = r.evaluate b)
      ∧ (r.assessed b = true → (r.barriers.get b).level = .evacuate →
          (sounded.generator.running = false → r.startBarrier b = sounded)
          ∧ (sounded.generator.running = true → r.startBarrier b = sounded.setGenerator
            { sounded.generator with
              running := false
              outstanding := false
              gapTimer := none
              last := some .preempted }))

/-- A battery sample that is due moves the band by the table of R192, with 0.20 V to rise; a change is
delivered to its four blocks in the order given (the order is an operand, log 16); a sample in STARTING
sets the band alone (R192, R193). At the classifier the routine queue is shed, the oldest frames first,
down to the new cap of 24, 12 or 0; each is counted as a routine drop and its buffer freed, and the loss
of a TEST frame is told to the generator (R38, R41, R42). The generator's run is preempted outside NORMAL
(R20), and that it keeps its parameters and finished count then is the model's reading (log 19); the
channels act on CRITICAL, and a HEALTH frame is built, urgent for CRITICAL (R180). -/
def Obligations.BatterySampleMovesTheBand : Prop :=
  (∀ (r : Relay) (q : List Instr) (v : Nat) (order : List BandDelivery) (band : Band) (next : Relay),
    r.clock.lost = false → r.store.nextSample ≤ r.now →
    ((r.store.band = .normal ∧ 1180 ≤ v) ∨ (r.store.band ≠ .normal ∧ 1200 ≤ v) →
      band = .normal) →
    ((r.store.band = .normal ∧ 1100 ≤ v ∧ v < 1180) ∨ (r.store.band = .low ∧ 1100 ≤ v ∧ v < 1200)
      ∨ (r.store.band = .critical ∧ 1120 ≤ v ∧ v < 1200) → band = .low) →
    ((r.store.band ≠ .critical ∧ v < 1100) ∨ (r.store.band = .critical ∧ v < 1120) →
      band = .critical) →
    next = (r.setPins { r.pins with centivolts := v }).setStore
      { r.store with nextSample := r.store.nextSample + 10 } →
    (r.store.mode = .starting →
      exec (.batterySample v order) ⟨r, q⟩
        = .next ⟨next.setStore { next.store with band := band }, q⟩)
    ∧ (r.store.mode ≠ .starting → band = r.store.band →
        exec (.batterySample v order) ⟨r, q⟩ = .next ⟨next, q⟩)
    ∧ (r.store.mode ≠ .starting → band ≠ r.store.band →
        exec (.batterySample v order) ⟨r, q⟩
          = .next ⟨order.foldl (fun r d => r.deliverBand band d) next, q⟩)
    ∧ (r.store.mode ≠ .starting → band ≠ r.store.band → .classifier ∈ order →
        ∃ t, exec (.batterySample v order) ⟨r, q⟩ = .next ⟨t, q⟩ ∧ t.store.band = band))
  ∧ ∀ (r : Relay) (band : Band) (cap n : Nat),
      cap = (match band with
        | .normal => 24
        | .low => 12
        | .critical => 0) →
      n = r.pool.routine.length - cap →
      r.deliverBand band .classifier = (r.pool.routine.take n).foldl
        (fun t b => t.reportLoss b.maker)
        ((r.setStore { r.store with band := band }).setPool
          { r.pool with
            free := r.pool.free + n
            routine := r.pool.routine.drop n
            drops :=
              { r.pool.drops with
                routineDrops := min (r.pool.drops.routineDrops + n) 65535 } })
      ∧ (r.pool.routine.drop n).length = min r.pool.routine.length cap
      ∧ (∀ run, r.reportLoss (.testRun run) = r.testFrameFinished run)
      ∧ r.reportLoss .other = r
      ∧ (band = .normal ∨ r.generator.running = false → r.deliverBand band .generator = r)
      ∧ (band ≠ .normal → r.generator.running = true →
          r.deliverBand band .generator = r.setGenerator
            { r.generator with
              running := false
              outstanding := false
              gapTimer := none
              last := some .preempted })
      ∧ r.deliverBand band .channels = r.bandAtChannels band
      ∧ r.deliverBand band .agent = r.buildHealth band (decide (band = .critical))

/-- The health timer's expiry builds one HEALTH frame for the routine queue and starts the timer afresh
(R180, R181). A HEALTH frame is built likewise at a start, a restart, a load and a change of band, urgent
where it is asked for so (R180); its payload is the one of R181 in the layout of R197: time, mode, reset
cause, image status and version, band, links, the counts of occupied station records by state, urgent and
routine drops, evictions, line faults, channel flags and the highest level. -/
def Obligations.HealthTimerBuildsAHealthFrame : Prop :=
  (∀ (r : Relay) (q : List Instr) (e : Nat) (offered : Relay × Bool), r.awake = true →
    r.agent.healthTimer = some e → e ≤ r.clock.ms →
    offered = r.offerOwn .routine
      { cls := .health
        urgent := false
        fresh := decide (r.emitter.fresh < 4)
        hops := BitVec.ofNat 4 r.tables.identity.hopBudget
        origin := r.store.own
        target :=
          match r.tables.identity.manager with
          | some m => m
          | none => 0#12
        sequence := r.emitter.sequence
        payload := r.healthPayload r.store.band } .other →
    exec .healthTimerExpiry ⟨r, q⟩ = .next ⟨offered.1.setAgent
      { r.agent with
        healthTimer := some (r.clock.ms + r.tables.identity.healthInterval * 1000) }, q⟩
    ∧ (r.healthPayload r.store.band).length = 25
    ∧ SameButReply r offered.1)
  ∧ (∀ (r : Relay) (band : Band) (urgent : Bool) (offered : Relay × Bool),
      offered = r.offerOwn (if urgent = true then .urgent else .routine)
        { cls := .health
          urgent := urgent
          fresh := decide (r.emitter.fresh < 4)
          hops := BitVec.ofNat 4 r.tables.identity.hopBudget
          origin := r.store.own
          target :=
            match r.tables.identity.manager with
            | some m => m
            | none => 0#12
          sequence := r.emitter.sequence
          payload := r.healthPayload band } .other →
      r.buildHealth band urgent = offered.1.setAgent
        { r.agent with
          healthTimer := some (r.clock.ms + r.tables.identity.healthInterval * 1000) }
      ∧ r.sendHealth = r.buildHealth r.store.band false)
  ∧ ∀ (r : Relay) (band : Band) (bit : Bool → Nat) (flags : Fin 4 → Nat)
      (count : StationState → Nat) (d : DropCounters) (mode cause status charge link : Nat),
      bit = (fun x => if x = true then 1 else 0) →
      flags = (fun c => bit (r.channels.get c).normalDone + 2 * bit (r.channels.get c).abnormalDone
        + 4 * bit (r.channels.get c).continued) →
      count = (fun st => (List.finRange 48).countP (fun i =>
        decide (r.tables.stations.get i ≠ none ∧ (r.stations.get i).state = st))) →
      d = r.pool.drops →
      mode = (match r.store.mode with
        | .starting => 0
        | .assessing => 1
        | .openLine => 2) →
      cause = (match r.store.cause with
        | .powerOn => 0
        | .clockLoss => 1
        | .restart => 2) →
      status = (match r.store.status with
        | .valid => 0
        | .invalid => 1
        | .absent => 2) →
      charge = (match band with
        | .normal => 0
        | .low => 1
        | .critical => 2) →
      link = r.upper.link.code + 4 * r.lower.link.code + 16 * bit r.lineLoss.lost →
      r.healthPayload band = [byte (r.now / 16777216), byte (r.now / 65536), byte (r.now / 256),
        byte r.now, byte mode, byte cause, byte status,
        byte (r.store.version / 256), byte r.store.version, byte charge, byte link,
        byte (count .unheard), byte (count .live), byte (count .late), byte (count .silent),
        byte (d.urgentDrops / 256), byte d.urgentDrops, byte (d.routineDrops / 256),
        byte d.routineDrops, byte (d.evictions / 256), byte d.evictions,
        byte (bit (r.lines.get 0).fault + 2 * bit (r.lines.get 1).fault
          + 4 * bit (r.lines.get 2).fault + 8 * bit (r.lines.get 3).fault),
        byte ((flags 0 + 8 * flags 1 + 64 * flags 2 + 512 * flags 3) / 256),
        byte (flags 0 + 8 * flags 1 + 64 * flags 2 + 512 * flags 3), byte r.highestLevel.rank]
      ∧ [LinkState.down, .seek, .up].map LinkState.code = [0, 1, 2]
      ∧ [Level.calm, .watch, .warn, .evacuate].map Level.rank = [0, 1, 2, 3]
      ∧ (∀ b, (r.barriers.get b).level.rank ≤ r.highestLevel.rank)
      ∧ ∃ b, (r.barriers.get b).level = r.highestLevel

end
end

