-- ==== Sys2Proof/Laws/State.lean ====
section
/-! SUPPORT. One lemma per field per update of the state, and the reads of a bank after each way of
making one. -/

namespace Sys2Proof

/-! ## Banks -/

theorem Bank.ext_get {α : Type} {n : Nat} {v w : Bank α n} (h : ∀ i, v.get i = w.get i) :
    v = w := by
  cases v with
  | mk xs hx =>
    cases w with
    | mk ys hy =>
      have e : xs = ys := by
        apply List.ext_getElem (by rw [hx, hy])
        intro i h1 h2
        exact h ⟨i, by rw [← hx]; exact h1⟩
      subst e
      rfl

@[simp] theorem Bank.get_ofFn {α : Type} {n : Nat} (f : Fin n → α) (i : Fin n) :
    (Bank.ofFn f).get i = f i := by
  simp [Bank.get, Bank.ofFn]

@[simp] theorem Bank.get_fill {α : Type} (n : Nat) (x : α) (i : Fin n) :
    (Bank.fill n x).get i = x := by
  simp [Bank.get, Bank.fill]

@[simp] theorem Bank.get_map {α β : Type} {n : Nat} (f : α → β) (v : Bank α n) (i : Fin n) :
    (v.map f).get i = f (v.get i) := by
  simp [Bank.get, Bank.map]

theorem Bank.get_set {α : Type} {n : Nat} (v : Bank α n) (i j : Fin n) (x : α) :
    (v.set i x).get j = if i = j then x else v.get j := by
  simp only [Bank.get, Bank.set, List.get_eq_getElem, List.getElem_set]
  by_cases h : i = j
  · simp [h]
  · have h2 : ¬ i.val = j.val := fun e => h (Fin.ext e)
    simp [h, h2]

@[simp] theorem Bank.get_set_self {α : Type} {n : Nat} (v : Bank α n) (i : Fin n) (x : α) :
    (v.set i x).get i = x := by
  simp [Bank.get_set]

theorem Bank.get_set_of_ne {α : Type} {n : Nat} (v : Bank α n) {i j : Fin n} (x : α)
    (h : i ≠ j) : (v.set i x).get j = v.get j := by
  simp [Bank.get_set, h]

@[simp] theorem Bank.set_set {α : Type} {n : Nat} (v : Bank α n) (i : Fin n) (x y : α) :
    (v.set i x).set i y = v.set i y := by
  apply Bank.ext_get
  intro j
  simp only [Bank.get_set]
  split <;> rfl

@[simp] theorem Bank.set_get {α : Type} {n : Nat} (v : Bank α n) (i : Fin n) :
    v.set i (v.get i) = v := by
  apply Bank.ext_get
  intro j
  rw [Bank.get_set]
  split
  · next h => rw [h]
  · rfl

namespace Machine

/-! ## One block replaced -/

@[simp] theorem Relay.setClock_clock (r : Relay) (x : Clock) : (r.setClock x).clock = x := rfl
@[simp] theorem Relay.setClock_pins (r : Relay) (x : Clock) : (r.setClock x).pins = r.pins := rfl
@[simp] theorem Relay.setClock_memory (r : Relay) (x : Clock) :
    (r.setClock x).memory = r.memory := rfl
@[simp] theorem Relay.setClock_store (r : Relay) (x : Clock) : (r.setClock x).store = r.store := rfl
@[simp] theorem Relay.setClock_tables (r : Relay) (x : Clock) :
    (r.setClock x).tables = r.tables := rfl
@[simp] theorem Relay.setClock_upper (r : Relay) (x : Clock) : (r.setClock x).upper = r.upper := rfl
@[simp] theorem Relay.setClock_lower (r : Relay) (x : Clock) : (r.setClock x).lower = r.lower := rfl
@[simp] theorem Relay.setClock_field (r : Relay) (x : Clock) : (r.setClock x).field = r.field := rfl
@[simp] theorem Relay.setClock_lineLoss (r : Relay) (x : Clock) :
    (r.setClock x).lineLoss = r.lineLoss := rfl
@[simp] theorem Relay.setClock_pool (r : Relay) (x : Clock) : (r.setClock x).pool = r.pool := rfl
@[simp] theorem Relay.setClock_generator (r : Relay) (x : Clock) :
    (r.setClock x).generator = r.generator := rfl
@[simp] theorem Relay.setClock_checker (r : Relay) (x : Clock) :
    (r.setClock x).checker = r.checker := rfl
@[simp] theorem Relay.setClock_stations (r : Relay) (x : Clock) :
    (r.setClock x).stations = r.stations := rfl
@[simp] theorem Relay.setClock_barriers (r : Relay) (x : Clock) :
    (r.setClock x).barriers = r.barriers := rfl
@[simp] theorem Relay.setClock_emitter (r : Relay) (x : Clock) :
    (r.setClock x).emitter = r.emitter := rfl
@[simp] theorem Relay.setClock_channels (r : Relay) (x : Clock) :
    (r.setClock x).channels = r.channels := rfl
@[simp] theorem Relay.setClock_lines (r : Relay) (x : Clock) : (r.setClock x).lines = r.lines := rfl
@[simp] theorem Relay.setClock_inputs (r : Relay) (x : Clock) :
    (r.setClock x).inputs = r.inputs := rfl
@[simp] theorem Relay.setClock_key (r : Relay) (x : Clock) : (r.setClock x).key = r.key := rfl
@[simp] theorem Relay.setClock_agent (r : Relay) (x : Clock) : (r.setClock x).agent = r.agent := rfl
@[simp] theorem Relay.setClock_freeCount (r : Relay) (x : Clock) :
    (r.setClock x).freeCount = r.freeCount := rfl
@[simp] theorem Relay.setPins_clock (r : Relay) (x : Pins) : (r.setPins x).clock = r.clock := rfl
@[simp] theorem Relay.setPins_pins (r : Relay) (x : Pins) : (r.setPins x).pins = x := rfl
@[simp] theorem Relay.setPins_memory (r : Relay) (x : Pins) : (r.setPins x).memory = r.memory := rfl
@[simp] theorem Relay.setPins_store (r : Relay) (x : Pins) : (r.setPins x).store = r.store := rfl
@[simp] theorem Relay.setPins_tables (r : Relay) (x : Pins) : (r.setPins x).tables = r.tables := rfl
@[simp] theorem Relay.setPins_upper (r : Relay) (x : Pins) : (r.setPins x).upper = r.upper := rfl
@[simp] theorem Relay.setPins_lower (r : Relay) (x : Pins) : (r.setPins x).lower = r.lower := rfl
@[simp] theorem Relay.setPins_field (r : Relay) (x : Pins) : (r.setPins x).field = r.field := rfl
@[simp] theorem Relay.setPins_lineLoss (r : Relay) (x : Pins) :
    (r.setPins x).lineLoss = r.lineLoss := rfl
@[simp] theorem Relay.setPins_pool (r : Relay) (x : Pins) : (r.setPins x).pool = r.pool := rfl
@[simp] theorem Relay.setPins_generator (r : Relay) (x : Pins) :
    (r.setPins x).generator = r.generator := rfl
@[simp] theorem Relay.setPins_checker (r : Relay) (x : Pins) :
    (r.setPins x).checker = r.checker := rfl
@[simp] theorem Relay.setPins_stations (r : Relay) (x : Pins) :
    (r.setPins x).stations = r.stations := rfl
@[simp] theorem Relay.setPins_barriers (r : Relay) (x : Pins) :
    (r.setPins x).barriers = r.barriers := rfl
@[simp] theorem Relay.setPins_emitter (r : Relay) (x : Pins) :
    (r.setPins x).emitter = r.emitter := rfl
@[simp] theorem Relay.setPins_channels (r : Relay) (x : Pins) :
    (r.setPins x).channels = r.channels := rfl
@[simp] theorem Relay.setPins_lines (r : Relay) (x : Pins) : (r.setPins x).lines = r.lines := rfl
@[simp] theorem Relay.setPins_inputs (r : Relay) (x : Pins) : (r.setPins x).inputs = r.inputs := rfl
@[simp] theorem Relay.setPins_key (r : Relay) (x : Pins) : (r.setPins x).key = r.key := rfl
@[simp] theorem Relay.setPins_agent (r : Relay) (x : Pins) : (r.setPins x).agent = r.agent := rfl
@[simp] theorem Relay.setPins_freeCount (r : Relay) (x : Pins) :
    (r.setPins x).freeCount = r.freeCount := rfl
@[simp] theorem Relay.setMemory_clock (r : Relay) (x : SerialMemory) :
    (r.setMemory x).clock = r.clock := rfl
@[simp] theorem Relay.setMemory_pins (r : Relay) (x : SerialMemory) :
    (r.setMemory x).pins = r.pins := rfl
@[simp] theorem Relay.setMemory_memory (r : Relay) (x : SerialMemory) :
    (r.setMemory x).memory = x := rfl
@[simp] theorem Relay.setMemory_store (r : Relay) (x : SerialMemory) :
    (r.setMemory x).store = r.store := rfl
@[simp] theorem Relay.setMemory_tables (r : Relay) (x : SerialMemory) :
    (r.setMemory x).tables = r.tables := rfl
@[simp] theorem Relay.setMemory_upper (r : Relay) (x : SerialMemory) :
    (r.setMemory x).upper = r.upper := rfl
@[simp] theorem Relay.setMemory_lower (r : Relay) (x : SerialMemory) :
    (r.setMemory x).lower = r.lower := rfl
@[simp] theorem Relay.setMemory_field (r : Relay) (x : SerialMemory) :
    (r.setMemory x).field = r.field := rfl
@[simp] theorem Relay.setMemory_lineLoss (r : Relay) (x : SerialMemory) :
    (r.setMemory x).lineLoss = r.lineLoss := rfl
@[simp] theorem Relay.setMemory_pool (r : Relay) (x : SerialMemory) :
    (r.setMemory x).pool = r.pool := rfl
@[simp] theorem Relay.setMemory_generator (r : Relay) (x : SerialMemory) :
    (r.setMemory x).generator = r.generator := rfl
@[simp] theorem Relay.setMemory_checker (r : Relay) (x : SerialMemory) :
    (r.setMemory x).checker = r.checker := rfl
@[simp] theorem Relay.setMemory_stations (r : Relay) (x : SerialMemory) :
    (r.setMemory x).stations = r.stations := rfl
@[simp] theorem Relay.setMemory_barriers (r : Relay) (x : SerialMemory) :
    (r.setMemory x).barriers = r.barriers := rfl
@[simp] theorem Relay.setMemory_emitter (r : Relay) (x : SerialMemory) :
    (r.setMemory x).emitter = r.emitter := rfl
@[simp] theorem Relay.setMemory_channels (r : Relay) (x : SerialMemory) :
    (r.setMemory x).channels = r.channels := rfl
@[simp] theorem Relay.setMemory_lines (r : Relay) (x : SerialMemory) :
    (r.setMemory x).lines = r.lines := rfl
@[simp] theorem Relay.setMemory_inputs (r : Relay) (x : SerialMemory) :
    (r.setMemory x).inputs = r.inputs := rfl
@[simp] theorem Relay.setMemory_key (r : Relay) (x : SerialMemory) :
    (r.setMemory x).key = r.key := rfl
@[simp] theorem Relay.setMemory_agent (r : Relay) (x : SerialMemory) :
    (r.setMemory x).agent = r.agent := rfl
@[simp] theorem Relay.setMemory_freeCount (r : Relay) (x : SerialMemory) :
    (r.setMemory x).freeCount = r.freeCount := rfl
@[simp] theorem Relay.setStore_clock (r : Relay) (x : Store) : (r.setStore x).clock = r.clock := rfl
@[simp] theorem Relay.setStore_pins (r : Relay) (x : Store) : (r.setStore x).pins = r.pins := rfl
@[simp] theorem Relay.setStore_memory (r : Relay) (x : Store) :
    (r.setStore x).memory = r.memory := rfl
@[simp] theorem Relay.setStore_store (r : Relay) (x : Store) : (r.setStore x).store = x := rfl
@[simp] theorem Relay.setStore_tables (r : Relay) (x : Store) :
    (r.setStore x).tables = r.tables := rfl
@[simp] theorem Relay.setStore_upper (r : Relay) (x : Store) : (r.setStore x).upper = r.upper := rfl
@[simp] theorem Relay.setStore_lower (r : Relay) (x : Store) : (r.setStore x).lower = r.lower := rfl
@[simp] theorem Relay.setStore_field (r : Relay) (x : Store) : (r.setStore x).field = r.field := rfl
@[simp] theorem Relay.setStore_lineLoss (r : Relay) (x : Store) :
    (r.setStore x).lineLoss = r.lineLoss := rfl
@[simp] theorem Relay.setStore_pool (r : Relay) (x : Store) : (r.setStore x).pool = r.pool := rfl
@[simp] theorem Relay.setStore_generator (r : Relay) (x : Store) :
    (r.setStore x).generator = r.generator := rfl
@[simp] theorem Relay.setStore_checker (r : Relay) (x : Store) :
    (r.setStore x).checker = r.checker := rfl
@[simp] theorem Relay.setStore_stations (r : Relay) (x : Store) :
    (r.setStore x).stations = r.stations := rfl
@[simp] theorem Relay.setStore_barriers (r : Relay) (x : Store) :
    (r.setStore x).barriers = r.barriers := rfl
@[simp] theorem Relay.setStore_emitter (r : Relay) (x : Store) :
    (r.setStore x).emitter = r.emitter := rfl
@[simp] theorem Relay.setStore_channels (r : Relay) (x : Store) :
    (r.setStore x).channels = r.channels := rfl
@[simp] theorem Relay.setStore_lines (r : Relay) (x : Store) : (r.setStore x).lines = r.lines := rfl
@[simp] theorem Relay.setStore_inputs (r : Relay) (x : Store) :
    (r.setStore x).inputs = r.inputs := rfl
@[simp] theorem Relay.setStore_key (r : Relay) (x : Store) : (r.setStore x).key = r.key := rfl
@[simp] theorem Relay.setStore_agent (r : Relay) (x : Store) : (r.setStore x).agent = r.agent := rfl
@[simp] theorem Relay.setStore_freeCount (r : Relay) (x : Store) :
    (r.setStore x).freeCount = r.freeCount := rfl
@[simp] theorem Relay.setTables_clock (r : Relay) (x : Tables) :
    (r.setTables x).clock = r.clock := rfl
@[simp] theorem Relay.setTables_pins (r : Relay) (x : Tables) : (r.setTables x).pins = r.pins := rfl
@[simp] theorem Relay.setTables_memory (r : Relay) (x : Tables) :
    (r.setTables x).memory = r.memory := rfl
@[simp] theorem Relay.setTables_store (r : Relay) (x : Tables) :
    (r.setTables x).store = r.store := rfl
@[simp] theorem Relay.setTables_tables (r : Relay) (x : Tables) : (r.setTables x).tables = x := rfl
@[simp] theorem Relay.setTables_upper (r : Relay) (x : Tables) :
    (r.setTables x).upper = r.upper := rfl
@[simp] theorem Relay.setTables_lower (r : Relay) (x : Tables) :
    (r.setTables x).lower = r.lower := rfl
@[simp] theorem Relay.setTables_field (r : Relay) (x : Tables) :
    (r.setTables x).field = r.field := rfl
@[simp] theorem Relay.setTables_lineLoss (r : Relay) (x : Tables) :
    (r.setTables x).lineLoss = r.lineLoss := rfl
@[simp] theorem Relay.setTables_pool (r : Relay) (x : Tables) : (r.setTables x).pool = r.pool := rfl
@[simp] theorem Relay.setTables_generator (r : Relay) (x : Tables) :
    (r.setTables x).generator = r.generator := rfl
@[simp] theorem Relay.setTables_checker (r : Relay) (x : Tables) :
    (r.setTables x).checker = r.checker := rfl
@[simp] theorem Relay.setTables_stations (r : Relay) (x : Tables) :
    (r.setTables x).stations = r.stations := rfl
@[simp] theorem Relay.setTables_barriers (r : Relay) (x : Tables) :
    (r.setTables x).barriers = r.barriers := rfl
@[simp] theorem Relay.setTables_emitter (r : Relay) (x : Tables) :
    (r.setTables x).emitter = r.emitter := rfl
@[simp] theorem Relay.setTables_channels (r : Relay) (x : Tables) :
    (r.setTables x).channels = r.channels := rfl
@[simp] theorem Relay.setTables_lines (r : Relay) (x : Tables) :
    (r.setTables x).lines = r.lines := rfl
@[simp] theorem Relay.setTables_inputs (r : Relay) (x : Tables) :
    (r.setTables x).inputs = r.inputs := rfl
@[simp] theorem Relay.setTables_key (r : Relay) (x : Tables) : (r.setTables x).key = r.key := rfl
@[simp] theorem Relay.setTables_agent (r : Relay) (x : Tables) :
    (r.setTables x).agent = r.agent := rfl
@[simp] theorem Relay.setTables_freeCount (r : Relay) (x : Tables) :
    (r.setTables x).freeCount = r.freeCount := rfl
@[simp] theorem Relay.setUpper_clock (r : Relay) (x : Port) : (r.setUpper x).clock = r.clock := rfl
@[simp] theorem Relay.setUpper_pins (r : Relay) (x : Port) : (r.setUpper x).pins = r.pins := rfl
@[simp] theorem Relay.setUpper_memory (r : Relay) (x : Port) :
    (r.setUpper x).memory = r.memory := rfl
@[simp] theorem Relay.setUpper_store (r : Relay) (x : Port) : (r.setUpper x).store = r.store := rfl
@[simp] theorem Relay.setUpper_tables (r : Relay) (x : Port) :
    (r.setUpper x).tables = r.tables := rfl
@[simp] theorem Relay.setUpper_upper (r : Relay) (x : Port) : (r.setUpper x).upper = x := rfl
@[simp] theorem Relay.setUpper_lower (r : Relay) (x : Port) : (r.setUpper x).lower = r.lower := rfl
@[simp] theorem Relay.setUpper_field (r : Relay) (x : Port) : (r.setUpper x).field = r.field := rfl
@[simp] theorem Relay.setUpper_lineLoss (r : Relay) (x : Port) :
    (r.setUpper x).lineLoss = r.lineLoss := rfl
@[simp] theorem Relay.setUpper_pool (r : Relay) (x : Port) : (r.setUpper x).pool = r.pool := rfl
@[simp] theorem Relay.setUpper_generator (r : Relay) (x : Port) :
    (r.setUpper x).generator = r.generator := rfl
@[simp] theorem Relay.setUpper_checker (r : Relay) (x : Port) :
    (r.setUpper x).checker = r.checker := rfl
@[simp] theorem Relay.setUpper_stations (r : Relay) (x : Port) :
    (r.setUpper x).stations = r.stations := rfl
@[simp] theorem Relay.setUpper_barriers (r : Relay) (x : Port) :
    (r.setUpper x).barriers = r.barriers := rfl
@[simp] theorem Relay.setUpper_emitter (r : Relay) (x : Port) :
    (r.setUpper x).emitter = r.emitter := rfl
@[simp] theorem Relay.setUpper_channels (r : Relay) (x : Port) :
    (r.setUpper x).channels = r.channels := rfl
@[simp] theorem Relay.setUpper_lines (r : Relay) (x : Port) : (r.setUpper x).lines = r.lines := rfl
@[simp] theorem Relay.setUpper_inputs (r : Relay) (x : Port) :
    (r.setUpper x).inputs = r.inputs := rfl
@[simp] theorem Relay.setUpper_key (r : Relay) (x : Port) : (r.setUpper x).key = r.key := rfl
@[simp] theorem Relay.setUpper_agent (r : Relay) (x : Port) : (r.setUpper x).agent = r.agent := rfl
@[simp] theorem Relay.setUpper_freeCount (r : Relay) (x : Port) :
    (r.setUpper x).freeCount = r.freeCount := rfl
@[simp] theorem Relay.setLower_clock (r : Relay) (x : Port) : (r.setLower x).clock = r.clock := rfl
@[simp] theorem Relay.setLower_pins (r : Relay) (x : Port) : (r.setLower x).pins = r.pins := rfl
@[simp] theorem Relay.setLower_memory (r : Relay) (x : Port) :
    (r.setLower x).memory = r.memory := rfl
@[simp] theorem Relay.setLower_store (r : Relay) (x : Port) : (r.setLower x).store = r.store := rfl
@[simp] theorem Relay.setLower_tables (r : Relay) (x : Port) :
    (r.setLower x).tables = r.tables := rfl
@[simp] theorem Relay.setLower_upper (r : Relay) (x : Port) : (r.setLower x).upper = r.upper := rfl
@[simp] theorem Relay.setLower_lower (r : Relay) (x : Port) : (r.setLower x).lower = x := rfl
@[simp] theorem Relay.setLower_field (r : Relay) (x : Port) : (r.setLower x).field = r.field := rfl
@[simp] theorem Relay.setLower_lineLoss (r : Relay) (x : Port) :
    (r.setLower x).lineLoss = r.lineLoss := rfl
@[simp] theorem Relay.setLower_pool (r : Relay) (x : Port) : (r.setLower x).pool = r.pool := rfl
@[simp] theorem Relay.setLower_generator (r : Relay) (x : Port) :
    (r.setLower x).generator = r.generator := rfl
@[simp] theorem Relay.setLower_checker (r : Relay) (x : Port) :
    (r.setLower x).checker = r.checker := rfl
@[simp] theorem Relay.setLower_stations (r : Relay) (x : Port) :
    (r.setLower x).stations = r.stations := rfl
@[simp] theorem Relay.setLower_barriers (r : Relay) (x : Port) :
    (r.setLower x).barriers = r.barriers := rfl
@[simp] theorem Relay.setLower_emitter (r : Relay) (x : Port) :
    (r.setLower x).emitter = r.emitter := rfl
@[simp] theorem Relay.setLower_channels (r : Relay) (x : Port) :
    (r.setLower x).channels = r.channels := rfl
@[simp] theorem Relay.setLower_lines (r : Relay) (x : Port) : (r.setLower x).lines = r.lines := rfl
@[simp] theorem Relay.setLower_inputs (r : Relay) (x : Port) :
    (r.setLower x).inputs = r.inputs := rfl
@[simp] theorem Relay.setLower_key (r : Relay) (x : Port) : (r.setLower x).key = r.key := rfl
@[simp] theorem Relay.setLower_agent (r : Relay) (x : Port) : (r.setLower x).agent = r.agent := rfl
@[simp] theorem Relay.setLower_freeCount (r : Relay) (x : Port) :
    (r.setLower x).freeCount = r.freeCount := rfl
@[simp] theorem Relay.setField_clock (r : Relay) (x : FieldPort) :
    (r.setField x).clock = r.clock := rfl
@[simp] theorem Relay.setField_pins (r : Relay) (x : FieldPort) :
    (r.setField x).pins = r.pins := rfl
@[simp] theorem Relay.setField_memory (r : Relay) (x : FieldPort) :
    (r.setField x).memory = r.memory := rfl
@[simp] theorem Relay.setField_store (r : Relay) (x : FieldPort) :
    (r.setField x).store = r.store := rfl
@[simp] theorem Relay.setField_tables (r : Relay) (x : FieldPort) :
    (r.setField x).tables = r.tables := rfl
@[simp] theorem Relay.setField_upper (r : Relay) (x : FieldPort) :
    (r.setField x).upper = r.upper := rfl
@[simp] theorem Relay.setField_lower (r : Relay) (x : FieldPort) :
    (r.setField x).lower = r.lower := rfl
@[simp] theorem Relay.setField_field (r : Relay) (x : FieldPort) : (r.setField x).field = x := rfl
@[simp] theorem Relay.setField_lineLoss (r : Relay) (x : FieldPort) :
    (r.setField x).lineLoss = r.lineLoss := rfl
@[simp] theorem Relay.setField_pool (r : Relay) (x : FieldPort) :
    (r.setField x).pool = r.pool := rfl
@[simp] theorem Relay.setField_generator (r : Relay) (x : FieldPort) :
    (r.setField x).generator = r.generator := rfl
@[simp] theorem Relay.setField_checker (r : Relay) (x : FieldPort) :
    (r.setField x).checker = r.checker := rfl
@[simp] theorem Relay.setField_stations (r : Relay) (x : FieldPort) :
    (r.setField x).stations = r.stations := rfl
@[simp] theorem Relay.setField_barriers (r : Relay) (x : FieldPort) :
    (r.setField x).barriers = r.barriers := rfl
@[simp] theorem Relay.setField_emitter (r : Relay) (x : FieldPort) :
    (r.setField x).emitter = r.emitter := rfl
@[simp] theorem Relay.setField_channels (r : Relay) (x : FieldPort) :
    (r.setField x).channels = r.channels := rfl
@[simp] theorem Relay.setField_lines (r : Relay) (x : FieldPort) :
    (r.setField x).lines = r.lines := rfl
@[simp] theorem Relay.setField_inputs (r : Relay) (x : FieldPort) :
    (r.setField x).inputs = r.inputs := rfl
@[simp] theorem Relay.setField_key (r : Relay) (x : FieldPort) : (r.setField x).key = r.key := rfl
@[simp] theorem Relay.setField_agent (r : Relay) (x : FieldPort) :
    (r.setField x).agent = r.agent := rfl
@[simp] theorem Relay.setField_freeCount (r : Relay) (x : FieldPort) :
    (r.setField x).freeCount = r.freeCount := rfl
@[simp] theorem Relay.setLineLoss_clock (r : Relay) (x : LineLoss) :
    (r.setLineLoss x).clock = r.clock := rfl
@[simp] theorem Relay.setLineLoss_pins (r : Relay) (x : LineLoss) :
    (r.setLineLoss x).pins = r.pins := rfl
@[simp] theorem Relay.setLineLoss_memory (r : Relay) (x : LineLoss) :
    (r.setLineLoss x).memory = r.memory := rfl
@[simp] theorem Relay.setLineLoss_store (r : Relay) (x : LineLoss) :
    (r.setLineLoss x).store = r.store := rfl
@[simp] theorem Relay.setLineLoss_tables (r : Relay) (x : LineLoss) :
    (r.setLineLoss x).tables = r.tables := rfl
@[simp] theorem Relay.setLineLoss_upper (r : Relay) (x : LineLoss) :
    (r.setLineLoss x).upper = r.upper := rfl
@[simp] theorem Relay.setLineLoss_lower (r : Relay) (x : LineLoss) :
    (r.setLineLoss x).lower = r.lower := rfl
@[simp] theorem Relay.setLineLoss_field (r : Relay) (x : LineLoss) :
    (r.setLineLoss x).field = r.field := rfl
@[simp] theorem Relay.setLineLoss_lineLoss (r : Relay) (x : LineLoss) :
    (r.setLineLoss x).lineLoss = x := rfl
@[simp] theorem Relay.setLineLoss_pool (r : Relay) (x : LineLoss) :
    (r.setLineLoss x).pool = r.pool := rfl
@[simp] theorem Relay.setLineLoss_generator (r : Relay) (x : LineLoss) :
    (r.setLineLoss x).generator = r.generator := rfl
@[simp] theorem Relay.setLineLoss_checker (r : Relay) (x : LineLoss) :
    (r.setLineLoss x).checker = r.checker := rfl
@[simp] theorem Relay.setLineLoss_stations (r : Relay) (x : LineLoss) :
    (r.setLineLoss x).stations = r.stations := rfl
@[simp] theorem Relay.setLineLoss_barriers (r : Relay) (x : LineLoss) :
    (r.setLineLoss x).barriers = r.barriers := rfl
@[simp] theorem Relay.setLineLoss_emitter (r : Relay) (x : LineLoss) :
    (r.setLineLoss x).emitter = r.emitter := rfl
@[simp] theorem Relay.setLineLoss_channels (r : Relay) (x : LineLoss) :
    (r.setLineLoss x).channels = r.channels := rfl
@[simp] theorem Relay.setLineLoss_lines (r : Relay) (x : LineLoss) :
    (r.setLineLoss x).lines = r.lines := rfl
@[simp] theorem Relay.setLineLoss_inputs (r : Relay) (x : LineLoss) :
    (r.setLineLoss x).inputs = r.inputs := rfl
@[simp] theorem Relay.setLineLoss_key (r : Relay) (x : LineLoss) :
    (r.setLineLoss x).key = r.key := rfl
@[simp] theorem Relay.setLineLoss_agent (r : Relay) (x : LineLoss) :
    (r.setLineLoss x).agent = r.agent := rfl
@[simp] theorem Relay.setLineLoss_freeCount (r : Relay) (x : LineLoss) :
    (r.setLineLoss x).freeCount = r.freeCount := rfl
@[simp] theorem Relay.setPool_clock (r : Relay) (x : Pool) : (r.setPool x).clock = r.clock := rfl
@[simp] theorem Relay.setPool_pins (r : Relay) (x : Pool) : (r.setPool x).pins = r.pins := rfl
@[simp] theorem Relay.setPool_memory (r : Relay) (x : Pool) : (r.setPool x).memory = r.memory := rfl
@[simp] theorem Relay.setPool_store (r : Relay) (x : Pool) : (r.setPool x).store = r.store := rfl
@[simp] theorem Relay.setPool_tables (r : Relay) (x : Pool) : (r.setPool x).tables = r.tables := rfl
@[simp] theorem Relay.setPool_upper (r : Relay) (x : Pool) : (r.setPool x).upper = r.upper := rfl
@[simp] theorem Relay.setPool_lower (r : Relay) (x : Pool) : (r.setPool x).lower = r.lower := rfl
@[simp] theorem Relay.setPool_field (r : Relay) (x : Pool) : (r.setPool x).field = r.field := rfl
@[simp] theorem Relay.setPool_lineLoss (r : Relay) (x : Pool) :
    (r.setPool x).lineLoss = r.lineLoss := rfl
@[simp] theorem Relay.setPool_pool (r : Relay) (x : Pool) : (r.setPool x).pool = x := rfl
@[simp] theorem Relay.setPool_generator (r : Relay) (x : Pool) :
    (r.setPool x).generator = r.generator := rfl
@[simp] theorem Relay.setPool_checker (r : Relay) (x : Pool) :
    (r.setPool x).checker = r.checker := rfl
@[simp] theorem Relay.setPool_stations (r : Relay) (x : Pool) :
    (r.setPool x).stations = r.stations := rfl
@[simp] theorem Relay.setPool_barriers (r : Relay) (x : Pool) :
    (r.setPool x).barriers = r.barriers := rfl
@[simp] theorem Relay.setPool_emitter (r : Relay) (x : Pool) :
    (r.setPool x).emitter = r.emitter := rfl
@[simp] theorem Relay.setPool_channels (r : Relay) (x : Pool) :
    (r.setPool x).channels = r.channels := rfl
@[simp] theorem Relay.setPool_lines (r : Relay) (x : Pool) : (r.setPool x).lines = r.lines := rfl
@[simp] theorem Relay.setPool_inputs (r : Relay) (x : Pool) : (r.setPool x).inputs = r.inputs := rfl
@[simp] theorem Relay.setPool_key (r : Relay) (x : Pool) : (r.setPool x).key = r.key := rfl
@[simp] theorem Relay.setPool_agent (r : Relay) (x : Pool) : (r.setPool x).agent = r.agent := rfl
@[simp] theorem Relay.setPool_freeCount (r : Relay) (x : Pool) :
    (r.setPool x).freeCount = r.freeCount := rfl
@[simp] theorem Relay.setGenerator_clock (r : Relay) (x : Generator) :
    (r.setGenerator x).clock = r.clock := rfl
@[simp] theorem Relay.setGenerator_pins (r : Relay) (x : Generator) :
    (r.setGenerator x).pins = r.pins := rfl
@[simp] theorem Relay.setGenerator_memory (r : Relay) (x : Generator) :
    (r.setGenerator x).memory = r.memory := rfl
@[simp] theorem Relay.setGenerator_store (r : Relay) (x : Generator) :
    (r.setGenerator x).store = r.store := rfl
@[simp] theorem Relay.setGenerator_tables (r : Relay) (x : Generator) :
    (r.setGenerator x).tables = r.tables := rfl
@[simp] theorem Relay.setGenerator_upper (r : Relay) (x : Generator) :
    (r.setGenerator x).upper = r.upper := rfl
@[simp] theorem Relay.setGenerator_lower (r : Relay) (x : Generator) :
    (r.setGenerator x).lower = r.lower := rfl
@[simp] theorem Relay.setGenerator_field (r : Relay) (x : Generator) :
    (r.setGenerator x).field = r.field := rfl
@[simp] theorem Relay.setGenerator_lineLoss (r : Relay) (x : Generator) :
    (r.setGenerator x).lineLoss = r.lineLoss := rfl
@[simp] theorem Relay.setGenerator_pool (r : Relay) (x : Generator) :
    (r.setGenerator x).pool = r.pool := rfl
@[simp] theorem Relay.setGenerator_generator (r : Relay) (x : Generator) :
    (r.setGenerator x).generator = x := rfl
@[simp] theorem Relay.setGenerator_checker (r : Relay) (x : Generator) :
    (r.setGenerator x).checker = r.checker := rfl
@[simp] theorem Relay.setGenerator_stations (r : Relay) (x : Generator) :
    (r.setGenerator x).stations = r.stations := rfl
@[simp] theorem Relay.setGenerator_barriers (r : Relay) (x : Generator) :
    (r.setGenerator x).barriers = r.barriers := rfl
@[simp] theorem Relay.setGenerator_emitter (r : Relay) (x : Generator) :
    (r.setGenerator x).emitter = r.emitter := rfl
@[simp] theorem Relay.setGenerator_channels (r : Relay) (x : Generator) :
    (r.setGenerator x).channels = r.channels := rfl
@[simp] theorem Relay.setGenerator_lines (r : Relay) (x : Generator) :
    (r.setGenerator x).lines = r.lines := rfl
@[simp] theorem Relay.setGenerator_inputs (r : Relay) (x : Generator) :
    (r.setGenerator x).inputs = r.inputs := rfl
@[simp] theorem Relay.setGenerator_key (r : Relay) (x : Generator) :
    (r.setGenerator x).key = r.key := rfl
@[simp] theorem Relay.setGenerator_agent (r : Relay) (x : Generator) :
    (r.setGenerator x).agent = r.agent := rfl
@[simp] theorem Relay.setGenerator_freeCount (r : Relay) (x : Generator) :
    (r.setGenerator x).freeCount = r.freeCount := rfl
@[simp] theorem Relay.setChecker_clock (r : Relay) (x : Checker) :
    (r.setChecker x).clock = r.clock := rfl
@[simp] theorem Relay.setChecker_pins (r : Relay) (x : Checker) :
    (r.setChecker x).pins = r.pins := rfl
@[simp] theorem Relay.setChecker_memory (r : Relay) (x : Checker) :
    (r.setChecker x).memory = r.memory := rfl
@[simp] theorem Relay.setChecker_store (r : Relay) (x : Checker) :
    (r.setChecker x).store = r.store := rfl
@[simp] theorem Relay.setChecker_tables (r : Relay) (x : Checker) :
    (r.setChecker x).tables = r.tables := rfl
@[simp] theorem Relay.setChecker_upper (r : Relay) (x : Checker) :
    (r.setChecker x).upper = r.upper := rfl
@[simp] theorem Relay.setChecker_lower (r : Relay) (x : Checker) :
    (r.setChecker x).lower = r.lower := rfl
@[simp] theorem Relay.setChecker_field (r : Relay) (x : Checker) :
    (r.setChecker x).field = r.field := rfl
@[simp] theorem Relay.setChecker_lineLoss (r : Relay) (x : Checker) :
    (r.setChecker x).lineLoss = r.lineLoss := rfl
@[simp] theorem Relay.setChecker_pool (r : Relay) (x : Checker) :
    (r.setChecker x).pool = r.pool := rfl
@[simp] theorem Relay.setChecker_generator (r : Relay) (x : Checker) :
    (r.setChecker x).generator = r.generator := rfl
@[simp] theorem Relay.setChecker_checker (r : Relay) (x : Checker) :
    (r.setChecker x).checker = x := rfl
@[simp] theorem Relay.setChecker_stations (r : Relay) (x : Checker) :
    (r.setChecker x).stations = r.stations := rfl
@[simp] theorem Relay.setChecker_barriers (r : Relay) (x : Checker) :
    (r.setChecker x).barriers = r.barriers := rfl
@[simp] theorem Relay.setChecker_emitter (r : Relay) (x : Checker) :
    (r.setChecker x).emitter = r.emitter := rfl
@[simp] theorem Relay.setChecker_channels (r : Relay) (x : Checker) :
    (r.setChecker x).channels = r.channels := rfl
@[simp] theorem Relay.setChecker_lines (r : Relay) (x : Checker) :
    (r.setChecker x).lines = r.lines := rfl
@[simp] theorem Relay.setChecker_inputs (r : Relay) (x : Checker) :
    (r.setChecker x).inputs = r.inputs := rfl
@[simp] theorem Relay.setChecker_key (r : Relay) (x : Checker) : (r.setChecker x).key = r.key := rfl
@[simp] theorem Relay.setChecker_agent (r : Relay) (x : Checker) :
    (r.setChecker x).agent = r.agent := rfl
@[simp] theorem Relay.setChecker_freeCount (r : Relay) (x : Checker) :
    (r.setChecker x).freeCount = r.freeCount := rfl
@[simp] theorem Relay.setStations_clock (r : Relay) (x : Bank StationDyn 48) :
    (r.setStations x).clock = r.clock := rfl
@[simp] theorem Relay.setStations_pins (r : Relay) (x : Bank StationDyn 48) :
    (r.setStations x).pins = r.pins := rfl
@[simp] theorem Relay.setStations_memory (r : Relay) (x : Bank StationDyn 48) :
    (r.setStations x).memory = r.memory := rfl
@[simp] theorem Relay.setStations_store (r : Relay) (x : Bank StationDyn 48) :
    (r.setStations x).store = r.store := rfl
@[simp] theorem Relay.setStations_tables (r : Relay) (x : Bank StationDyn 48) :
    (r.setStations x).tables = r.tables := rfl
@[simp] theorem Relay.setStations_upper (r : Relay) (x : Bank StationDyn 48) :
    (r.setStations x).upper = r.upper := rfl
@[simp] theorem Relay.setStations_lower (r : Relay) (x : Bank StationDyn 48) :
    (r.setStations x).lower = r.lower := rfl
@[simp] theorem Relay.setStations_field (r : Relay) (x : Bank StationDyn 48) :
    (r.setStations x).field = r.field := rfl
@[simp] theorem Relay.setStations_lineLoss (r : Relay) (x : Bank StationDyn 48) :
    (r.setStations x).lineLoss = r.lineLoss := rfl
@[simp] theorem Relay.setStations_pool (r : Relay) (x : Bank StationDyn 48) :
    (r.setStations x).pool = r.pool := rfl
@[simp] theorem Relay.setStations_generator (r : Relay) (x : Bank StationDyn 48) :
    (r.setStations x).generator = r.generator := rfl
@[simp] theorem Relay.setStations_checker (r : Relay) (x : Bank StationDyn 48) :
    (r.setStations x).checker = r.checker := rfl
@[simp] theorem Relay.setStations_stations (r : Relay) (x : Bank StationDyn 48) :
    (r.setStations x).stations = x := rfl
@[simp] theorem Relay.setStations_barriers (r : Relay) (x : Bank StationDyn 48) :
    (r.setStations x).barriers = r.barriers := rfl
@[simp] theorem Relay.setStations_emitter (r : Relay) (x : Bank StationDyn 48) :
    (r.setStations x).emitter = r.emitter := rfl
@[simp] theorem Relay.setStations_channels (r : Relay) (x : Bank StationDyn 48) :
    (r.setStations x).channels = r.channels := rfl
@[simp] theorem Relay.setStations_lines (r : Relay) (x : Bank StationDyn 48) :
    (r.setStations x).lines = r.lines := rfl
@[simp] theorem Relay.setStations_inputs (r : Relay) (x : Bank StationDyn 48) :
    (r.setStations x).inputs = r.inputs := rfl
@[simp] theorem Relay.setStations_key (r : Relay) (x : Bank StationDyn 48) :
    (r.setStations x).key = r.key := rfl
@[simp] theorem Relay.setStations_agent (r : Relay) (x : Bank StationDyn 48) :
    (r.setStations x).agent = r.agent := rfl
@[simp] theorem Relay.setStations_freeCount (r : Relay) (x : Bank StationDyn 48) :
    (r.setStations x).freeCount = r.freeCount := rfl
@[simp] theorem Relay.setBarriers_clock (r : Relay) (x : Bank BarrierDyn 8) :
    (r.setBarriers x).clock = r.clock := rfl
@[simp] theorem Relay.setBarriers_pins (r : Relay) (x : Bank BarrierDyn 8) :
    (r.setBarriers x).pins = r.pins := rfl
@[simp] theorem Relay.setBarriers_memory (r : Relay) (x : Bank BarrierDyn 8) :
    (r.setBarriers x).memory = r.memory := rfl
@[simp] theorem Relay.setBarriers_store (r : Relay) (x : Bank BarrierDyn 8) :
    (r.setBarriers x).store = r.store := rfl
@[simp] theorem Relay.setBarriers_tables (r : Relay) (x : Bank BarrierDyn 8) :
    (r.setBarriers x).tables = r.tables := rfl
@[simp] theorem Relay.setBarriers_upper (r : Relay) (x : Bank BarrierDyn 8) :
    (r.setBarriers x).upper = r.upper := rfl
@[simp] theorem Relay.setBarriers_lower (r : Relay) (x : Bank BarrierDyn 8) :
    (r.setBarriers x).lower = r.lower := rfl
@[simp] theorem Relay.setBarriers_field (r : Relay) (x : Bank BarrierDyn 8) :
    (r.setBarriers x).field = r.field := rfl
@[simp] theorem Relay.setBarriers_lineLoss (r : Relay) (x : Bank BarrierDyn 8) :
    (r.setBarriers x).lineLoss = r.lineLoss := rfl
@[simp] theorem Relay.setBarriers_pool (r : Relay) (x : Bank BarrierDyn 8) :
    (r.setBarriers x).pool = r.pool := rfl
@[simp] theorem Relay.setBarriers_generator (r : Relay) (x : Bank BarrierDyn 8) :
    (r.setBarriers x).generator = r.generator := rfl
@[simp] theorem Relay.setBarriers_checker (r : Relay) (x : Bank BarrierDyn 8) :
    (r.setBarriers x).checker = r.checker := rfl
@[simp] theorem Relay.setBarriers_stations (r : Relay) (x : Bank BarrierDyn 8) :
    (r.setBarriers x).stations = r.stations := rfl
@[simp] theorem Relay.setBarriers_barriers (r : Relay) (x : Bank BarrierDyn 8) :
    (r.setBarriers x).barriers = x := rfl
@[simp] theorem Relay.setBarriers_emitter (r : Relay) (x : Bank BarrierDyn 8) :
    (r.setBarriers x).emitter = r.emitter := rfl
@[simp] theorem Relay.setBarriers_channels (r : Relay) (x : Bank BarrierDyn 8) :
    (r.setBarriers x).channels = r.channels := rfl
@[simp] theorem Relay.setBarriers_lines (r : Relay) (x : Bank BarrierDyn 8) :
    (r.setBarriers x).lines = r.lines := rfl
@[simp] theorem Relay.setBarriers_inputs (r : Relay) (x : Bank BarrierDyn 8) :
    (r.setBarriers x).inputs = r.inputs := rfl
@[simp] theorem Relay.setBarriers_key (r : Relay) (x : Bank BarrierDyn 8) :
    (r.setBarriers x).key = r.key := rfl
@[simp] theorem Relay.setBarriers_agent (r : Relay) (x : Bank BarrierDyn 8) :
    (r.setBarriers x).agent = r.agent := rfl
@[simp] theorem Relay.setBarriers_freeCount (r : Relay) (x : Bank BarrierDyn 8) :
    (r.setBarriers x).freeCount = r.freeCount := rfl
@[simp] theorem Relay.setEmitter_clock (r : Relay) (x : Emitter) :
    (r.setEmitter x).clock = r.clock := rfl
@[simp] theorem Relay.setEmitter_pins (r : Relay) (x : Emitter) :
    (r.setEmitter x).pins = r.pins := rfl
@[simp] theorem Relay.setEmitter_memory (r : Relay) (x : Emitter) :
    (r.setEmitter x).memory = r.memory := rfl
@[simp] theorem Relay.setEmitter_store (r : Relay) (x : Emitter) :
    (r.setEmitter x).store = r.store := rfl
@[simp] theorem Relay.setEmitter_tables (r : Relay) (x : Emitter) :
    (r.setEmitter x).tables = r.tables := rfl
@[simp] theorem Relay.setEmitter_upper (r : Relay) (x : Emitter) :
    (r.setEmitter x).upper = r.upper := rfl
@[simp] theorem Relay.setEmitter_lower (r : Relay) (x : Emitter) :
    (r.setEmitter x).lower = r.lower := rfl
@[simp] theorem Relay.setEmitter_field (r : Relay) (x : Emitter) :
    (r.setEmitter x).field = r.field := rfl
@[simp] theorem Relay.setEmitter_lineLoss (r : Relay) (x : Emitter) :
    (r.setEmitter x).lineLoss = r.lineLoss := rfl
@[simp] theorem Relay.setEmitter_pool (r : Relay) (x : Emitter) :
    (r.setEmitter x).pool = r.pool := rfl
@[simp] theorem Relay.setEmitter_generator (r : Relay) (x : Emitter) :
    (r.setEmitter x).generator = r.generator := rfl
@[simp] theorem Relay.setEmitter_checker (r : Relay) (x : Emitter) :
    (r.setEmitter x).checker = r.checker := rfl
@[simp] theorem Relay.setEmitter_stations (r : Relay) (x : Emitter) :
    (r.setEmitter x).stations = r.stations := rfl
@[simp] theorem Relay.setEmitter_barriers (r : Relay) (x : Emitter) :
    (r.setEmitter x).barriers = r.barriers := rfl
@[simp] theorem Relay.setEmitter_emitter (r : Relay) (x : Emitter) :
    (r.setEmitter x).emitter = x := rfl
@[simp] theorem Relay.setEmitter_channels (r : Relay) (x : Emitter) :
    (r.setEmitter x).channels = r.channels := rfl
@[simp] theorem Relay.setEmitter_lines (r : Relay) (x : Emitter) :
    (r.setEmitter x).lines = r.lines := rfl
@[simp] theorem Relay.setEmitter_inputs (r : Relay) (x : Emitter) :
    (r.setEmitter x).inputs = r.inputs := rfl
@[simp] theorem Relay.setEmitter_key (r : Relay) (x : Emitter) : (r.setEmitter x).key = r.key := rfl
@[simp] theorem Relay.setEmitter_agent (r : Relay) (x : Emitter) :
    (r.setEmitter x).agent = r.agent := rfl
@[simp] theorem Relay.setEmitter_freeCount (r : Relay) (x : Emitter) :
    (r.setEmitter x).freeCount = r.freeCount := rfl
@[simp] theorem Relay.setChannels_clock (r : Relay) (x : Bank Channel 4) :
    (r.setChannels x).clock = r.clock := rfl
@[simp] theorem Relay.setChannels_pins (r : Relay) (x : Bank Channel 4) :
    (r.setChannels x).pins = r.pins := rfl
@[simp] theorem Relay.setChannels_memory (r : Relay) (x : Bank Channel 4) :
    (r.setChannels x).memory = r.memory := rfl
@[simp] theorem Relay.setChannels_store (r : Relay) (x : Bank Channel 4) :
    (r.setChannels x).store = r.store := rfl
@[simp] theorem Relay.setChannels_tables (r : Relay) (x : Bank Channel 4) :
    (r.setChannels x).tables = r.tables := rfl
@[simp] theorem Relay.setChannels_upper (r : Relay) (x : Bank Channel 4) :
    (r.setChannels x).upper = r.upper := rfl
@[simp] theorem Relay.setChannels_lower (r : Relay) (x : Bank Channel 4) :
    (r.setChannels x).lower = r.lower := rfl
@[simp] theorem Relay.setChannels_field (r : Relay) (x : Bank Channel 4) :
    (r.setChannels x).field = r.field := rfl
@[simp] theorem Relay.setChannels_lineLoss (r : Relay) (x : Bank Channel 4) :
    (r.setChannels x).lineLoss = r.lineLoss := rfl
@[simp] theorem Relay.setChannels_pool (r : Relay) (x : Bank Channel 4) :
    (r.setChannels x).pool = r.pool := rfl
@[simp] theorem Relay.setChannels_generator (r : Relay) (x : Bank Channel 4) :
    (r.setChannels x).generator = r.generator := rfl
@[simp] theorem Relay.setChannels_checker (r : Relay) (x : Bank Channel 4) :
    (r.setChannels x).checker = r.checker := rfl
@[simp] theorem Relay.setChannels_stations (r : Relay) (x : Bank Channel 4) :
    (r.setChannels x).stations = r.stations := rfl
@[simp] theorem Relay.setChannels_barriers (r : Relay) (x : Bank Channel 4) :
    (r.setChannels x).barriers = r.barriers := rfl
@[simp] theorem Relay.setChannels_emitter (r : Relay) (x : Bank Channel 4) :
    (r.setChannels x).emitter = r.emitter := rfl
@[simp] theorem Relay.setChannels_channels (r : Relay) (x : Bank Channel 4) :
    (r.setChannels x).channels = x := rfl
@[simp] theorem Relay.setChannels_lines (r : Relay) (x : Bank Channel 4) :
    (r.setChannels x).lines = r.lines := rfl
@[simp] theorem Relay.setChannels_inputs (r : Relay) (x : Bank Channel 4) :
    (r.setChannels x).inputs = r.inputs := rfl
@[simp] theorem Relay.setChannels_key (r : Relay) (x : Bank Channel 4) :
    (r.setChannels x).key = r.key := rfl
@[simp] theorem Relay.setChannels_agent (r : Relay) (x : Bank Channel 4) :
    (r.setChannels x).agent = r.agent := rfl
@[simp] theorem Relay.setChannels_freeCount (r : Relay) (x : Bank Channel 4) :
    (r.setChannels x).freeCount = r.freeCount := rfl
@[simp] theorem Relay.setLines_clock (r : Relay) (x : Bank OutputLine 4) :
    (r.setLines x).clock = r.clock := rfl
@[simp] theorem Relay.setLines_pins (r : Relay) (x : Bank OutputLine 4) :
    (r.setLines x).pins = r.pins := rfl
@[simp] theorem Relay.setLines_memory (r : Relay) (x : Bank OutputLine 4) :
    (r.setLines x).memory = r.memory := rfl
@[simp] theorem Relay.setLines_store (r : Relay) (x : Bank OutputLine 4) :
    (r.setLines x).store = r.store := rfl
@[simp] theorem Relay.setLines_tables (r : Relay) (x : Bank OutputLine 4) :
    (r.setLines x).tables = r.tables := rfl
@[simp] theorem Relay.setLines_upper (r : Relay) (x : Bank OutputLine 4) :
    (r.setLines x).upper = r.upper := rfl
@[simp] theorem Relay.setLines_lower (r : Relay) (x : Bank OutputLine 4) :
    (r.setLines x).lower = r.lower := rfl
@[simp] theorem Relay.setLines_field (r : Relay) (x : Bank OutputLine 4) :
    (r.setLines x).field = r.field := rfl
@[simp] theorem Relay.setLines_lineLoss (r : Relay) (x : Bank OutputLine 4) :
    (r.setLines x).lineLoss = r.lineLoss := rfl
@[simp] theorem Relay.setLines_pool (r : Relay) (x : Bank OutputLine 4) :
    (r.setLines x).pool = r.pool := rfl
@[simp] theorem Relay.setLines_generator (r : Relay) (x : Bank OutputLine 4) :
    (r.setLines x).generator = r.generator := rfl
@[simp] theorem Relay.setLines_checker (r : Relay) (x : Bank OutputLine 4) :
    (r.setLines x).checker = r.checker := rfl
@[simp] theorem Relay.setLines_stations (r : Relay) (x : Bank OutputLine 4) :
    (r.setLines x).stations = r.stations := rfl
@[simp] theorem Relay.setLines_barriers (r : Relay) (x : Bank OutputLine 4) :
    (r.setLines x).barriers = r.barriers := rfl
@[simp] theorem Relay.setLines_emitter (r : Relay) (x : Bank OutputLine 4) :
    (r.setLines x).emitter = r.emitter := rfl
@[simp] theorem Relay.setLines_channels (r : Relay) (x : Bank OutputLine 4) :
    (r.setLines x).channels = r.channels := rfl
@[simp] theorem Relay.setLines_lines (r : Relay) (x : Bank OutputLine 4) :
    (r.setLines x).lines = x := rfl
@[simp] theorem Relay.setLines_inputs (r : Relay) (x : Bank OutputLine 4) :
    (r.setLines x).inputs = r.inputs := rfl
@[simp] theorem Relay.setLines_key (r : Relay) (x : Bank OutputLine 4) :
    (r.setLines x).key = r.key := rfl
@[simp] theorem Relay.setLines_agent (r : Relay) (x : Bank OutputLine 4) :
    (r.setLines x).agent = r.agent := rfl
@[simp] theorem Relay.setLines_freeCount (r : Relay) (x : Bank OutputLine 4) :
    (r.setLines x).freeCount = r.freeCount := rfl
@[simp] theorem Relay.setInputs_clock (r : Relay) (x : Bank InputDyn 8) :
    (r.setInputs x).clock = r.clock := rfl
@[simp] theorem Relay.setInputs_pins (r : Relay) (x : Bank InputDyn 8) :
    (r.setInputs x).pins = r.pins := rfl
@[simp] theorem Relay.setInputs_memory (r : Relay) (x : Bank InputDyn 8) :
    (r.setInputs x).memory = r.memory := rfl
@[simp] theorem Relay.setInputs_store (r : Relay) (x : Bank InputDyn 8) :
    (r.setInputs x).store = r.store := rfl
@[simp] theorem Relay.setInputs_tables (r : Relay) (x : Bank InputDyn 8) :
    (r.setInputs x).tables = r.tables := rfl
@[simp] theorem Relay.setInputs_upper (r : Relay) (x : Bank InputDyn 8) :
    (r.setInputs x).upper = r.upper := rfl
@[simp] theorem Relay.setInputs_lower (r : Relay) (x : Bank InputDyn 8) :
    (r.setInputs x).lower = r.lower := rfl
@[simp] theorem Relay.setInputs_field (r : Relay) (x : Bank InputDyn 8) :
    (r.setInputs x).field = r.field := rfl
@[simp] theorem Relay.setInputs_lineLoss (r : Relay) (x : Bank InputDyn 8) :
    (r.setInputs x).lineLoss = r.lineLoss := rfl
@[simp] theorem Relay.setInputs_pool (r : Relay) (x : Bank InputDyn 8) :
    (r.setInputs x).pool = r.pool := rfl
@[simp] theorem Relay.setInputs_generator (r : Relay) (x : Bank InputDyn 8) :
    (r.setInputs x).generator = r.generator := rfl
@[simp] theorem Relay.setInputs_checker (r : Relay) (x : Bank InputDyn 8) :
    (r.setInputs x).checker = r.checker := rfl
@[simp] theorem Relay.setInputs_stations (r : Relay) (x : Bank InputDyn 8) :
    (r.setInputs x).stations = r.stations := rfl
@[simp] theorem Relay.setInputs_barriers (r : Relay) (x : Bank InputDyn 8) :
    (r.setInputs x).barriers = r.barriers := rfl
@[simp] theorem Relay.setInputs_emitter (r : Relay) (x : Bank InputDyn 8) :
    (r.setInputs x).emitter = r.emitter := rfl
@[simp] theorem Relay.setInputs_channels (r : Relay) (x : Bank InputDyn 8) :
    (r.setInputs x).channels = r.channels := rfl
@[simp] theorem Relay.setInputs_lines (r : Relay) (x : Bank InputDyn 8) :
    (r.setInputs x).lines = r.lines := rfl
@[simp] theorem Relay.setInputs_inputs (r : Relay) (x : Bank InputDyn 8) :
    (r.setInputs x).inputs = x := rfl
@[simp] theorem Relay.setInputs_key (r : Relay) (x : Bank InputDyn 8) :
    (r.setInputs x).key = r.key := rfl
@[simp] theorem Relay.setInputs_agent (r : Relay) (x : Bank InputDyn 8) :
    (r.setInputs x).agent = r.agent := rfl
@[simp] theorem Relay.setInputs_freeCount (r : Relay) (x : Bank InputDyn 8) :
    (r.setInputs x).freeCount = r.freeCount := rfl
@[simp] theorem Relay.setKey_clock (r : Relay) (x : ResetKey) : (r.setKey x).clock = r.clock := rfl
@[simp] theorem Relay.setKey_pins (r : Relay) (x : ResetKey) : (r.setKey x).pins = r.pins := rfl
@[simp] theorem Relay.setKey_memory (r : Relay) (x : ResetKey) :
    (r.setKey x).memory = r.memory := rfl
@[simp] theorem Relay.setKey_store (r : Relay) (x : ResetKey) : (r.setKey x).store = r.store := rfl
@[simp] theorem Relay.setKey_tables (r : Relay) (x : ResetKey) :
    (r.setKey x).tables = r.tables := rfl
@[simp] theorem Relay.setKey_upper (r : Relay) (x : ResetKey) : (r.setKey x).upper = r.upper := rfl
@[simp] theorem Relay.setKey_lower (r : Relay) (x : ResetKey) : (r.setKey x).lower = r.lower := rfl
@[simp] theorem Relay.setKey_field (r : Relay) (x : ResetKey) : (r.setKey x).field = r.field := rfl
@[simp] theorem Relay.setKey_lineLoss (r : Relay) (x : ResetKey) :
    (r.setKey x).lineLoss = r.lineLoss := rfl
@[simp] theorem Relay.setKey_pool (r : Relay) (x : ResetKey) : (r.setKey x).pool = r.pool := rfl
@[simp] theorem Relay.setKey_generator (r : Relay) (x : ResetKey) :
    (r.setKey x).generator = r.generator := rfl
@[simp] theorem Relay.setKey_checker (r : Relay) (x : ResetKey) :
    (r.setKey x).checker = r.checker := rfl
@[simp] theorem Relay.setKey_stations (r : Relay) (x : ResetKey) :
    (r.setKey x).stations = r.stations := rfl
@[simp] theorem Relay.setKey_barriers (r : Relay) (x : ResetKey) :
    (r.setKey x).barriers = r.barriers := rfl
@[simp] theorem Relay.setKey_emitter (r : Relay) (x : ResetKey) :
    (r.setKey x).emitter = r.emitter := rfl
@[simp] theorem Relay.setKey_channels (r : Relay) (x : ResetKey) :
    (r.setKey x).channels = r.channels := rfl
@[simp] theorem Relay.setKey_lines (r : Relay) (x : ResetKey) : (r.setKey x).lines = r.lines := rfl
@[simp] theorem Relay.setKey_inputs (r : Relay) (x : ResetKey) :
    (r.setKey x).inputs = r.inputs := rfl
@[simp] theorem Relay.setKey_key (r : Relay) (x : ResetKey) : (r.setKey x).key = x := rfl
@[simp] theorem Relay.setKey_agent (r : Relay) (x : ResetKey) : (r.setKey x).agent = r.agent := rfl
@[simp] theorem Relay.setKey_freeCount (r : Relay) (x : ResetKey) :
    (r.setKey x).freeCount = r.freeCount := rfl
@[simp] theorem Relay.setAgent_clock (r : Relay) (x : Agent) : (r.setAgent x).clock = r.clock := rfl
@[simp] theorem Relay.setAgent_pins (r : Relay) (x : Agent) : (r.setAgent x).pins = r.pins := rfl
@[simp] theorem Relay.setAgent_memory (r : Relay) (x : Agent) :
    (r.setAgent x).memory = r.memory := rfl
@[simp] theorem Relay.setAgent_store (r : Relay) (x : Agent) : (r.setAgent x).store = r.store := rfl
@[simp] theorem Relay.setAgent_tables (r : Relay) (x : Agent) :
    (r.setAgent x).tables = r.tables := rfl
@[simp] theorem Relay.setAgent_upper (r : Relay) (x : Agent) : (r.setAgent x).upper = r.upper := rfl
@[simp] theorem Relay.setAgent_lower (r : Relay) (x : Agent) : (r.setAgent x).lower = r.lower := rfl
@[simp] theorem Relay.setAgent_field (r : Relay) (x : Agent) : (r.setAgent x).field = r.field := rfl
@[simp] theorem Relay.setAgent_lineLoss (r : Relay) (x : Agent) :
    (r.setAgent x).lineLoss = r.lineLoss := rfl
@[simp] theorem Relay.setAgent_pool (r : Relay) (x : Agent) : (r.setAgent x).pool = r.pool := rfl
@[simp] theorem Relay.setAgent_generator (r : Relay) (x : Agent) :
    (r.setAgent x).generator = r.generator := rfl
@[simp] theorem Relay.setAgent_checker (r : Relay) (x : Agent) :
    (r.setAgent x).checker = r.checker := rfl
@[simp] theorem Relay.setAgent_stations (r : Relay) (x : Agent) :
    (r.setAgent x).stations = r.stations := rfl
@[simp] theorem Relay.setAgent_barriers (r : Relay) (x : Agent) :
    (r.setAgent x).barriers = r.barriers := rfl
@[simp] theorem Relay.setAgent_emitter (r : Relay) (x : Agent) :
    (r.setAgent x).emitter = r.emitter := rfl
@[simp] theorem Relay.setAgent_channels (r : Relay) (x : Agent) :
    (r.setAgent x).channels = r.channels := rfl
@[simp] theorem Relay.setAgent_lines (r : Relay) (x : Agent) : (r.setAgent x).lines = r.lines := rfl
@[simp] theorem Relay.setAgent_inputs (r : Relay) (x : Agent) :
    (r.setAgent x).inputs = r.inputs := rfl
@[simp] theorem Relay.setAgent_key (r : Relay) (x : Agent) : (r.setAgent x).key = r.key := rfl
@[simp] theorem Relay.setAgent_agent (r : Relay) (x : Agent) : (r.setAgent x).agent = x := rfl
@[simp] theorem Relay.setAgent_freeCount (r : Relay) (x : Agent) :
    (r.setAgent x).freeCount = r.freeCount := rfl
@[simp] theorem Relay.setFreeCount_clock (r : Relay) (x : Nat) :
    (r.setFreeCount x).clock = r.clock := rfl
@[simp] theorem Relay.setFreeCount_pins (r : Relay) (x : Nat) :
    (r.setFreeCount x).pins = r.pins := rfl
@[simp] theorem Relay.setFreeCount_memory (r : Relay) (x : Nat) :
    (r.setFreeCount x).memory = r.memory := rfl
@[simp] theorem Relay.setFreeCount_store (r : Relay) (x : Nat) :
    (r.setFreeCount x).store = r.store := rfl
@[simp] theorem Relay.setFreeCount_tables (r : Relay) (x : Nat) :
    (r.setFreeCount x).tables = r.tables := rfl
@[simp] theorem Relay.setFreeCount_upper (r : Relay) (x : Nat) :
    (r.setFreeCount x).upper = r.upper := rfl
@[simp] theorem Relay.setFreeCount_lower (r : Relay) (x : Nat) :
    (r.setFreeCount x).lower = r.lower := rfl
@[simp] theorem Relay.setFreeCount_field (r : Relay) (x : Nat) :
    (r.setFreeCount x).field = r.field := rfl
@[simp] theorem Relay.setFreeCount_lineLoss (r : Relay) (x : Nat) :
    (r.setFreeCount x).lineLoss = r.lineLoss := rfl
@[simp] theorem Relay.setFreeCount_pool (r : Relay) (x : Nat) :
    (r.setFreeCount x).pool = r.pool := rfl
@[simp] theorem Relay.setFreeCount_generator (r : Relay) (x : Nat) :
    (r.setFreeCount x).generator = r.generator := rfl
@[simp] theorem Relay.setFreeCount_checker (r : Relay) (x : Nat) :
    (r.setFreeCount x).checker = r.checker := rfl
@[simp] theorem Relay.setFreeCount_stations (r : Relay) (x : Nat) :
    (r.setFreeCount x).stations = r.stations := rfl
@[simp] theorem Relay.setFreeCount_barriers (r : Relay) (x : Nat) :
    (r.setFreeCount x).barriers = r.barriers := rfl
@[simp] theorem Relay.setFreeCount_emitter (r : Relay) (x : Nat) :
    (r.setFreeCount x).emitter = r.emitter := rfl
@[simp] theorem Relay.setFreeCount_channels (r : Relay) (x : Nat) :
    (r.setFreeCount x).channels = r.channels := rfl
@[simp] theorem Relay.setFreeCount_lines (r : Relay) (x : Nat) :
    (r.setFreeCount x).lines = r.lines := rfl
@[simp] theorem Relay.setFreeCount_inputs (r : Relay) (x : Nat) :
    (r.setFreeCount x).inputs = r.inputs := rfl
@[simp] theorem Relay.setFreeCount_key (r : Relay) (x : Nat) : (r.setFreeCount x).key = r.key := rfl
@[simp] theorem Relay.setFreeCount_agent (r : Relay) (x : Nat) :
    (r.setFreeCount x).agent = r.agent := rfl
@[simp] theorem Relay.setFreeCount_freeCount (r : Relay) (x : Nat) :
    (r.setFreeCount x).freeCount = x := rfl

/-! ## One record replaced -/

@[simp] theorem Relay.setStation_clock (r : Relay) (i : Fin 48) (x : StationDyn) :
    (r.setStation i x).clock = r.clock := rfl
@[simp] theorem Relay.setStation_pins (r : Relay) (i : Fin 48) (x : StationDyn) :
    (r.setStation i x).pins = r.pins := rfl
@[simp] theorem Relay.setStation_memory (r : Relay) (i : Fin 48) (x : StationDyn) :
    (r.setStation i x).memory = r.memory := rfl
@[simp] theorem Relay.setStation_store (r : Relay) (i : Fin 48) (x : StationDyn) :
    (r.setStation i x).store = r.store := rfl
@[simp] theorem Relay.setStation_tables (r : Relay) (i : Fin 48) (x : StationDyn) :
    (r.setStation i x).tables = r.tables := rfl
@[simp] theorem Relay.setStation_upper (r : Relay) (i : Fin 48) (x : StationDyn) :
    (r.setStation i x).upper = r.upper := rfl
@[simp] theorem Relay.setStation_lower (r : Relay) (i : Fin 48) (x : StationDyn) :
    (r.setStation i x).lower = r.lower := rfl
@[simp] theorem Relay.setStation_field (r : Relay) (i : Fin 48) (x : StationDyn) :
    (r.setStation i x).field = r.field := rfl
@[simp] theorem Relay.setStation_lineLoss (r : Relay) (i : Fin 48) (x : StationDyn) :
    (r.setStation i x).lineLoss = r.lineLoss := rfl
@[simp] theorem Relay.setStation_pool (r : Relay) (i : Fin 48) (x : StationDyn) :
    (r.setStation i x).pool = r.pool := rfl
@[simp] theorem Relay.setStation_generator (r : Relay) (i : Fin 48) (x : StationDyn) :
    (r.setStation i x).generator = r.generator := rfl
@[simp] theorem Relay.setStation_checker (r : Relay) (i : Fin 48) (x : StationDyn) :
    (r.setStation i x).checker = r.checker := rfl
@[simp] theorem Relay.setStation_stations (r : Relay) (i : Fin 48) (x : StationDyn) :
    (r.setStation i x).stations = r.stations.set i x := rfl
@[simp] theorem Relay.setStation_barriers (r : Relay) (i : Fin 48) (x : StationDyn) :
    (r.setStation i x).barriers = r.barriers := rfl
@[simp] theorem Relay.setStation_emitter (r : Relay) (i : Fin 48) (x : StationDyn) :
    (r.setStation i x).emitter = r.emitter := rfl
@[simp] theorem Relay.setStation_channels (r : Relay) (i : Fin 48) (x : StationDyn) :
    (r.setStation i x).channels = r.channels := rfl
@[simp] theorem Relay.setStation_lines (r : Relay) (i : Fin 48) (x : StationDyn) :
    (r.setStation i x).lines = r.lines := rfl
@[simp] theorem Relay.setStation_inputs (r : Relay) (i : Fin 48) (x : StationDyn) :
    (r.setStation i x).inputs = r.inputs := rfl
@[simp] theorem Relay.setStation_key (r : Relay) (i : Fin 48) (x : StationDyn) :
    (r.setStation i x).key = r.key := rfl
@[simp] theorem Relay.setStation_agent (r : Relay) (i : Fin 48) (x : StationDyn) :
    (r.setStation i x).agent = r.agent := rfl
@[simp] theorem Relay.setStation_freeCount (r : Relay) (i : Fin 48) (x : StationDyn) :
    (r.setStation i x).freeCount = r.freeCount := rfl
@[simp] theorem Relay.setBarrier_clock (r : Relay) (i : Fin 8) (x : BarrierDyn) :
    (r.setBarrier i x).clock = r.clock := rfl
@[simp] theorem Relay.setBarrier_pins (r : Relay) (i : Fin 8) (x : BarrierDyn) :
    (r.setBarrier i x).pins = r.pins := rfl
@[simp] theorem Relay.setBarrier_memory (r : Relay) (i : Fin 8) (x : BarrierDyn) :
    (r.setBarrier i x).memory = r.memory := rfl
@[simp] theorem Relay.setBarrier_store (r : Relay) (i : Fin 8) (x : BarrierDyn) :
    (r.setBarrier i x).store = r.store := rfl
@[simp] theorem Relay.setBarrier_tables (r : Relay) (i : Fin 8) (x : BarrierDyn) :
    (r.setBarrier i x).tables = r.tables := rfl
@[simp] theorem Relay.setBarrier_upper (r : Relay) (i : Fin 8) (x : BarrierDyn) :
    (r.setBarrier i x).upper = r.upper := rfl
@[simp] theorem Relay.setBarrier_lower (r : Relay) (i : Fin 8) (x : BarrierDyn) :
    (r.setBarrier i x).lower = r.lower := rfl
@[simp] theorem Relay.setBarrier_field (r : Relay) (i : Fin 8) (x : BarrierDyn) :
    (r.setBarrier i x).field = r.field := rfl
@[simp] theorem Relay.setBarrier_lineLoss (r : Relay) (i : Fin 8) (x : BarrierDyn) :
    (r.setBarrier i x).lineLoss = r.lineLoss := rfl
@[simp] theorem Relay.setBarrier_pool (r : Relay) (i : Fin 8) (x : BarrierDyn) :
    (r.setBarrier i x).pool = r.pool := rfl
@[simp] theorem Relay.setBarrier_generator (r : Relay) (i : Fin 8) (x : BarrierDyn) :
    (r.setBarrier i x).generator = r.generator := rfl
@[simp] theorem Relay.setBarrier_checker (r : Relay) (i : Fin 8) (x : BarrierDyn) :
    (r.setBarrier i x).checker = r.checker := rfl
@[simp] theorem Relay.setBarrier_stations (r : Relay) (i : Fin 8) (x : BarrierDyn) :
    (r.setBarrier i x).stations = r.stations := rfl
@[simp] theorem Relay.setBarrier_barriers (r : Relay) (i : Fin 8) (x : BarrierDyn) :
    (r.setBarrier i x).barriers = r.barriers.set i x := rfl
@[simp] theorem Relay.setBarrier_emitter (r : Relay) (i : Fin 8) (x : BarrierDyn) :
    (r.setBarrier i x).emitter = r.emitter := rfl
@[simp] theorem Relay.setBarrier_channels (r : Relay) (i : Fin 8) (x : BarrierDyn) :
    (r.setBarrier i x).channels = r.channels := rfl
@[simp] theorem Relay.setBarrier_lines (r : Relay) (i : Fin 8) (x : BarrierDyn) :
    (r.setBarrier i x).lines = r.lines := rfl
@[simp] theorem Relay.setBarrier_inputs (r : Relay) (i : Fin 8) (x : BarrierDyn) :
    (r.setBarrier i x).inputs = r.inputs := rfl
@[simp] theorem Relay.setBarrier_key (r : Relay) (i : Fin 8) (x : BarrierDyn) :
    (r.setBarrier i x).key = r.key := rfl
@[simp] theorem Relay.setBarrier_agent (r : Relay) (i : Fin 8) (x : BarrierDyn) :
    (r.setBarrier i x).agent = r.agent := rfl
@[simp] theorem Relay.setBarrier_freeCount (r : Relay) (i : Fin 8) (x : BarrierDyn) :
    (r.setBarrier i x).freeCount = r.freeCount := rfl
@[simp] theorem Relay.setChannel_clock (r : Relay) (i : Fin 4) (x : Channel) :
    (r.setChannel i x).clock = r.clock := rfl
@[simp] theorem Relay.setChannel_pins (r : Relay) (i : Fin 4) (x : Channel) :
    (r.setChannel i x).pins = r.pins := rfl
@[simp] theorem Relay.setChannel_memory (r : Relay) (i : Fin 4) (x : Channel) :
    (r.setChannel i x).memory = r.memory := rfl
@[simp] theorem Relay.setChannel_store (r : Relay) (i : Fin 4) (x : Channel) :
    (r.setChannel i x).store = r.store := rfl
@[simp] theorem Relay.setChannel_tables (r : Relay) (i : Fin 4) (x : Channel) :
    (r.setChannel i x).tables = r.tables := rfl
@[simp] theorem Relay.setChannel_upper (r : Relay) (i : Fin 4) (x : Channel) :
    (r.setChannel i x).upper = r.upper := rfl
@[simp] theorem Relay.setChannel_lower (r : Relay) (i : Fin 4) (x : Channel) :
    (r.setChannel i x).lower = r.lower := rfl
@[simp] theorem Relay.setChannel_field (r : Relay) (i : Fin 4) (x : Channel) :
    (r.setChannel i x).field = r.field := rfl
@[simp] theorem Relay.setChannel_lineLoss (r : Relay) (i : Fin 4) (x : Channel) :
    (r.setChannel i x).lineLoss = r.lineLoss := rfl
@[simp] theorem Relay.setChannel_pool (r : Relay) (i : Fin 4) (x : Channel) :
    (r.setChannel i x).pool = r.pool := rfl
@[simp] theorem Relay.setChannel_generator (r : Relay) (i : Fin 4) (x : Channel) :
    (r.setChannel i x).generator = r.generator := rfl
@[simp] theorem Relay.setChannel_checker (r : Relay) (i : Fin 4) (x : Channel) :
    (r.setChannel i x).checker = r.checker := rfl
@[simp] theorem Relay.setChannel_stations (r : Relay) (i : Fin 4) (x : Channel) :
    (r.setChannel i x).stations = r.stations := rfl
@[simp] theorem Relay.setChannel_barriers (r : Relay) (i : Fin 4) (x : Channel) :
    (r.setChannel i x).barriers = r.barriers := rfl
@[simp] theorem Relay.setChannel_emitter (r : Relay) (i : Fin 4) (x : Channel) :
    (r.setChannel i x).emitter = r.emitter := rfl
@[simp] theorem Relay.setChannel_channels (r : Relay) (i : Fin 4) (x : Channel) :
    (r.setChannel i x).channels = r.channels.set i x := rfl
@[simp] theorem Relay.setChannel_lines (r : Relay) (i : Fin 4) (x : Channel) :
    (r.setChannel i x).lines = r.lines := rfl
@[simp] theorem Relay.setChannel_inputs (r : Relay) (i : Fin 4) (x : Channel) :
    (r.setChannel i x).inputs = r.inputs := rfl
@[simp] theorem Relay.setChannel_key (r : Relay) (i : Fin 4) (x : Channel) :
    (r.setChannel i x).key = r.key := rfl
@[simp] theorem Relay.setChannel_agent (r : Relay) (i : Fin 4) (x : Channel) :
    (r.setChannel i x).agent = r.agent := rfl
@[simp] theorem Relay.setChannel_freeCount (r : Relay) (i : Fin 4) (x : Channel) :
    (r.setChannel i x).freeCount = r.freeCount := rfl
@[simp] theorem Relay.setLine_clock (r : Relay) (i : Fin 4) (x : OutputLine) :
    (r.setLine i x).clock = r.clock := rfl
@[simp] theorem Relay.setLine_pins (r : Relay) (i : Fin 4) (x : OutputLine) :
    (r.setLine i x).pins = r.pins := rfl
@[simp] theorem Relay.setLine_memory (r : Relay) (i : Fin 4) (x : OutputLine) :
    (r.setLine i x).memory = r.memory := rfl
@[simp] theorem Relay.setLine_store (r : Relay) (i : Fin 4) (x : OutputLine) :
    (r.setLine i x).store = r.store := rfl
@[simp] theorem Relay.setLine_tables (r : Relay) (i : Fin 4) (x : OutputLine) :
    (r.setLine i x).tables = r.tables := rfl
@[simp] theorem Relay.setLine_upper (r : Relay) (i : Fin 4) (x : OutputLine) :
    (r.setLine i x).upper = r.upper := rfl
@[simp] theorem Relay.setLine_lower (r : Relay) (i : Fin 4) (x : OutputLine) :
    (r.setLine i x).lower = r.lower := rfl
@[simp] theorem Relay.setLine_field (r : Relay) (i : Fin 4) (x : OutputLine) :
    (r.setLine i x).field = r.field := rfl
@[simp] theorem Relay.setLine_lineLoss (r : Relay) (i : Fin 4) (x : OutputLine) :
    (r.setLine i x).lineLoss = r.lineLoss := rfl
@[simp] theorem Relay.setLine_pool (r : Relay) (i : Fin 4) (x : OutputLine) :
    (r.setLine i x).pool = r.pool := rfl
@[simp] theorem Relay.setLine_generator (r : Relay) (i : Fin 4) (x : OutputLine) :
    (r.setLine i x).generator = r.generator := rfl
@[simp] theorem Relay.setLine_checker (r : Relay) (i : Fin 4) (x : OutputLine) :
    (r.setLine i x).checker = r.checker := rfl
@[simp] theorem Relay.setLine_stations (r : Relay) (i : Fin 4) (x : OutputLine) :
    (r.setLine i x).stations = r.stations := rfl
@[simp] theorem Relay.setLine_barriers (r : Relay) (i : Fin 4) (x : OutputLine) :
    (r.setLine i x).barriers = r.barriers := rfl
@[simp] theorem Relay.setLine_emitter (r : Relay) (i : Fin 4) (x : OutputLine) :
    (r.setLine i x).emitter = r.emitter := rfl
@[simp] theorem Relay.setLine_channels (r : Relay) (i : Fin 4) (x : OutputLine) :
    (r.setLine i x).channels = r.channels := rfl
@[simp] theorem Relay.setLine_lines (r : Relay) (i : Fin 4) (x : OutputLine) :
    (r.setLine i x).lines = r.lines.set i x := rfl
@[simp] theorem Relay.setLine_inputs (r : Relay) (i : Fin 4) (x : OutputLine) :
    (r.setLine i x).inputs = r.inputs := rfl
@[simp] theorem Relay.setLine_key (r : Relay) (i : Fin 4) (x : OutputLine) :
    (r.setLine i x).key = r.key := rfl
@[simp] theorem Relay.setLine_agent (r : Relay) (i : Fin 4) (x : OutputLine) :
    (r.setLine i x).agent = r.agent := rfl
@[simp] theorem Relay.setLine_freeCount (r : Relay) (i : Fin 4) (x : OutputLine) :
    (r.setLine i x).freeCount = r.freeCount := rfl
@[simp] theorem Relay.setInput_clock (r : Relay) (i : Fin 8) (x : InputDyn) :
    (r.setInput i x).clock = r.clock := rfl
@[simp] theorem Relay.setInput_pins (r : Relay) (i : Fin 8) (x : InputDyn) :
    (r.setInput i x).pins = r.pins := rfl
@[simp] theorem Relay.setInput_memory (r : Relay) (i : Fin 8) (x : InputDyn) :
    (r.setInput i x).memory = r.memory := rfl
@[simp] theorem Relay.setInput_store (r : Relay) (i : Fin 8) (x : InputDyn) :
    (r.setInput i x).store = r.store := rfl
@[simp] theorem Relay.setInput_tables (r : Relay) (i : Fin 8) (x : InputDyn) :
    (r.setInput i x).tables = r.tables := rfl
@[simp] theorem Relay.setInput_upper (r : Relay) (i : Fin 8) (x : InputDyn) :
    (r.setInput i x).upper = r.upper := rfl
@[simp] theorem Relay.setInput_lower (r : Relay) (i : Fin 8) (x : InputDyn) :
    (r.setInput i x).lower = r.lower := rfl
@[simp] theorem Relay.setInput_field (r : Relay) (i : Fin 8) (x : InputDyn) :
    (r.setInput i x).field = r.field := rfl
@[simp] theorem Relay.setInput_lineLoss (r : Relay) (i : Fin 8) (x : InputDyn) :
    (r.setInput i x).lineLoss = r.lineLoss := rfl
@[simp] theorem Relay.setInput_pool (r : Relay) (i : Fin 8) (x : InputDyn) :
    (r.setInput i x).pool = r.pool := rfl
@[simp] theorem Relay.setInput_generator (r : Relay) (i : Fin 8) (x : InputDyn) :
    (r.setInput i x).generator = r.generator := rfl
@[simp] theorem Relay.setInput_checker (r : Relay) (i : Fin 8) (x : InputDyn) :
    (r.setInput i x).checker = r.checker := rfl
@[simp] theorem Relay.setInput_stations (r : Relay) (i : Fin 8) (x : InputDyn) :
    (r.setInput i x).stations = r.stations := rfl
@[simp] theorem Relay.setInput_barriers (r : Relay) (i : Fin 8) (x : InputDyn) :
    (r.setInput i x).barriers = r.barriers := rfl
@[simp] theorem Relay.setInput_emitter (r : Relay) (i : Fin 8) (x : InputDyn) :
    (r.setInput i x).emitter = r.emitter := rfl
@[simp] theorem Relay.setInput_channels (r : Relay) (i : Fin 8) (x : InputDyn) :
    (r.setInput i x).channels = r.channels := rfl
@[simp] theorem Relay.setInput_lines (r : Relay) (i : Fin 8) (x : InputDyn) :
    (r.setInput i x).lines = r.lines := rfl
@[simp] theorem Relay.setInput_inputs (r : Relay) (i : Fin 8) (x : InputDyn) :
    (r.setInput i x).inputs = r.inputs.set i x := rfl
@[simp] theorem Relay.setInput_key (r : Relay) (i : Fin 8) (x : InputDyn) :
    (r.setInput i x).key = r.key := rfl
@[simp] theorem Relay.setInput_agent (r : Relay) (i : Fin 8) (x : InputDyn) :
    (r.setInput i x).agent = r.agent := rfl
@[simp] theorem Relay.setInput_freeCount (r : Relay) (i : Fin 8) (x : InputDyn) :
    (r.setInput i x).freeCount = r.freeCount := rfl

/-! ## UPPER or LOWER replaced -/

@[simp] theorem Relay.setPort_clock (r : Relay) (p : LinkPort) (x : Port) :
    (r.setPort p x).clock = r.clock := by cases p <;> rfl
@[simp] theorem Relay.setPort_pins (r : Relay) (p : LinkPort) (x : Port) :
    (r.setPort p x).pins = r.pins := by cases p <;> rfl
@[simp] theorem Relay.setPort_memory (r : Relay) (p : LinkPort) (x : Port) :
    (r.setPort p x).memory = r.memory := by cases p <;> rfl
@[simp] theorem Relay.setPort_store (r : Relay) (p : LinkPort) (x : Port) :
    (r.setPort p x).store = r.store := by cases p <;> rfl
@[simp] theorem Relay.setPort_tables (r : Relay) (p : LinkPort) (x : Port) :
    (r.setPort p x).tables = r.tables := by cases p <;> rfl
@[simp] theorem Relay.setPort_field (r : Relay) (p : LinkPort) (x : Port) :
    (r.setPort p x).field = r.field := by cases p <;> rfl
@[simp] theorem Relay.setPort_lineLoss (r : Relay) (p : LinkPort) (x : Port) :
    (r.setPort p x).lineLoss = r.lineLoss := by cases p <;> rfl
@[simp] theorem Relay.setPort_pool (r : Relay) (p : LinkPort) (x : Port) :
    (r.setPort p x).pool = r.pool := by cases p <;> rfl
@[simp] theorem Relay.setPort_generator (r : Relay) (p : LinkPort) (x : Port) :
    (r.setPort p x).generator = r.generator := by cases p <;> rfl
@[simp] theorem Relay.setPort_checker (r : Relay) (p : LinkPort) (x : Port) :
    (r.setPort p x).checker = r.checker := by cases p <;> rfl
@[simp] theorem Relay.setPort_stations (r : Relay) (p : LinkPort) (x : Port) :
    (r.setPort p x).stations = r.stations := by cases p <;> rfl
@[simp] theorem Relay.setPort_barriers (r : Relay) (p : LinkPort) (x : Port) :
    (r.setPort p x).barriers = r.barriers := by cases p <;> rfl
@[simp] theorem Relay.setPort_emitter (r : Relay) (p : LinkPort) (x : Port) :
    (r.setPort p x).emitter = r.emitter := by cases p <;> rfl
@[simp] theorem Relay.setPort_channels (r : Relay) (p : LinkPort) (x : Port) :
    (r.setPort p x).channels = r.channels := by cases p <;> rfl
@[simp] theorem Relay.setPort_lines (r : Relay) (p : LinkPort) (x : Port) :
    (r.setPort p x).lines = r.lines := by cases p <;> rfl
@[simp] theorem Relay.setPort_inputs (r : Relay) (p : LinkPort) (x : Port) :
    (r.setPort p x).inputs = r.inputs := by cases p <;> rfl
@[simp] theorem Relay.setPort_key (r : Relay) (p : LinkPort) (x : Port) :
    (r.setPort p x).key = r.key := by cases p <;> rfl
@[simp] theorem Relay.setPort_agent (r : Relay) (p : LinkPort) (x : Port) :
    (r.setPort p x).agent = r.agent := by cases p <;> rfl
@[simp] theorem Relay.setPort_freeCount (r : Relay) (p : LinkPort) (x : Port) :
    (r.setPort p x).freeCount = r.freeCount := by cases p <;> rfl

@[simp] theorem Relay.port_setPort (r : Relay) (p : LinkPort) (x : Port) :
    (r.setPort p x).port p = x := by cases p <;> rfl

theorem Relay.port_setPort_of_ne (r : Relay) {p q : LinkPort} (x : Port) (h : p ≠ q) :
    (r.setPort p x).port q = r.port q := by
  cases p <;> cases q <;> simp_all <;> rfl

@[simp] theorem Relay.port_upper (r : Relay) : r.port .upper = r.upper := rfl

@[simp] theorem Relay.port_lower (r : Relay) : r.port .lower = r.lower := rfl

@[simp] theorem Relay.setPort_upper' (r : Relay) (x : Port) : r.setPort .upper x = r.setUpper x :=
  rfl

@[simp] theorem Relay.setPort_lower' (r : Relay) (x : Port) : r.setPort .lower x = r.setLower x :=
  rfl

end Machine

end Sys2Proof
end

