-- ==== Sys2Proof/Laws/HandOver.lean ====
section
/-! SUPPORT. What the evaluation of a barrier, the hand-over of its change and the building of an
ALERT leave unchanged, operation by operation. -/

namespace Sys2Proof.Machine

theorem SameButHandOver.refl (r : Relay) : SameButHandOver r r :=
  ⟨rfl, rfl, rfl, rfl, rfl, rfl, rfl, rfl, rfl, rfl, rfl, ⟨rfl, rfl⟩, rfl, rfl, rfl, rfl⟩

theorem SameButHandOver.trans {r s t : Relay} (h : SameButHandOver r s)
    (k : SameButHandOver s t) : SameButHandOver r t where
  clock := k.clock.trans h.clock
  pins := k.pins.trans h.pins
  memory := k.memory.trans h.memory
  store := k.store.trans h.store
  tables := k.tables.trans h.tables
  upper := by rw [k.upper, h.upper]
  lower := by rw [k.lower, h.lower]
  field := k.field.trans h.field
  lineLoss := k.lineLoss.trans h.lineLoss
  checker := k.checker.trans h.checker
  stations := k.stations.trans h.stations
  quiet := ⟨k.quiet.1.trans h.quiet.1, k.quiet.2.trans h.quiet.2⟩
  inputs := k.inputs.trans h.inputs
  key := k.key.trans h.key
  agent := k.agent.trans h.agent
  freeCount := k.freeCount.trans h.freeCount

theorem SameButHandOver.foldl {α : Type} {f : Relay → α → Relay}
    (h : ∀ r x, SameButHandOver r (f r x)) (xs : List α) (r : Relay) :
    SameButHandOver r (xs.foldl f r) := by
  induction xs generalizing r with
  | nil => exact SameButHandOver.refl r
  | cons x xs ih => exact (h r x).trans (ih (f r x))

theorem SameButHandOver.whenIf {r : Relay} {c : Bool} {f : Relay → Relay}
    (h : SameButHandOver r (f r)) : SameButHandOver r (r.when c f) := by
  unfold Relay.when
  split
  · exact h
  · exact SameButHandOver.refl r

/-! ## Single replacements -/

theorem setPool_handOver (r : Relay) (x : Pool) : SameButHandOver r (r.setPool x) :=
  ⟨rfl, rfl, rfl, rfl, rfl, rfl, rfl, rfl, rfl, rfl, rfl, ⟨rfl, rfl⟩, rfl, rfl, rfl, rfl⟩

theorem setGenerator_handOver (r : Relay) (x : Generator) :
    SameButHandOver r (r.setGenerator x) :=
  ⟨rfl, rfl, rfl, rfl, rfl, rfl, rfl, rfl, rfl, rfl, rfl, ⟨rfl, rfl⟩, rfl, rfl, rfl, rfl⟩

theorem setBarrier_handOver (r : Relay) (b : Fin 8) (x : BarrierDyn) :
    SameButHandOver r (r.setBarrier b x) :=
  ⟨rfl, rfl, rfl, rfl, rfl, rfl, rfl, rfl, rfl, rfl, rfl, ⟨rfl, rfl⟩, rfl, rfl, rfl, rfl⟩

theorem setChannels_handOver (r : Relay) (x : Bank Channel 4) :
    SameButHandOver r (r.setChannels x) :=
  ⟨rfl, rfl, rfl, rfl, rfl, rfl, rfl, rfl, rfl, rfl, rfl, ⟨rfl, rfl⟩, rfl, rfl, rfl, rfl⟩

theorem setLine_handOver (r : Relay) (l : Fin 4) (x : OutputLine) :
    SameButHandOver r (r.setLine l x) :=
  ⟨rfl, rfl, rfl, rfl, rfl, rfl, rfl, rfl, rfl, rfl, rfl, ⟨rfl, rfl⟩, rfl, rfl, rfl, rfl⟩

theorem countAdmitted_handOver (r : Relay) : SameButHandOver r r.countAdmitted :=
  ⟨rfl, rfl, rfl, rfl, rfl, rfl, rfl, rfl, rfl, rfl, rfl, ⟨rfl, rfl⟩, rfl, rfl, rfl, rfl⟩

/-! ## Offers and the line test -/

theorem take_handOver (r : Relay) (p : LinkPort) : SameButHandOver r (r.take p) := by
  unfold Relay.take
  split
  · split
    · exact SameButHandOver.refl r
    · cases p <;> exact ⟨rfl, rfl, rfl, rfl, rfl, rfl, rfl, rfl, rfl, rfl, rfl, ⟨rfl, rfl⟩, rfl, rfl,
        rfl, rfl⟩
  · exact SameButHandOver.refl r

theorem offerRoutine_handOver (r : Relay) (b : Buffer) :
    SameButHandOver r (r.offerRoutine b).1 := by
  unfold Relay.offerRoutine
  split
  · exact (setPool_handOver r _).trans (take_handOver _ _)
  · exact setPool_handOver r _

theorem offerUp_handOver (r : Relay) (b : Buffer) : SameButHandOver r (r.offerUp b).1 := by
  unfold Relay.offerUp
  split
  · exact (setPool_handOver r _).trans (take_handOver _ _)
  · exact setPool_handOver r _

theorem offerTest_handOver (r : Relay) (p : LinkPort) (b : Buffer) :
    SameButHandOver r (r.offerTest p b).1 := by
  cases p
  · exact offerUp_handOver r b
  · exact offerRoutine_handOver r b

theorem makeTestFrame_handOver (r : Relay) : SameButHandOver r r.makeTestFrame := by
  unfold Relay.makeTestFrame
  split
  · exact SameButHandOver.refl r
  · dsimp only
    split
    · exact ((offerTest_handOver r _ _).trans (countAdmitted_handOver _)).trans
        (setGenerator_handOver _ _)
    · exact (offerTest_handOver r _ _).trans (setGenerator_handOver _ _)

theorem testFrameFinished_handOver (r : Relay) (run : Nat) :
    SameButHandOver r (r.testFrameFinished run) := by
  have h1 : SameButHandOver r r.countFinished := setGenerator_handOver r _
  unfold Relay.testFrameFinished
  split
  · exact SameButHandOver.refl r
  · split
    · dsimp only
      split
      · exact h1.trans (setGenerator_handOver _ _)
      · split
        · exact h1.trans (makeTestFrame_handOver _)
        · exact h1.trans (setGenerator_handOver _ _)
    · exact SameButHandOver.refl r

theorem reportLoss_handOver (r : Relay) (m : Maker) : SameButHandOver r (r.reportLoss m) := by
  cases m
  · exact SameButHandOver.refl r
  · exact testFrameFinished_handOver r _
  · exact SameButHandOver.refl r

theorem preemptTest_handOver (r : Relay) : SameButHandOver r r.preemptTest :=
  SameButHandOver.whenIf (setGenerator_handOver r _)

theorem offerUrgent_handOver (r : Relay) (b : Buffer) : SameButHandOver r (r.offerUrgent b).1 := by
  unfold Relay.offerUrgent
  dsimp only
  refine SameButHandOver.trans ?_ (SameButHandOver.whenIf (take_handOver _ _))
  split
  · exact (setPool_handOver r _).trans (reportLoss_handOver _ _)
  · exact setPool_handOver r _

theorem offer_handOver (r : Relay) (lane : Lane) (b : Buffer) :
    SameButHandOver r (r.offer lane b).1 := by
  cases lane
  · exact offerUrgent_handOver r b
  · exact offerRoutine_handOver r b
  · exact offerUp_handOver r b

theorem offerOwn_handOver (r : Relay) (lane : Lane) (f : Frame) (m : Maker) :
    SameButHandOver r (r.offerOwn lane f m).1 := by
  unfold Relay.offerOwn
  dsimp only
  split
  · exact (offer_handOver r _ _).trans (countAdmitted_handOver _)
  · exact offer_handOver r _ _

/-! ## Channels -/

theorem senseChannel_handOver (r : Relay) (c : Fin 4) : SameButHandOver r (r.senseChannel c) := by
  unfold Relay.senseChannel
  split
  · exact SameButHandOver.refl r
  · exact setLine_handOver r _ _

theorem play_handOver (r : Relay) (c : Fin 4) (ch : Channel) : SameButHandOver r (r.play c ch) :=
  (setChannels_handOver r _).trans (senseChannel_handOver _ c)

theorem markLine_handOver (r : Relay) (c : Fin 4) (fault : Bool) :
    SameButHandOver r (r.markLine c fault) := by
  unfold Relay.markLine
  split
  · exact SameButHandOver.refl r
  · exact setLine_handOver r _ _

theorem startRequest_handOver (r : Relay) (c : Fin 4) (q : Request) :
    SameButHandOver r (r.startRequest c q) := by
  unfold Relay.startRequest
  split
  · exact (markLine_handOver r c false).trans (play_handOver _ c _)
  · exact setChannels_handOver r _

theorem channelRequest_handOver (r : Relay) (q : Request) (c : Fin 4) :
    SameButHandOver r (r.channelRequest q c) := by
  unfold Relay.channelRequest
  split
  · split
    · exact startRequest_handOver r c q
    · exact SameButHandOver.whenIf (setChannels_handOver r _)
  · exact setChannels_handOver r _

theorem requestSounding_handOver (r : Relay) (b : Fin 8) (level : Level) :
    SameButHandOver r (r.requestSounding b level) := by
  unfold Relay.requestSounding
  exact SameButHandOver.foldl (fun r c => channelRequest_handOver r _ c) _ _

theorem requestUnlessQuieted_handOver (r : Relay) (b : Fin 8) (level : Level) :
    SameButHandOver r (r.requestUnlessQuieted b level) := by
  unfold Relay.requestUnlessQuieted
  split
  · exact SameButHandOver.refl r
  · exact requestSounding_handOver r b level

/-! ## Alerts and evaluation -/

theorem buildAlert_handOver (r : Relay) (b : Fin 8) : SameButHandOver r (r.buildAlert b) :=
  (setBarrier_handOver r b _).trans (offerOwn_handOver _ _ _ _)

theorem toldOfChange_handOver (r : Relay) (b : Fin 8) : SameButHandOver r (r.toldOfChange b) :=
  (buildAlert_handOver r b).trans (setBarrier_handOver _ b _)

theorem soundChange_handOver (r : Relay) (b : Fin 8) (old new : Level) :
    SameButHandOver r (r.soundChange b old new) := by
  unfold Relay.soundChange
  split
  · exact requestUnlessQuieted_handOver r b new
  · split
    · exact (setChannels_handOver r _).trans (requestSounding_handOver _ b _)
    · exact setChannels_handOver r _

/-- The hand-over of a change leaves everything else as it is (R110). -/
theorem handOver_handOver (r : Relay) (b : Fin 8) (old : Level) :
    SameButHandOver r (r.handOver b old) := by
  unfold Relay.handOver
  dsimp only
  split
  · exact SameButHandOver.refl r
  · unfold Relay.handChange
    exact (((setBarrier_handOver r b _).trans (toldOfChange_handOver _ b)).trans
      (soundChange_handOver _ b _ _)).trans (SameButHandOver.whenIf (preemptTest_handOver _))

/-- An evaluation leaves everything else as it is (R99). -/
theorem evaluate_handOver (r : Relay) (b : Fin 8) : SameButHandOver r (r.evaluate b) := by
  unfold Relay.evaluate
  split
  · exact (setBarrier_handOver r b _).trans (handOver_handOver _ b _)
  · exact SameButHandOver.refl r

theorem repeatExpires_handOver (r : Relay) (b : Fin 8) :
    SameButHandOver r (r.repeatExpires b) := by
  unfold Relay.repeatExpires
  split
  · exact (toldOfChange_handOver r b).trans (requestUnlessQuieted_handOver _ b _)
  · exact SameButHandOver.refl r

theorem holdExpires_handOver (r : Relay) (b : Fin 8) : SameButHandOver r (r.holdExpires b) := by
  unfold Relay.holdExpires
  dsimp only
  split
  · exact ((setBarrier_handOver r b _).trans (setBarrier_handOver _ b _)).trans
      (handOver_handOver _ b _)
  · exact SameButHandOver.refl r

end Sys2Proof.Machine
end

