-- ==== Sys2Proof/Laws/Barriers.lean ====
section
/-! SUPPORT. What the hand-over of a level change does to the barriers: the one barrier takes its next
serial and repeat deadline, and no other is touched. -/

namespace Sys2Proof.Machine

/-! ## Operations that touch no barrier -/

theorem take_barriers (r : Relay) (p : LinkPort) : (r.take p).barriers = r.barriers := by
  unfold Relay.take
  split
  · split
    · rfl
    · cases p <;> rfl
  · rfl

theorem offerRoutine_barriers (r : Relay) (b : Buffer) :
    (r.offerRoutine b).1.barriers = r.barriers := by
  unfold Relay.offerRoutine
  split
  · exact take_barriers _ _
  · rfl

theorem offerUp_barriers (r : Relay) (b : Buffer) : (r.offerUp b).1.barriers = r.barriers := by
  unfold Relay.offerUp
  split
  · exact take_barriers _ _
  · rfl

theorem offerTest_barriers (r : Relay) (p : LinkPort) (b : Buffer) :
    (r.offerTest p b).1.barriers = r.barriers := by
  cases p
  · exact offerUp_barriers r b
  · exact offerRoutine_barriers r b

theorem makeTestFrame_barriers (r : Relay) : r.makeTestFrame.barriers = r.barriers := by
  unfold Relay.makeTestFrame
  split
  · rfl
  · dsimp only
    split
    · exact offerTest_barriers r _ _
    · exact offerTest_barriers r _ _

theorem testFrameFinished_barriers (r : Relay) (run : Nat) :
    (r.testFrameFinished run).barriers = r.barriers := by
  unfold Relay.testFrameFinished
  split
  · rfl
  · split
    · dsimp only
      split
      · rfl
      · split
        · exact makeTestFrame_barriers _
        · rfl
    · rfl

theorem reportLoss_barriers (r : Relay) (m : Maker) : (r.reportLoss m).barriers = r.barriers := by
  cases m
  · rfl
  · exact testFrameFinished_barriers r _
  · rfl

theorem preemptTest_barriers (r : Relay) : r.preemptTest.barriers = r.barriers := by
  unfold Relay.preemptTest Relay.when
  split <;> rfl

theorem offerUrgent_barriers (r : Relay) (b : Buffer) :
    (r.offerUrgent b).1.barriers = r.barriers := by
  unfold Relay.offerUrgent
  dsimp only
  unfold Relay.when
  split
  · rw [take_barriers]
    split
    · exact reportLoss_barriers _ _
    · rfl
  · split
    · exact reportLoss_barriers _ _
    · rfl

theorem offerOwn_barriers (r : Relay) (lane : Lane) (f : Frame) (m : Maker) :
    (r.offerOwn lane f m).1.barriers = r.barriers := by
  have h : (r.offer lane { frame := f, maker := m }).1.barriers = r.barriers := by
    cases lane
    · exact offerUrgent_barriers r _
    · exact offerRoutine_barriers r _
    · exact offerUp_barriers r _
  unfold Relay.offerOwn
  dsimp only
  split
  · exact h
  · exact h

theorem foldl_barriers {α : Type} {f : Relay → α → Relay}
    (h : ∀ r x, (f r x).barriers = r.barriers) (xs : List α) (r : Relay) :
    (xs.foldl f r).barriers = r.barriers := by
  induction xs generalizing r with
  | nil => rfl
  | cons x xs ih => exact (ih (f r x)).trans (h r x)

theorem senseChannel_barriers (r : Relay) (c : Fin 4) : (r.senseChannel c).barriers = r.barriers := by
  unfold Relay.senseChannel
  split <;> rfl

theorem play_barriers (r : Relay) (c : Fin 4) (ch : Channel) :
    (r.play c ch).barriers = r.barriers :=
  senseChannel_barriers _ _

theorem startRequest_barriers (r : Relay) (c : Fin 4) (q : Request) :
    (r.startRequest c q).barriers = r.barriers := by
  have h : (r.markLine c false).barriers = r.barriers := by
    unfold Relay.markLine
    split <;> rfl
  unfold Relay.startRequest
  split
  · exact (play_barriers _ _ _).trans h
  · rfl

theorem channelRequest_barriers (r : Relay) (q : Request) (c : Fin 4) :
    (r.channelRequest q c).barriers = r.barriers := by
  unfold Relay.channelRequest
  split
  · split
    · exact startRequest_barriers r c q
    · unfold Relay.when
      split <;> rfl
  · rfl

theorem requestSounding_barriers (r : Relay) (b : Fin 8) (level : Level) :
    (r.requestSounding b level).barriers = r.barriers :=
  foldl_barriers (fun r c => channelRequest_barriers r _ c) _ _

theorem requestUnlessQuieted_barriers (r : Relay) (b : Fin 8) (level : Level) :
    (r.requestUnlessQuieted b level).barriers = r.barriers := by
  unfold Relay.requestUnlessQuieted
  split
  · rfl
  · exact requestSounding_barriers r b level

theorem soundChange_barriers (r : Relay) (b : Fin 8) (old new : Level) :
    (r.soundChange b old new).barriers = r.barriers := by
  unfold Relay.soundChange
  split
  · exact requestUnlessQuieted_barriers r b new
  · split
    · exact requestSounding_barriers _ b .calm
    · rfl

/-! ## What a change writes -/

theorem buildAlert_barriers (r : Relay) (b : Fin 8) :
    (r.buildAlert b).barriers = r.barriers.set b (r.barriers.get b).nextSerial :=
  offerOwn_barriers _ _ _ _

/-- The alert emitter's own two fields of the barrier, and nothing else of it (R121, R122). -/
theorem toldOfChange_barriers (r : Relay) (b : Fin 8) :
    (r.toldOfChange b).barriers
      = r.barriers.set b
        { r.barriers.get b with
          serial := min ((r.barriers.get b).serial + 1) Config.maxSerial
          repeatAt := (r.repeatInterval (r.barriers.get b).level).map (fun i => r.now + i) } := by
  have h := (buildAlert_handOver r b)
  have hb := buildAlert_barriers r b
  have hg : (r.buildAlert b).barriers.get b = (r.barriers.get b).nextSerial := by
    rw [hb, Bank.get_set_self]
  have hn : (r.buildAlert b).now = r.now := congrArg (fun c : Clock => min (c.ms / 1000) _) h.clock
  have hi : ∀ l, (r.buildAlert b).repeatInterval l = r.repeatInterval l := by
    intro l
    unfold Relay.repeatInterval
    rw [h.tables]
  unfold Relay.toldOfChange Relay.restartRepeat
  dsimp only
  rw [Relay.setBarrier_barriers, hb, Bank.set_set, Bank.get_set_self, hn, hi]
  rfl

/-- A hand-over touches one barrier: its serial and repeat deadline, and at CALM what falls away
there (R110). -/
theorem handOver_barriers (r : Relay) (b : Fin 8) (old : Level) :
    (r.handOver b old).barriers = r.barriers
      ∨ ∃ s at_, (r.handOver b old).barriers
          = r.barriers.set b { (r.barriers.get b).atCalm with serial := s, repeatAt := at_ } := by
  unfold Relay.handOver
  dsimp only
  split
  · exact Or.inl rfl
  · refine Or.inr ?_
    have h := toldOfChange_barriers (r.setBarrier b (r.barriers.get b).atCalm) b
    rw [Relay.setBarrier_barriers, Bank.set_set, Bank.get_set_self] at h
    have e : (r.handChange b old (r.barriers.get b).level).barriers
        = ((r.setBarrier b (r.barriers.get b).atCalm).toldOfChange b).barriers := by
      unfold Relay.handChange Relay.when
      split
      · rw [preemptTest_barriers, soundChange_barriers]
      · rw [soundChange_barriers]
    exact ⟨_, _, e.trans h⟩

/-- Rise and hold touch the level and the hold (R99 steps 3 and 4). -/
theorem settle_rest (d : BarrierDyn) (c : BarrierConfig) (dem sus : Level) (now : Nat) :
    d.settle c dem sus now
      = { d with level := (d.settle c dem sus now).level, hold := (d.settle c dem sus now).hold } := by
  unfold BarrierDyn.settle
  split
  · rfl
  · split
    · rfl
    · split <;> rfl

/-- Steps 1 to 5 of an evaluation touch the level, the causes, the hold and the line-loss base
(R99). -/
theorem weigh_rest (d : BarrierDyn) (c : BarrierConfig) (lost : Bool) (now : Nat) (start : Level) :
    d.weigh c lost now start
      = { d with
          level := (d.weigh c lost now start).level
          causes := (d.weigh c lost now start).causes
          hold := (d.weigh c lost now start).hold
          lineBase := (d.withBase c lost start).lineBase } := by
  unfold BarrierDyn.weigh
  dsimp only
  generalize (d.withBase c lost start).demanded c lost = dem
  generalize (d.withBase c lost start).sustained c lost = sus
  have h := settle_rest (d.withBase c lost start) c dem sus now
  rw [h]
  rfl

theorem weighBarrier_get (r : Relay) (b : Fin 8) (start : Level) :
    (r.weighBarrier b start).barriers.get b
      = (r.barriers.get b).weigh (r.tables.barriers.get b) r.lineLoss.lost r.now start := by
  unfold Relay.weighBarrier
  rw [Relay.setBarrier_barriers, Bank.get_set_self]

/-- An evaluation touches one barrier (R99). -/
theorem evaluate_others (r : Relay) (b : Fin 8) {o : Fin 8} (h : o ≠ b) :
    (r.evaluate b).barriers.get o = r.barriers.get o := by
  unfold Relay.evaluate
  split
  · rcases handOver_barriers (r.weighBarrier b (r.barriers.get b).level) b
      (r.barriers.get b).level with e | ⟨s, a, e⟩
    · rw [e]
      unfold Relay.weighBarrier
      rw [Relay.setBarrier_barriers, Bank.get_set, if_neg (fun x => h x.symm)]
    · rw [e]
      unfold Relay.weighBarrier
      rw [Relay.setBarrier_barriers, Bank.set_set, Bank.get_set, if_neg (fun x => h x.symm)]
  · rfl

end Sys2Proof.Machine
end

