-- ==== Sys2Proof/Laws/Moves.lean ====
section
/-! SUPPORT. What a command can do to the part, said once: a relation of single moves, its chains,
and the chains of the shared operations. An invariant that every move keeps is kept by every
command. -/

namespace Sys2Proof.Machine

/-- The stations as a start leaves them: started in ASSESSING mode (R63), at rest otherwise (R64). -/
def Relay.startedBank (r : Relay) : Bank StationDyn 48 :=
  if r.store.mode = .assessing then r.startStations.stations else r.stations

/-- One move of the part. `stand` says whether an accepted STAND-DOWN is among the moves. -/
inductive Move (stand : Bool) : Relay → Relay → Prop where
  | pins (r x) : Move stand r (r.setPins x)
  | field (r x) : Move stand r (r.setField x)
  | lineLoss (r x) : Move stand r (r.setLineLoss x)
  | generator (r x) : Move stand r (r.setGenerator x)
  | checker (r x) : Move stand r (r.setChecker x)
  | emitter (r x) : Move stand r (r.setEmitter x)
  | lines (r x) : Move stand r (r.setLines x)
  | inputs (r x) : Move stand r (r.setInputs x)
  | key (r x) : Move stand r (r.setKey x)
  | agent (r x) : Move stand r (r.setAgent x)
  | freeCount (r x) : Move stand r (r.setFreeCount x)
  | port (r p x) (h : x.sending = (r.port p).sending) : Move stand r (r.setPort p x)
  | take (r p) : Move stand r (r.take p)
  | release (r : Relay) (p : LinkPort) (x : Port) (h : (r.port p).sending.isSome)
      (hx : x.sending = none) :
      Move stand r ((r.setPort p x).setPool { r.pool with free := r.pool.free + 1 })
  | countDrop (r f) : Move stand r (r.countDrop f)
  | joinRoutine (r b pool) (h : r.pool.joinRoutine r.routineCap b = some pool) :
      Move stand r (r.setPool pool)
  | joinUp (r b pool) (h : r.pool.joinUp b = some pool) : Move stand r (r.setPool pool)
  | joinUrgent (r b) : Move stand r (r.setPool (r.pool.joinUrgent b).1)
  | shed (r : Relay) (band : Band) :
      Move stand r
        ((r.setBand band).setPool ((r.setBand band).pool.shed (r.setBand band).routineCap))
  | channel (r c x) (h : (r.channels.get c).Settled → x.Settled) : Move stand r (r.setChannel c x)
  | channels (r : Relay) (f : Channel → Channel) (h : ∀ ch, ch.Settled → (f ch).Settled) :
      Move stand r (r.setChannels (r.channels.map f))
  | memory (r x) (h : Memory.wf r.memory.cells = true → Memory.wf x.cells = true) :
      Move stand r (r.setMemory x)
  | store (r x) (hm : x.mode = r.store.mode) (hb : x.band = r.store.band)
      (ho : x.own = r.store.own) : Move stand r (r.setStore x)
  | tables (r x) (h : r.TablesOk → (r.setTables x).TablesOk)
      (hb : x.barriers = r.tables.barriers) (hs : x.stations = r.tables.stations) :
      Move stand r (r.setTables x)
  | stationRecord (r : Relay) (i : Fin 48) (new : Option StationConfig) (x : StationDyn)
      (h : r.TablesOk →
        (r.setTables { r.tables with stations := r.tables.stations.set i new }).TablesOk)
      (ha : x.Agrees) (hf : (r.stations.get i).FillsOk → x.FillsOk)
      (hw : x.Watched r.store.mode new) :
      Move stand r
        ((r.setTables { r.tables with stations := r.tables.stations.set i new }).setStation i x)
  | barrierRecord (r : Relay) (b : Fin 8) (new : BarrierConfig)
      (h : (r.tables.barriers.get b).enabled = true → new.enabled = false →
        (r.barriers.get b).level.rank < 2)
      (hr : new.Ok) :
      Move stand r
        ((r.setTables { r.tables with barriers := r.tables.barriers.set b new }).setBarrier b
          ((r.barriers.get b).written (r.tables.barriers.get b) new
            ((r.tables.barriers.get b).enabled && !new.enabled && r.store.mode == .assessing)))
  | load (r m) (h : r.store.mode ≠ .assessing) : Move stand r (r.readImageAs m)
  | leave (r : Relay) (mode : Mode) (line inputs key) (h : r.store.mode ≠ .assessing)
      (hm : mode ≠ .starting) :
      Move stand r (((((r.setStore { r.store with mode := mode }).setLineLoss line).setInputs
        inputs).setKey key).setStations (r.setStore { r.store with mode := mode }).startedBank)
  | station (r i x) (ha : (r.stations.get i).Agrees → x.Agrees)
      (hf : (r.stations.get i).FillsOk → x.FillsOk)
      (hw : (r.stations.get i).Watched r.store.mode (r.tables.stations.get i) →
        x.Watched r.store.mode (r.tables.stations.get i)) : Move stand r (r.setStation i x)
  | stations (r : Relay) (x : Bank StationDyn 48)
      (ha : ∀ i, (r.stations.get i).Agrees → (x.get i).Agrees)
      (hf : ∀ i, (r.stations.get i).FillsOk → (x.get i).FillsOk)
      (hw : ∀ i, (r.stations.get i).Watched r.store.mode (r.tables.stations.get i) →
        (x.get i).Watched r.store.mode (r.tables.stations.get i)) : Move stand r (r.setStations x)
  | latches (r : Relay) (x : Bank BarrierDyn 8)
      (hl : ∀ b, (x.get b).level = (r.barriers.get b).level)
      (hh : ∀ b, (x.get b).hold = (r.barriers.get b).hold)
      (hs : ∀ b, (x.get b).serial = (r.barriers.get b).serial)
      (hm : ∀ b, (r.barriers.get b).measures.InRange → (x.get b).measures.InRange) :
      Move stand r (r.setBarriers x)
  | measures (r b m) (h : r.FiguresOk → m.InRange) : Move stand r (r.setMeasures b m)
  | serial (r : Relay) (b : Fin 8) : Move stand r (r.setBarrier b (r.barriers.get b).nextSerial)
  | weigh (r b start) (h : r.assessed b = true ∨ (r.barriers.get b).level ≠ .calm) :
      Move stand r (r.weighBarrier b start)
  | fall (r : Relay) (b : Fin 8) (h : r.assessed b = true)
      (hh : (r.barriers.get b).hold.isSome = true) :
      Move stand r (r.setBarrier b
        { r.barriers.get b with hold := none, level := (r.barriers.get b).level.stepDown })
  | standDown (r : Relay) (b : Fin 8) (hs : stand = true)
      (h : (r.barriers.get b).level = .evacuate) :
      Move stand r (r.setBarrier b
        { r.barriers.get b with
          level := .watch
          hold := some (r.now + (r.tables.barriers.get b).holdTime)
          quieted := none
          manual := false })
  | restart (r line inputs key) :
      Move stand r
        ((((r.keptByRestart.setLineLoss line).setInputs inputs).setKey key).setStations
          r.keptByRestart.startedBank)

/-- A chain of moves. -/
abbrev Moves (stand : Bool) : Relay → Relay → Prop :=
  Relation.ReflTransGen (Move stand)

/-! ## Chains -/

theorem Moves.rfl' {stand : Bool} {r : Relay} : Moves stand r r :=
  Relation.ReflTransGen.refl

theorem Move.one {stand : Bool} {r t : Relay} (h : Move stand r t) : Moves stand r t :=
  Relation.ReflTransGen.single h

theorem Moves.andThen {stand : Bool} {r s t : Relay} (h : Moves stand r s) (k : Moves stand s t) :
    Moves stand r t :=
  Relation.ReflTransGen.trans h k

/-- A property that every move keeps is kept by every chain. -/
theorem Moves.keep {stand : Bool} {P : Relay → Prop}
    (hP : ∀ a b, Move stand a b → P a → P b) {r t : Relay} (h : Moves stand r t) (hr : P r) :
    P t := by
  induction h with
  | refl => exact hr
  | tail _ hm ih => exact hP _ _ hm ih

/-- A chain without a STAND-DOWN is a chain. -/
theorem Moves.widen {r t : Relay} (stand : Bool) (h : Moves false r t) : Moves stand r t := by
  cases stand with
  | false => exact h
  | true =>
    refine Moves.keep (P := Moves true r) ?_ h Moves.rfl'
    intro a b hm hr
    refine hr.andThen (Move.one ?_)
    cases hm with
    | pins => exact Move.pins _ _
    | field => exact Move.field _ _
    | lineLoss => exact Move.lineLoss _ _
    | generator => exact Move.generator _ _
    | checker => exact Move.checker _ _
    | emitter => exact Move.emitter _ _
    | lines => exact Move.lines _ _
    | inputs => exact Move.inputs _ _
    | key => exact Move.key _ _
    | agent => exact Move.agent _ _
    | freeCount => exact Move.freeCount _ _
    | port _ _ h => exact Move.port _ _ _ h
    | take => exact Move.take _ _
    | release _ _ h hx => exact Move.release _ _ _ h hx
    | countDrop => exact Move.countDrop _ _
    | joinRoutine b _ h => exact Move.joinRoutine _ b _ h
    | joinUp b _ h => exact Move.joinUp _ b _ h
    | joinUrgent => exact Move.joinUrgent _ _
    | shed => exact Move.shed _ _
    | channel _ _ h => exact Move.channel _ _ _ h
    | channels _ h => exact Move.channels _ _ h
    | memory _ h => exact Move.memory _ _ h
    | store _ hm hb ho => exact Move.store _ _ hm hb ho
    | tables _ h hb hs => exact Move.tables _ _ h hb hs
    | stationRecord _ _ _ h ha hf hw => exact Move.stationRecord _ _ _ _ h ha hf hw
    | barrierRecord _ _ h hn => exact Move.barrierRecord _ _ _ h hn
    | load m h => exact Move.load _ m h
    | leave _ _ _ _ h hm => exact Move.leave _ _ _ _ _ h hm
    | station _ _ ha hf hw => exact Move.station _ _ _ ha hf hw
    | stations _ ha hf hw => exact Move.stations _ _ ha hf hw
    | latches _ hl hh hs hm => exact Move.latches _ _ hl hh hs hm
    | measures _ _ h => exact Move.measures _ _ _ h
    | serial => exact Move.serial _ _
    | weigh _ _ h => exact Move.weigh _ _ _ h
    | fall _ h hh => exact Move.fall _ _ h hh
    | standDown _ hs _ => exact absurd hs (by decide)
    | restart => exact Move.restart _ _ _ _

theorem Moves.whenIf {stand : Bool} {r : Relay} {c : Bool} {f : Relay → Relay}
    (h : c = true → Moves stand r (f r)) : Moves stand r (r.when c f) := by
  unfold Relay.when
  split
  · next hc => exact h hc
  · exact Moves.rfl'

theorem Moves.whenAwake {stand : Bool} {r : Relay} {f : Relay → Relay}
    (h : Moves stand r (f r)) : Moves stand r (r.whenAwake f) :=
  Moves.whenIf (fun _ => h)

theorem Moves.foldl {stand : Bool} {α : Type} {f : Relay → α → Relay}
    (h : ∀ r x, Moves stand r (f r x)) (xs : List α) (r : Relay) :
    Moves stand r (xs.foldl f r) := by
  induction xs generalizing r with
  | nil => exact Moves.rfl'
  | cons x xs ih => exact (h r x).andThen (ih (f r x))

/-! ## The pool, the queues and the line test -/

variable {stand : Bool}

theorem joinUrgent_moves (r : Relay) (b : Buffer) :
    Moves stand r (r.setPool (r.pool.joinUrgent b).1) :=
  (Move.joinUrgent r b).one

theorem countAdmitted_moves (r : Relay) : Moves stand r r.countAdmitted :=
  (Move.emitter r _).one

theorem offerRoutine_moves (r : Relay) (b : Buffer) : Moves stand r (r.offerRoutine b).1 := by
  unfold Relay.offerRoutine
  split
  · next pool h => exact ((Move.joinRoutine r b pool h).one).andThen (Move.take _ _).one
  · dsimp only
    exact (Move.countDrop r _).one

theorem offerUp_moves (r : Relay) (b : Buffer) : Moves stand r (r.offerUp b).1 := by
  unfold Relay.offerUp
  split
  · next pool h => exact ((Move.joinUp r b pool h).one).andThen (Move.take _ _).one
  · dsimp only
    exact (Move.countDrop r _).one

theorem offerTest_moves (r : Relay) (p : LinkPort) (b : Buffer) :
    Moves stand r (r.offerTest p b).1 := by
  cases p
  · exact offerUp_moves r b
  · exact offerRoutine_moves r b

theorem makeTestFrame_moves (r : Relay) : Moves stand r r.makeTestFrame := by
  unfold Relay.makeTestFrame
  split
  · exact Moves.rfl'
  · dsimp only
    split
    · exact ((offerTest_moves r _ _).andThen (countAdmitted_moves _)).andThen
        (Move.generator _ _).one
    · exact (offerTest_moves r _ _).andThen (Move.generator _ _).one

theorem endRun_moves (r : Relay) (o : TestOutcome) : Moves stand r (r.endRun o) :=
  (Move.generator r _).one

theorem testFrameFinished_moves (r : Relay) (run : Nat) :
    Moves stand r (r.testFrameFinished run) := by
  have h1 : Moves stand r r.countFinished := (Move.generator r _).one
  unfold Relay.testFrameFinished
  split
  · exact Moves.rfl'
  · split
    · dsimp only
      split
      · exact h1.andThen (endRun_moves _ _)
      · split
        · exact h1.andThen (makeTestFrame_moves _)
        · exact h1.andThen (Move.generator _ _).one
    · exact Moves.rfl'

theorem reportLoss_moves (r : Relay) (m : Maker) : Moves stand r (r.reportLoss m) := by
  cases m
  · exact Moves.rfl'
  · exact testFrameFinished_moves r _
  · exact Moves.rfl'

theorem preemptTest_moves (r : Relay) : Moves stand r r.preemptTest :=
  Moves.whenIf (fun _ => endRun_moves r _)

theorem gapExpired_moves (r : Relay) : Moves stand r r.gapExpired := by
  unfold Relay.gapExpired
  split
  · exact ((Move.generator r _).one).andThen (makeTestFrame_moves _)
  · exact Moves.rfl'

theorem offerUrgent_moves (r : Relay) (b : Buffer) : Moves stand r (r.offerUrgent b).1 := by
  unfold Relay.offerUrgent
  dsimp only
  refine Moves.andThen ?_ (Moves.whenIf (fun _ => (Move.take _ _).one))
  split
  · exact (joinUrgent_moves r b).andThen (reportLoss_moves _ _)
  · exact joinUrgent_moves r b

theorem offer_moves (r : Relay) (lane : Lane) (b : Buffer) : Moves stand r (r.offer lane b).1 := by
  cases lane
  · exact offerUrgent_moves r b
  · exact offerRoutine_moves r b
  · exact offerUp_moves r b

theorem offerOwn_moves (r : Relay) (lane : Lane) (f : Frame) (m : Maker) :
    Moves stand r (r.offerOwn lane f m).1 := by
  unfold Relay.offerOwn
  dsimp only
  split
  · exact (offer_moves r _ _).andThen (countAdmitted_moves _)
  · exact offer_moves r _ _

theorem shedBand_moves (r : Relay) (band : Band) :
    Moves stand r (r.setBand band).shedRoutine := by
  unfold Relay.shedRoutine
  exact ((Move.shed r band).one).andThen
    (Moves.foldl (f := fun r (b : Buffer) => r.reportLoss b.maker)
      (fun r b => reportLoss_moves r b.maker) _ _)

theorem checkTest_moves (r : Relay) (p : LinkPort) (bs : List Byte) :
    Moves stand r (r.checkTest p bs) := by
  cases p
  · exact (Move.checker r _).one
  · exact (Move.checker r _).one

end Sys2Proof.Machine
end

