-- ==== Sys2Proof/Laws/Effects.lean ====
section
/-! SUPPORT. The chains of moves of every operation of the part: channels, alerts, levels, fill,
stations, inputs, health, start, agent, classifier and ports. -/

namespace Sys2Proof.Machine

variable {stand : Bool}

/-! ## Channels and lines -/

theorem Channel.settled_of_busy {ch : Channel} (h : ch.state ≠ .idle) : ch.Settled :=
  fun e => absurd e h

theorem Channel.record_settled {ch : Channel} (o : ChannelOutcome) (h : ch.Settled) :
    (ch.record o).Settled := by
  cases o <;> exact h

theorem setLine_moves (r : Relay) (l : Fin 4) (x : OutputLine) : Moves stand r (r.setLine l x) :=
  (Move.lines r _).one

theorem senseChannel_moves (r : Relay) (c : Fin 4) : Moves stand r (r.senseChannel c) := by
  unfold Relay.senseChannel
  split
  · exact Moves.rfl'
  · exact setLine_moves r _ _

theorem play_moves (r : Relay) (c : Fin 4) (ch : Channel)
    (h : (r.channels.get c).Settled → ch.Settled) : Moves stand r (r.play c ch) :=
  ((Move.channel r c ch h).one).andThen (senseChannel_moves _ c)

theorem markLine_moves (r : Relay) (c : Fin 4) (fault : Bool) :
    Moves stand r (r.markLine c fault) := by
  unfold Relay.markLine
  split
  · exact Moves.rfl'
  · exact setLine_moves r _ _

theorem cutSounding_moves (r : Relay) (c : Fin 4) (o : ChannelOutcome) :
    Moves stand r (r.cutSounding c o) :=
  play_moves r c _ (fun _ _ => ⟨rfl, rfl, rfl, rfl, rfl, rfl, rfl, rfl⟩)

theorem startSounding_moves (r : Relay) (c : Fin 4) (o : Owner) (a s : Option (Fin 16)) :
    Moves stand r (r.startSounding c o a s) :=
  (markLine_moves r c false).andThen
    (play_moves _ c _ (fun _ => Channel.settled_of_busy (by simp [Channel.startedAt])))

theorem failRequest_moves (r : Relay) (c : Fin 4) (o : ChannelOutcome) :
    Moves stand r (r.failRequest c o) := by
  refine (Move.channel r c _ ?_).one
  exact fun h => h

theorem startRequest_moves (r : Relay) (c : Fin 4) (q : Request) :
    Moves stand r (r.startRequest c q) := by
  unfold Relay.startRequest
  split
  · exact startSounding_moves r c _ _ _
  · exact failRequest_moves r c _

theorem startWaiting_moves (r : Relay) (c : Fin 4) (w : Option Request) :
    Moves stand r (r.startWaiting c w) := by
  unfold Relay.startWaiting
  split
  · exact Moves.rfl'
  · exact startRequest_moves r c _

theorem channelRequest_moves (r : Relay) (q : Request) (c : Fin 4) :
    Moves stand r (r.channelRequest q c) := by
  unfold Relay.channelRequest
  split
  · split
    · exact startRequest_moves r c q
    · next h =>
      refine Moves.whenIf (fun _ => (Move.channel r c _ ?_).one)
      exact fun _ => Channel.settled_of_busy h
  · exact failRequest_moves r c _

theorem requestSounding_moves (r : Relay) (b : Fin 8) (level : Level) :
    Moves stand r (r.requestSounding b level) := by
  unfold Relay.requestSounding
  exact Moves.foldl (fun r c => channelRequest_moves r _ c) _ _

theorem endAndTake_moves (r : Relay) (c : Fin 4) (o : ChannelOutcome) :
    Moves stand r (r.endAndTake c o) :=
  (cutSounding_moves r c o).andThen (startWaiting_moves _ c _)

theorem renew_moves (r : Relay) (c : Fin 4) : Moves stand r (r.renew c) := by
  unfold Relay.renew
  exact (play_moves r c _ (fun _ _ => ⟨rfl, rfl, rfl, rfl, rfl, rfl, rfl, rfl⟩)).andThen
    (startWaiting_moves _ c _)

theorem completeCadence_moves (r : Relay) (c : Fin 4) (boundary rounds : Nat)
    (h : (r.channels.get c).state ≠ .idle) : Moves stand r (r.completeCadence c boundary rounds) := by
  have hc : Moves stand r
      (r.setChannel c { r.channels.get c with rounds := rounds }) := by
    refine (Move.channel r c _ ?_).one
    exact fun _ => Channel.settled_of_busy h
  unfold Relay.completeCadence
  dsimp only
  split
  · split
    · exact play_moves r c _ (fun _ => Channel.settled_of_busy h)
    · exact hc.andThen (endAndTake_moves _ c _)
  · exact hc.andThen (endAndTake_moves _ c _)

theorem advance_moves (r : Relay) (c : Fin 4) (boundary : Nat)
    (h : (r.channels.get c).state ≠ .idle) : Moves stand r (r.advance c boundary) := by
  unfold Relay.advance
  dsimp only
  split
  · split
    · exact play_moves r c _ (fun _ => Channel.settled_of_busy h)
    · exact completeCadence_moves r c _ _ h
  · exact endAndTake_moves r c _

theorem stepBoundary_moves (r : Relay) (c : Fin 4) (boundary : Nat) :
    Moves stand r (r.stepBoundary c boundary) := by
  unfold Relay.stepBoundary
  dsimp only
  split
  · exact Moves.rfl'
  · exact endAndTake_moves r c _
  · next h =>
    split
    · exact renew_moves r c
    · exact endAndTake_moves r c _
    · exact advance_moves r c _ (by rw [h]; decide)

theorem segmentEnds_moves (r : Relay) (c : Fin 4) : Moves stand r (r.segmentEnds c) := by
  unfold Relay.segmentEnds
  split
  · split
    · exact stepBoundary_moves r c _
    · exact Moves.rfl'
  · exact Moves.rfl'

theorem Channel.dropWaiting_settled {ch : Channel} (b : Fin 8) (test : Level → Bool)
    (h : ch.Settled) : (ch.dropWaiting b test).Settled := by
  unfold Channel.dropWaiting
  split
  · split
    · intro e
      have hs := h e
      exact ⟨hs.1, hs.2.1, hs.2.2.1, hs.2.2.2.1, hs.2.2.2.2.1, hs.2.2.2.2.2.1, hs.2.2.2.2.2.2.1,
        rfl⟩
    · exact h
  · exact h

theorem Channel.notice_settled {ch : Channel} (b : Fin 8) (test : Level → Bool) (stops : Bool)
    (reason : StopReason) (h : ch.Settled) : (ch.notice b test stops reason).Settled := by
  unfold Channel.notice
  dsimp only
  split
  · exact Channel.settled_of_busy (by simp [Channel.stopFor])
  · exact Channel.dropWaiting_settled b test h

theorem fallNotice_moves (r : Relay) (b : Fin 8) (level : Level) :
    Moves stand r (r.fallNotice b level) :=
  (Move.channels r _ (fun _ h => Channel.notice_settled _ _ _ _ h)).one

theorem quietNotice_moves (r : Relay) (b : Fin 8) (level : Level) :
    Moves stand r (r.quietNotice b level) :=
  (Move.channels r _ (fun _ h => Channel.notice_settled _ _ _ _ h)).one

theorem disableNotice_moves (r : Relay) (b : Fin 8) : Moves stand r (r.disableNotice b) :=
  (Move.channels r _ (fun _ h => Channel.notice_settled _ _ _ _ h)).one

theorem bandAtChannels_moves (r : Relay) (band : Band) :
    Moves stand r (r.bandAtChannels band) :=
  Moves.whenIf (fun _ => Moves.foldl
    (fun r c => Moves.whenIf (fun _ => cutSounding_moves r c _)) _ _)

theorem loadChanges_moves (r : Relay) (l : Fin 4) (x : LoadCondition) :
    Moves stand r (r.loadChanges l x) := by
  unfold Relay.loadChanges
  split
  · exact Moves.rfl'
  · dsimp only
    split
    · exact ((Move.pins r _).one).andThen (Moves.whenAwake (senseChannel_moves _ _))
    · exact (Move.pins r _).one

theorem sensingExpires_moves (r : Relay) (l : Fin 4) : Moves stand r (r.sensingExpires l) := by
  unfold Relay.sensingExpires
  split
  · exact Moves.whenIf (fun _ => (cutSounding_moves r _ _).andThen (markLine_moves _ _ _))
  · exact Moves.rfl'

theorem testSound_moves (r : Relay) (c : Fin 4) (k : Fin 16) :
    Moves stand r (r.testSound c k).1 := by
  unfold Relay.testSound
  dsimp only
  split
  · exact Moves.rfl'
  · split
    · exact Moves.rfl'
    · split
      · exact failRequest_moves r c _
      · split
        · exact startSounding_moves r c _ _ _
        · exact failRequest_moves r c _

theorem stopChannel_moves (r : Relay) (c : Fin 4) : Moves stand r (r.stopChannel c) := by
  unfold Relay.stopChannel
  dsimp only
  split
  · exact Moves.rfl'
  · exact (Move.channel r c _
      (fun _ => Channel.settled_of_busy (by simp [Channel.stopFor]))).one

theorem clearChannelFlags_moves (r : Relay) : Moves stand r r.clearChannelFlags := by
  refine (Move.channels r _ ?_).one
  exact fun _ h => h

/-! ## Alerts and quiet -/

/-- One barrier replaced, its level, hold, serial and measures as they stand. -/
theorem setBarrier_latches (r : Relay) (b : Fin 8) (d : BarrierDyn)
    (hl : d.level = (r.barriers.get b).level) (hh : d.hold = (r.barriers.get b).hold)
    (hs : d.serial = (r.barriers.get b).serial)
    (hm : d.measures = (r.barriers.get b).measures) : Moves stand r (r.setBarrier b d) := by
  refine (Move.latches r (r.barriers.set b d) ?_ ?_ ?_ ?_).one
  · intro i; rw [Bank.get_set]; split
    · next e => rw [← e, hl]
    · rfl
  · intro i; rw [Bank.get_set]; split
    · next e => rw [← e, hh]
    · rfl
  · intro i; rw [Bank.get_set]; split
    · next e => rw [← e, hs]
    · rfl
  · intro i h; rw [Bank.get_set]; split
    · next e => rw [hm, e]; exact h
    · exact h

theorem buildAlert_moves (r : Relay) (b : Fin 8) : Moves stand r (r.buildAlert b) :=
  ((Move.serial r b).one).andThen (offerOwn_moves _ _ _ _)

theorem restartRepeat_moves (r : Relay) (b : Fin 8) : Moves stand r (r.restartRepeat b) :=
  setBarrier_latches r b _ rfl rfl rfl rfl

theorem toldOfChange_moves (r : Relay) (b : Fin 8) : Moves stand r (r.toldOfChange b) :=
  (buildAlert_moves r b).andThen (restartRepeat_moves _ b)

theorem requestUnlessQuieted_moves (r : Relay) (b : Fin 8) (level : Level) :
    Moves stand r (r.requestUnlessQuieted b level) := by
  unfold Relay.requestUnlessQuieted
  split
  · exact Moves.rfl'
  · exact requestSounding_moves r b level

theorem repeatExpires_moves (r : Relay) (b : Fin 8) : Moves stand r (r.repeatExpires b) := by
  unfold Relay.repeatExpires
  split
  · exact ((buildAlert_moves r b).andThen (restartRepeat_moves _ b)).andThen
      (requestUnlessQuieted_moves _ b _)
  · exact Moves.rfl'

theorem quietBarrier_moves (r : Relay) (b : Fin 8) (q : Level) :
    Moves stand r (r.quietBarrier b q) := by
  refine Moves.andThen (setBarrier_latches r b _ ?_ ?_ ?_ ?_) (quietNotice_moves _ b _)
  all_goals rfl

theorem quietNamed_moves (r : Relay) (names : List (Fin 8)) (q : Level) :
    Moves stand r (r.quietNamed names q) := by
  unfold Relay.quietNamed
  dsimp only
  split
  · exact (Move.emitter r _).one
  · exact (Moves.foldl (f := fun r b => Relay.quietBarrier r b q)
      (fun r b => quietBarrier_moves r b q) _ r).andThen (Move.emitter _ _).one

theorem judgeQuiet_moves (r : Relay) (origin : Addr) (payload : List Byte) :
    Moves stand r (r.judgeQuiet origin payload) := by
  unfold Relay.judgeQuiet
  dsimp only
  split
  · exact Moves.rfl'
  · split
    · split
      · exact quietNamed_moves r _ _
      · exact (Move.emitter r _).one
    · exact (Move.emitter r _).one

/-! ## Levels -/

theorem soundChange_moves (r : Relay) (b : Fin 8) (old new : Level) :
    Moves stand r (r.soundChange b old new) := by
  unfold Relay.soundChange
  split
  · exact requestUnlessQuieted_moves r b new
  · split
    · exact (fallNotice_moves r b _).andThen (requestSounding_moves _ b _)
    · exact fallNotice_moves r b new

theorem handChange_moves (r : Relay) (b : Fin 8) (old new : Level) :
    Moves stand r (r.handChange b old new) := by
  unfold Relay.handChange
  refine Moves.andThen (Moves.andThen (Moves.andThen ?_ (toldOfChange_moves _ b))
    (soundChange_moves _ b old new)) (Moves.whenIf (fun _ => preemptTest_moves _))
  unfold BarrierDyn.atCalm
  split
  · exact setBarrier_latches r b _ rfl rfl rfl rfl
  · exact setBarrier_latches r b _ rfl rfl rfl rfl

theorem handOver_moves (r : Relay) (b : Fin 8) (old : Level) : Moves stand r (r.handOver b old) := by
  unfold Relay.handOver
  dsimp only
  split
  · exact Moves.rfl'
  · exact handChange_moves r b _ _

theorem evaluate_moves (r : Relay) (b : Fin 8) : Moves stand r (r.evaluate b) := by
  unfold Relay.evaluate
  split
  · next h => exact ((Move.weigh r b _ (Or.inl h)).one).andThen (handOver_moves _ b _)
  · exact Moves.rfl'

theorem holdExpires_moves (r : Relay) (b : Fin 8) : Moves stand r (r.holdExpires b) := by
  unfold Relay.holdExpires
  dsimp only
  split
  · next h =>
    simp only [Bool.and_eq_true] at h
    replace h := h.1
    have hh : (r.barriers.get b).hold.isSome = true := by
      have h2 := h.2
      unfold reached at h2
      split at h2
      · next e => rw [e]; rfl
      · exact absurd h2 (by decide)
    refine Moves.andThen ((Move.fall r b h.1 hh).one) ?_
    exact ((Move.weigh _ b _ (Or.inl (by simpa [Relay.assessed] using h.1))).one).andThen
      (handOver_moves _ b _)
  · exact Moves.rfl'

theorem setWire_keeps (d : BarrierDyn) (p : WirePosition) (x : Bool) :
    (d.setWire p x).level = d.level ∧ (d.setWire p x).hold = d.hold
      ∧ (d.setWire p x).serial = d.serial ∧ (d.setWire p x).measures = d.measures := by
  cases p <;> exact ⟨rfl, rfl, rfl, rfl⟩

theorem setWire_moves (r : Relay) (b : Fin 8) (p : WirePosition) (x : Bool) :
    Moves stand r (r.setBarrier b ((r.barriers.get b).setWire p x)) :=
  let k := setWire_keeps (r.barriers.get b) p x
  setBarrier_latches r b _ k.1 k.2.1 k.2.2.1 k.2.2.2

theorem deliverBreak_moves (r : Relay) (b : Fin 8) (p : WirePosition) :
    Moves stand r (r.deliverBreak b p) := by
  unfold Relay.deliverBreak
  split
  · exact (setWire_moves r b p true).andThen (evaluate_moves _ b)
  · exact Moves.rfl'

theorem deliverManual_moves (r : Relay) (b : Fin 8) : Moves stand r (r.deliverManual b) := by
  unfold Relay.deliverManual
  split
  · refine Moves.andThen (setBarrier_latches r b _ ?_ ?_ ?_ ?_) (evaluate_moves _ b)
    all_goals rfl
  · exact Moves.rfl'

theorem rearmWire_moves (r : Relay) (b : Fin 8) (p : WirePosition) :
    Moves stand r (r.rearmWire b p).1 := by
  unfold Relay.rearmWire
  split
  · exact Moves.rfl'
  · split
    · exact (setWire_moves r b p false).andThen (evaluate_moves _ b)
    · exact Moves.rfl'

theorem standDown_moves (r : Relay) (b : Fin 8) : Moves true r (r.standDown b).1 := by
  unfold Relay.standDown
  dsimp only
  split
  · exact Moves.rfl'
  · next h =>
    have he : (r.barriers.get b).level = .evacuate := Decidable.not_not.mp h
    split
    · exact Moves.rfl'
    · unfold Relay.acceptStandDown
      exact (((Move.standDown r b rfl he).one).andThen
        (Move.weigh _ b _ (Or.inr (by simp))).one).andThen (handOver_moves _ b _)

theorem announceDisabled_moves (r : Relay) (b : Fin 8) (old : Level) :
    Moves stand r (r.announceDisabled b old) :=
  (disableNotice_moves r b).andThen (Moves.whenIf (fun _ => toldOfChange_moves _ b))

theorem writeBarrier_moves (r : Relay) (b : Fin 8) (new : BarrierConfig)
    (h : (r.tables.barriers.get b).enabled = true → new.enabled = false →
      (r.barriers.get b).level.rank < 2)
    (hr : new.Ok) : Moves stand r (r.writeBarrier b new) :=
  (((Move.barrierRecord r b new h hr).one).andThen
    (Moves.whenIf (fun _ => announceDisabled_moves _ b _))).andThen (evaluate_moves _ b)

theorem startBarrier_moves (r : Relay) (b : Fin 8) : Moves stand r (r.startBarrier b) := by
  unfold Relay.startBarrier
  exact (evaluate_moves r b).andThen (Moves.whenIf (fun _ =>
    ((toldOfChange_moves _ b).andThen (requestUnlessQuieted_moves _ b _)).andThen
      (preemptTest_moves _)))

theorem startEvaluation_moves (r : Relay) : Moves stand r r.startEvaluation :=
  Moves.foldl (f := fun r b => Relay.startBarrier r b) (fun r b => startBarrier_moves r b) _ r

theorem setLineLost_moves (r : Relay) (lost : Bool) : Moves stand r (r.setLineLost lost) := by
  unfold Relay.setLineLost
  exact ((Move.lineLoss r _).one).andThen
    (Moves.foldl (fun r b => Moves.whenIf (fun _ => evaluate_moves r b)) _ _)

theorem feedBarrier_moves (r : Relay) (b : Fin 8) (v : Level) : Moves stand r (r.feedBarrier b v) := by
  have h : Moves stand r (r.setBarrier b { r.barriers.get b with feeder := some (v, false) }) := by
    refine setBarrier_latches r b _ ?_ ?_ ?_ ?_
    all_goals rfl
  unfold Relay.feedBarrier
  dsimp only
  split <;> split
  all_goals first
    | exact h
    | exact h.andThen (evaluate_moves _ b)

theorem feederUpdate_moves (r : Relay) (origin : Addr) (bs : List Byte) :
    Moves stand r (r.feederUpdate origin bs) := by
  unfold Relay.feederUpdate
  split
  · exact Moves.foldl (fun r b => Moves.whenIf (fun _ => feedBarrier_moves r b _)) _ _
  · exact Moves.rfl'

theorem feederSilent_moves (r : Relay) (a : Addr) : Moves stand r (r.feederSilent a) := by
  refine (Move.latches r _ ?_ ?_ ?_ ?_).one
  all_goals
    intro b
    rw [Bank.get_ofFn]
    dsimp only
    split
  all_goals first
    | rfl
    | exact fun h => h

/-! ## Fill -/

/-- A sighting gauge that was chosen has a smoothed fill. -/
theorem bestGauge_smoothed (r : Relay) (b : Fin 8) {i : Fin 48} {f : Nat}
    (h : r.bestGauge b = some (i, f)) : (r.stations.get i).smoothed = some f := by
  unfold Relay.bestGauge at h
  have gen : ∀ (xs : List (Fin 48)) (best : Option (Fin 48 × Nat)),
      (∀ j g, best = some (j, g) → (r.stations.get j).smoothed = some g) →
      ∀ j g, xs.foldl (fun best i =>
        let d := r.stations.get i
        match d.sighting, d.smoothed, best with
        | true, some f, none => some (i, f)
        | true, some f, some (j, g) => if g < f then some (i, f) else some (j, g)
        | _, _, _ => best) best = some (j, g) → (r.stations.get j).smoothed = some g := by
    intro xs
    induction xs with
    | nil => intro best hb j g e; exact hb j g e
    | cons x xs ih =>
      intro best hb j g e
      rw [List.foldl_cons] at e
      refine ih _ ?_ j g e
      intro j2 g2 e2
      dsimp only at e2
      split at e2
      · next hs => cases e2; exact hs
      · next hs =>
        split at e2
        · cases e2; exact hs
        · exact hb _ _ e2
      · exact hb _ _ e2
  exact gen _ none (fun _ _ e => by cases e) i f h

theorem timeToFull_le (fill : Nat) (rate : Option Int) : timeToFull fill rate ≤ 65535 := by
  unfold timeToFull
  split
  · exact Nat.le_refl _
  · split
    · exact Nat.le_refl _
    · split
      · exact Nat.zero_le _
      · exact Nat.le_trans (Nat.min_le_left _ _) (by decide)

theorem clampRate_range (x : Int) : -999 ≤ clampRate x ∧ clampRate x ≤ 999 := by
  unfold clampRate
  omega

/-- What a look at the gauges leaves of the figures in range. -/
def Measures.FiguresIn (m : Measures) : Prop :=
  m.fill ≤ 1200 ∧ ∀ v ∈ m.rate, -999 ≤ v ∧ v ≤ 999

theorem look_figures (m : Measures) (gauged : Bool) (best : Option (Fin 48 × Nat))
    (hm : m.FiguresIn) (hb : ∀ i f, best = some (i, f) → f ≤ 1200) :
    (m.look gauged best).FiguresIn := by
  unfold Measures.look
  split
  · next i f => exact ⟨hb i f rfl, hm.2⟩
  · split
    · exact ⟨hm.1, fun v h => by cases h⟩
    · exact ⟨Nat.zero_le _, fun v h => by cases h⟩

theorem rateStep_figures (m : Measures) (t window : Nat) (hm : m.FiguresIn) :
    (m.rateStep t window).FiguresIn := by
  unfold Measures.rateStep
  split
  · exact hm
  · split
    · exact hm
    · split
      · exact hm
      · dsimp only
        have h : ∀ a : Anchor, ∀ v ∈ some (rateBetween a m.fill t), -999 ≤ v ∧ v ≤ 999 := by
          intro a v e
          cases e
          exact clampRate_range _
        split
        · exact ⟨hm.1, h _⟩
        · exact ⟨hm.1, h _⟩

theorem recompute_inRange (m : Measures) (gauged : Bool) (best : Option (Fin 48 × Nat))
    (advancing : Option Nat) (window : Nat) (hm : m.InRange)
    (hb : ∀ i f, best = some (i, f) → f ≤ 1200) :
    (m.recompute gauged best advancing window).InRange := by
  have h1 := look_figures m gauged best ⟨hm.1, hm.2.1⟩ hb
  have h2 : ((m.look gauged best).stepIfCalled advancing window).FiguresIn := by
    unfold Measures.stepIfCalled
    split
    · split
      · exact rateStep_figures _ _ _ h1
      · exact h1
    · exact h1
  exact ⟨h2.1, h2.2, timeToFull_le _ _⟩

theorem Measures.start_inRange : Measures.start.InRange :=
  ⟨Nat.zero_le _, fun _ h => (by cases h), Nat.le_refl _⟩

theorem best_le (r : Relay) (b : Fin 8) (h : r.FiguresOk) (i : Fin 48) (f : Nat)
    (e : r.bestGauge b = some (i, f)) : f ≤ 1200 :=
  (h.1 i).2.2 f (bestGauge_smoothed r b e)

theorem recompute_moves (r : Relay) (b : Fin 8) (advancing : Option Nat) :
    Moves stand r (r.recompute b advancing) := by
  refine (Move.measures r b _ ?_).one
  exact fun h => recompute_inRange _ _ _ _ _ (h.2 b) (best_le r b h)

theorem remeasure_moves (r : Relay) (b : Fin 8) (advancing : Option Nat) :
    Moves stand r (r.remeasure b advancing) :=
  (recompute_moves r b advancing).andThen (evaluate_moves _ b)

theorem startRecompute_moves (r : Relay) : Moves stand r r.startRecompute := by
  unfold Relay.startRecompute
  refine Moves.foldl (fun r b => Moves.andThen (Move.measures r b _ ?_).one
    (recompute_moves _ b none)) _ _
  exact fun _ => Measures.start_inRange

theorem setEntries_inRange (m : Measures) (k : Evidence) (xs : List Contribution)
    (h : m.InRange) : (m.setEntries k xs).InRange := by
  cases k <;> exact h

theorem setEvidence_moves (r : Relay) (b : Fin 8) (k : Evidence) (xs : List Contribution) :
    Moves stand r (r.setEvidence b k xs) := by
  have h : Moves stand r
      (r.setMeasures b ((r.barriers.get b).measures.setEntries k xs)) := by
    refine (Move.measures r b _ ?_).one
    exact fun h => setEntries_inRange _ k xs (h.2 b)
  unfold Relay.setEvidence
  dsimp only
  split
  · exact h
  · exact h.andThen (evaluate_moves _ b)

theorem contributeTo_moves (r : Relay) (b : Fin 8) (k : Evidence) (c : Contribution) :
    Moves stand r (r.contributeTo b k c) :=
  setEvidence_moves r b k _

theorem evidenceExpires_moves (r : Relay) (b : Fin 8) (k : Evidence) :
    Moves stand r (r.evidenceExpires b k) := by
  unfold Relay.evidenceExpires
  dsimp only
  split
  · refine Moves.andThen (Move.measures r b _ ?_).one (evaluate_moves _ b)
    exact fun h => setEntries_inRange _ k _ (h.2 b)
  · exact Moves.rfl'

theorem trimEvidence_moves (r : Relay) (life : Nat) : Moves stand r (r.trimEvidence life) := by
  refine (Move.latches r _ ?_ ?_ ?_ ?_).one
  all_goals
    intro b
    rw [Bank.get_map]
  exact fun h => h

theorem changeLife_moves (r : Relay) (life : Nat) : Moves stand r (r.changeLife life) := by
  unfold Relay.changeLife
  refine (trimEvidence_moves r life).andThen (Moves.foldl (fun acc b => ?_) _ _)
  exact (Moves.whenIf (fun _ => evaluate_moves acc b)).andThen
    (Moves.whenIf (fun _ => evaluate_moves _ b))
end Sys2Proof.Machine
end

