-- ==== Sys2Proof/Laws/Memory.lean ====
section
/-! SUPPORT. The serial memory: every write keeps the canonical form, and what a read gives after a
write. -/

namespace Sys2Proof.Machine

theorem canonicalFrom_mono {m : List Host.Cell} {lo hi : Nat} (h : canonicalFrom hi m = true)
    (hl : lo ≤ hi) : canonicalFrom lo m = true := by
  cases m with
  | nil => rfl
  | cons c rest =>
    simp only [canonicalFrom, Bool.and_eq_true, decide_eq_true_eq] at h ⊢
    exact ⟨⟨Nat.le_trans hl h.1.1, h.1.2⟩, h.2⟩

theorem canonicalFrom_write {m : List Host.Cell} {lo x : Nat} (v : Byte)
    (h : canonicalFrom lo m = true) (hx : lo ≤ x) :
    canonicalFrom lo (Memory.write m x v) = true := by
  induction m generalizing lo with
  | nil =>
    unfold Memory.write
    split
    · rfl
    · next hv => simp [canonicalFrom, hx, hv]
  | cons c rest ih =>
    obtain ⟨a, w⟩ := c
    have h0 := h
    simp only [canonicalFrom, Bool.and_eq_true, decide_eq_true_eq, bne_iff_ne] at h
    unfold Memory.write
    split
    · next hlt =>
      split
      · exact h0
      · next hv =>
        simp only [canonicalFrom, Bool.and_eq_true, decide_eq_true_eq, bne_iff_ne]
        exact ⟨⟨hx, hv⟩, ⟨by omega, h.1.2⟩, h.2⟩
    · split
      · next hge heq =>
        split
        · exact canonicalFrom_mono h.2 (by omega)
        · next hv =>
          simp only [canonicalFrom, Bool.and_eq_true, decide_eq_true_eq, bne_iff_ne]
          exact ⟨⟨hx, hv⟩, heq ▸ h.2⟩
      · simp only [canonicalFrom, Bool.and_eq_true, decide_eq_true_eq, bne_iff_ne]
        exact ⟨h.1, ih h.2 (by omega)⟩

/-- A write keeps the canonical form (log 6). -/
theorem Memory.wf_write {m : List Host.Cell} (x : Nat) (v : Byte) (h : Memory.wf m = true) :
    Memory.wf (Memory.write m x v) = true :=
  canonicalFrom_write v h (Nat.zero_le x)

theorem Memory.wf_writeBytes {m : List Host.Cell} (x : Nat) (vs : List Byte)
    (h : Memory.wf m = true) : Memory.wf (Memory.writeBytes m x vs) = true := by
  induction vs generalizing x with
  | nil => exact h
  | cons v vs ih => exact Memory.wf_write x v (ih (x + 1))

theorem Memory.wf_writeCells {m : List Host.Cell} (cells : List Host.Cell)
    (h : Memory.wf m = true) : Memory.wf (Memory.writeCells m cells) = true := by
  unfold Memory.writeCells
  induction cells generalizing m with
  | nil => exact h
  | cons c cells ih => exact ih (Memory.wf_write _ _ h)

/-- The memory of the reset state is in canonical form. -/
theorem Memory.wf_reset : Memory.wf State.reset.relay.memory.cells = true := rfl

theorem read_below {m : List Host.Cell} {lo x : Nat} (h : canonicalFrom lo m = true) (hx : x < lo) :
    Memory.read m x = Config.blankByte := by
  induction m generalizing lo with
  | nil => rfl
  | cons c rest ih =>
    obtain ⟨a, w⟩ := c
    simp only [canonicalFrom, Bool.and_eq_true, decide_eq_true_eq] at h
    unfold Memory.read
    rw [if_neg (by omega)]
    exact ih h.2 (by omega)

theorem read_writeFrom {m : List Host.Cell} {lo : Nat} (x y : Nat) (v : Byte)
    (h : canonicalFrom lo m = true) :
    Memory.read (Memory.write m x v) y = if y = x then v else Memory.read m y := by
  induction m generalizing lo with
  | nil =>
    unfold Memory.write
    split
    · next hv => split <;> simp [Memory.read, hv]
    · split
      · next e => simp [Memory.read, e]
      · next e => simp [Memory.read, Ne.symm e]
  | cons c rest ih =>
    obtain ⟨a, w⟩ := c
    have h0 := h
    simp only [canonicalFrom, Bool.and_eq_true, decide_eq_true_eq, bne_iff_ne] at h
    unfold Memory.write
    split
    · next hlt =>
      have hb : Memory.read ((a, w) :: rest) x = Config.blankByte := by
        unfold Memory.read
        rw [if_neg (by omega)]
        exact read_below h.2 (by omega)
      split
      · next hv =>
        split
        · next e => rw [e, hb, hv]
        · rfl
      · split
        · next e => simp [Memory.read, e]
        · next e => rw [Memory.read, if_neg (Ne.symm e)]
    · split
      · next hge heq =>
        split
        · next hv =>
          split
          · next e => rw [read_below h.2 (by omega), hv]
          · next e => rw [Memory.read, if_neg (by omega)]
        · split
          · next e => simp [Memory.read, e]
          · next e => rw [Memory.read, if_neg (Ne.symm e), Memory.read, if_neg (by omega)]
      · next hge hne =>
        rw [Memory.read, Memory.read, ih h.2]
        split
        · next e => rw [if_neg (by omega)]
        · rfl

/-- What a byte reads as after a byte was written. -/
theorem Memory.read_write {m : List Host.Cell} (x y : Nat) (v : Byte) (h : Memory.wf m = true) :
    Memory.read (Memory.write m x v) y = if y = x then v else Memory.read m y :=
  read_writeFrom x y v h

/-- Bytes outside a written run read as before. -/
theorem Memory.read_writeBytes_outside {m : List Host.Cell} (x y : Nat) (vs : List Byte)
    (h : Memory.wf m = true) (hy : y < x ∨ x + vs.length ≤ y) :
    Memory.read (Memory.writeBytes m x vs) y = Memory.read m y := by
  induction vs generalizing x with
  | nil => rfl
  | cons v vs ih =>
    simp only [List.length_cons] at hy
    rw [Memory.writeBytes, Memory.read_write x y v (Memory.wf_writeBytes _ _ h), if_neg (by omega)]
    exact ih (x + 1) (by omega)

/-- A run that was written reads back. -/
theorem Memory.readBytes_writeBytes {m : List Host.Cell} (x : Nat) (vs : List Byte)
    (h : Memory.wf m = true) :
    Memory.readBytes (Memory.writeBytes m x vs) x vs.length = vs := by
  have gen : ∀ (vs : List Byte) (x : Nat) (c : List Host.Cell),
      (∀ i (hi : i < vs.length), Memory.read c (x + i) = vs[i]) →
      Memory.readBytes c x vs.length = vs := by
    intro vs
    induction vs with
    | nil => intro x c _; rfl
    | cons v vs ih =>
      intro x c hc
      have h0 := hc 0 (by simp)
      rw [List.length_cons, Memory.readBytes]
      rw [Nat.add_zero] at h0
      rw [h0, ih (x + 1) c (fun i hi => by
        have := hc (i + 1) (by simpa using hi)
        rw [show x + 1 + i = x + (i + 1) by omega]
        simpa using this)]
      rfl
  refine gen vs x _ ?_
  induction vs generalizing x with
  | nil => intro i hi; exact absurd hi (by simp)
  | cons v vs ih =>
    intro i hi
    rw [Memory.writeBytes, Memory.read_write _ _ _ (Memory.wf_writeBytes _ _ h)]
    cases i with
    | zero => simp
    | succ i =>
      rw [if_neg (by omega), show x + (i + 1) = x + 1 + i by omega,
        ih (x + 1) i (by simpa using hi)]
      simp

/-- A run of bytes is its first part and its rest. -/
theorem readBytes_append (m : List Host.Cell) (x n k : Nat) :
    Memory.readBytes m x (n + k) = Memory.readBytes m x n ++ Memory.readBytes m (x + n) k := by
  induction n generalizing x with
  | zero => rw [Nat.zero_add]; rfl
  | succ n ih =>
    rw [Nat.add_right_comm, Memory.readBytes, ih (x + 1), Memory.readBytes, List.cons_append,
      Nat.add_right_comm x 1 n]
    rfl

theorem readBytes_length (m : List Host.Cell) (x n : Nat) : (Memory.readBytes m x n).length = n := by
  induction n generalizing x with
  | zero => rfl
  | succ n ih => rw [Memory.readBytes, List.length_cons, ih]

/-- A run whose last byte differs from the one written there does not read back. -/
theorem lastByte_ne (m : List Host.Cell) (bs : List Byte) (n : Nat) (v : Byte)
    (hm : Memory.wf m = true) (h : List.drop n bs ≠ [v]) :
    Memory.readBytes (Memory.writeCells m [(n, v)]) 0 (n + 1) ≠ bs := by
  intro e
  rw [readBytes_append] at e
  have e := congrArg (List.drop n) e
  rw [List.drop_left' (readBytes_length _ _ _)] at e
  refine h (e.symm.trans ?_)
  show [Memory.read (Memory.write m n v) (0 + n)] = [v]
  rw [Memory.read_write _ _ _ hm, if_pos (Nat.zero_add n)]

/-- A byte written beyond a run leaves the run as it was written. -/
theorem readBytes_writeCell_beyond (bs : List Byte) (v : Byte) {m : List Host.Cell} {n : Nat}
    (hm : Memory.wf m = true) (h : bs.length = n) :
    Memory.readBytes (Memory.writeCells (Memory.writeBytes m 0 bs) [(n, v)]) 0 n = bs := by
  subst h
  have gen : ∀ k x, x + k ≤ bs.length →
      Memory.readBytes (Memory.write (Memory.writeBytes m 0 bs) bs.length v) x k
        = Memory.readBytes (Memory.writeBytes m 0 bs) x k := by
    intro k
    induction k with
    | zero => intro x _; rfl
    | succ k ih =>
      intro x hx
      rw [Memory.readBytes, Memory.readBytes, ih (x + 1) (by omega),
        Memory.read_write _ _ _ (Memory.wf_writeBytes _ _ hm), if_neg (by omega)]
  exact (gen bs.length 0 (by omega)).trans (Memory.readBytes_writeBytes 0 bs hm)

end Sys2Proof.Machine
end

