-- ==== Sys2Proof/Laws/Records.lean ====
section
/-! SUPPORT. What every decoder of a record answers, and every load of the tables leaves, holds
values of its ranges only; the tables of such records fill the image exactly. -/

namespace Sys2Proof.Machine

theorem isDevice_ofNat {n : Nat} (h : 1 ≤ n) (k : n ≤ 4094) :
    Addr.isDevice (BitVec.ofNat 12 n) = true := by
  have e : (BitVec.ofNat 12 n).toNat = n := by rw [BitVec.toNat_ofNat]; omega
  simp only [Addr.isDevice, Bool.and_eq_true, bne_iff_ne, ne_eq]
  constructor <;> intro hn <;> rw [hn] at e <;> simp at e <;> omega

theorem some_of_guard {α : Type} {c : Bool} {x y : α} (h : (if c then some x else none) = some y) :
    c = true ∧ x = y := by
  split at h
  · next hc => exact ⟨hc, Option.some.inj h⟩
  · cases h

theorem decodeIdentity_ok {bs : List Byte} {d : Identity} (h : decodeIdentity bs = some d) :
    d.Ok := by
  unfold decodeIdentity at h
  dsimp only at h
  split at h
  · obtain ⟨hd, e⟩ := some_of_guard h
    subst e
    rw [Bool.and_eq_true, decide_eq_true_eq] at hd
    refine ⟨hd.1, fun m hm => ?_⟩
    dsimp only at hm
    split at hm
    · cases hm
    · next h0 =>
      cases hm
      exact isDevice_ofNat (by omega) hd.2
  · cases h

theorem decodeStation_ok {bs : List Byte} {x : Option StationConfig} {c : StationConfig}
    (h : decodeStation bs = some x) (hx : x = some c) : c.Ok := by
  subst hx
  unfold decodeStation at h
  split at h
  · cases h
  · split at h
    · next role fwd hr hf =>
      split at h
      · next hd =>
        cases h
        simp only [within, Bool.and_eq_true, decide_eq_true_eq] at hd
        refine ⟨isDevice_ofNat hd.1.1 hd.1.2, hd.2.2, ?_⟩
        · intro b e f hg
          dsimp only at hg
          subst hg
          unfold decodeRole at hr
          split at hr
          · split at hr <;> cases hr
          · split at hr
            · cases hr
            · split at hr
              · split at hr
                · next hw =>
                  cases hr
                  simp only [within, Bool.and_eq_true, decide_eq_true_eq] at hw
                  exact ⟨hw.2.1.1, hw.2.1.2, hw.2.2⟩
                · cases hr
              · split at hr
                · split at hr
                  · cases hw : WirePosition.ofCode (byteAt bs 4) <;> rw [hw] at hr <;> cases hr
                  · split at hr
                    · cases hr
                    · split at hr <;> cases hr
                · cases hr
      · cases h
    · cases h

theorem decodeBarrier_ok {bs : List Byte} {c : BarrierConfig} (h : decodeBarrier bs = some c) :
    c.Ok := by
  unfold decodeBarrier at h
  split at h
  · cases h
  · next feeder hf =>
    dsimp only at h
    split at h
    · next hd =>
      cases h
      refine ⟨hd, fun a k hk => ?_⟩
      dsimp only at hk
      subst hk
      unfold decodeFeeder at hf
      split at hf
      · split at hf <;> cases hf
      · split at hf
        · cases hf
        · split at hf
          · next ha =>
            cases hf
            exact isDevice_ofNat (by omega) ha
          · cases hf
    · cases h

theorem decodeCadence_ok {bs : List Byte} {x : Option Cadence} {c : Cadence}
    (h : decodeCadence bs = some x) (hx : x = some c) : c.inRange = true := by
  subst hx
  unfold decodeCadence at h
  split at h
  · cases h
  · split at h
    · cases h
    · dsimp only at h
      split at h
      · next hd => cases h; exact hd
      · cases h

theorem decodeInput_ok {bs : List Byte} {c : InputConfig} (h : decodeInput bs = some c) : c.Ok := by
  unfold decodeInput at h
  split at h
  · split at h
    · next hd =>
      cases h
      rw [within, Bool.and_eq_true, decide_eq_true_eq, decide_eq_true_eq] at hd
      exact hd
    · cases h
  · cases h

theorem Identity.defaults_ok : Identity.defaults.Ok :=
  ⟨by decide, fun _ h => by cases h⟩

theorem BarrierConfig.emptied_ok : BarrierConfig.emptied.Ok :=
  ⟨by decide, fun _ _ h => by cases h⟩

theorem InputConfig.emptied_ok : InputConfig.emptied.Ok := by
  constructor <;> decide

theorem decodeRecord_ok {s : Slot} {bs : List Byte} {x : Record} (h : decodeRecord s bs = some x) :
    x.InRange := by
  cases s <;> simp only [decodeRecord, Option.map_eq_some_iff] at h <;> obtain ⟨d, hd, e⟩ := h <;>
    cases e
  · exact decodeIdentity_ok hd
  · exact fun _ hc => decodeStation_ok hd hc
  · exact decodeBarrier_ok hd
  · exact fun _ hc => decodeCadence_ok hd hc
  · trivial
  · exact decodeInput_ok hd
  · trivial

/-- A load leaves every record with values of its ranges only (R184). -/
theorem loadTables_inRange (cells : List Host.Cell) (own : Addr) :
    (loadTables cells own).1.InRange := by
  refine ⟨?_, ?_, ?_, ?_, ?_⟩
  · simp only [loadTables, loadIdentity]
    split
    · exact Identity.defaults_ok
    · next d hd =>
      have hk := decodeIdentity_ok hd
      split
      · exact ⟨hk.1, fun _ h => by cases h⟩
      · exact hk
  · intro i c h
    simp only [loadTables, loadStations, Bank.get_ofFn] at h
    split at h
    · cases h
    · rw [Bank.get_map, readBank, Bank.get_ofFn] at h
      cases hd : decodeStation (recordAt cells 33 12 i.val) with
      | none => rw [hd] at h; cases h
      | some x => rw [hd] at h; exact decodeStation_ok hd h
  · intro b
    simp only [loadTables, loadBarriers, Bank.get_map, readBank, Bank.get_ofFn]
    cases hd : decodeBarrier (recordAt cells 609 25 b.val) with
    | none => exact BarrierConfig.emptied_ok
    | some x => exact decodeBarrier_ok hd
  · intro k c h
    simp only [loadTables, loadCadences, Bank.get_map, readBank, Bank.get_ofFn] at h
    cases hd : decodeCadence (recordAt cells 809 19 k.val) with
    | none => rw [hd] at h; cases h
    | some x => rw [hd] at h; exact decodeCadence_ok hd h
  · intro i
    simp only [loadTables, loadInputs, Bank.get_ofFn, Bank.get_map, readBank]
    have hk : ((decodeInput (recordAt cells 1209 4 i.val)).getD InputConfig.emptied).Ok := by
      cases hd : decodeInput (recordAt cells 1209 4 i.val) with
      | none => exact InputConfig.emptied_ok
      | some x => exact decodeInput_ok hd
    split
    · exact hk
    · exact hk

/-- Emptied tables hold values of their ranges only (R184). -/
theorem emptied_inRange : Tables.emptied.InRange := by
  refine ⟨Identity.defaults_ok, ?_, ?_, ?_, ?_⟩
  · intro i c h
    have e : Tables.emptied.stations.get i = none := Bank.get_fill 48 none i
    rw [e] at h
    cases h
  · intro b
    have e : Tables.emptied.barriers.get b = BarrierConfig.emptied := Bank.get_fill 8 _ b
    rw [e]
    exact BarrierConfig.emptied_ok
  · intro k c h
    have e : Tables.emptied.cadences.get k = none := Bank.get_fill 16 none k
    rw [e] at h
    cases h
  · intro i
    have e : Tables.emptied.inputs.get i = InputConfig.emptied := Bank.get_fill 8 _ i
    rw [e]
    exact InputConfig.emptied_ok

/-- A part with emptied tables keeps the rules over several records. -/
theorem tablesOk_of_emptied {r : Relay} (h : r.tables = Tables.emptied) : r.TablesOk := by
  have es : ∀ i, Tables.emptied.stations.get i = none := fun i => Bank.get_fill 48 none i
  have eb : ∀ c : Fin 4, (Tables.emptied.bindings.get c).line = some c := by
    intro c
    fin_cases c <;> rfl
  unfold Relay.TablesOk
  rw [h]
  refine ⟨emptied_inRange, ?_, ?_, ?_, ?_, ?_⟩
  · intro i j c e hi
    rw [es i] at hi
    cases hi
  · intro c e l hc he
    rw [eb] at hc he
    exact Option.some.inj (hc.trans he.symm)
  · unfold Tables.KeysOk
    decide +kernel
  · intro i c hi
    rw [es i] at hi
    cases hi
  · intro m hm
    cases hm

/-! ## The length of an image -/

theorem flatMap_length {α β : Type} (f : α → List β) (n : Nat) :
    ∀ xs : List α, (∀ a ∈ xs, (f a).length = n) → (xs.flatMap f).length = n * xs.length
  | [], _ => rfl
  | x :: xs, h => by
    rw [List.flatMap_cons, List.length_append, h x List.mem_cons_self,
      flatMap_length f n xs (fun a ha => h a (List.mem_cons_of_mem x ha)), List.length_cons]
    ring

theorem bankBytes_length {α : Type} {n k : Nat} (v : Bank α n) (f : α → List Byte)
    (h : ∀ i, (f (v.get i)).length = k) : (bankBytes v f).length = k * n := by
  unfold bankBytes
  rw [flatMap_length f k, v.size]
  intro a ha
  obtain ⟨i, hi, e⟩ := List.getElem_of_mem ha
  have := h ⟨i, v.size ▸ hi⟩
  simpa [Bank.get, e] using this

theorem encodeStation_length (x : Option StationConfig) : (encodeStation x).length = 12 := by
  cases x <;> rfl

theorem encodeCadence_length (x : Option Cadence) (h : ∀ c, x = some c → c.inRange = true) :
    (encodeCadence x).length = 19 := by
  cases x with
  | none => rfl
  | some c =>
    have hr := h c rfl
    simp only [Cadence.inRange, within, Bool.and_eq_true, decide_eq_true_eq] at hr
    have hs : c.steps.length ≤ 8 := hr.1.1.1.2
    simp only [encodeCadence, List.length_cons, stepBytes]
    rw [flatMap_length _ 2 _ (fun _ _ => rfl), List.length_append, List.length_replicate]
    omega

/-- The records of tables that are in range take exactly the image's bytes (R182). -/
theorem Tables.bytes_length (t : Tables) (h : t.InRange) : t.bytes.length = Config.imageLength := by
  have h2 := bankBytes_length t.stations _ (fun i => encodeStation_length (t.stations.get i))
  have h3 := bankBytes_length t.barriers encodeBarrier (k := 25) (fun _ => rfl)
  have h4 := bankBytes_length t.cadences _
    (fun i => encodeCadence_length (t.cadences.get i) (h.2.2.2.1 i))
  have h5 := bankBytes_length t.dispatch encodeDispatch (k := 3) (fun _ => rfl)
  have h6 := bankBytes_length t.inputs encodeInput (k := 4) (fun _ => rfl)
  have h7 := bankBytes_length t.bindings encodeBinding (k := 2) (fun _ => rfl)
  unfold Tables.bytes
  simp only [List.length_append]
  rw [h2, h3, h4, h5, h6, h7]
  rfl

theorem imageBytes_length (t : Tables) (v : Nat) (h : t.InRange) :
    (imageBytes t v).length = Config.imageHeader + Config.imageLength := by
  unfold imageBytes
  rw [List.length_append, t.bytes_length h]
  rfl

/-! ## A written image is VALID -/

theorem pairAt_be2 {n : Nat} (h : n < 65536) (xs ys : List Byte) :
    pairAt (xs ++ be2 n ++ ys) xs.length = n := by
  have h1 : byteAt (xs ++ be2 n ++ ys) xs.length = n / 256 % 256 := by
    simp [byteAt, be2, byte]
  have h2 : byteAt (xs ++ be2 n ++ ys) (xs.length + 1) = n % 256 := by
    simp [byteAt, be2, byte]
  rw [pairAt, h1, h2]
  omega

/-- A memory that holds a whole image of tables in range is judged VALID (R182, R184). -/
theorem judgeImage_written {t : Tables} (v : Nat) {m : List Host.Cell} {memory : SerialMemory}
    (h : t.InRange) (hm : Memory.wf m = true) (ha : memory.answers = true)
    (hc : memory.cells = Memory.writeBytes m 0 (imageBytes t v)) : judgeImage memory = .valid := by
  have hr := Memory.readBytes_writeBytes 0 (imageBytes t v) hm
  rw [imageBytes_length t v h, readBytes_append] at hr
  obtain ⟨h0, h1⟩ := List.append_inj (t₂ := t.bytes)
    (s₂ := be2 Config.imageLength ++ be2 v ++ be2 (checksum t.bytes)) hr (readBytes_length _ _ _)
  unfold judgeImage
  rw [ha, hc, h0, show Memory.readBytes _ Config.imageHeader Config.imageLength = t.bytes from h1]
  have hs : checksum t.bytes < 65536 := Nat.mod_lt _ (by decide)
  have e := pairAt_be2 hs (be2 Config.imageLength ++ be2 v) []
  rw [List.append_nil] at e
  have e' := pairAt_be2 (n := Config.imageLength) (by decide) [] (be2 v ++ be2 (checksum t.bytes))
  rw [List.nil_append, ← List.append_assoc] at e'
  rw [if_pos rfl, if_pos ⟨e', e.symm⟩]

end Sys2Proof.Machine
end

