-- ==== Sys2Proof/Laws/Replies.lean ====
section
/-! SUPPORT. What an offer to the routine queue, and so a reply, leaves unchanged; and how a command
that is awake or a request that is acted on unfolds. -/

namespace Sys2Proof.Machine

theorem SameButReply.refl (r : Relay) : SameButReply r r :=
  ⟨rfl, rfl, rfl, rfl, rfl, rfl, rfl, rfl, rfl, rfl, rfl, rfl, rfl, ⟨rfl, rfl⟩, rfl, rfl, rfl, rfl,
    rfl, rfl⟩

theorem SameButReply.trans {r s t : Relay} (h : SameButReply r s) (k : SameButReply s t) :
    SameButReply r t where
  clock := k.clock.trans h.clock
  pins := k.pins.trans h.pins
  memory := k.memory.trans h.memory
  store := k.store.trans h.store
  tables := k.tables.trans h.tables
  upper := k.upper.trans h.upper
  lower := by rw [k.lower, h.lower]
  field := k.field.trans h.field
  lineLoss := k.lineLoss.trans h.lineLoss
  generator := k.generator.trans h.generator
  checker := k.checker.trans h.checker
  stations := k.stations.trans h.stations
  barriers := k.barriers.trans h.barriers
  quiet := ⟨k.quiet.1.trans h.quiet.1, k.quiet.2.trans h.quiet.2⟩
  channels := k.channels.trans h.channels
  lines := k.lines.trans h.lines
  inputs := k.inputs.trans h.inputs
  key := k.key.trans h.key
  agent := by rw [k.agent, h.agent]
  freeCount := k.freeCount.trans h.freeCount

theorem setPool_same (r : Relay) (x : Pool) : SameButReply r (r.setPool x) :=
  ⟨rfl, rfl, rfl, rfl, rfl, rfl, rfl, rfl, rfl, rfl, rfl, rfl, rfl, ⟨rfl, rfl⟩, rfl, rfl, rfl, rfl,
    rfl, rfl⟩

theorem takeLower_same (r : Relay) : SameButReply r (r.take .lower) := by
  unfold Relay.take
  split
  · split
    · exact SameButReply.refl r
    · exact ⟨rfl, rfl, rfl, rfl, rfl, rfl, rfl, rfl, rfl, rfl, rfl, rfl, rfl, ⟨rfl, rfl⟩, rfl, rfl,
        rfl, rfl, rfl, rfl⟩
  · exact SameButReply.refl r

theorem offerRoutine_same (r : Relay) (b : Buffer) : SameButReply r (r.offerRoutine b).1 := by
  unfold Relay.offerRoutine
  split
  · exact (setPool_same r _).trans (takeLower_same _)
  · exact setPool_same r _

theorem countAdmitted_same (r : Relay) : SameButReply r r.countAdmitted :=
  ⟨rfl, rfl, rfl, rfl, rfl, rfl, rfl, rfl, rfl, rfl, rfl, rfl, rfl, ⟨rfl, rfl⟩, rfl, rfl, rfl, rfl,
    rfl, rfl⟩

theorem offerOwnRoutine_same (r : Relay) (f : Frame) (m : Maker) :
    SameButReply r (r.offerOwn .routine f m).1 := by
  unfold Relay.offerOwn
  dsimp only
  split
  · exact (offerRoutine_same r _).trans (countAdmitted_same _)
  · exact offerRoutine_same r _

/-- A reply touches the pool, the LOWER transmitter, the relay sequence and one counter (R167). -/
theorem reply_same (r : Relay) (q : Sender) (result : Result) (data : List Byte) :
    SameButReply r (r.reply q result data) := by
  unfold Relay.reply
  dsimp only
  split
  · exact offerOwnRoutine_same r _ _
  · exact (offerOwnRoutine_same r _ _).trans
      ⟨rfl, rfl, rfl, rfl, rfl, rfl, rfl, rfl, rfl, rfl, rfl, rfl, rfl, ⟨rfl, rfl⟩, rfl, rfl, rfl,
        rfl, rfl, rfl⟩

/-! ## Unfolding a command -/

theorem Relay.whenAwake_of_awake {r : Relay} (h : r.awake = true) (f : Relay → Relay) :
    r.whenAwake f = f r := by
  unfold Relay.whenAwake Relay.when
  rw [if_pos h]

theorem Relay.whenAwake_of_not {r : Relay} (h : r.awake = false) (f : Relay → Relay) :
    r.whenAwake f = r := by
  unfold Relay.whenAwake Relay.when
  rw [h]
  rfl

theorem request_of_ok {r : Relay} {q : Sender} {args : List Byte} {a : Action}
    (hs : r.actsFor q.origin = true) (hc : r.counted.check q.code.toNat args = .ok a) :
    r.request q args = r.counted.carryOut q args a := by
  unfold Relay.request
  rw [if_pos hs, hc]

theorem request_of_error {r : Relay} {q : Sender} {args : List Byte} {e : Result}
    (hs : r.actsFor q.origin = true) (hc : r.counted.check q.code.toNat args = .error e) :
    r.request q args = r.counted.refuse q e := by
  unfold Relay.request
  rw [if_pos hs, hc]

/-- A request other than RESTART that fails a check is answered on the routine queue (R42, R167). -/
theorem refuse_of_ne {r : Relay} {q : Sender} {e : Result} (h : q.code ≠ 14#8) :
    r.refuse q e = r.reply q e [] :=
  if_neg h

end Sys2Proof.Machine
end

