-- ==== Sys2Proof/Laws/Commands.lean ====
section
/-! SUPPORT. The chains of moves of the stations, the inputs, the start, the agent, the classifier
and the ports, and what each command can do to the part. -/

namespace Sys2Proof.Machine

variable {stand : Bool}

/-! ## Stations -/

theorem fillOf_le (e f d : Nat) : fillOf e f d ≤ 1200 := by
  unfold fillOf
  split
  · exact Nat.zero_le _
  · exact Nat.min_le_left _ _

theorem pushFill_ok {window : List Nat} {fill : Nat} (hf : fill ≤ 1200)
    (hw : window.length ≤ 3 ∧ ∀ x ∈ window, x ≤ 1200) :
    (pushFill window fill).length ≤ 3 ∧ ∀ x ∈ pushFill window fill, x ≤ 1200 := by
  unfold pushFill
  constructor
  · simp only [List.length_drop, List.length_append, List.length_cons, List.length_nil]
    omega
  · intro x hx
    have h := List.mem_of_mem_drop hx
    rw [List.mem_append, List.mem_singleton] at h
    cases h with
    | inl h => exact hw.2 x h
    | inr h => exact h ▸ hf

theorem smoothedOf_le {window : List Nat} (hw : ∀ x ∈ window, x ≤ 1200) :
    ∀ f ∈ smoothedOf window, f ≤ 1200 := by
  intro f hf
  match window, hw, hf with
  | [], _, hf => cases hf
  | [a], hw, hf =>
    have e : f = a := by
      cases hf
      rfl
    rw [e]
    exact hw a (by simp)
  | [a, b], hw, hf =>
    cases hf
    exact Nat.le_trans (Nat.min_le_left _ _) (hw a (by simp))
  | a :: b :: c :: _, hw, hf =>
    cases hf
    have ha := hw a (by simp)
    have hb := hw b (by simp)
    have hc := hw c (by simp)
    omega

theorem takeFill_fillsOk {d : StationDyn} {fill : Nat} (hf : fill ≤ 1200) (h : d.FillsOk) :
    (d.takeFill fill).FillsOk :=
  let p := pushFill_ok hf ⟨h.1, h.2.1⟩
  ⟨p.1, p.2, smoothedOf_le p.2⟩

theorem emptyWindow_fillsOk (d : StationDyn) : d.emptyWindow.FillsOk :=
  ⟨Nat.zero_le _, fun _ h => (by cases h), fun _ h => (by cases h)⟩

theorem start_fillsOk : StationDyn.start.FillsOk :=
  ⟨Nat.zero_le _, fun _ h => (by cases h), fun _ h => (by cases h)⟩

theorem setSighting_moves (r : Relay) (i : Fin 48) (d : StationDyn)
    (ha : (r.stations.get i).Agrees → d.Agrees) (hf : (r.stations.get i).FillsOk → d.FillsOk)
    (hw : (r.stations.get i).Watched r.store.mode (r.tables.stations.get i) →
      d.Watched r.store.mode (r.tables.stations.get i)) :
    Moves stand r (r.setSighting i d) := by
  have h : Moves stand r (r.setStation i d) := (Move.station r i d ha hf hw).one
  unfold Relay.setSighting
  dsimp only
  split
  · split
    · exact h
    · exact h.andThen (remeasure_moves _ _ none)
  · exact h

theorem countStation_moves (r : Relay) (i : Fin 48) (f : StationCounters → StationCounters) :
    Moves stand r (r.countStation i f) := by
  refine (Move.station r i _ ?_ ?_ ?_).one
  all_goals exact fun h => h

/-- A deadline from a hearing or a start is present exactly when the station is watched (R61). -/
theorem deadlineFrom_isSome (c : StationConfig) (grace now : Nat) :
    (c.deadlineFrom grace now).isSome = true ↔ c.interval ≠ 0 := by
  unfold StationConfig.deadlineFrom
  split
  · next h => exact ⟨fun e => (by cases e), fun n => absurd h n⟩
  · next h => exact ⟨fun _ => h, fun _ => rfl⟩

theorem hearStation_moves (r : Relay) (i : Fin 48) (c : StationConfig)
    (hc : r.tables.stations.get i = some c) (hm : r.store.mode = .assessing) :
    Moves stand r (r.hearStation i c) := by
  refine setSighting_moves r i _ ?_ ?_ ?_
  · intro _
    rfl
  · exact fun h => h
  · intro _
    rw [hc, hm]
    refine ⟨fun _ => ⟨fun _ => deadlineFrom_isSome _ _ _, ?_⟩, fun n => absurd rfl n⟩
    intro h
    rcases h with h | h <;> cases h

/-- A station with a deadline, or one that is LATE or SILENT, is watched and the mode is ASSESSING. -/
theorem watched_of_deadline {d : StationDyn} {mode : Mode} {c : StationConfig} {e : Nat}
    (h : d.Watched mode (some c)) (hd : d.deadline = some e) :
    mode = .assessing ∧ c.interval ≠ 0 := by
  by_cases hm : mode = .assessing
  · refine ⟨hm, ?_⟩
    have hs : d.deadline.isSome = true := by rw [hd]; rfl
    cases hst : d.state with
    | unheard => exact ((h.1 hm).1 (Or.inl hst)).mp hs
    | live => exact ((h.1 hm).1 (Or.inr hst)).mp hs
    | late => exact (h.1 hm).2 (Or.inl hst)
    | silent => exact (h.1 hm).2 (Or.inr hst)
  · have := (h.2 hm).2
    rw [hd] at this
    cases this

/-- A watched station that goes LATE or SILENT stays so watched. -/
theorem watched_missed {d x : StationDyn} {mode : Mode} {c : StationConfig} {e : Nat}
    (hx : x.state = .late ∨ x.state = .silent) (hd : d.deadline = some e)
    (h : d.Watched mode (some c)) : x.Watched mode (some c) := by
  obtain ⟨hm, hi⟩ := watched_of_deadline h hd
  refine ⟨fun _ => ⟨?_, fun _ => hi⟩, fun n => absurd hm n⟩
  intro hs
  rcases hx with hx | hx <;> rw [hx] at hs <;> rcases hs with hs | hs <;> cases hs

theorem gaugeSilent_moves (r : Relay) (i : Fin 48) (b : Fin 8) (c : StationConfig) (e : Nat)
    (hc : r.tables.stations.get i = some c) (hd : (r.stations.get i).deadline = some e) :
    Moves stand r (r.gaugeSilent i b) := by
  unfold Relay.gaugeSilent
  dsimp only
  refine Moves.andThen (Moves.andThen (Moves.andThen (Move.station r i _ ?_ ?_ ?_).one
    (Moves.whenIf (fun _ => ?_))) (Moves.whenIf (fun _ => recompute_moves _ b none)))
    (evaluate_moves _ b)
  · intro _
    exact ⟨rfl, rfl⟩
  · intro _
    exact emptyWindow_fillsOk _
  · rw [hc]
    exact watched_missed (Or.inr rfl) hd
  · refine setBarrier_latches _ b _ ?_ ?_ ?_ ?_
    all_goals rfl

theorem silenced_moves (r : Relay) (i : Fin 48) (c : StationConfig) (e : Nat)
    (hc : r.tables.stations.get i = some c) (hd : (r.stations.get i).deadline = some e) :
    Moves stand r (r.setStation i (r.stations.get i).silenced) := by
  refine (Move.station r i _ ?_ ?_ ?_).one
  · intro _
    exact ⟨rfl, rfl⟩
  · exact fun h => h
  · rw [hc]
    exact watched_missed (Or.inr rfl) hd

theorem goSilent_moves (r : Relay) (i : Fin 48) (c : StationConfig) (e : Nat)
    (hc : r.tables.stations.get i = some c) (hd : (r.stations.get i).deadline = some e) :
    Moves stand r (r.goSilent i c) := by
  have hs := silenced_moves (stand := stand) r i c e hc hd
  unfold Relay.goSilent
  split
  · exact gaugeSilent_moves r i _ c e hc hd
  · exact hs.andThen (feederSilent_moves _ _)
  · exact hs
  · exact hs
  · exact hs

theorem deadlineExpires_moves (r : Relay) (i : Fin 48) :
    Moves stand r (r.deadlineExpires i) := by
  unfold Relay.deadlineExpires
  split
  · exact Moves.rfl'
  · next c hc =>
    dsimp only
    split
    · next hr =>
      obtain ⟨e, hd⟩ : ∃ e, (r.stations.get i).deadline = some e := by
        unfold reached at hr
        split at hr
        · next e he => exact ⟨e, he⟩
        · cases hr
      split
      · next hm =>
        refine (Move.station r i _ ?_ ?_ ?_).one
        · intro _
          refine ⟨?_, ?_⟩
          · change _ + 1 = 1 ∨ _ + 1 = 2
            omega
          · change (Option.map _ (r.stations.get i).deadline).isSome = true
            rw [hd]
            rfl
        · exact fun h => h
        · rw [hc]
          exact watched_missed (Or.inl rfl) hd
      · exact goSilent_moves r i c e hc hd
    · exact Moves.rfl'

theorem noted_moves (r : Relay) (i : Fin 48) (v : Nat) (q : Quality) (t : Nat) :
    Moves stand r (r.setStation i ((r.stations.get i).note v q t)) := by
  refine (Move.station r i _ ?_ ?_ ?_).one
  all_goals exact fun h => h

theorem handReading_moves (r : Relay) (i : Fin 48) (c : StationConfig) (x : Reading)
    (sample : Nat) : Moves stand r (r.handReading i c x sample) := by
  have hn := noted_moves (stand := stand) r i x.value x.effective sample
  unfold Relay.handReading
  dsimp only
  split
  · refine setSighting_moves r i _ ?_ ?_ ?_
    all_goals exact fun h => h
  · refine Moves.andThen (Move.station r i _ ?_ ?_ ?_).one (remeasure_moves _ _ _)
    · exact fun h => h
    · exact fun h => takeFill_fillsOk (fillOf_le _ _ _) h
    · exact fun h => h
  · exact hn
  · split
    · exact hn.andThen (deliverBreak_moves _ _ _)
    · split
      · refine (Move.station r i _ ?_ ?_ ?_).one
        all_goals exact fun h => h
      · exact hn
  · exact hn
  · exact hn.andThen (contributeTo_moves _ _ _ _)
  · exact hn
  · exact hn.andThen (contributeTo_moves _ _ _ _)
  · exact hn

theorem takeReading_moves (r : Relay) (i : Fin 48) (c : StationConfig) (x : Reading) :
    Moves stand r (r.takeReading i c x) := by
  unfold Relay.takeReading
  split
  · split
    · exact countStation_moves r i _
    · exact handReading_moves r i c x _
  · exact countStation_moves r i _

theorem takeReadings_moves (r : Relay) (i : Fin 48) (c : StationConfig) (bs : List Byte) :
    Moves stand r (r.takeReadings i c bs) :=
  Moves.foldl (f := fun r x => Relay.takeReading r i c x)
    (fun r x => takeReading_moves r i c x) _ r

theorem acceptFrame_moves (r : Relay) (i : Fin 48) (c : StationConfig) (n : Byte)
    (hc : r.tables.stations.get i = some c) (hm : r.store.mode = .assessing) :
    Moves stand r (r.acceptFrame i c n) := by
  unfold Relay.acceptFrame
  dsimp only
  refine Moves.andThen (Move.station r i _ ?_ ?_ ?_).one (hearStation_moves _ i c hc hm)
  all_goals exact fun h => h

/-- The record that an address looks up stands in the station table (R48). -/
theorem lookup_get {r : Relay} {a : Addr} {i : Fin 48} {c : StationConfig}
    (h : r.lookup a = some (i, c)) : r.tables.stations.get i = some c := by
  unfold Relay.lookup at h
  obtain ⟨j, _, hj⟩ := List.exists_of_findSome?_eq_some h
  split at hj
  · next c' e =>
    split at hj
    · cases hj
      exact e
    · cases hj
  · cases hj

theorem judgeFrame_moves (r : Relay) (i : Fin 48) (c : StationConfig) (n : Byte) (fresh : Bool)
    (hc : r.tables.stations.get i = some c) (hm : r.store.mode = .assessing) :
    Moves stand r (r.judgeFrame i c n fresh).1 := by
  unfold Relay.judgeFrame
  split
  · exact acceptFrame_moves r i c n hc hm
  · dsimp only
    exact countStation_moves r i _
  · dsimp only
    exact countStation_moves r i _

theorem clearStationCounters_moves (r : Relay) : Moves stand r r.clearStationCounters := by
  refine (Move.stations r _ ?_ ?_ ?_).one
  all_goals
    intro i h
    rw [Bank.get_map]
    exact h

/-- A started record is watched as its interval and the mode say (R63, R64). -/
theorem started_watched (r : Relay) (d : StationDyn) (c : StationConfig) :
    (d.started (r.startDeadline c)).Watched r.store.mode (some c) := by
  refine ⟨fun hm => ⟨fun _ => ?_, ?_⟩, fun hm => ⟨rfl, ?_⟩⟩
  · change (r.startDeadline c).isSome = true ↔ _
    unfold Relay.startDeadline
    rw [if_pos hm]
    exact deadlineFrom_isSome _ _ _
  · intro h
    rcases h with h | h <;> cases h
  · change r.startDeadline c = none
    unfold Relay.startDeadline
    rw [if_neg hm]

theorem start_watched (mode : Mode) : StationDyn.start.Watched mode none :=
  ⟨rfl, rfl⟩

/-- Starting the stations leaves every record in agreement, in range and watched as it should be. -/
theorem startStations_ok (r : Relay) (i : Fin 48) :
    (r.startStations.stations.get i).Agrees ∧ (r.startStations.stations.get i).FillsOk
      ∧ (r.startStations.stations.get i).Watched r.store.mode (r.tables.stations.get i) := by
  unfold Relay.startStations
  rw [Relay.setStations_stations, Bank.get_ofFn]
  split
  · next c hc =>
    rw [hc]
    exact ⟨rfl, start_fillsOk, started_watched r _ c⟩
  · next hc =>
    rw [hc]
    exact ⟨rfl, start_fillsOk, start_watched _⟩

theorem writtenStation_watched (r : Relay) (i : Fin 48) (new : Option StationConfig) :
    (r.writtenStation i new).Watched r.store.mode new := by
  unfold Relay.writtenStation
  cases new with
  | none =>
    have hn : ∀ old (d : StationDyn), writtenFields old none d = StationDyn.start := by
      intro old d
      cases old <;> rfl
    dsimp only
    rw [hn]
    exact start_watched _
  | some c => exact started_watched r _ c

theorem writtenStation_ok (r : Relay) (i : Fin 48) (new : Option StationConfig) :
    (r.writtenStation i new).Agrees
      ∧ ((r.stations.get i).FillsOk → (r.writtenStation i new).FillsOk) := by
  have hf : ∀ old (d : StationDyn), d.FillsOk → (writtenFields old new d).FillsOk := by
    intro old d h
    unfold writtenFields
    split
    · split
      · split
        · exact h
        · exact emptyWindow_fillsOk _
      · exact start_fillsOk
    · exact start_fillsOk
  unfold Relay.writtenStation
  dsimp only
  split
  · exact ⟨rfl, fun h => hf _ _ h⟩
  · refine ⟨?_, fun h => hf _ _ h⟩
    have hn : ∀ old (d : StationDyn), writtenFields old none d = StationDyn.start := by
      intro old d
      cases old <;> rfl
    rw [hn]
    exact rfl

theorem writeStation_moves (r : Relay) (i : Fin 48) (new : Option StationConfig)
    (h : r.TablesOk →
      (r.setTables { r.tables with stations := r.tables.stations.set i new }).TablesOk) :
    Moves stand r (r.writeStation i new) := by
  have h1 : Moves stand r
      ((r.setTables { r.tables with stations := r.tables.stations.set i new }).setStation i
        (r.writtenStation i new)) := by
    exact (Move.stationRecord r i new _ h (writtenStation_ok r i new).1
      (writtenStation_ok r i new).2 (writtenStation_watched r i new)).one
  unfold Relay.writeStation
  dsimp only
  split
  · exact h1.andThen (Moves.foldl (f := fun r b => Relay.remeasure r b none)
      (fun r b => remeasure_moves r b none) _ _)
  · exact h1

/-! ## Inputs -/

theorem inputMoves_moves (r : Relay) (i : Fin 8) : Moves stand r (r.inputMoves i) := by
  unfold Relay.inputMoves
  dsimp only
  split
  all_goals first
    | exact Moves.rfl'
    | exact (Move.inputs r _).one

theorem deliverTrip_moves (r : Relay) (f : InputFunction) : Moves stand r (r.deliverTrip f) := by
  cases f
  · exact Moves.rfl'
  · exact deliverBreak_moves r _ _
  · exact deliverBreak_moves r _ _
  · exact deliverManual_moves r _
  · exact Moves.rfl'

theorem settleKey_moves (r : Relay) : Moves stand r r.settleKey := by
  unfold Relay.settleKey
  split <;> split
  all_goals first
    | exact Moves.rfl'
    | exact (Move.key r _).one

theorem levelChanges_moves (r : Relay) (i : Fin 8) (x : PinLevel) :
    Moves stand r (r.levelChanges i x) := by
  unfold Relay.levelChanges
  split
  · exact Moves.rfl'
  · exact ((Move.pins r _).one).andThen (Moves.whenAwake
      ((Moves.whenIf (fun _ => inputMoves_moves _ i)).andThen (settleKey_moves _)))

theorem debounceExpires_moves (r : Relay) (i : Fin 8) : Moves stand r (r.debounceExpires i) := by
  unfold Relay.debounceExpires
  dsimp only
  split
  · split
    · exact (((Move.inputs r _).one).andThen (deliverTrip_moves _ _)).andThen (settleKey_moves _)
    · exact ((Move.inputs r _).one).andThen (settleKey_moves _)
    · exact Moves.rfl'
  · exact Moves.rfl'

theorem startInput_moves (r : Relay) (i : Fin 8) : Moves stand r (r.startInput i) := by
  unfold Relay.startInput
  exact ((Move.inputs r _).one).andThen (Moves.whenIf (fun _ => inputMoves_moves _ i))

theorem startInputs_moves (r : Relay) : Moves stand r r.startInputs :=
  (Moves.foldl (f := fun r i => Relay.startInput r i)
    (fun r i => startInput_moves r i) _ r).andThen (settleKey_moves _)

theorem writeInput_moves (r : Relay) (i : Fin 8) (new : InputConfig)
    (h : r.TablesOk →
      (r.setTables { r.tables with inputs := r.tables.inputs.set i new }).TablesOk) :
    Moves stand r (r.writeInput i new) := by
  unfold Relay.writeInput
  exact ((Move.tables r _ h rfl rfl).one).andThen (Moves.whenIf (fun _ =>
    ((startInput_moves _ i).andThen (Moves.whenIf (fun _ => (Move.key _ _).one))).andThen
      (settleKey_moves _)))

/-! ## Health, start and restart -/

theorem buildHealth_moves (r : Relay) (band : Band) (urgent : Bool) :
    Moves stand r (r.buildHealth band urgent) :=
  (offerOwn_moves r _ _ _).andThen (Move.agent _ _).one

theorem sendHealth_moves (r : Relay) : Moves stand r r.sendHealth :=
  buildHealth_moves r _ _

theorem healthExpires_moves (r : Relay) : Moves stand r r.healthExpires :=
  Moves.whenIf (fun _ => sendHealth_moves r)

theorem deliverBand_moves (r : Relay) (band : Band) (d : BandDelivery) :
    Moves stand r (r.deliverBand band d) := by
  cases d
  · exact shedBand_moves r band
  · exact Moves.whenIf (fun _ => preemptTest_moves r)
  · exact bandAtChannels_moves r band
  · exact buildHealth_moves r band _

theorem changeBand_moves (r : Relay) (band : Band) (order : List BandDelivery) :
    Moves stand r (r.changeBand band order) :=
  Moves.foldl (f := fun r d => Relay.deliverBand r band d)
    (fun r d => deliverBand_moves r band d) _ r

theorem sampleBattery_moves (r : Relay) (order : List BandDelivery)
    (h : r.store.mode ≠ .starting) : Moves stand r (r.sampleBattery order) := by
  have h1 : Moves stand r
      (r.setStore { r.store with nextSample := r.store.nextSample + Config.samplePeriod }) := by
    refine (Move.store r _ ?_ ?_ ?_).one
    all_goals rfl
  unfold Relay.sampleBattery
  dsimp only
  rw [if_neg h]
  split
  · exact h1
  · exact h1.andThen (changeBand_moves _ _ _)

/-- Starting the inputs touches the inputs and the key alone. -/
theorem startInputs_shape (r : Relay) :
    ∃ x k, r.startInputs = (r.setInputs x).setKey k := by
  have h1 : ∀ (r : Relay) (i : Fin 8), ∃ x, r.startInput i = r.setInputs x := by
    intro r i
    unfold Relay.startInput Relay.when Relay.inputMoves
    dsimp only
    split
    · split <;> exact ⟨_, rfl⟩
    · exact ⟨_, rfl⟩
  have h2 : ∀ (xs : List (Fin 8)) (r : Relay),
      ∃ x, xs.foldl (fun r i => r.startInput i) r = r.setInputs x := by
    intro xs
    induction xs with
    | nil => exact fun r => ⟨r.inputs, rfl⟩
    | cons i xs ih =>
      intro r
      obtain ⟨x, hx⟩ := h1 r i
      obtain ⟨y, hy⟩ := ih (r.startInput i)
      exact ⟨y, by rw [List.foldl_cons, hy, hx]; rfl⟩
  obtain ⟨x, hx⟩ := h2 (List.finRange 8) r
  unfold Relay.startInputs
  rw [hx]
  unfold Relay.settleKey
  split <;> split <;> exact ⟨x, _, rfl⟩

/-- The start of assessment, from where the stations have been started. -/
theorem startAssessing_moves (r : Relay) :
    Moves stand (r.setStations r.startedBank) r.startAssessing := by
  unfold Relay.startedBank Relay.startAssessing Relay.when
  by_cases h : r.store.mode = .assessing
  · rw [if_pos h, if_pos (by rw [h]; rfl)]
    exact (startRecompute_moves r.startStations).andThen (startEvaluation_moves _)
  · rw [if_neg h, if_neg (by simpa using h)]
    exact Moves.rfl'

/-- What a start hands on, from where the stations have been started. -/
theorem goLive_moves (r : Relay) :
    ∃ line inputs key, Moves stand
      ((((r.setLineLoss line).setInputs inputs).setKey key).setStations r.startedBank)
      r.goLive := by
  obtain ⟨x, k, h⟩ := startInputs_shape r.releasePorts
  refine ⟨r.releasePorts.lineLoss, x, k, ?_⟩
  unfold Relay.goLive
  rw [h]
  exact (startAssessing_moves _).andThen (sendHealth_moves _)

theorem restart_moves (r : Relay) : Moves stand r r.restart := by
  obtain ⟨line, inputs, key, h⟩ := goLive_moves (stand := stand) r.keptByRestart
  exact ((Move.restart r line inputs key).one).andThen h

theorem keyExpires_moves (r : Relay) : Moves stand r r.keyExpires :=
  Moves.whenIf (fun _ => restart_moves r)

theorem readImageAs_mode (r : Relay) (m : SerialMemory) :
    (r.readImageAs m).store.mode = r.store.mode := by
  unfold Relay.readImageAs
  dsimp only
  split <;> rfl

/-- The image read and the leaving of STARTING, from a part that is not in ASSESSING mode. -/
theorem finishStart_moves (r : Relay) (readMs : Nat) (h : r.store.mode ≠ .assessing) :
    ∃ c, Moves stand (r.setClock c) (r.finishStart readMs) := by
  refine ⟨{ r.clock with ms := r.clock.ms + readMs }, ?_⟩
  unfold Relay.finishStart
  dsimp only
  obtain ⟨line, inputs, key, hg⟩ := goLive_moves (stand := stand)
    (((r.setClock { r.clock with ms := r.clock.ms + readMs }).readImage).setStore
      { ((r.setClock { r.clock with ms := r.clock.ms + readMs }).readImage).store with
        mode :=
          if ((r.setClock { r.clock with ms := r.clock.ms + readMs }).readImage).store.status
            = .valid then .assessing else .openLine })
  refine Moves.andThen (Moves.andThen (Move.load _ _ ?_).one
    (Move.leave _ _ line inputs key ?_ ?_).one) hg
  · exact h
  · rw [readImageAs_mode]
    exact h
  · split <;> decide

/-! ## Saving -/

theorem cutMemory_wf (r : Relay) (h : Memory.wf r.memory.cells = true) :
    Memory.wf r.cutMemory.cells = true := by
  unfold Relay.cutMemory
  split
  · exact Memory.wf_writeBytes _ _ h
  · exact h

theorem beginSave_moves (r : Relay) : Moves stand r r.beginSave := by
  unfold Relay.beginSave
  split
  · refine Moves.andThen (Move.memory r _ ?_).one (Move.store _ _ ?_ ?_ ?_).one
    · exact fun h => Memory.wf_writeBytes _ _ h
    all_goals rfl
  · refine (Move.store r _ ?_ ?_ ?_).one
    all_goals rfl

theorem saveOver_moves (r : Relay) (status : ImageStatus) (version : Nat) :
    Moves stand r (r.saveOver status version) := by
  refine (Move.store r _ ?_ ?_ ?_).one
  all_goals rfl

theorem writtenMemory_wf (r : Relay) (flaws : List Host.Cell)
    (h : Memory.wf r.memory.cells = true) : Memory.wf (r.writtenMemory flaws).cells = true :=
  Memory.wf_writeCells _ (Memory.wf_writeBytes _ _ h)

theorem endSave_moves (r : Relay) (answers : Bool) (flaws : List Host.Cell) :
    Moves stand r (r.endSave answers flaws).1 := by
  unfold Relay.endSave
  split
  · dsimp only
    split
    · exact ((Move.memory r _ (writtenMemory_wf r flaws)).one).andThen (saveOver_moves _ _ _)
    · exact ((Move.memory r _ (writtenMemory_wf r flaws)).one).andThen (saveOver_moves _ _ _)
  · unfold Relay.loseMemory
    dsimp only
    refine Moves.andThen (Moves.andThen (Move.memory r _ ?_).one (Move.freeCount _ _).one)
      (saveOver_moves _ _ _)
    exact fun h => cutMemory_wf r h

theorem endSave_mode (r : Relay) (answers : Bool) (flaws : List Host.Cell) :
    (r.endSave answers flaws).1.store.mode = r.store.mode := by
  unfold Relay.endSave
  split
  · dsimp only
    split <;> rfl
  · rfl

/-! ## The agent -/

theorem reply_moves (r : Relay) (q : Sender) (result : Result) (data : List Byte) :
    Moves stand r (r.reply q result data) := by
  unfold Relay.reply
  dsimp only
  split
  · exact offerOwn_moves r _ _ _
  · exact (offerOwn_moves r _ _ _).andThen (Move.agent _ _).one

theorem refuse_moves (r : Relay) (q : Sender) (result : Result) :
    Moves stand r (r.refuse q result) := by
  unfold Relay.refuse Relay.replyUrgent
  dsimp only
  split
  · split
    · exact offerOwn_moves r _ _ _
    · exact (offerOwn_moves r _ _ _).andThen (Move.agent _ _).one
  · exact reply_moves r _ _ _

theorem replyToSave_moves (r : Relay) (done : Bool) : Moves stand r (r.replyToSave done) := by
  unfold Relay.replyToSave
  split
  · exact Moves.rfl'
  · exact (reply_moves r _ _ _).andThen (Move.agent _ _).one

theorem replyToSave_mode (r : Relay) (done : Bool) :
    (r.replyToSave done).store.mode = r.store.mode := by
  unfold Relay.replyToSave
  split
  · rfl
  · exact congrArg Store.mode (reply_same r _ _ _).store

/-- The mode becomes ASSESSING, and all that follows (R189 steps 2 to 5). -/
theorem enterAssessing_moves (r : Relay) (h : r.store.mode ≠ .assessing) :
    Moves stand r
      ((r.setStore { r.store with mode := .assessing }).startAssessing.sendHealth) :=
  ((Move.leave r .assessing _ _ _ h (by decide)).one.andThen (startAssessing_moves _)).andThen
    (sendHealth_moves _)

theorem loadAfterSave_moves (r : Relay) (load : LoadRead) (h : r.store.mode ≠ .assessing) :
    Moves stand r (r.loadAfterSave load) := by
  have hl : Moves stand r ((r.setMemory { r.memory with answers := load.answers }).readImageAs
      (memoryShown r.memory load)) := by
    exact ((Move.memory r { r.memory with answers := load.answers } (fun h => h)).one).andThen
      (Move.load (r.setMemory { r.memory with answers := load.answers }) _ h).one
  have hm : ((r.setMemory { r.memory with answers := load.answers }).readImageAs
      (memoryShown r.memory load)).store.mode ≠ .assessing := by
    rw [readImageAs_mode]
    exact h
  unfold Relay.loadAfterSave
  dsimp only
  generalize (r.setMemory { r.memory with answers := load.answers }).readImageAs
    (memoryShown r.memory load) = loaded at hl hm
  split
  · exact (hl.andThen (Move.lines _ _).one).andThen (enterAssessing_moves loaded.senseLines hm)
  · exact hl

theorem finishSave_moves (r : Relay) (answers : Bool) (reads : SaveReads) :
    Moves stand r (r.finishSave answers reads) := by
  unfold Relay.finishSave
  dsimp only
  refine ((endSave_moves r answers reads.flaws).andThen (replyToSave_moves _ _)).andThen
    (Moves.whenIf (fun h => loadAfterSave_moves _ reads.load ?_))
  rw [replyToSave_mode, endSave_mode]
  rw [Bool.and_eq_true, beq_iff_eq] at h
  rw [h.2]
  decide

/-- A write that passed the checks keeps the ranges of the tables and the rules over several records. -/
theorem tablesOk_write (r : Relay) (x : Record) (hf : r.fits x = true)
    (ha : r.addressTaken x = false) (hx : x.InRange) (h : r.TablesOk) :
    match x with
    | .identity d => (r.setTables { r.tables with identity := d }).TablesOk
    | .station i c =>
      (r.setTables { r.tables with stations := r.tables.stations.set i c }).TablesOk
    | .barrier _ _ => True
    | .cadence k c =>
      (r.setTables { r.tables with cadences := r.tables.cadences.set k c }).TablesOk
    | .dispatch k e =>
      (r.setTables { r.tables with dispatch := r.tables.dispatch.set k e }).TablesOk
    | .input i c => (r.setTables { r.tables with inputs := r.tables.inputs.set i c }).TablesOk
    | .binding c b =>
      (r.setTables { r.tables with bindings := r.tables.bindings.set c b }).TablesOk := by
  obtain ⟨⟨g1, g2, g3, g4, g5⟩, h1, h2, h3, h4, h5⟩ := h
  cases x with
  | identity d =>
    refine ⟨⟨hx, g2, g3, g4, g5⟩, h1, h2, h3, h4, ?_⟩
    intro m hm e
    simp only [Relay.setTables_tables] at hm
    simp only [Relay.fits, bne_iff_ne, ne_eq] at hf
    exact hf (by rw [hm, e]; rfl)
  | station i c =>
    cases c with
    | none =>
      refine ⟨⟨g1, ?_, g3, g4, g5⟩, ?_, h2, h3, ?_, h5⟩
      · intro j x hj
        simp only [Relay.setTables_tables, Bank.get_set] at hj
        split at hj
        · cases hj
        · exact g2 j x hj
      · intro j k x y hx hy e
        simp only [Relay.setTables_tables, Bank.get_set] at hx hy
        split at hx
        · cases hx
        · split at hy
          · cases hy
          · exact h1 j k x y hx hy e
      · intro j x hx
        simp only [Relay.setTables_tables, Bank.get_set] at hx
        split at hx
        · cases hx
        · exact h4 j x hx
    | some c =>
      simp only [Relay.addressTaken, Bool.or_eq_false_iff, beq_eq_false_iff_ne, ne_eq,
        List.any_eq_false, List.mem_finRange, forall_const, Bool.and_eq_true, bne_iff_ne,
        beq_iff_eq, not_and] at ha
      have hother : ∀ j e, j ≠ i → r.tables.stations.get j = some e → e.address ≠ c.address := by
        intro j e hj he hadd
        exact ha.2 j hj (by rw [he]; exact congrArg some hadd)
      refine ⟨⟨g1, ?_, g3, g4, g5⟩, ?_, h2, h3, ?_, h5⟩
      · intro j x hj
        simp only [Relay.setTables_tables, Bank.get_set] at hj
        split at hj
        · exact hx x hj
        · exact g2 j x hj
      · intro j k x y hx hy e
        simp only [Relay.setTables_tables, Bank.get_set] at hx hy
        split at hx
        · next hij =>
          cases hx
          split at hy
          · next hik => exact hij.symm.trans hik
          · next hik => exact absurd e.symm (hother k y (fun e => hik e.symm) hy)
        · next hij =>
          split at hy
          · next hik =>
            cases hy
            exact absurd e (hother j x (fun e => hij e.symm) hx)
          · exact h1 j k x y hx hy e
      · intro j x hx
        simp only [Relay.setTables_tables, Bank.get_set] at hx
        split at hx
        · cases hx
          exact ha.1
        · exact h4 j x hx
  | barrier b c => trivial
  | cadence k c =>
    refine ⟨⟨g1, g2, g3, ?_, g5⟩, h1, h2, h3, h4, h5⟩
    intro j x hj
    simp only [Relay.setTables_tables, Bank.get_set] at hj
    split at hj
    · exact hx x hj
    · exact g4 j x hj
  | dispatch k e => exact ⟨⟨g1, g2, g3, g4, g5⟩, h1, h2, h3, h4, h5⟩
  | input i c =>
    refine ⟨⟨g1, g2, g3, g4, ?_⟩, h1, h2, ?_, h4, h5⟩
    · intro j
      simp only [Relay.setTables_tables, Bank.get_set]
      split
      · exact hx
      · exact g5 j
    unfold Tables.KeysOk at h3 ⊢
    simp only [Relay.setTables_tables, Bank.get_set]
    simp only [Relay.fits, Relay.keyInputs, Bool.or_eq_true, bne_iff_ne, ne_eq, decide_eq_true_eq,
      List.filter_filter] at hf
    by_cases hk : c.function = .resetKey
    · have hf2 := hf.resolve_left (fun n => n hk)
      have hle : ∀ xs : List (Fin 8), xs.Nodup →
          (xs.filter (fun j => (if i = j then c else r.tables.inputs.get j).function == .resetKey)).length
            ≤ (xs.filter (fun j => (j != i) &&
              ((r.tables.inputs.get j).function == .resetKey))).length + (if i ∈ xs then 1 else 0) := by
        intro xs
        induction xs with
        | nil => intro _; exact Nat.zero_le _
        | cons y ys ih =>
          intro hn
          have hy := List.nodup_cons.mp hn
          have := ih hy.2
          by_cases e : i = y
          · subst e
            simp only [List.filter_cons, hk, if_true, beq_self_eq_true, bne_self_eq_false,
              Bool.false_and, List.length_cons, List.mem_cons, true_or, Bool.false_eq_true, if_false]
            rw [if_neg hy.1] at this
            omega
          · have e2 : (y != i) = true := by simpa using Ne.symm e
            simp only [List.filter_cons, e2, Bool.true_and, List.mem_cons, e, false_or, if_false]
            by_cases e3 : ((r.tables.inputs.get y).function == InputFunction.resetKey) = true
            · simp only [e3, if_true, List.length_cons]
              omega
            · simp only [e3]
              exact this
      have := hle (List.finRange 8) (List.nodup_finRange 8)
      rw [if_pos (List.mem_finRange i)] at this
      omega
    · refine Nat.le_trans ?_ h3
      refine List.Sublist.length_le ?_
      refine List.monotone_filter_right _ ?_
      intro j hj
      split at hj
      · exact absurd (by simpa using hj) hk
      · exact hj
  | binding c b =>
    refine ⟨⟨g1, g2, g3, g4, g5⟩, h1, ?_, h3, h4, h5⟩
    simp only [Relay.fits] at hf
    intro j k l hj hk
    simp only [Relay.setTables_tables, Bank.get_set] at hj hk
    have hfree : b.line = some l → ∀ o, o ≠ c → (r.tables.bindings.get o).line ≠ some l := by
      intro hb o ho
      rw [hb] at hf
      simp only [List.all_eq_true, List.mem_finRange, forall_const, Bool.or_eq_true, beq_iff_eq,
        bne_iff_ne, ne_eq] at hf
      exact (hf o).resolve_left ho
    split at hj
    · next e1 =>
      split at hk
      · next e2 => exact e1.symm.trans e2
      · next e2 => exact absurd hk (hfree hj k (fun e => e2 e.symm))
    · next e1 =>
      split at hk
      · next e2 => exact absurd hj (hfree hk j (fun e => e1 e.symm))
      · exact h2 j k l hj hk

theorem writeIdentity_moves (r : Relay) (d : Identity)
    (h : r.TablesOk → (r.setTables { r.tables with identity := d }).TablesOk) :
    Moves stand r (r.writeIdentity d) := by
  unfold Relay.writeIdentity
  exact ((Move.tables r _ h rfl rfl).one).andThen (Moves.whenIf (fun _ => changeLife_moves _ _))

theorem writeRecord_moves (r : Relay) (x : Record) (hf : r.fits x = true)
    (ha : r.addressTaken x = false) (hu : r.inUse x = false) (hr : x.InRange) :
    Moves stand r (r.writeRecord x) := by
  have ht := tablesOk_write r x hf ha hr
  cases x with
  | identity d => exact writeIdentity_moves r d ht
  | station i c => exact writeStation_moves r i c ht
  | barrier b c =>
    refine writeBarrier_moves r b c (fun he hn => ?_) hr
    simp only [Relay.inUse, Relay.atWarn, he, hn, Bool.not_false, Bool.and_self, Bool.true_and,
      decide_eq_false_iff_not] at hu
    omega
  | cadence k c => exact (Move.tables r _ ht rfl rfl).one
  | dispatch k e => exact (Move.tables r _ ht rfl rfl).one
  | input i c => exact writeInput_moves r i c ht
  | binding c b => exact (Move.tables r _ ht rfl rfl).one

/-- What the checks of R166 leave true of the request they pass. -/
def Relay.Passed (r : Relay) (code : Nat) : Action → Prop
  | .writeRecord x =>
    x.InRange ∧ r.fits x = true ∧ r.addressTaken x = false ∧ r.inUse x = false
  | .standDown _ => code = 7
  | _ => True

theorem refuseIf_ok {α : Type} {c : Bool} {e : Result} {rest : Except Result α} {a : α}
    (h : refuseIf c e rest = .ok a) : c = false ∧ rest = .ok a := by
  unfold refuseIf at h
  split at h
  · cases h
  · next hc => exact ⟨Bool.eq_false_iff.mpr hc, h⟩

theorem andThen_ok {α β : Type} {x : Except Result α} {f : α → Except Result β} {b : β}
    (h : andThen x f = .ok b) : ∃ a, x = .ok a ∧ f a = .ok b := by
  cases x with
  | ok a => exact ⟨a, rfl, h⟩
  | error e => cases h

theorem indexed_ok {α : Type} {n x : Nat} {f : Fin n → α} {a : α} (h : indexed n x f = .ok a) :
    ∃ i, f i = a := by
  unfold indexed at h
  split at h
  · next i _ => exact ⟨i, by cases h; rfl⟩
  · cases h

theorem indexedPart_ok {α : Type} {n m x y : Nat} {f : Fin n → Fin m → α} {a : α}
    (h : indexedPart n m x y f = .ok a) : ∃ i k, f i k = a := by
  unfold indexedPart at h
  split at h
  · next i k _ _ => exact ⟨i, k, by cases h; rfl⟩
  · cases h

theorem check_passed {r : Relay} {code : Nat} {args : List Byte} {a : Action}
    (h : r.check code args = .ok a) : r.Passed code a := by
  unfold Relay.check at h
  have h1 := (refuseIf_ok (refuseIf_ok h).2).2
  unfold Relay.checkArgs at h1
  split at h1
  · obtain ⟨_, _, e⟩ := andThen_ok h1
    cases e
    trivial
  · obtain ⟨slot, _, e⟩ := andThen_ok h1
    have e2 := (refuseIf_ok e).2
    unfold Relay.checkWrite at e2
    split at e2
    · cases e2
    · next hd =>
      have f1 := refuseIf_ok e2
      have f2 := refuseIf_ok f1.2
      have f3 := refuseIf_ok f2.2
      cases f3.2
      exact ⟨decodeRecord_ok hd, by simpa using f1.1, f2.1, f3.1⟩
  · obtain ⟨_, _, e⟩ := andThen_ok h1
    cases e
    trivial
  · unfold clearWhat at h1
    split at h1 <;> cases h1 <;> trivial
  · cases h1; trivial
  · cases h1; trivial
  · obtain ⟨_, e⟩ := indexed_ok h1
    cases e
    exact rfl
  · unfold checkRearm at h1
    split at h1 <;> cases h1
    trivial
  · obtain ⟨_, _, e⟩ := indexedPart_ok h1
    cases e
    trivial
  · obtain ⟨_, e⟩ := indexed_ok h1
    cases e
    trivial
  · unfold checkLineTest at h1
    dsimp only at h1
    split at h1 <;> cases h1
    trivial
  · cases h1; trivial
  · cases (refuseIf_ok h1).2; trivial
  · cases (refuseIf_ok h1).2; trivial
  · cases h1

theorem clearBy_moves (r : Relay) (w : ClearWhat) : Moves stand r (r.clearBy w) := by
  cases w
  · refine Moves.andThen (Moves.andThen (Move.port r .upper _ ?_).one
      (Move.port _ .lower _ ?_).one) (Move.field _ _).one
    all_goals rfl
  · change Moves stand r (r.countDrop (fun _ => DropCounters.zero))
    exact (Move.countDrop r _).one
  · exact clearStationCounters_moves r
  · exact clearChannelFlags_moves r

theorem startRun_moves (r : Relay) (q : TestParams) : Moves stand r (r.startRun q) := by
  unfold Relay.startRun
  exact ((Move.generator r _).one).andThen (makeTestFrame_moves _)

theorem carryRestart_moves (r : Relay) (q : Sender) : Moves stand r (r.carryRestart q) := by
  unfold Relay.carryRestart
  split
  · dsimp only
    split
    · exact ((Move.agent r _).one).andThen (offerOwn_moves _ _ _ _)
    · exact (((Move.agent r _).one).andThen (offerOwn_moves _ _ _ _)).andThen (restart_moves _)
  · exact restart_moves r

theorem carryOut_moves (r : Relay) (q : Sender) (args : List Byte) (a : Action) (code : Nat)
    (hp : r.Passed code a) (hs : stand = true ∨ code ≠ 7) : Moves stand r (r.carryOut q args a) := by
  cases a with
  | readRecord s => exact reply_moves r _ _ _
  | writeRecord x => exact (writeRecord_moves r x hp.2.1 hp.2.2.1 hp.2.2.2 hp.1).andThen (reply_moves _ _ _ _)
  | readState v => exact reply_moves r _ _ _
  | clear w => exact (clearBy_moves r w).andThen (reply_moves _ _ _ _)
  | lockCounters =>
    exact ((Move.checker r _).one).andThen (reply_moves _ _ _ _)
  | lockAndClear =>
    exact ((Move.checker r _).one).andThen (reply_moves _ _ _ _)
  | standDown b =>
    have e : stand = true := hs.resolve_right (fun n => n hp)
    subst e
    exact (standDown_moves r b).andThen (reply_moves _ _ _ _)
  | rearmWire b p => exact (rearmWire_moves r b p).andThen (reply_moves _ _ _ _)
  | testSound c k =>
    change Moves stand r (r.carryTestSound q c k)
    unfold Relay.carryTestSound
    dsimp only
    split
    all_goals exact (testSound_moves r c k).andThen (reply_moves _ _ _ _)
  | stopChannel c => exact (stopChannel_moves r c).andThen (reply_moves _ _ _ _)
  | lineTest p =>
    change Moves stand r (r.carryLineTest q p)
    unfold Relay.carryLineTest
    split
    · exact reply_moves r _ _ _
    · split
      · exact reply_moves r _ _ _
      · exact (startRun_moves r p).andThen (reply_moves _ _ _ _)
  | lineTestStop =>
    exact (Moves.whenIf (fun _ => endRun_moves r _)).andThen (reply_moves _ _ _ _)
  | save => exact ((Move.agent r _).one).andThen (beginSave_moves _)
  | restart => exact carryRestart_moves r q

theorem request_moves (r : Relay) (q : Sender) (args : List Byte)
    (hs : stand = true ∨ q.code.toNat ≠ 7) : Moves stand r (r.request q args) := by
  unfold Relay.request
  split
  · split
    · next a h =>
      exact ((Move.agent r _).one).andThen (carryOut_moves _ q args a _ (check_passed h) hs)
    · exact ((Move.agent r _).one).andThen (refuse_moves _ _ _)
  · exact (Move.agent r _).one

theorem command_moves (r : Relay) (origin : Addr) (tag : Byte) (code : Nat) (args : List Byte)
    (hs : stand = true ∨ (byte code).toNat ≠ 7) : Moves stand r (r.command origin tag code args) :=
  Moves.whenAwake (request_moves r _ args hs)

/-! ## The classifier -/

theorem forward_moves (r : Relay) (a : Arrival) (lane : Lane) : Moves stand r (r.forward a lane) := by
  unfold Relay.forward
  split
  · exact (Move.countDrop r _).one
  · exact offer_moves r _ _

theorem forwardReport_moves (r : Relay) (c : StationConfig) (a : Arrival) :
    Moves stand r (r.forwardReport c a) := by
  unfold Relay.forwardReport
  split
  · exact Moves.rfl'
  · exact forward_moves _ _ _
  · exact forward_moves _ _ _

theorem takeReport_moves (r : Relay) (a : Arrival) (hm : r.store.mode = .assessing) :
    Moves stand r (r.takeReport a) := by
  unfold Relay.takeReport
  split
  · next i c hl =>
    have hj := judgeFrame_moves (stand := stand) r i c a.sequence a.fresh (lookup_get hl) hm
    unfold Relay.stationReport
    dsimp only
    split
    · exact (hj.andThen (takeReadings_moves _ _ _ _)).andThen (forwardReport_moves _ _ _)
    · exact hj
  · unfold Relay.foreignReport
    split
    · exact forward_moves r _ _
    · exact (Move.countDrop r _).one

theorem takeAlert_moves (r : Relay) (a : Arrival) (hm : r.store.mode = .assessing) :
    Moves stand r (r.takeAlert a) := by
  unfold Relay.takeAlert
  split
  · next i c hl =>
    have hj := judgeFrame_moves (stand := stand) r i c a.sequence a.fresh (lookup_get hl) hm
    dsimp only
    split
    · exact (hj.andThen (Moves.whenIf (fun _ => feederUpdate_moves _ _ _))).andThen
        (forward_moves _ _ _)
    · exact hj
  · exact forward_moves r _ _

theorem takeHealth_moves (r : Relay) (a : Arrival) (hm : r.store.mode = .assessing) :
    Moves stand r (r.takeHealth a) := by
  unfold Relay.takeHealth
  split
  · next i c hl =>
    have hj := judgeFrame_moves (stand := stand) r i c a.sequence a.fresh (lookup_get hl) hm
    dsimp only
    split
    · exact hj.andThen (forward_moves _ _ _)
    · exact hj
  · exact forward_moves r _ _

theorem takeDown_moves (r : Relay) (a : Arrival) (f : Relay → Relay)
    (h : r.store.mode = .assessing → Moves stand r (f r)) : Moves stand r (r.takeDown a f) := by
  unfold Relay.takeDown
  split
  · next hm => exact h hm
  · exact forward_moves r _ _

theorem takeRequest_moves (r : Relay) (a : Arrival) : Moves true r (r.takeRequest a) := by
  have h : ∀ r : Relay, Moves true r (r.handRequest a) :=
    fun r => request_moves r _ _ (Or.inl rfl)
  unfold Relay.takeRequest
  split
  · exact h r
  · split
    · split
      · exact (forward_moves r _ _).andThen (h _)
      · exact (h r).andThen (forward_moves _ _ _)
    · exact forward_moves r _ _

theorem takeFrame_moves (r : Relay) (a : Arrival) (hs : stand = true ∨ a.cls ≠ .mgmtReq) :
    Moves stand r (r.takeFrame a) := by
  unfold Relay.takeFrame
  split
  · exact takeDown_moves r a _ (takeReport_moves r a)
  · exact takeDown_moves r a _ (takeAlert_moves r a)
  · exact takeDown_moves r a _ (takeHealth_moves r a)
  · exact forward_moves r _ _
  · next h =>
    have e : stand = true := hs.resolve_right (fun n => n h)
    subst e
    exact takeRequest_moves r a
  · exact (Moves.whenIf (fun _ => judgeQuiet_moves r _ _)).andThen (forward_moves _ _ _)
  · unfold Relay.takeTest
    split
    · split
      · exact checkTest_moves r _ _
      · exact checkTest_moves r _ _
      · exact Moves.rfl'
    · exact Moves.rfl'

theorem classify_moves (r : Relay) (port : PortName) (bs : List Byte)
    (hs : stand = true ∨ port ≠ .lower) : Moves stand r (r.classify port bs) := by
  unfold Relay.classify
  split
  · exact (Move.countDrop r _).one
  · next a h =>
    split
    · next ht =>
      refine takeFrame_moves r a (hs.imp id (fun hp e => ?_))
      rw [e] at ht
      cases port <;> simp [takesClass] at ht hp
    · exact (Move.countDrop r _).one

/-! ## The ports -/

theorem turn_sending (q : Port) (x : Polarity) : (q.turn x).sending = q.sending := by
  unfold Port.turn
  split <;> rfl

theorem discard_sending (q : Port) : q.discard.sending = q.sending := by
  unfold Port.discard
  split
  · rfl
  · split <;> rfl

theorem cutShort_sending (q : Port) : q.cutShort.sending = q.sending := by
  unfold Port.cutShort
  split <;> rfl

theorem setPort_moves (r : Relay) (p : LinkPort) (x : Port)
    (h : x.sending = (r.port p).sending) : Moves stand r (r.setPort p x) :=
  (Move.port r p x h).one

theorem reportFate_moves (r : Relay) (m : Maker) : Moves stand r (r.reportFate m) := by
  cases m
  · exact Moves.rfl'
  · exact testFrameFinished_moves r _
  · exact Moves.whenIf (fun _ => restart_moves r)

theorem abandon_moves (r : Relay) (p : LinkPort) : Moves stand r (r.abandon p) := by
  unfold Relay.abandon
  split
  · exact Moves.rfl'
  · next t h =>
    refine Moves.andThen (Move.release r p _ ?_ ?_).one (reportFate_moves _ _)
    · rw [h]; rfl
    · rfl

theorem completeTransmission_moves (r : Relay) (p : LinkPort) :
    Moves stand r (r.completeTransmission p) := by
  unfold Relay.completeTransmission
  split
  · exact Moves.rfl'
  · next t h =>
    refine Moves.andThen (Moves.andThen (Move.release r p _ ?_ ?_).one (reportFate_moves _ _))
      (Move.take _ _).one
    · rw [h]; rfl
    · rfl

theorem enterUp_moves (r : Relay) (p : LinkPort) : Moves stand r (r.enterUp p) := by
  unfold Relay.enterUp
  dsimp only
  split
  · have hu : ∀ r : Relay, Moves stand r r.upperUp := by
      intro r
      unfold Relay.upperUp
      exact ((Move.lineLoss _ _).one).andThen (Moves.whenIf (fun _ => setLineLost_moves _ _))
    refine Moves.andThen (Moves.andThen (setPort_moves r _ _ ?_) (hu _)) (Move.take _ _).one
    rfl
  · refine Moves.andThen (setPort_moves r _ _ ?_) (Move.take _ _).one
    rfl

theorem leaveUp_moves (r : Relay) (p : LinkPort) : Moves stand r (r.leaveUp p) := by
  unfold Relay.leaveUp
  dsimp only
  split
  · refine Moves.andThen (Moves.andThen (setPort_moves r _ _ ?_) (Move.lineLoss _ _).one)
      (abandon_moves _ _)
    rw [discard_sending]
    rfl
  · refine Moves.andThen (Moves.andThen (setPort_moves r _ _ ?_) (abandon_moves _ _))
      (Moves.whenIf (fun _ => restart_moves _))
    rw [discard_sending]
    rfl

theorem energy_moves (r : Relay) (p : LinkPort) : Moves stand r (r.energy p) := by
  unfold Relay.energy
  dsimp only
  split
  · exact setPort_moves r _ _ rfl
  · refine setPort_moves r _ _ ?_
    rfl
  · exact Moves.rfl'

theorem silenceExpires_moves (r : Relay) (p : LinkPort) : Moves stand r (r.silenceExpires p) := by
  unfold Relay.silenceExpires
  dsimp only
  split
  · refine setPort_moves r _ _ ?_
    rfl
  · exact Moves.rfl'

theorem windowCloses_moves (r : Relay) (p : LinkPort) : Moves stand r (r.windowCloses p) := by
  unfold Relay.windowCloses
  dsimp only
  split
  · split
    · split
      · refine setPort_moves r _ _ ?_
        rfl
      · exact leaveUp_moves r p
    · exact Moves.rfl'
  · exact Moves.rfl'

theorem seekWord_moves (r : Relay) (p : LinkPort) : Moves stand r (r.seekWord p) := by
  unfold Relay.seekWord
  dsimp only
  split
  · refine setPort_moves r _ _ ?_
    rfl
  · exact enterUp_moves r p

theorem name_ne_lower {stand : Bool} {p : LinkPort} (h : stand = true ∨ p ≠ .lower) :
    stand = true ∨ p.name ≠ .lower := by
  refine h.imp id (fun n => ?_)
  cases p
  · decide
  · exact absurd rfl n

theorem endAssembly_moves (r : Relay) (p : LinkPort) (hs : stand = true ∨ p ≠ .lower) :
    Moves stand r (r.endAssembly p) := by
  unfold Relay.endAssembly
  dsimp only
  split
  · exact Moves.rfl'
  · split
    · exact setPort_moves r _ _ rfl
    · exact setPort_moves r _ _ rfl
    · refine Moves.andThen (setPort_moves r _ _ ?_) (classify_moves _ _ _ (name_ne_lower hs))
      rfl

theorem endFieldAssembly_moves (r : Relay) : Moves stand r r.endFieldAssembly := by
  unfold Relay.endFieldAssembly
  split
  · exact Moves.rfl'
  · split
    · exact (Move.field r _).one
    · exact (Move.field r _).one
    · exact ((Move.field r _).one).andThen (classify_moves _ _ _ (Or.inr (by decide)))

theorem fieldQuiet_moves (r : Relay) : Moves stand r r.fieldQuiet := by
  unfold Relay.fieldQuiet
  split
  · exact ((Move.field r _).one).andThen (endFieldAssembly_moves _)
  · exact Moves.rfl'

theorem turned_moves (r : Relay) (p : LinkPort) (x : Polarity) :
    Moves stand r (r.setPort p ((r.port p).turn x)) :=
  setPort_moves r p _ (turn_sending _ x)

theorem idleWord_moves (r : Relay) (p : LinkPort) (x : Polarity)
    (hs : stand = true ∨ p ≠ .lower) : Moves stand r (r.idleWord p x) := by
  unfold Relay.idleWord
  dsimp only
  split
  · exact turned_moves r p x
  · exact (turned_moves r p x).andThen (seekWord_moves _ _)
  · refine (turned_moves r p x).andThen (Moves.andThen (setPort_moves _ _ _ ?_)
      (endAssembly_moves _ _ hs))
    rfl

theorem startWord_moves (r : Relay) (p : LinkPort) (x : Polarity) :
    Moves stand r (r.startWord p x) := by
  unfold Relay.startWord
  dsimp only
  split
  · exact turned_moves r p x
  · exact (turned_moves r p x).andThen (seekWord_moves _ _)
  · refine (turned_moves r p x).andThen (setPort_moves _ _ _ ?_)
    exact cutShort_sending _

theorem dataWord_moves (r : Relay) (p : LinkPort) (b : Byte) : Moves stand r (r.dataWord p b) := by
  unfold Relay.dataWord
  dsimp only
  split
  · exact Moves.rfl'
  · split
    · refine setPort_moves r _ _ ?_
      rfl
    · refine setPort_moves r _ _ ?_
      rfl

theorem malformedWord_moves (r : Relay) (p : LinkPort) : Moves stand r (r.malformedWord p) := by
  unfold Relay.malformedWord
  dsimp only
  split
  · exact Moves.rfl'
  · refine setPort_moves r _ _ ?_
    rfl
  · split
    · exact Moves.rfl'
    · refine setPort_moves r _ _ ?_
      rfl

theorem linkWord_moves (r : Relay) (p : LinkPort) (w : LineWord)
    (hs : stand = true ∨ p ≠ .lower) : Moves stand r (r.linkWord p w) := by
  unfold Relay.linkWord
  refine (energy_moves r p).andThen ?_
  cases w
  · exact idleWord_moves _ _ _ hs
  · exact startWord_moves _ _ _
  · exact dataWord_moves _ _ _
  · exact malformedWord_moves _ _

theorem fieldWord_moves (r : Relay) (w : LineWord) : Moves stand r (r.fieldWord w) := by
  cases w
  · exact endFieldAssembly_moves r
  · exact (Move.field r _).one
  · exact (Move.field r _).one
  · change Moves stand r
      (r.when r.field.assembly.isSome (fun r => r.setField r.field.discarded))
    exact Moves.whenIf (fun _ => (Move.field r _).one)

theorem word_moves (r : Relay) (p : PortName) (w : LineWord) (hs : stand = true ∨ p ≠ .lower) :
    Moves stand r (r.word p w) := by
  cases p
  · exact linkWord_moves r _ _ (Or.inr (by decide))
  · exact linkWord_moves r _ _ (hs.imp id (fun n => absurd rfl n))
  · exact fieldWord_moves r w

theorem confirmExpires_moves (r : Relay) : Moves stand r r.confirmExpires := by
  unfold Relay.confirmExpires
  split
  · exact ((Move.lineLoss r _).one).andThen (setLineLost_moves _ _)
  · exact Moves.rfl'

/-! ## Commands and steps -/

/-- What a command can do to the part. -/
inductive Change (c : Instr) (r : Relay) : Relay → Prop where
  | moves {t} (ha : r.awake = true) (h : Moves (mayStandDown c) r t) : Change c r t
  | pins (x : Pins) : Change c r (r.setPins x)
  | clock (x : Clock) : Change c r (r.setClock x)
  | sample (x : Pins) (order : List BandDelivery) (h : r.store.mode = .starting) :
      Change c r ((r.setPins x).sampleBattery order)
  | straps (straps : Addr) (readMs : Nat) (h : r.store.mode = .starting) :
      Change c r (r.readStraps straps readMs)
  | startUp (cause : ResetCause) (q : StartPins)
      (hc : c = .powerOn q ∨ c = .clockResume q) : Change c r (r.startUp cause q)

theorem Change.still (c : Instr) (r : Relay) : Change c r r :=
  Change.pins (c := c) (r := r) r.pins

theorem change_whenAwake {c : Instr} {r : Relay} {f : Relay → Relay}
    (h : Moves (mayStandDown c) r (f r)) : Change c r (r.whenAwake f) := by
  unfold Relay.whenAwake Relay.when
  split
  · next ha => exact Change.moves ha h
  · exact Change.still c r

theorem change_command (c : Instr) (r : Relay) (origin : Addr) (tag : Byte) (code : Nat)
    (args : List Byte) (hs : mayStandDown c = true ∨ (byte code).toNat ≠ 7) :
    Change c r (r.command origin tag code args) :=
  change_whenAwake (request_moves r _ args hs)

theorem asleep_setPins {r : Relay} (h : ¬ r.awake = true) (x : Pins) :
    (r.setPins x).awake = false :=
  Bool.eq_false_iff.mpr h

/-- Every command answers a next state: it changes the part in one of these ways, and leaves the
queue as it is. -/
theorem exec_change (c : Instr) (s : State) :
    ∃ t, exec c s = .next { s with relay := t } ∧ Change c s.relay t := by
  cases c with
  | lineEnergy p => exact ⟨_, rfl, change_whenAwake (energy_moves _ p)⟩
  | silenceTimerExpiry p => exact ⟨_, rfl, change_whenAwake (silenceExpires_moves _ p)⟩
  | lineWord p w =>
    refine ⟨_, rfl, change_whenAwake (word_moves _ p w ?_)⟩
    cases p
    · exact Or.inr (by decide)
    · exact Or.inl rfl
    · exact Or.inr (by decide)
  | activityWindowClose p => exact ⟨_, rfl, change_whenAwake (windowCloses_moves _ p)⟩
  | frameReceived p x =>
    refine ⟨_, rfl, change_whenAwake (Moves.whenIf (fun _ => word_moves _ p _ ?_))⟩
    cases p
    · exact Or.inr (by decide)
    · exact Or.inl rfl
    · exact Or.inr (by decide)
  | fieldLineQuiet => exact ⟨_, rfl, change_whenAwake (fieldQuiet_moves _)⟩
  | transmitTake p => exact ⟨_, rfl, change_whenAwake (Move.take _ p).one⟩
  | transmitComplete p => exact ⟨_, rfl, change_whenAwake (completeTransmission_moves _ p)⟩
  | upperConfirmExpiry => exact ⟨_, rfl, change_whenAwake (confirmExpires_moves _)⟩
  | testGapExpiry => exact ⟨_, rfl, change_whenAwake (gapExpired_moves _)⟩
  | stationDeadlineExpiry i => exact ⟨_, rfl, change_whenAwake (deadlineExpires_moves _ i)⟩
  | shakeExpiry b k => exact ⟨_, rfl, change_whenAwake (evidenceExpires_moves _ b k)⟩
  | holdExpiry b => exact ⟨_, rfl, change_whenAwake (holdExpires_moves _ b)⟩
  | repeatExpiry b => exact ⟨_, rfl, change_whenAwake (repeatExpires_moves _ b)⟩
  | stepBoundary c => exact ⟨_, rfl, change_whenAwake (segmentEnds_moves _ c)⟩
  | loadConditionChange l x =>
    refine ⟨_, rfl, ?_⟩
    by_cases ha : s.relay.awake = true
    · exact Change.moves ha (loadChanges_moves _ l x)
    · unfold Relay.loadChanges
      dsimp only
      split
      · exact Change.still _ _
      · split
        · rw [Relay.whenAwake_of_not (asleep_setPins ha _)]
          exact Change.pins _
        · exact Change.pins _
  | sensingTimerExpiry l => exact ⟨_, rfl, change_whenAwake (sensingExpires_moves _ l)⟩
  | inputLevelChange i x =>
    refine ⟨_, rfl, ?_⟩
    by_cases ha : s.relay.awake = true
    · exact Change.moves ha (levelChanges_moves _ i x)
    · unfold Relay.levelChanges
      dsimp only
      split
      · exact Change.still _ _
      · rw [Relay.whenAwake_of_not (asleep_setPins ha _)]
        exact Change.pins _
  | debounceExpiry i => exact ⟨_, rfl, change_whenAwake (debounceExpires_moves _ i)⟩
  | keyTimerExpiry => exact ⟨_, rfl, change_whenAwake (keyExpires_moves _)⟩
  | readRecord => exact ⟨_, rfl, change_command _ _ _ _ _ _ (Or.inr (by decide))⟩
  | writeRecord => exact ⟨_, rfl, change_command _ _ _ _ _ _ (Or.inr (by decide))⟩
  | readState => exact ⟨_, rfl, change_command _ _ _ _ _ _ (Or.inr (by decide))⟩
  | clearPortCounters => exact ⟨_, rfl, change_command _ _ _ _ _ _ (Or.inr (by decide))⟩
  | clearDropCounters => exact ⟨_, rfl, change_command _ _ _ _ _ _ (Or.inr (by decide))⟩
  | clearStationCounters => exact ⟨_, rfl, change_command _ _ _ _ _ _ (Or.inr (by decide))⟩
  | clearChannelFlags => exact ⟨_, rfl, change_command _ _ _ _ _ _ (Or.inr (by decide))⟩
  | lockCounters => exact ⟨_, rfl, change_command _ _ _ _ _ _ (Or.inr (by decide))⟩
  | lockAndClear => exact ⟨_, rfl, change_command _ _ _ _ _ _ (Or.inr (by decide))⟩
  | standDown => exact ⟨_, rfl, change_command _ _ _ _ _ _ (Or.inl rfl)⟩
  | rearmWire => exact ⟨_, rfl, change_command _ _ _ _ _ _ (Or.inr (by decide))⟩
  | testSound => exact ⟨_, rfl, change_command _ _ _ _ _ _ (Or.inr (by decide))⟩
  | stopChannel => exact ⟨_, rfl, change_command _ _ _ _ _ _ (Or.inr (by decide))⟩
  | lineTest => exact ⟨_, rfl, change_command _ _ _ _ _ _ (Or.inr (by decide))⟩
  | lineTestStop => exact ⟨_, rfl, change_command _ _ _ _ _ _ (Or.inr (by decide))⟩
  | save => exact ⟨_, rfl, change_command _ _ _ _ _ _ (Or.inr (by decide))⟩
  | restart => exact ⟨_, rfl, change_command _ _ _ _ _ _ (Or.inr (by decide))⟩
  | saveEnd a d =>
    exact ⟨_, rfl, change_whenAwake (Moves.whenIf (fun _ => finishSave_moves _ a d))⟩
  | powerOn q => exact ⟨_, rfl, Change.startUp _ q (Or.inl rfl)⟩
  | clockLoss => exact ⟨_, rfl, Change.clock _⟩
  | clockResume q =>
    refine ⟨_, rfl, ?_⟩
    unfold Relay.when
    dsimp only
    split
    · exact Change.startUp _ q (Or.inr rfl)
    · exact Change.still _ _
  | strapRetry a ms =>
    refine ⟨_, rfl, ?_⟩
    unfold Relay.when
    dsimp only
    split
    · next h =>
      simp only [Bool.and_eq_true, beq_iff_eq] at h
      exact Change.straps _ _ h.1.2
    · exact Change.still _ _
  | batterySample v order =>
    refine ⟨_, rfl, ?_⟩
    unfold Relay.when
    dsimp only
    split
    · next h =>
      by_cases hm : s.relay.store.mode = .starting
      · exact Change.sample _ order hm
      · have hl : s.relay.clock.lost = false := by
          simp only [Bool.and_eq_true, Bool.not_eq_true'] at h
          exact h.1
        refine Change.moves ?_ (Moves.andThen (Move.pins _ _).one
          (sampleBattery_moves _ order hm))
        simp [Relay.awake, hl, hm]
    · exact Change.pins _
  | healthTimerExpiry => exact ⟨_, rfl, change_whenAwake (healthExpires_moves _)⟩

end Sys2Proof.Machine
end

