-- ==== Sys2Proof/Laws/Kept.lean ====
section
/-! SUPPORT. What every single move of the part keeps, one lemma per predicate of Safety.lean. -/

namespace Sys2Proof.Machine

variable {stand : Bool} {r t : Relay}

/-- What a take does to the pool and the port: nothing, or one buffer from a queue to the
transmitter. -/
theorem take_cases (r : Relay) (p : LinkPort) :
    r.take p = r ∨ ∃ b pool, (r.port p).sending = none ∧ r.available p = some (b, pool)
      ∧ r.take p = (r.setPool pool).beginSending p b := by
  unfold Relay.take
  split
  · next h =>
    split
    · exact Or.inl rfl
    · next b pool e => exact Or.inr ⟨b, pool, h.2, e, rfl⟩
  · exact Or.inl rfl

theorem takeLower_sizes {p q : Pool} {limit : Nat} {b : Buffer}
    (h : p.takeLower limit = some (b, q)) :
    q.free = p.free ∧ q.up = p.up ∧ q.routine.length ≤ p.routine.length
      ∧ q.urgent.length + q.routine.length + 1 = p.urgent.length + p.routine.length := by
  unfold Pool.takeLower at h
  split at h
  · cases h
  · next e1 e2 => cases h; simp [e1, e2]
  · next e1 e2 => cases h; simp [e1, e2]
  · next e1 e2 =>
    split at h
    · cases h; simp [e1, e2]; omega
    · split at h
      · cases h; simp [e1, e2]; omega
      · cases h; simp [e1, e2]; omega

theorem takeUpper_sizes {p q : Pool} {b : Buffer} (h : p.takeUpper = some (b, q)) :
    q.free = p.free ∧ q.urgent = p.urgent ∧ q.routine = p.routine
      ∧ q.up.length + 1 = p.up.length := by
  unfold Pool.takeUpper at h
  split at h
  · cases h
  · next e => cases h; simp [e]

theorem joinRoutine_sizes {p q : Pool} {cap : Nat} {b : Buffer}
    (h : p.joinRoutine cap b = some q) :
    q.free + 1 = p.free ∧ q.urgent = p.urgent ∧ q.up = p.up
      ∧ q.routine.length = p.routine.length + 1 ∧ p.routine.length < cap := by
  unfold Pool.joinRoutine at h
  split at h
  · next hc => cases h; simp; omega
  · cases h

theorem joinUp_sizes {p q : Pool} {b : Buffer} (h : p.joinUp b = some q) :
    q.free + 1 = p.free ∧ q.urgent = p.urgent ∧ q.routine = p.routine
      ∧ q.up.length = p.up.length + 1 ∧ p.up.length < 8 := by
  unfold Pool.joinUp at h
  split at h
  · next hc => cases h; simp [Config.upCap] at hc ⊢; omega
  · cases h

theorem joinUrgent_sizes (p : Pool) (b : Buffer) :
    (p.joinUrgent b).1.free + (p.joinUrgent b).1.urgent.length
        + (p.joinUrgent b).1.routine.length + (p.joinUrgent b).1.up.length
      = p.free + p.urgent.length + p.routine.length + p.up.length
    ∧ (p.joinUrgent b).1.routine.length ≤ p.routine.length
    ∧ (p.joinUrgent b).1.up.length ≤ p.up.length := by
  unfold Pool.joinUrgent
  split
  · simp; omega
  · split
    · next e => simp [e]; omega
    · next e1 e2 => simp [e1, e2]; omega
    · next e1 e2 => simp [e1, e2]

/-- Every move keeps the pool in balance (R37). -/
theorem Move.pool_kept (h : Move stand r t) (hr : r.PoolBalanced) : t.PoolBalanced := by
  unfold Relay.PoolBalanced Relay.buffers at hr ⊢
  cases h with
  | port p x h =>
    cases p
    · change x.sending = r.upper.sending at h
      change _ + flag x.sending.isSome + flag r.lower.sending.isSome = 40
      rw [h]; exact hr
    · change x.sending = r.lower.sending at h
      change _ + flag r.upper.sending.isSome + flag x.sending.isSome = 40
      rw [h]; exact hr
  | take p =>
    rcases take_cases r p with e | ⟨b, pool, hs, ha, e⟩
    · rw [e]; exact hr
    · rw [e]
      cases p
      · have hz := takeUpper_sizes ha
        change r.upper.sending = none at hs
        rw [hs] at hr
        change pool.free + pool.urgent.length + pool.routine.length + pool.up.length + 1
          + flag r.lower.sending.isSome = 40
        simp only [Option.isSome_none, flag, Bool.false_eq_true, if_false] at hr ⊢
        rw [hz.1, hz.2.1, hz.2.2.1]
        omega
      · have hz := takeLower_sizes ha
        change r.lower.sending = none at hs
        rw [hs] at hr
        change pool.free + pool.urgent.length + pool.routine.length + pool.up.length
          + flag r.upper.sending.isSome + 1 = 40
        simp only [Option.isSome_none, flag, Bool.false_eq_true, if_false] at hr ⊢
        rw [hz.1, hz.2.1]
        omega
  | release p x h hx =>
    cases p
    · change r.upper.sending.isSome = true at h
      rw [h] at hr
      change r.pool.free + 1 + r.pool.urgent.length + r.pool.routine.length + r.pool.up.length
        + flag x.sending.isSome + flag r.lower.sending.isSome = 40
      rw [hx]
      simp only [Option.isSome_none, flag, Bool.false_eq_true, if_false, if_true] at hr ⊢
      omega
    · change r.lower.sending.isSome = true at h
      rw [h] at hr
      change r.pool.free + 1 + r.pool.urgent.length + r.pool.routine.length + r.pool.up.length
        + flag r.upper.sending.isSome + flag x.sending.isSome = 40
      rw [hx]
      simp only [Option.isSome_none, flag, Bool.false_eq_true, if_false, if_true] at hr ⊢
      omega
  | joinRoutine b pool h =>
    have hz := joinRoutine_sizes h
    simp only [Relay.setPool_pool, Relay.setPool_upper, Relay.setPool_lower]
    rw [hz.2.1, hz.2.2.1]
    omega
  | joinUp b pool h =>
    have hz := joinUp_sizes h
    simp only [Relay.setPool_pool, Relay.setPool_upper, Relay.setPool_lower]
    rw [hz.2.1, hz.2.2.1]
    omega
  | joinUrgent b =>
    have hz := (joinUrgent_sizes r.pool b).1
    simp only [Relay.setPool_pool, Relay.setPool_upper, Relay.setPool_lower]
    omega
  | shed band =>
    simp only [Relay.setPool_pool, Relay.setPool_upper, Relay.setPool_lower, Pool.shed,
      List.length_drop, Relay.setBand, Relay.setStore_pool, Relay.setStore_upper,
      Relay.setStore_lower]
    omega
  | load _ _ =>
    unfold Relay.readImageAs
    dsimp only
    split <;> exact hr
  | restart => rfl
  | barrierRecord b new h hn => exact hr
  | _ => exact hr

/-- Every move keeps both queues within their caps (R38). -/
theorem Move.caps_kept (h : Move stand r t) (hr : r.WithinCaps) : t.WithinCaps := by
  have hcap : ∀ {a b : Relay}, a.store.band = b.store.band → a.routineCap = b.routineCap := by
    intro a b e
    unfold Relay.routineCap
    rw [e]
  cases h with
  | port p x h => cases p <;> exact hr
  | take p =>
    rcases take_cases r p with e | ⟨b, pool, hs, ha, e⟩
    · rw [e]; exact hr
    · rw [e]
      cases p
      · have hz := takeUpper_sizes ha
        exact ⟨by
          change pool.routine.length ≤ r.routineCap
          rw [hz.2.2.1]; exact hr.1, by
          change pool.up.length ≤ 8
          have := hr.2
          omega⟩
      · have hz := takeLower_sizes ha
        exact ⟨Nat.le_trans hz.2.2.1 hr.1, by
          change pool.up.length ≤ 8
          rw [hz.2.1]; exact hr.2⟩
  | release p x h hx => cases p <;> exact hr
  | joinRoutine b pool h =>
    have hz := joinRoutine_sizes h
    exact ⟨by
      change pool.routine.length ≤ r.routineCap
      omega, by
      change pool.up.length ≤ 8
      rw [hz.2.2.1]; exact hr.2⟩
  | joinUp b pool h =>
    have hz := joinUp_sizes h
    exact ⟨by
      change pool.routine.length ≤ r.routineCap
      rw [hz.2.2.1]; exact hr.1, by
      change pool.up.length ≤ 8
      omega⟩
  | joinUrgent b =>
    have hz := joinUrgent_sizes r.pool b
    exact ⟨Nat.le_trans hz.2.1 hr.1, Nat.le_trans hz.2.2 hr.2⟩
  | shed band =>
    refine ⟨?_, hr.2⟩
    simp only [Relay.setPool_pool, Pool.shed, List.length_drop]
    change _ ≤ (r.setBand band).routineCap
    omega
  | store x hm hb ho =>
    refine ⟨?_, hr.2⟩
    rw [hcap (a := r.setStore x) (b := r) hb]
    exact hr.1
  | load _ _ =>
    unfold Relay.readImageAs
    dsimp only
    split <;> exact hr
  | restart => exact ⟨Nat.zero_le _, Nat.zero_le _⟩
  | _ => exact hr

/-- Every move keeps the memory's canonical form (log 6). -/
theorem Move.memory_kept (h : Move stand r t) (hr : r.MemoryOk) : t.MemoryOk := by
  cases h with
  | port p x h => cases p <;> exact hr
  | take p =>
    rcases take_cases r p with e | ⟨b, pool, hs, ha, e⟩
    · rw [e]; exact hr
    · rw [e]; cases p <;> exact hr
  | release p x h hx => cases p <;> exact hr
  | memory x h => exact h hr
  | load _ _ =>
    unfold Relay.readImageAs
    dsimp only
    split <;> exact hr
  | restart => exact cutMemory_wf r hr
  | _ => exact hr

/-- A bank with one record replaced keeps what every record has. -/
theorem Bank.forall_set {α : Type} {n : Nat} {P : α → Prop} {v : Bank α n} {i : Fin n} {x : α}
    (hv : ∀ j, P (v.get j)) (hx : P x) : ∀ j, P ((v.set i x).get j) := by
  intro j
  rw [Bank.get_set]
  split
  · exact hx
  · exact hv j

/-- Outside ASSESSING mode a station that is watched as it should be rests (R64). -/
theorem resting_of_watched {d : StationDyn} {mode : Mode} {x : Option StationConfig}
    (hm : mode ≠ .assessing) (h : d.Watched mode x) : d.Resting := by
  cases x with
  | none => exact h
  | some c => exact h.2 hm

theorem watched_of_resting {d : StationDyn} {mode : Mode} {x : Option StationConfig}
    (hm : mode ≠ .assessing) (h : d.Resting) : d.Watched mode x := by
  cases x with
  | none => exact h
  | some c => exact ⟨fun e => absurd e hm, fun _ => h⟩

/-- What a start leaves of the stations. -/
theorem startedBank_ok (r : Relay) (i : Fin 48) :
    ((r.stations.get i).Agrees → (r.startedBank.get i).Agrees)
      ∧ ((r.stations.get i).FillsOk → (r.startedBank.get i).FillsOk)
      ∧ ((r.stations.get i).Resting →
        (r.startedBank.get i).Watched r.store.mode (r.tables.stations.get i)) := by
  have hs := startStations_ok r i
  unfold Relay.startedBank
  split
  · exact ⟨fun _ => hs.1, fun _ => hs.2.1, fun _ => hs.2.2⟩
  · next hm => exact ⟨id, id, watched_of_resting hm⟩

theorem kept_station (r : Relay) (i : Fin 48) : r.keptByRestart.stations.get i = StationDyn.start :=
  (Bank.get_fill 48 StationDyn.start i :)

/-- Every move keeps the agreement of state, misses and deadline of every station (R62). -/
theorem Move.stations_kept (h : Move stand r t) (hr : r.StationsAgree) : t.StationsAgree := by
  cases h with
  | port p x h => cases p <;> exact hr
  | take p =>
    rcases take_cases r p with e | ⟨b, pool, hs, ha, e⟩
    · rw [e]; exact hr
    · rw [e]; cases p <;> exact hr
  | release p x h hx => cases p <;> exact hr
  | station i x ha hf hw => exact Bank.forall_set hr (ha (hr i))
  | stations x ha hf hw => exact fun i => ha i (hr i)
  | stationRecord i new x h ha hf hw => exact Bank.forall_set hr ha
  | load _ _ =>
    unfold Relay.readImageAs
    dsimp only
    split <;> exact hr
  | leave => exact fun i => (startedBank_ok _ i).1 (hr i)
  | restart => exact fun i => (startedBank_ok _ i).1 (kept_station r i ▸ rfl)
  | _ => exact hr

/-- Every move keeps every deadline present exactly at the watched stations (R62, R64). -/
theorem Move.deadlines_kept (h : Move stand r t) (hr : r.DeadlinesAgree) : t.DeadlinesAgree := by
  cases h with
  | port p x h => cases p <;> exact hr
  | take p =>
    rcases take_cases r p with e | ⟨b, pool, hs, ha, e⟩
    · rw [e]; exact hr
    · rw [e]; cases p <;> exact hr
  | release p x h hx => cases p <;> exact hr
  | store x hm hb ho =>
    intro i
    rw [Relay.setStore_store, hm]
    exact hr i
  | tables x h hb hs =>
    intro i
    rw [Relay.setTables_tables, hs]
    exact hr i
  | station i x ha hf hw =>
    intro j
    rw [Relay.setStation_stations, Bank.get_set]
    split
    · next e => exact e ▸ hw (hr i)
    · exact hr j
  | stations x ha hf hw => exact fun i => hw i (hr i)
  | stationRecord i new x h ha hf hw =>
    intro j
    simp only [Relay.setStation_stations, Relay.setStation_tables, Relay.setTables_tables,
      Relay.setTables_stations, Bank.get_set]
    split
    · exact hw
    · exact hr j
  | load m h =>
    intro i
    have e : (r.readImageAs m).stations = r.stations := by
      unfold Relay.readImageAs
      dsimp only
      split <;> rfl
    rw [readImageAs_mode, e]
    exact watched_of_resting h (resting_of_watched h (hr i))
  | leave mode _ _ _ h hm => exact fun i => (startedBank_ok _ i).2.2 (resting_of_watched h (hr i))
  | restart => exact fun i => (startedBank_ok _ i).2.2 (kept_station r i ▸ ⟨rfl, rfl⟩)
  | _ => exact hr

/-- Every move keeps the figures in their ranges (R77). -/
theorem Move.figures_kept (h : Move stand r t) (hr : r.FiguresOk) : t.FiguresOk := by
  cases h with
  | port p x h => cases p <;> exact hr
  | take p =>
    rcases take_cases r p with e | ⟨b, pool, hs, ha, e⟩
    · rw [e]; exact hr
    · rw [e]; cases p <;> exact hr
  | release p x h hx => cases p <;> exact hr
  | station i x ha hf hw => exact ⟨Bank.forall_set hr.1 (hf (hr.1 i)), hr.2⟩
  | stations x ha hf hw => exact ⟨fun i => hf i (hr.1 i), hr.2⟩
  | stationRecord i new x h ha hf hw => exact ⟨Bank.forall_set hr.1 (hf (hr.1 i)), hr.2⟩
  | leave => exact ⟨fun i => (startedBank_ok _ i).2.1 (hr.1 i), hr.2⟩
  | latches x hl hh hs hm => exact ⟨hr.1, fun b => hm b (hr.2 b)⟩
  | measures b m h =>
    exact ⟨hr.1,
      Bank.forall_set (P := fun (d : BarrierDyn) => d.measures.InRange) hr.2 (h hr)⟩
  | serial b =>
    exact ⟨hr.1,
      Bank.forall_set (P := fun (d : BarrierDyn) => d.measures.InRange) hr.2 (hr.2 b)⟩
  | barrierRecord b new h hn =>
    refine ⟨hr.1, Bank.forall_set (P := fun (d : BarrierDyn) => d.measures.InRange) hr.2 ?_⟩
    have e : ∀ (d : BarrierDyn) old new off, (d.written old new off).measures = d.measures := by
      intro d old new off
      unfold BarrierDyn.written
      dsimp only
      split <;> split <;> split <;> rfl
    rw [e]
    exact hr.2 b
  | weigh b start h =>
    refine ⟨hr.1, Bank.forall_set (P := fun (d : BarrierDyn) => d.measures.InRange) hr.2 ?_⟩
    have e : ∀ (d : BarrierDyn) c lost now start,
        (d.weigh c lost now start).measures = d.measures := by
      intro d c lost now start
      unfold BarrierDyn.weigh BarrierDyn.settle
      dsimp only
      split
      · rfl
      · split
        · rfl
        · split <;> rfl
    rw [e]
    exact hr.2 b
  | fall b h hh =>
    exact ⟨hr.1,
      Bank.forall_set (P := fun (d : BarrierDyn) => d.measures.InRange) hr.2 (hr.2 b)⟩
  | standDown b hs h =>
    exact ⟨hr.1,
      Bank.forall_set (P := fun (d : BarrierDyn) => d.measures.InRange) hr.2 (hr.2 b)⟩
  | load _ _ =>
    unfold Relay.readImageAs
    dsimp only
    split <;> exact hr
  | restart =>
    refine ⟨fun i => ?_, fun b => ?_⟩
    · exact (startedBank_ok _ i).2.1 (kept_station r i ▸ start_fillsOk)
    · change ((r.barriers.map BarrierDyn.restarted).get b).measures.InRange
      rw [Bank.get_map]
      exact Measures.start_inRange
  | _ => exact hr

/-! ## Levels -/

/-- Rise and hold from a level. -/
theorem settle_cases (d : BarrierDyn) (c : BarrierConfig) (dem sus : Level) (now : Nat) :
    d.level.rank ≤ (d.settle c dem sus now).level.rank
      ∧ ((d.settle c dem sus now).level = .evacuate → (d.settle c dem sus now).hold = none
        ∨ (d.level = .evacuate ∧ (d.settle c dem sus now).hold = d.hold)) := by
  unfold BarrierDyn.settle
  split
  · next h => exact ⟨Nat.le_of_lt h, fun _ => Or.inl rfl⟩
  · split
    · exact ⟨Nat.le_refl _, fun _ => Or.inl rfl⟩
    · split
      · next h => exact ⟨Nat.le_refl _, fun e => absurd e h.1⟩
      · exact ⟨Nat.le_refl _, fun e => Or.inr ⟨e, rfl⟩⟩

theorem weigh_cases (d : BarrierDyn) (c : BarrierConfig) (lost : Bool) (now : Nat) (start : Level) :
    d.level.rank ≤ (d.weigh c lost now start).level.rank
      ∧ ((d.weigh c lost now start).level = .evacuate → (d.weigh c lost now start).hold = none
        ∨ (d.level = .evacuate ∧ (d.weigh c lost now start).hold = d.hold))
      ∧ (d.weigh c lost now start).serial = d.serial := by
  have h := settle_cases (d.withBase c lost start) c
    ((d.withBase c lost start).demanded c lost) ((d.withBase c lost start).sustained c lost) now
  have hb : (d.withBase c lost start).level = d.level
      ∧ (d.withBase c lost start).hold = d.hold := ⟨rfl, rfl⟩
  rw [hb.1, hb.2] at h
  unfold BarrierDyn.weigh
  dsimp only
  refine ⟨h.1, h.2, ?_⟩
  unfold BarrierDyn.settle
  split
  · rfl
  · split
    · rfl
    · split <;> rfl

theorem written_cases (d : BarrierDyn) (old new : BarrierConfig) (off : Bool) :
    (d.written old new off).serial = d.serial
      ∧ (d.written old new off).level = (if off then .calm else d.level)
      ∧ (d.written old new off).hold = (if off then none else d.hold) := by
  unfold BarrierDyn.written
  dsimp only
  split <;> split <;> split <;> exact ⟨rfl, rfl, rfl⟩

theorem Level.eq_evacuate {l : Level} (h : 3 ≤ l.rank) : l = .evacuate := by
  cases l
  · exact absurd h (by decide)
  · exact absurd h (by decide)
  · exact absurd h (by decide)
  · rfl

/-- Every move keeps the barriers that are not assessed at CALM (R94). -/
theorem Move.calm_kept (h : Move stand r t) (hr : r.CalmUnlessAssessed) : t.CalmUnlessAssessed := by
  have hlevel : ∀ {x : Bank BarrierDyn 8} {b : Fin 8} {d : BarrierDyn},
      (∀ i, r.assessed i = false → (x.get i).level = .calm) →
      (r.assessed b = false → d.level = .calm) →
      ∀ i, r.assessed i = false → ((x.set b d).get i).level = .calm := by
    intro x b d hx hd i hi
    rw [Bank.get_set]
    split
    · next e => exact hd (e ▸ hi)
    · exact hx i hi
  cases h with
  | port p x h => cases p <;> exact hr
  | take p =>
    rcases take_cases r p with e | ⟨b, pool, hs, ha, e⟩
    · rw [e]; exact hr
    · rw [e]; cases p <;> exact hr
  | release p x h hx => cases p <;> exact hr
  | store x hm hb ho =>
    intro b hb
    refine hr b ?_
    unfold Relay.assessed at hb ⊢
    rw [Relay.setStore_store, hm] at hb
    exact hb
  | tables x h hb hs =>
    intro b hb2
    refine hr b ?_
    unfold Relay.assessed at hb2 ⊢
    rw [Relay.setTables_tables, hb] at hb2
    exact hb2
  | barrierRecord b new h hn =>
    intro i hi
    by_cases e : b = i
    · subst e
      change ((r.barriers.set b _).get b).level = .calm
      rw [Bank.get_set_self, (written_cases _ _ _ _).2.1]
      have hi2 : (new.enabled && r.store.mode == .assessing) = false := by
        have e2 : ((r.tables.barriers.set b new).get b).enabled = new.enabled := by
          rw [Bank.get_set_self]
        change (((r.tables.barriers.set b new).get b).enabled && r.store.mode == .assessing) = false
          at hi
        rw [e2] at hi
        exact hi
      split
      · rfl
      · next ho =>
        refine hr b ?_
        unfold Relay.assessed
        cases h1 : (r.tables.barriers.get b).enabled <;> cases h2 : new.enabled <;>
          cases h3 : (r.store.mode == .assessing) <;> simp_all
    · change ((r.barriers.set b _).get i).level = .calm
      rw [Bank.get_set_of_ne _ _ e]
      refine hr i ?_
      have e2 : ((r.tables.barriers.set b new).get i) = r.tables.barriers.get i :=
        Bank.get_set_of_ne _ _ e
      change (((r.tables.barriers.set b new).get i).enabled && r.store.mode == .assessing) = false
        at hi
      rw [e2] at hi
      exact hi
  | load m h =>
    have e : (r.readImageAs m).barriers = r.barriers := by
      unfold Relay.readImageAs
      dsimp only
      split <;> rfl
    intro b hb
    rw [e]
    refine hr b ?_
    unfold Relay.assessed
    rw [show (r.store.mode == .assessing) = false by simpa using h, Bool.and_false]
  | leave mode _ _ _ h hm =>
    intro b hb
    refine hr b ?_
    unfold Relay.assessed
    rw [show (r.store.mode == .assessing) = false by simpa using h, Bool.and_false]
  | latches x hl hh hs hm =>
    intro b hb
    exact (hl b).trans (hr b hb)
  | measures b m h => exact hlevel hr (fun hb => hr b hb)
  | serial b => exact hlevel hr (fun hb => hr b hb)
  | weigh b start h =>
    refine hlevel hr (fun hb => ?_)
    rcases h with h | h
    · rw [hb] at h; cases h
    · exact absurd (hr b hb) h
  | fall b h hh => exact hlevel hr (fun hb => by rw [hb] at h; cases h)
  | standDown b hs h =>
    refine hlevel hr (fun hb => ?_)
    rw [hr b hb] at h
    cases h
  | restart =>
    intro b hb
    change ((r.barriers.map BarrierDyn.restarted).get b).level = .calm
    rw [Bank.get_map]
    have hc := hr b hb
    unfold BarrierDyn.restarted
    simp [hc]
  | _ => exact hr

/-- Every move keeps the hold deadline away from EVACUATE (R101). -/
theorem Move.hold_kept (h : Move stand r t) (hr : r.NoHoldAtEvacuate) : t.NoHoldAtEvacuate := by
  have hset : ∀ {b : Fin 8} {d : BarrierDyn}, (d.level = .evacuate → d.hold = none) →
      ∀ i, ((r.barriers.set b d).get i).level = .evacuate →
        ((r.barriers.set b d).get i).hold = none := by
    intro b d hd i
    rw [Bank.get_set]
    split
    · exact hd
    · exact hr i
  cases h with
  | port p x h => cases p <;> exact hr
  | take p =>
    rcases take_cases r p with e | ⟨b, pool, hs, ha, e⟩
    · rw [e]; exact hr
    · rw [e]; cases p <;> exact hr
  | release p x h hx => cases p <;> exact hr
  | barrierRecord b new h hn =>
    refine hset ?_
    rw [(written_cases _ _ _ _).2.1, (written_cases _ _ _ _).2.2]
    split
    · intro e; cases e
    · exact hr b
  | load _ _ =>
    unfold Relay.readImageAs
    dsimp only
    split <;> exact hr
  | latches x hl hh hs hm =>
    intro b hb
    rw [Relay.setBarriers_barriers] at hb ⊢
    rw [hl b] at hb
    rw [hh b]
    exact hr b hb
  | measures b m h => exact hset (hr b)
  | serial b => exact hset (hr b)
  | weigh b start h =>
    refine hset (fun e => ?_)
    rcases (weigh_cases _ _ _ _ _).2.1 e with h | ⟨h1, h2⟩
    · exact h
    · exact h2.trans (hr b h1)
  | fall b h hh => exact hset (fun _ => rfl)
  | standDown b hs h => exact hset (fun e => by cases e)
  | restart =>
    intro b _
    change ((r.barriers.map BarrierDyn.restarted).get b).hold = none
    rw [Bank.get_map]
    rfl
  | _ => exact hr

/-- No move lowers an alert serial (R121). -/
theorem Move.serial_kept (h : Move stand r t) (b : Fin 8) (n : Nat)
    (hr : min n Config.maxSerial ≤ (r.barriers.get b).serial) :
    min n Config.maxSerial ≤ (t.barriers.get b).serial := by
  have hset : ∀ {c : Fin 8} {d : BarrierDyn},
      (min n Config.maxSerial ≤ (r.barriers.get c).serial → min n Config.maxSerial ≤ d.serial) →
      min n Config.maxSerial ≤ ((r.barriers.set c d).get b).serial := by
    intro c d hd
    rw [Bank.get_set]
    split
    · next e => exact hd (e ▸ hr)
    · exact hr
  cases h with
  | port p x h => cases p <;> exact hr
  | take p =>
    rcases take_cases r p with e | ⟨b, pool, hs, ha, e⟩
    · rw [e]; exact hr
    · rw [e]; cases p <;> exact hr
  | release p x h hx => cases p <;> exact hr
  | barrierRecord c new h hn =>
    refine hset (fun e => ?_)
    rw [(written_cases _ _ _ _).1]
    exact e
  | load _ _ =>
    unfold Relay.readImageAs
    dsimp only
    split <;> exact hr
  | latches x hl hh hs hm => exact (hs b).symm ▸ hr
  | measures c m h => exact hset id
  | serial c =>
    refine hset (fun e => ?_)
    change min n Config.maxSerial ≤ min (_ + 1) Config.maxSerial
    omega
  | weigh c start h =>
    refine hset (fun e => ?_)
    rw [(weigh_cases _ _ _ _ _).2.2]
    exact e
  | fall c h hh => exact hset id
  | standDown c hs h => exact hset id
  | restart =>
    change min n Config.maxSerial ≤ ((r.barriers.map BarrierDyn.restarted).get b).serial
    rw [Bank.get_map]
    exact hr
  | _ => exact hr

/-- Without a STAND-DOWN every move keeps a barrier at EVACUATE with no hold running (R101). -/
theorem Move.evacuate_kept (h : Move false r t) (b : Fin 8)
    (hr : (r.barriers.get b).level = .evacuate ∧ (r.barriers.get b).hold = none) :
    (t.barriers.get b).level = .evacuate ∧ (t.barriers.get b).hold = none := by
  have hset : ∀ {c : Fin 8} {d : BarrierDyn},
      ((r.barriers.get c).level = .evacuate ∧ (r.barriers.get c).hold = none →
        d.level = .evacuate ∧ d.hold = none) →
      ((r.barriers.set c d).get b).level = .evacuate
        ∧ ((r.barriers.set c d).get b).hold = none := by
    intro c d hd
    rw [Bank.get_set]
    split
    · next e => exact hd (e ▸ hr)
    · exact hr
  cases h with
  | port p x h => cases p <;> exact hr
  | take p =>
    rcases take_cases r p with e | ⟨b, pool, hs, ha, e⟩
    · rw [e]; exact hr
    · rw [e]; cases p <;> exact hr
  | release p x h hx => cases p <;> exact hr
  | barrierRecord c new h hn =>
    refine hset (fun e => ?_)
    rw [(written_cases _ _ _ _).2.1, (written_cases _ _ _ _).2.2]
    have hoff : ((r.tables.barriers.get c).enabled && !new.enabled
        && r.store.mode == .assessing) = false := by
      cases h1 : (r.tables.barriers.get c).enabled <;> cases h2 : new.enabled
      · rfl
      · rfl
      · have h3 := h h1 h2
        rw [e.1] at h3
        exact absurd h3 (by decide)
      · rfl
    rw [hoff]
    exact e
  | load _ _ =>
    unfold Relay.readImageAs
    dsimp only
    split <;> exact hr
  | latches x hl hh hs hm => exact ⟨(hl b).trans hr.1, (hh b).trans hr.2⟩
  | measures c m h => exact hset id
  | serial c => exact hset id
  | weigh c start h =>
    refine hset (fun e => ?_)
    have hw := weigh_cases (r.barriers.get c) (r.tables.barriers.get c) r.lineLoss.lost r.now start
    have hl : ((r.barriers.get c).weigh (r.tables.barriers.get c) r.lineLoss.lost r.now
        start).level = .evacuate := Level.eq_evacuate (by
      have := hw.1
      rw [e.1] at this
      exact this)
    refine ⟨hl, ?_⟩
    rcases hw.2.1 hl with h | ⟨_, h⟩
    · exact h
    · exact h.trans e.2
  | fall c h hh =>
    refine hset (fun e => ?_)
    rw [e.2] at hh
    cases hh
  | standDown c hs h => cases hs
  | restart =>
    change ((r.barriers.map BarrierDyn.restarted).get b).level = .evacuate
      ∧ ((r.barriers.map BarrierDyn.restarted).get b).hold = none
    rw [Bank.get_map]
    unfold BarrierDyn.restarted
    simp [hr.1, BarrierDyn.start]
  | _ => exact hr

/-! ## Channels and modes -/

/-- Every move keeps IDLE channels empty (R135). -/
theorem Move.channels_kept (h : Move stand r t) (hr : r.ChannelsSettled) : t.ChannelsSettled := by
  cases h with
  | port p x h => cases p <;> exact hr
  | take p =>
    rcases take_cases r p with e | ⟨b, pool, hs, ha, e⟩
    · rw [e]; exact hr
    · rw [e]; cases p <;> exact hr
  | release p x h hx => cases p <;> exact hr
  | channel c x h => exact Bank.forall_set hr (h (hr c))
  | channels f h =>
    intro c
    rw [Relay.setChannels_channels, Bank.get_map]
    exact h _ (hr c)
  | load _ _ =>
    unfold Relay.readImageAs
    dsimp only
    split <;> exact hr
  | restart =>
    intro c
    change ((Bank.fill 4 Channel.start).get c).Settled
    rw [Bank.get_fill]
    exact fun _ => ⟨rfl, rfl, rfl, rfl, rfl, rfl, rfl, rfl⟩
  | _ => exact hr

/-- No move enters STARTING (R186, R191). -/
theorem Move.mode_kept (h : Move stand r t) (hr : r.store.mode ≠ .starting) :
    t.store.mode ≠ .starting := by
  cases h with
  | port p x h => cases p <;> exact hr
  | take p =>
    rcases take_cases r p with e | ⟨b, pool, hs, ha, e⟩
    · rw [e]; exact hr
    · rw [e]; cases p <;> exact hr
  | release p x h hx => cases p <;> exact hr
  | store x hm hb ho => exact hm ▸ hr
  | load _ _ => rw [readImageAs_mode]; exact hr
  | leave mode _ _ _ h hm => exact hm
  | _ => exact hr

/-! ## The rules over several records -/

/-- How many of eight records may keep a mark that only the first two in order keep. -/
def keyCount (f : Fin 8 → Bool) : Nat :=
  ((List.finRange 8).filter (fun i => f i &&
    !decide (2 ≤ ((List.finRange 8).filter (fun j => decide (j < i) && f j)).length))).length

theorem keyCount_le (f : Fin 8 → Bool) : keyCount f ≤ 2 := by
  have h : ∀ b0 b1 b2 b3 b4 b5 b6 b7 : Bool,
      keyCount (fun i => [b0, b1, b2, b3, b4, b5, b6, b7].getD i.val false) ≤ 2 := by
    decide +kernel
  have e : f = fun i => [f 0, f 1, f 2, f 3, f 4, f 5, f 6, f 7].getD i.val false := by
    funext i
    fin_cases i <;> rfl
  rw [e]
  exact h _ _ _ _ _ _ _ _

theorem loadTables_ok (cells : List Host.Cell) (own : Addr) :
    (loadTables cells own).1.InRange
      ∧ (loadTables cells own).1.AddressesDistinct ∧ (loadTables cells own).1.LinesDistinct
      ∧ (loadTables cells own).1.KeysOk
      ∧ (∀ i c, (loadTables cells own).1.stations.get i = some c → c.address ≠ own)
      ∧ ∀ m, (loadTables cells own).1.identity.manager = some m → m ≠ own := by
  have hs : ∀ i c, (loadTables cells own).1.stations.get i = some c →
      stationClash ((readBank 48 cells 33 12 decodeStation).map (fun x => x.getD none)) own i = false
        ∧ ((readBank 48 cells 33 12 decodeStation).map (fun x => x.getD none)).get i = some c := by
    intro i c h
    simp only [loadTables, loadStations, Bank.get_ofFn] at h
    split at h
    · cases h
    · next hc => exact ⟨Bool.eq_false_iff.mpr hc, h⟩
  have hlow : ∀ i j c e, (loadTables cells own).1.stations.get i = some c →
      (loadTables cells own).1.stations.get j = some e → c.address = e.address → ¬ i < j := by
    intro i j c e hi hj ha hlt
    have h1 := hs i c hi
    have h2 := hs j e hj
    have h3 := h2.1
    unfold stationClash at h3
    rw [h2.2] at h3
    simp only [Bool.or_eq_false_iff, List.any_eq_false, List.mem_finRange, forall_const,
      Bool.and_eq_true, decide_eq_true_eq, beq_iff_eq, not_and] at h3
    refine h3.2 i hlt ?_
    rw [h1.2]
    exact congrArg some ha
  have hb : ∀ i l, ((loadTables cells own).1.bindings.get i).line = some l →
      bindingClash (Bank.ofFn (fun i => ((readBank 4 cells 1241 2 decodeBinding).get i).getD
          (Binding.emptied i))) i = false
        ∧ (((readBank 4 cells 1241 2 decodeBinding).get i).getD (Binding.emptied i)).line
          = some l := by
    intro i l h
    simp only [loadTables, loadBindings, Bank.get_ofFn] at h
    split at h
    · cases h
    · next hc => exact ⟨Bool.eq_false_iff.mpr hc, h⟩
  have hbl : ∀ i j l, ((loadTables cells own).1.bindings.get i).line = some l →
      ((loadTables cells own).1.bindings.get j).line = some l → ¬ i < j := by
    intro i j l hi hj hlt
    have h1 := hb i l hi
    have h2 := hb j l hj
    have h3 := h2.1
    unfold bindingClash at h3
    simp only [Bank.get_ofFn, h2.2, Option.isSome_some, Bool.true_and, List.any_eq_false,
      List.mem_finRange, forall_const, Bool.and_eq_true, decide_eq_true_eq, beq_iff_eq,
      not_and] at h3
    exact h3 i hlt h1.2
  refine ⟨loadTables_inRange cells own, ?_, ?_, ?_, ?_, ?_⟩
  · intro i j c e hi hj ha
    have h1 := hlow i j c e hi hj ha
    have h2 := hlow j i e c hj hi ha.symm
    omega
  · intro c e l hc he
    have h1 := hbl c e l hc he
    have h2 := hbl e c l he hc
    omega
  · unfold Tables.KeysOk
    let judged := (readBank 8 cells 1209 4 decodeInput).map (fun x => x.getD InputConfig.emptied)
    have e : ∀ i, (((loadTables cells own).1.inputs.get i).function == .resetKey)
        = ((judged.get i).function == .resetKey && !decide (2 ≤ ((List.finRange 8).filter
          (fun j => decide (j < i) && (judged.get j).function == .resetKey)).length)) := by
      intro i
      simp only [loadTables, loadInputs, Bank.get_ofFn]
      change ((if keyClash judged i = true then
        ({ judged.get i with function := .unused } : InputConfig) else judged.get i).function
          == .resetKey) = _
      unfold keyClash
      cases h1 : ((judged.get i).function == InputFunction.resetKey)
      · simp [h1]
      · split
        · next h2 => simp only [Bool.true_and] at h2; rw [h2]; rfl
        · next h2 => simp only [Bool.true_and, Bool.not_eq_true] at h2; rw [h2, h1]; rfl
    rw [List.filter_congr (fun i _ => e i)]
    exact keyCount_le (fun i => (judged.get i).function == .resetKey)
  · intro i c h e
    have h1 := hs i c h
    have h3 := h1.1
    unfold stationClash at h3
    rw [h1.2] at h3
    simp [e] at h3
  · intro m h e
    simp only [loadTables, loadIdentity] at h
    split at h
    · cases h
    · split at h
      · cases h
      · next hm => exact hm (by rw [h, e])

/-- Every move keeps the ranges of the tables and the rules over several of their records (R46, R131,
R155, R163, R170). -/
theorem Move.tables_kept (h : Move stand r t) (hr : r.TablesOk) : t.TablesOk := by
  cases h with
  | port p x h => cases p <;> exact hr
  | take p =>
    rcases take_cases r p with e | ⟨b, pool, hs, ha, e⟩
    · rw [e]; exact hr
    · rw [e]; cases p <;> exact hr
  | release p x h hx => cases p <;> exact hr
  | store x hm hb ho =>
    refine ⟨hr.1, hr.2.1, hr.2.2.1, hr.2.2.2.1, ?_, ?_⟩
    · intro i c h
      rw [Relay.setStore_store, ho]
      exact hr.2.2.2.2.1 i c h
    · intro m h
      rw [Relay.setStore_store, ho]
      exact hr.2.2.2.2.2 m h
  | tables x h hb hs => exact h hr
  | stationRecord i new x h ha hf hw => exact h hr
  | barrierRecord b new h hn =>
    obtain ⟨⟨g1, g2, g3, g4, g5⟩, h1, h2, h3, h4, h5⟩ := hr
    refine ⟨⟨g1, g2, ?_, g4, g5⟩, h1, h2, h3, h4, h5⟩
    intro c
    simp only [Relay.setBarrier_tables, Relay.setTables_tables, Bank.get_set]
    split
    · exact hn
    · exact g3 c
  | load _ _ =>
    unfold Relay.readImageAs
    dsimp only
    split
    · exact loadTables_ok _ r.store.own
    · exact hr
  | _ => exact hr
end Sys2Proof.Machine
end

