-- ==== Sys2Proof/Laws/Links.lean ====
section
/-! SUPPORT. What a word, the end of a transmission and a change of link leave of the rest of the
part, and what a restart leaves of a pending one. -/

namespace Sys2Proof.Machine

/-! ## Ports by name -/

theorem port_setPort (r : Relay) (p : LinkPort) (x : Port) : (r.setPort p x).port p = x := by
  cases p <;> rfl

theorem setPort_setPort (r : Relay) (p : LinkPort) (x y : Port) :
    (r.setPort p x).setPort p y = r.setPort p y := by
  cases p <;> rfl

theorem setPort_port (r : Relay) (p : LinkPort) : r.setPort p (r.port p) = r := by
  cases p <;> rfl

theorem word_name (r : Relay) (p : LinkPort) (w : LineWord) :
    r.word p.name w = r.linkWord p w := by
  cases p <;> rfl

/-! ## The assembly buffer -/

theorem append_room {a : Assembly} {b : Byte} (h : a.bytes.length < 64) :
    a.append b
      = some { a with bytes := a.bytes ++ [if a.polarity = .normal then b else ~~~b] } := by
  unfold Assembly.append
  rw [if_pos (show a.bytes.length < Config.assemblyBytes from h)]
  cases a.polarity <;> simp [readByte]

theorem append_full {a : Assembly} {b : Byte} (h : 64 ≤ a.bytes.length) : a.append b = none := by
  unfold Assembly.append
  rw [if_neg (show ¬ a.bytes.length < Config.assemblyBytes from Nat.not_lt.mpr h)]

theorem discard_eq (q : Port) :
    ∃ c, q.discard = { q with assembly := none, counters := c }
      ∧ c.linkDrops = q.counters.linkDrops ∧ c.transmitAborts = q.counters.transmitAborts := by
  unfold Port.discard
  split
  · next e => exact ⟨q.counters, by rw [← e], rfl, rfl⟩
  · split
    · exact ⟨_, rfl, rfl, rfl⟩
    · exact ⟨_, rfl, rfl, rfl⟩

/-! ## Upper line lost -/

theorem setLineLost_handOver (r : Relay) (b : Bool) :
    SameButHandOver (r.setLineLoss { r.lineLoss with lost := b }) (r.setLineLost b) := by
  unfold Relay.setLineLost
  refine SameButHandOver.foldl ?_ _ _
  intro r b
  exact SameButHandOver.whenIf (evaluate_handOver _ _)

/-! ## A port that is not UP takes nothing -/

theorem take_port (r : Relay) (p x : LinkPort) (h : (r.port p).link ≠ .up) :
    (r.take x).port p = r.port p := by
  unfold Relay.take
  split
  · next hc =>
    split
    · rfl
    · cases p <;> cases x <;> first | rfl | exact absurd hc.1 h
  · rfl

theorem offerTest_port (r : Relay) (p x : LinkPort) (b : Buffer) (h : (r.port p).link ≠ .up) :
    (r.offerTest x b).1.port p = r.port p := by
  cases x
  · simp only [Relay.offerTest, Relay.offerUp]
    split
    · exact take_port _ _ _ (by cases p <;> exact h)
    · cases p <;> rfl
  · simp only [Relay.offerTest, Relay.offerRoutine]
    split
    · exact take_port _ _ _ (by cases p <;> exact h)
    · cases p <;> rfl

theorem makeTestFrame_port (r : Relay) (p : LinkPort) (h : (r.port p).link ≠ .up) :
    r.makeTestFrame.port p = r.port p := by
  unfold Relay.makeTestFrame
  split
  · rfl
  · next q _ =>
    have e := offerTest_port r p q.port
      { frame := r.ownFrame .test false 0#4 q.target (testPattern q.length r.generator.seed)
        maker := .testRun r.generator.run } h
    dsimp only
    split <;> rw [← e] <;> cases p <;> rfl

theorem testFrameFinished_port (r : Relay) (p : LinkPort) (n : Nat) (h : (r.port p).link ≠ .up) :
    (r.testFrameFinished n).port p = r.port p := by
  unfold Relay.testFrameFinished
  split
  · rfl
  · split
    · dsimp only
      split
      · cases p <;> rfl
      · split
        · refine (makeTestFrame_port _ p ?_).trans ?_
          · cases p <;> exact h
          · cases p <;> rfl
        · cases p <;> rfl
    · rfl

/-! ## Channels under the queues -/

theorem take_channels (r : Relay) (p : LinkPort) : (r.take p).channels = r.channels := by
  unfold Relay.take
  split
  · split
    · rfl
    · cases p <;> rfl
  · rfl

theorem offerTest_channels (r : Relay) (p : LinkPort) (b : Buffer) :
    (r.offerTest p b).1.channels = r.channels := by
  cases p
  · simp only [Relay.offerTest, Relay.offerUp]
    split
    · exact take_channels _ _
    · rfl
  · simp only [Relay.offerTest, Relay.offerRoutine]
    split
    · exact take_channels _ _
    · rfl

theorem makeTestFrame_channels (r : Relay) : r.makeTestFrame.channels = r.channels := by
  unfold Relay.makeTestFrame
  split
  · rfl
  · dsimp only
    split <;> exact offerTest_channels _ _ _

theorem testFrameFinished_channels (r : Relay) (n : Nat) :
    (r.testFrameFinished n).channels = r.channels := by
  unfold Relay.testFrameFinished
  split
  · rfl
  · split
    · dsimp only
      split
      · rfl
      · split
        · exact makeTestFrame_channels _
        · rfl
    · rfl

/-! ## The line-test pattern -/

/-- The bytes that differ from a pattern, counted by their places (R19, R22). -/
theorem differences_count (bs : List Byte) (s : Byte) :
    ((bs.zip (testPattern bs.length s)).filter (fun p => p.1 != p.2)).length
      = (List.range bs.length).countP
          (fun n => bs.getD n 0#8 != (fun x => 5#8 * x + 1#8)^[n] s) := by
  induction bs generalizing s with
  | nil => rfl
  | cons b bs ih =>
    have h := ih (5#8 * s + 1#8)
    simp only [List.length_cons, testPattern, List.zip_cons_cons, List.range_succ_eq_map,
      List.countP_cons, List.countP_map, List.filter_cons, List.getD_cons_zero,
      Function.iterate_zero, id]
    have e : ((fun n => (b :: bs).getD n 0#8 != (fun x => 5#8 * x + 1#8)^[n] s) ∘ Nat.succ)
        = fun n => bs.getD n 0#8 != (fun x => 5#8 * x + 1#8)^[n] (5#8 * s + 1#8) := by
      funext n
      simp [Function.iterate_succ]
    rw [e, ← h]
    split <;> simp_all

/-! ## The fate of a frame -/

/-- A report that starts no restart leaves all but the hand-over's part, the barriers, the channels
and a port that is not UP. -/
theorem reportFate_frame (r : Relay) (m : Maker)
    (h : m ≠ .restartReply ∨ r.agent.restartPending = false) :
    SameButHandOver r (r.reportFate m) ∧ (r.reportFate m).barriers = r.barriers
      ∧ (r.reportFate m).channels = r.channels
      ∧ ∀ p, (r.port p).link ≠ .up → (r.reportFate m).port p = r.port p := by
  cases m with
  | other => exact ⟨SameButHandOver.refl r, rfl, rfl, fun _ _ => rfl⟩
  | testRun n =>
    exact ⟨testFrameFinished_handOver r n, testFrameFinished_barriers r n,
      testFrameFinished_channels r n, fun p => testFrameFinished_port r p n⟩
  | restartReply =>
    have e : r.reportFate .restartReply = r := by
      rcases h with h | h
      · exact absurd rfl h
      · simp [Relay.reportFate, Relay.when, h]
    rw [e]
    exact ⟨SameButHandOver.refl r, rfl, rfl, fun _ _ => rfl⟩

/-- A transmission abandoned at a port that is not UP, where no restart follows. -/
theorem abandon_frame (r : Relay) (p : LinkPort) (h : (r.port p).link ≠ .up)
    (hr : (∀ t, (r.port p).sending = some t → t.buffer.maker ≠ .restartReply)
      ∨ r.agent.restartPending = false) :
    (r.abandon p).lineLoss = r.lineLoss ∧ (r.abandon p).barriers = r.barriers
      ∧ (r.abandon p).channels = r.channels ∧ (r.abandon p).tables = r.tables
      ∧ (r.abandon p).agent = r.agent ∧ (r.abandon p).store = r.store
      ∧ (r.abandon p).memory = r.memory ∧ (r.abandon p).pins = r.pins
      ∧ (r.abandon p).port p
        = { r.port p with
            sending := none
            counters :=
              { (r.port p).counters with
                transmitAborts :=
                  if (r.port p).sending = none then (r.port p).counters.transmitAborts
                  else min ((r.port p).counters.transmitAborts + 1) 65535 } } := by
  unfold Relay.abandon
  split
  · next e =>
    refine ⟨rfl, rfl, rfl, rfl, rfl, rfl, rfl, rfl, ?_⟩
    rw [if_pos e]
    cases p <;> simp only [Relay.port] at e ⊢ <;> rw [← e]
  · next t e =>
    have hq : t.buffer.maker ≠ .restartReply ∨ r.agent.restartPending = false :=
      hr.imp (fun g => g t e) id
    let q := (r.setPort p ((({ r.port p with sending := none } : Port)).count
      (fun k => { k with transmitAborts := bump k.transmitAborts }))).setPool
        { r.pool with free := r.pool.free + 1 }
    have hp : (q.port p).link ≠ .up := by cases p <;> exact h
    have ha : q.agent = r.agent := by cases p <;> rfl
    obtain ⟨h1, h2, h3, h4⟩ := reportFate_frame q t.buffer.maker (hq.imp id (fun g => by rw [ha]; exact g))
    refine ⟨h1.lineLoss.trans (by cases p <;> rfl), h2.trans (by cases p <;> rfl),
      h3.trans (by cases p <;> rfl), h1.tables.trans (by cases p <;> rfl), h1.agent.trans ha,
      h1.store.trans (by cases p <;> rfl), h1.memory.trans (by cases p <;> rfl),
      h1.pins.trans (by cases p <;> rfl), (h4 p hp).trans ?_⟩
    rw [if_neg (by rw [e]; simp)]
    cases p <;> rfl

/-! ## A restart ends a pending one -/

theorem foldl_agent {α : Type} (f : Relay → α → Relay) (h : ∀ r x, (f r x).agent = r.agent) :
    ∀ (xs : List α) (r : Relay), (xs.foldl f r).agent = r.agent
  | [], _ => rfl
  | x :: xs, r => (foldl_agent f h xs (f r x)).trans (h r x)

theorem when_agent (r : Relay) (c : Bool) (f : Relay → Relay) (h : ∀ r, (f r).agent = r.agent) :
    (r.when c f).agent = r.agent := by
  unfold Relay.when
  split
  · exact h r
  · rfl

theorem startInputs_agent (r : Relay) : r.startInputs.agent = r.agent := by
  have hk : ∀ r : Relay, r.settleKey.agent = r.agent := by
    intro r
    unfold Relay.settleKey
    split <;> split <;> rfl
  unfold Relay.startInputs
  refine (hk _).trans (foldl_agent _ (fun r i => ?_) _ _)
  unfold Relay.startInput
  refine when_agent _ _ _ (fun r => ?_)
  unfold Relay.inputMoves
  dsimp only
  split <;> rfl

theorem startBarrier_agent (r : Relay) (b : Fin 8) : (r.startBarrier b).agent = r.agent := by
  have h : ∀ t : Relay,
      ((t.toldOfChange b).requestUnlessQuieted b .evacuate).preemptTest.agent = t.agent := by
    intro t
    rw [(preemptTest_handOver _).agent, (requestUnlessQuieted_handOver _ b _).agent,
      (toldOfChange_handOver t b).agent]
  unfold Relay.startBarrier
  dsimp only
  rw [when_agent _ _ _ h, (evaluate_handOver r b).agent]

theorem startEvaluation_agent (r : Relay) : r.startEvaluation.agent = r.agent := by
  unfold Relay.startEvaluation
  exact foldl_agent _ startBarrier_agent _ _

theorem startRecompute_agent (r : Relay) : r.startRecompute.agent = r.agent := by
  unfold Relay.startRecompute
  refine foldl_agent _ (fun r b => ?_) _ _
  have h : ∀ (t : Relay) (m : Measures), (t.setMeasures b m).agent = t.agent := fun _ _ => rfl
  unfold Relay.recompute
  rw [h, h]

theorem startAssessing_agent (r : Relay) : r.startAssessing.agent = r.agent := by
  unfold Relay.startAssessing
  refine when_agent _ _ _ (fun r => ?_)
  rw [startEvaluation_agent, startRecompute_agent]
  rfl

/-- After a restart no restart is pending (R179). -/
theorem restart_restartPending (r : Relay) : r.restart.agent.restartPending = false := by
  have h : r.keptByRestart.releasePorts.startInputs.startAssessing.agent = Agent.start :=
    (startAssessing_agent _).trans ((startInputs_agent _).trans rfl)
  unfold Relay.restart Relay.goLive Relay.sendHealth Relay.buildHealth Relay.startHealthTimer
  rw [Relay.setAgent_agent, (offerOwn_handOver _ _ _ _).agent, h]
  rfl

end Sys2Proof.Machine
end

