-- ==== Sys2Proof/Laws/Steps.lean ====
section
/-! SUPPORT. An invariant of moves as an invariant of commands and of steps: what is asked of it beside
the moves, for a part in STARTING and for one that was just cleared. -/

namespace Sys2Proof.Machine

/-- The part as a power-on or clock-loss reset with these pins clears it (R186 step 1). -/
def Relay.afresh (r : Relay) (cause : ResetCause) (q : StartPins) : Relay :=
  Relay.cleared cause (r.pins.atStart q) (q.memory.getD r.cutMemory) r.cutCount

/-- The command is a power-on or a clock-loss reset with these pins. -/
def Starts (c : Instr) (q : StartPins) : Prop :=
  c = .powerOn q ∨ c = .clockResume q

/-! ## Straps and samples in STARTING -/

theorem readStraps_keeps {P : Relay → Prop} (hm : ∀ {r t : Relay}, Move false r t → P r → P t)
    (hc : ∀ {r : Relay} (x : Clock), P r → P (r.setClock x)) {r : Relay} (straps : Addr) (ms : Nat)
    (hs : r.store.mode = .starting)
    (hp : ∀ x y, y.mode = .starting → P ((r.setPins x).setStore y)) :
    P (r.readStraps straps ms) := by
  unfold Relay.readStraps
  dsimp only
  split
  · obtain ⟨k, h⟩ := finishStart_moves (stand := false)
      ((r.setPins { r.pins with straps := straps }).setStore
        { (r.setPins { r.pins with straps := straps }).store with own := straps }) ms (by
          change r.store.mode ≠ .assessing
          rw [hs]
          decide)
    exact Moves.keep (fun _ _ => hm) h (hc k (hp _ _ hs))
  · exact hp _ _ hs

/-- A change keeps what every move keeps, with these two points on a part in STARTING and on one that
was just cleared. -/
theorem Change.keeps {P : Relay → Prop} {c : Instr} {r t : Relay} (h : Change c r t)
    (hm : ∀ {stand : Bool} {r t : Relay}, Move stand r t → P r → P t)
    (hc : ∀ {r : Relay} (x : Clock), P r → P (r.setClock x))
    (hs : r.store.mode = .starting → ∀ x y, y.mode = .starting → P ((r.setPins x).setStore y))
    (hn : ∀ cause q, Starts c q → ∀ x y, y.mode = .starting →
      P (((r.afresh cause q).setPins x).setStore y))
    (hr : P r) : P t := by
  cases h with
  | moves ha h => exact Moves.keep (fun _ _ => hm) h hr
  | pins x => exact hm (Move.pins (stand := false) r x) hr
  | clock x => exact hc x hr
  | sample x order h =>
    have e : (r.setPins x).sampleBattery order = (r.setPins x).setStore
        { r.store with
          nextSample := r.store.nextSample + Config.samplePeriod
          band := nextBand r.store.band x.centivolts } := by
      unfold Relay.sampleBattery
      dsimp only
      rw [if_pos (by exact h)]
      rfl
    rw [e]
    exact hs h x _ h
  | straps straps ms h => exact readStraps_keeps hm hc straps ms h (hs h)
  | startUp cause q h =>
    unfold Relay.startUp
    dsimp only
    refine readStraps_keeps (hm := hm) (hc := hc) q.straps q.readMs.val rfl ?_
    intro x y hy
    exact hn cause q h x y hy

theorem exec_keeps {P : Relay → Prop} {c : Instr} {s t : State} (h : exec c s = .next t)
    (hm : ∀ {stand : Bool} {r t : Relay}, Move stand r t → P r → P t)
    (hc : ∀ {r : Relay} (x : Clock), P r → P (r.setClock x))
    (hs : s.relay.store.mode = .starting → ∀ x y, y.mode = .starting →
      P ((s.relay.setPins x).setStore y))
    (hn : ∀ cause q, Starts c q → ∀ x y, y.mode = .starting →
      P (((s.relay.afresh cause q).setPins x).setStore y))
    (hr : P s.relay) : P t.relay := by
  obtain ⟨u, e, k⟩ := exec_change c s
  rw [h] at e
  cases e
  exact k.keeps hm hc hs hn hr

/-- A timer event of the part's own clock is no reset. -/
theorem nextEvent_starts {r : Relay} {c : Instr} (h : r.nextEvent = some c) (q : StartPins) :
    ¬ Starts c q := by
  unfold Relay.nextEvent at h
  split at h
  · cases h
  · obtain ⟨x, hx, rfl⟩ := Option.map_eq_some_iff.mp h
    have hmem := List.mem_of_find?_eq_some hx
    unfold Relay.timerEvents at hmem
    unfold Starts
    split at hmem
    · simp [Relay.watchEvents] at hmem
      rcases hmem with rfl | rfl <;> simp
    · simp only [Relay.keyEvents, Relay.portEvents, Relay.deadlineEvents, Relay.localEvents, Relay.watchEvents,
        List.mem_append, List.mem_map, List.mem_flatMap, List.mem_cons, List.not_mem_nil,
        List.mem_finRange, true_and, or_false] at hmem
      aesop

/-- A step is a command, or the passing of time. -/
theorem step_cases {s t : State} (h : step s = .next t) :
    (∃ c, (c ∈ s.pending ∨ ∀ q, ¬ Starts c q) ∧ ∃ u : State, u.relay = s.relay
        ∧ exec c u = .next t)
      ∨ t.relay = s.relay.passTime := by
  unfold step at h
  split at h
  · next c rest e =>
    exact Or.inl ⟨c, Or.inl (by rw [e]; exact List.mem_cons_self), { s with pending := rest }, rfl, h⟩
  · split at h
    · next c e => exact Or.inl ⟨c, Or.inr (nextEvent_starts e), s, rfl, h⟩
    · cases h
      exact Or.inr rfl

/-- A step keeps what every move keeps, with the same points. -/
theorem step_keeps {P : Relay → Prop} {s t : State} (h : step s = .next t)
    (hm : ∀ {stand : Bool} {r t : Relay}, Move stand r t → P r → P t)
    (hc : ∀ {r : Relay} (x : Clock), P r → P (r.setClock x))
    (hs : s.relay.store.mode = .starting → ∀ x y, y.mode = .starting →
      P ((s.relay.setPins x).setStore y))
    (hn : ∀ c q cause, c ∈ s.pending → Starts c q → ∀ x y, y.mode = .starting →
      P (((s.relay.afresh cause q).setPins x).setStore y))
    (hr : P s.relay) : P t.relay := by
  rcases step_cases h with ⟨c, hmem, u, hu, he⟩ | ht
  · refine exec_keeps he hm hc (hu ▸ hs) ?_ (hu ▸ hr)
    rw [hu]
    intro cause q hq
    rcases hmem with hmem | hmem
    · exact hn c q cause hmem hq
    · exact absurd hq (hmem q)
  · rw [ht]
    unfold Relay.passTime
    split
    · exact hr
    · exact hc _ hr

/-! ## STARTING -/

theorem afresh_clear (r : Relay) (cause : ResetCause) (q : StartPins) (x : Pins) (y : Store)
    (h : y.cause = cause) : (((r.afresh cause q).setPins x).setStore y).ClearInStarting := by
  intro _
  subst h
  rfl

/-- A part that is out of STARTING is clear in it, with nothing to say. -/
theorem clear_of_mode {r : Relay} (h : r.store.mode ≠ .starting) : r.ClearInStarting :=
  fun e => absurd e h

theorem clear_setPins {r : Relay} (x : Pins) (h : r.ClearInStarting) :
    (r.setPins x).ClearInStarting := by
  intro hm
  exact congrArg (fun u : Relay => u.setPins x) (h hm)

theorem clear_setClock {r : Relay} (x : Clock) (h : r.ClearInStarting) :
    (r.setClock x).ClearInStarting := by
  intro hm
  exact congrArg (fun u : Relay => u.setClock x) (h hm)

theorem clear_setStore {r : Relay} (x : Store) (hm : r.store.mode = .starting)
    (hc : x.cause = r.store.cause) (h : r.ClearInStarting) : (r.setStore x).ClearInStarting := by
  intro _
  have e := congrArg (fun u : Relay => u.setStore x) (h hm)
  rw [← hc] at e
  exact e

theorem finishStart_mode (r : Relay) (ms : Nat) :
    (r.finishStart ms).store.mode ≠ .starting := by
  unfold Relay.finishStart
  dsimp only
  obtain ⟨line, inputs, key, h⟩ := goLive_moves (stand := false) (_ : Relay)
  refine Moves.keep (P := fun r => r.store.mode ≠ .starting) (fun _ _ => Move.mode_kept) h ?_
  change (if _ then Mode.assessing else Mode.openLine) ≠ .starting
  split <;> decide

theorem readStraps_clear {r : Relay} (straps : Addr) (ms : Nat) (hm : r.store.mode = .starting)
    (h : r.ClearInStarting) : (r.readStraps straps ms).ClearInStarting := by
  unfold Relay.readStraps
  dsimp only
  split
  · exact clear_of_mode (finishStart_mode _ _)
  · exact clear_setStore _ hm rfl (clear_setPins _ h)

theorem Change.clear {c : Instr} {r t : Relay} (h : Change c r t) (hr : r.ClearInStarting) :
    t.ClearInStarting := by
  cases h with
  | moves ha h =>
    refine clear_of_mode (Moves.keep (P := fun r => r.store.mode ≠ .starting)
      (fun _ _ => Move.mode_kept) h ?_)
    unfold Relay.awake at ha
    simp only [Bool.and_eq_true, bne_iff_ne, ne_eq] at ha
    exact ha.2
  | pins x => exact clear_setPins x hr
  | clock x => exact clear_setClock x hr
  | sample x order h =>
    unfold Relay.sampleBattery
    dsimp only
    rw [if_pos (by exact h)]
    exact clear_setStore _ h rfl (clear_setStore _ h rfl (clear_setPins _ hr))
  | straps straps ms h => exact readStraps_clear straps ms h hr
  | startUp cause q h =>
    unfold Relay.startUp
    dsimp only
    refine readStraps_clear _ _ rfl ?_
    exact clear_setStore _ rfl rfl (afresh_clear r cause q (r.pins.atStart q) _ rfl)

/-- In STARTING the part stays as the reset cleared it (R186). -/
theorem exec_clear {c : Instr} {s t : State} (h : exec c s = .next t)
    (hs : s.relay.ClearInStarting) : t.relay.ClearInStarting := by
  obtain ⟨u, e, k⟩ := exec_change c s
  rw [h] at e
  cases e
  exact k.clear hs

theorem step_clear {s t : State} (h : step s = .next t) (hs : s.relay.ClearInStarting) :
    t.relay.ClearInStarting := by
  rcases step_cases h with ⟨c, _, u, hu, he⟩ | ht
  · exact exec_clear he (hu ▸ hs)
  · rw [ht]
    unfold Relay.passTime
    split
    · exact hs
    · exact clear_setClock _ hs

/-! ## A command, unfolded once -/

/-- A command that acts only while the part is awake, where it is. -/
theorem exec_awake {c : Instr} {f : Relay → Relay} {r : Relay} {q : List Instr}
    (h : ∀ s, exec c s = s.onRelay (fun r => r.whenAwake f)) (ha : r.awake = true) :
    exec c ⟨r, q⟩ = .next ⟨f r, q⟩ := by
  rw [h]
  simp only [State.onRelay, Relay.whenAwake_of_awake ha]

/-- The checks of a request that is acted on, past steps 1 and 2 of R166. -/
theorem check_of_serves {r : Relay} {origin : Addr} {code : Nat} {args : List Byte}
    (hs : r.Serves origin) (hw : wellSized code args = true) :
    r.counted.check code args = r.counted.checkArgs code args := by
  have hp : r.counted.agent.restartPending = false := hs.2.2
  unfold Relay.check
  rw [hw, hp]
  rfl

/-- A request that passes its checks is carried out. -/
theorem exec_carryOut {c : Instr} {r : Relay} {q : List Instr} {origin : Addr} {tag : Byte}
    {code : Nat} {args : List Byte} {a : Action}
    (h : ∀ s, exec c s = s.onRelay (fun r => r.command origin tag code args))
    (hs : r.Serves origin) (hw : wellSized (byte code).toNat args = true)
    (hc : r.counted.checkArgs (byte code).toNat args = .ok a) :
    exec c ⟨r, q⟩ = .next ⟨r.counted.carryOut ⟨origin, byte code, tag⟩ args a, q⟩ := by
  refine (exec_awake (f := fun r => r.request ⟨origin, byte code, tag⟩ args) h hs.1).trans ?_
  rw [request_of_ok hs.2.1 ((check_of_serves hs hw).trans hc)]

/-- A request other than RESTART that fails a check is answered with the result of that check on the
routine queue. -/
theorem exec_refused {c : Instr} {r : Relay} {q : List Instr} {origin : Addr} {tag : Byte}
    {code : Nat} {args : List Byte} {e : Result}
    (h : ∀ s, exec c s = s.onRelay (fun r => r.command origin tag code args))
    (hs : r.Serves origin) (hw : wellSized (byte code).toNat args = true)
    (hc : r.counted.checkArgs (byte code).toNat args = .error e) (hn : byte code ≠ 14#8) :
    exec c ⟨r, q⟩ = .next ⟨r.counted.reply ⟨origin, byte code, tag⟩ e [], q⟩ := by
  refine (exec_awake (f := fun r => r.request ⟨origin, byte code, tag⟩ args) h hs.1).trans ?_
  rw [request_of_error hs.2.1 ((check_of_serves hs hw).trans hc), refuse_of_ne hn]

end Sys2Proof.Machine
end

