-- ==== Sys2Proof/Tests/Slice0.lean ====
section
/-! SUPPORT. The model's own tests: ill-formed operands, the manual's worked figures, one step of the
commands on small states, and a state that meets the hypotheses of each statement. -/

namespace Sys2Proof.Tests
open Sys2Proof Sys2Proof.Machine
set_option Elab.async false

/-! ## Small states -/

/-- A part in ASSESSING mode at 3 s, with own address 7 and everything else as after reset. -/
def live : Relay :=
  { State.reset.relay with
    clock := { ms := 3000, lost := false }
    store := { State.reset.relay.store with mode := .assessing, own := 7#12 } }

/-- The part after one command. -/
def after (r : Relay) (c : Instr) : Relay :=
  match exec c ⟨r, []⟩ with
  | .next s => s.relay
  | .fault _ => r
  | .refused _ => r

/-- A port that is UP, its window ending at 3 s. -/
def upPort : Port :=
  { Port.start with link := .up, seekRun := 3, window := some 3000, tally := 3 }

/-- A port in SEEK whose silence timer ends at 3 s. -/
def seekPort : Port :=
  { Port.start with link := .seek, seekRun := 2, silence := some 3000 }

/-- A queued frame of no maker who must be told. -/
def parcel (n : Byte) : Buffer :=
  { frame :=
      { cls := .report
        urgent := false
        fresh := false
        hops := 4#4
        origin := 9#12
        target := 0#12
        sequence := n
        payload := [0x10#8, 1#8, 2#8, 3#8] }
    maker := .other }

/-- A transmission of a queued frame. -/
def underWay (m : Maker) : Transmission :=
  { buffer := { parcel 1#8 with maker := m }, polarity := .normal, order := .lsbFirst }

/-- A barrier record that is enabled and watches fill and shake. -/
def watched : BarrierConfig :=
  { BarrierConfig.emptied with
    enabled := true
    watchFill := 400
    warnFill := 700
    fullFill := 900
    hysteresis := 50
    shakeWatch := 100
    holdTime := 60 }

/-- The part with barrier 0 assessed. -/
def guarded : Relay :=
  live.setTables { live.tables with barriers := live.tables.barriers.set 0 watched }

/-- The part with barrier 0 assessed and in a given condition. -/
def standing (d : BarrierDyn) : Relay :=
  guarded.setBarrier 0 d

/-- Barrier 0 at EVACUATE by its manual latch. -/
def latched : BarrierDyn :=
  { BarrierDyn.start with level := .evacuate, causes := [.manual], manual := true }

/-- A gauge with the calibration of the manual's station 214 (section 5.1). -/
def gauge214 : StationConfig :=
  { address := 214#12, role := .gauge 0 6200 1400, interval := 60, forwarding := .routine }

/-- The part with the gauge in record 0, in a given condition. -/
def heard (d : StationDyn) : Relay :=
  (guarded.setTables
    { guarded.tables with stations := guarded.tables.stations.set 0 (some gauge214) }).setStation 0 d

/-- A cadence of two steps and two rounds. -/
def twoTone : Cadence :=
  { steps := [(5, 3), (2, 0)], rounds := 2, gap := 4, kind := .either }

/-- The part with cadence 1 held, and channel 0 in a given condition. -/
def playing (ch : Channel) : Relay :=
  (live.setTables
    { live.tables with cadences := live.tables.cadences.set 1 (some twoTone) }).setChannel 0 ch

/-- A channel that sounds the first step of cadence 1 for barrier 0, its segment ending at 3 s. -/
def soundingChannel : Channel :=
  { Channel.start with
    state := .sounding
    owner := some (.barrier 0 .watch)
    cadence := some 1
    step := 1
    segment := some .on
    segmentEnd := some 3000 }

/-- The part with input 0 as a manual alarm of barrier 0, in a given condition. -/
def pushed (d : InputDyn) : Relay :=
  (guarded.setTables
    { guarded.tables with
      inputs := guarded.tables.inputs.set 0
        { function := .manualAlarm 0, expected := .high, debounce := 5 } }).setInput 0 d

/-- The part with a line test of four frames on LOWER, its gap timer ended. -/
def testing : Relay :=
  live.setGenerator
    { live.generator with
      running := true
      params := some { port := .lower, count := 4, length := 6, gap := 10, target := 296#12 }
      gapTimer := some 3000
      seed := 7#8 }

/-- A whole frame on the line with its CRC. -/
def onLine (f : Frame) : List Byte :=
  f.bytes ++ crcBytes .lsbFirst f.bytes

/-- A frame in assembly. -/
def inAssembly (bs : List Byte) : Assembly :=
  { bytes := bs, polarity := .normal, order := .lsbFirst }

/-! ## Operands that do not fit -/

theorem test_wellFormed_origin_zero : (Instr.save 0#12 1#8).wellFormed = false := by decide
theorem test_wellFormed_origin_all : (Instr.lockCounters 4095#12 1#8).wellFormed = false := by decide
theorem test_wellFormed_every_request_checks_its_origin :
    ([.readRecord 0#12 0#8 0#8 0#8, .readState 0#12 0#8 0#8 0#8 0#8, .clearPortCounters 0#12 0#8,
      .clearDropCounters 0#12 0#8, .clearStationCounters 0#12 0#8, .clearChannelFlags 0#12 0#8,
      .lockAndClear 0#12 0#8, .standDown 0#12 0#8 0#8, .rearmWire 0#12 0#8 0#8 0#8,
      .testSound 0#12 0#8 0#8 0#8, .stopChannel 0#12 0#8 0#8,
      .lineTest 0#12 0#8 0#8 0#16 0#8 0#8 0#16, .lineTestStop 0#12 0#8, .restart 0#12 0#8,
      .writeRecord 0#12 0#8 0#8 0#8 []] : List Instr).all (fun c => !c.wellFormed) = true := by decide
theorem test_wellFormed_record_too_long :
    (Instr.writeRecord 9#12 1#8 0#8 0#8 (List.replicate 53 0#8)).wellFormed = false := by decide
theorem test_wellFormed_record_longest :
    (Instr.writeRecord 9#12 1#8 0#8 0#8 (List.replicate 52 0#8)).wellFormed = true := by decide
theorem test_wellFormed_flaw_outside_image :
    (Instr.saveEnd true ⟨[(1249, 0#8)], ⟨true, []⟩⟩).wellFormed = false := by decide
theorem test_wellFormed_load_flaw_outside_image :
    (Instr.saveEnd true ⟨[], ⟨true, [(1249, 0#8)]⟩⟩).wellFormed = false := by decide
theorem test_wellFormed_flaw_last_byte :
    (Instr.saveEnd true ⟨[(1248, 0#8)], ⟨false, [(1248, 1#8)]⟩⟩).wellFormed = true := by decide
theorem test_wellFormed_memory_not_rising :
    (Instr.powerOn
      { centivolts := 1200
        straps := 7#12
        rate := .bps4800
        memory := some { answers := true, cells := [(5, 1#8), (5, 2#8)] }
        readMs := 0 }).wellFormed = false := by decide
theorem test_wellFormed_memory_lists_blank :
    (Instr.clockResume
      { centivolts := 1200
        straps := 7#12
        rate := .bps4800
        memory := some { answers := true, cells := [(5, 255#8)] }
        readMs := 0 }).wellFormed = false := by decide
theorem test_wellFormed_delivery_misses_a_block :
    (Instr.batterySample 1100 [.classifier, .generator, .channels, .channels]).wellFormed = false := by
  decide
theorem test_no_word_spells_a_command : decodeTableWord 8 0 = none := rfl

/-! ## The manual's worked figures -/

theorem test_fill_table_of_section_5_1 :
    [6500, 6200, 6199, 3800, 3764, 1400, 1160, 300].map (fillOf 6200 1400)
      = [0, 0, 0, 500, 507, 1000, 1050, 1200] := by decide

theorem test_bins_of_R29 : foreignBin 1234#12 = 1 ∧ foreignBin 4000#12 = 30 := by decide

theorem test_pattern_of_section_1_10 :
    testPattern 6 7#8 = [7#8, 36#8, 181#8, 138#8, 179#8, 128#8] := by decide

theorem test_checker_of_section_1_10 :
    let one := TestCounts.zero.add .single none (testPattern 6 7#8)
    let two := one.add .single (some 7#8) (testPattern 6 9#8)
    let three := two.add .single (some 9#8) (testPattern 6 10#8)
    one = { frames := 1, bytes := 6, mismatched := 0, lost := 0, overflow := 0 }
      ∧ two = { frames := 2, bytes := 12, mismatched := 0, lost := 1, overflow := 0 }
      ∧ three = { frames := 3, bytes := 18, mismatched := 0, lost := 1, overflow := 0 } := by decide

theorem test_counter_modes_of_section_1_10 :
    countTest .continuous 65530 6 = (0, 1) ∧ countTest .single 65530 6 = (65535, 0) := by decide

theorem test_sequence_of_section_2_5 :
    let at_ := fun l => ({ StationDyn.start with state := .live, lastSeq := some l } : StationDyn)
    (at_ 250#8).judge 251#8 false = .accepted ∧ (at_ 251#8).judge 251#8 false = .duplicate
      ∧ (at_ 251#8).judge 3#8 false = .accepted ∧ (at_ 3#8).judge 200#8 false = .old
      ∧ (at_ 3#8).judge 0#8 true = .accepted ∧ (at_ 0#8).judge 1#8 true = .accepted
      ∧ ({ at_ 40#8 with state := .silent } : StationDyn).judge 10#8 false = .accepted := by decide

theorem test_starvation_of_section_2_8 :
    let u := fun n => parcel (BitVec.ofNat 8 n)
    let r := fun n => parcel (BitVec.ofNat 8 (100 + n))
    let p : Pool := { Pool.start with urgent := [u 1, u 2, u 3, u 4], routine := [r 1, r 2] }
    let next := fun (x : Option (Buffer × Pool)) => x.bind (fun y => y.2.takeLower 2)
    let one := p.takeLower 2
    let two := next one
    let three := next two
    let four := next three
    let five := next four
    let six := next five
    [one, two, three, four, five, six].map (fun x => x.map (fun y => (y.1, y.2.run)))
      = [some (u 1, 1), some (u 2, 2), some (r 1, 0), some (u 3, 1), some (u 4, 2),
          some (r 2, 0)] := by decide

theorem test_shake_list_of_chapter_5 :
    let e := fun value time => ({ value := value, time := time } : Contribution)
    let one := contribute [] (e 340 5960) 120 6000
    let two := contribute one (e 410 5980) 120 6000
    let three := contribute two (e 250 6025) 120 6030
    let four := contribute three (e 200 6020) 120 6050
    let five := contribute [e 250 6025] (e 300 6100) 120 6110
    let six := contribute [] (e 280 6100) 120 6230
    one = [e 340 5960] ∧ two = [e 410 5980] ∧ three = [e 410 5980, e 250 6025] ∧ four = three
      ∧ five = [e 300 6100] ∧ six = [] ∧ expiryOf 120 two = some 6100 := by decide

theorem test_time_to_full_of_R85 :
    timeToFull 0 (some 1) = 1000 ∧ timeToFull 999 (some 7) = 1 ∧ timeToFull 1000 (some 1) = 0
      ∧ timeToFull 1000 (some 0) = 65535 ∧ timeToFull 500 none = 65535 := by decide

/-! ## One step on small states -/

theorem test_line_energy_enters_seek :
    let t := after live (.lineEnergy .upper)
    t.upper.link = .seek ∧ t.upper.silence = some 5000 := by decide +kernel

theorem test_silence_returns_to_down :
    (after (live.setUpper seekPort) (.silenceTimerExpiry .upper)).upper.link = .down := by
  decide +kernel

theorem test_third_word_enters_up :
    let t := after (live.setLower seekPort) (.lineWord .lower (.idle .inverted))
    t.lower.link = .up ∧ t.lower.window = some 3500 ∧ t.lower.polarity = .inverted
      ∧ t.lower.counters.polarityChanges = 1 := by decide +kernel

theorem test_short_window_drops_the_link :
    let t := after (live.setUpper upPort) (.activityWindowClose .upper)
    t.upper.link = .seek ∧ t.upper.counters.linkDrops = 1 ∧ t.lineLoss.confirm = some 8000 := by
  decide +kernel

/-- A TEST frame of the manual's first payload, for every relay that hears it. -/
def testFrame : Frame :=
  { cls := .test
    urgent := false
    fresh := false
    hops := 0#4
    origin := 310#12
    target := 0#12
    sequence := 1#8
    payload := [7#8, 36#8, 181#8, 138#8, 179#8, 128#8] }

theorem test_frame_received_counts_at_the_checker :
    let t := after (live.setUpper { upPort with assembly := some (inAssembly (onLine testFrame)) })
      (.frameReceived .upper .normal)
    t.checker.upper = { frames := 1, bytes := 6, mismatched := 0, lost := 0, overflow := 0 }
      ∧ t.upper.counters.goodFrames = 1 ∧ t.upper.assembly = none := by decide +kernel

theorem test_quiet_field_counts_a_short_frame :
    let r := fun n => live.setField
      { live.field with assembly := some (inAssembly [1#8]), quiet := some n }
    let t := after (r 3000) .fieldLineQuiet
    t.field.crcErrors = 1 ∧ t.field.assembly = none ∧ t.field.quiet = none
      ∧ (r 3000).nextEvent = some .fieldLineQuiet
      ∧ (after (r 3001) .fieldLineQuiet).field = (r 3001).field := by decide +kernel

theorem test_field_word_starts_the_time_of_two_words :
    let at_ := fun rate => after (live.setStore { live.store with rate := rate })
      (.lineWord .field (.frameStart .inverted))
    [LineRate.bps4800, .bps9600, .bps19200].map (fun rate => (at_ rate).field.quiet)
        = [some 3005, some 3003, some 3002]
      ∧ (at_ .bps4800).field.inversions = 1 := by decide +kernel

theorem test_idle_word_follows_a_changed_polarity :
    let d := { live.tables.identity with txUpper := .follow }
    let r := (live.setUpper { upPort with sending := some (underWay .other), polarity := .inverted
      }).setTables { live.tables with identity := d }
    r.wordOnLine .upper .start = .frameStart .normal ∧ r.wordOnLine .upper (.byte 1#8) = .data 1#8
      ∧ r.wordOnLine .upper .idle = .idle .inverted := by decide +kernel

theorem test_transmit_take_holds_the_buffer :
    let r := (live.setUpper upPort).setPool { live.pool with free := 39, up := [parcel 1#8] }
    let t := after r (.transmitTake .upper)
    t.upper.sending.map Transmission.buffer = some (parcel 1#8) ∧ t.pool.up = []
      ∧ t.pool.free = 39 := by decide +kernel

theorem test_transmit_complete_frees_the_buffer :
    let r := (live.setUpper { upPort with sending := some (underWay .other) }).setPool
      { live.pool with free := 39 }
    let t := after r (.transmitComplete .upper)
    t.upper.sending = none ∧ t.pool.free = 40 ∧ t.upper.counters.framesSent = 1 := by
  decide +kernel

theorem test_confirm_loses_the_upper_line :
    (after (live.setLineLoss { lost := false, confirm := some 3000 }) .upperConfirmExpiry).lineLoss
      = { lost := true, confirm := none } := by decide +kernel

theorem test_gap_expiry_queues_a_test_frame :
    let t := after testing .testGapExpiry
    t.pool.routine.map (fun b => b.frame.payload)
        = [[7#8, 36#8, 181#8, 138#8, 179#8, 128#8]]
      ∧ t.generator.seed = 8#8 ∧ t.generator.outstanding = true := by decide +kernel

theorem test_missed_deadline_makes_late :
    let t := after (heard { StationDyn.start with state := .live, deadline := some 3 })
      (.stationDeadlineExpiry 0)
    (t.stations.get 0).state = .late ∧ (t.stations.get 0).deadline = some 63 := by decide +kernel

theorem test_field_reset_comes_before_a_hold_expiry :
    let r := (standing { BarrierDyn.start with level := .watch, hold := some 3 }).setKey
      { state := .timing, timer := some 3000 }
    r.nextEvent = some .keyTimerExpiry
      ∧ (after r (.holdExpiry 0)).barriers.get 0 = r.barriers.get 0 := by decide +kernel

theorem test_hold_expiry_reaches_calm :
    let t := after (standing { BarrierDyn.start with level := .watch, hold := some 3 }) (.holdExpiry 0)
    (t.barriers.get 0).level = .calm ∧ (t.barriers.get 0).serial = 1
      ∧ t.pool.urgent.length = 1 := by decide +kernel

theorem test_repeat_expiry_builds_an_alert :
    let t := after (standing { latched with repeatAt := some 3 }) (.repeatExpiry 0)
    (t.barriers.get 0).serial = 1 ∧ (t.barriers.get 0).repeatAt = some 33
      ∧ t.pool.urgent.map (fun b => b.frame.payload.take 4) = [[0#8, 3#8, 0#8, 0#8]] := by
  decide +kernel

theorem test_step_boundary_plays_the_off_segment :
    let t := after (playing soundingChannel) (.stepBoundary 0)
    (t.channels.get 0).segment = some .off ∧ (t.channels.get 0).segmentEnd = some 3300 := by
  decide +kernel

theorem test_short_load_starts_the_sensing :
    let t := after (playing soundingChannel) (.loadConditionChange 0 .shortLoad)
    (t.lines.get 0).sensing = some 3500 := by decide +kernel

theorem test_pushed_alarm_deviates_and_trips :
    let moved := after (pushed InputDyn.start) (.inputLevelChange 0 .low)
    let t := after (pushed { state := .deviating, timer := some 3000, trips := 0 }) (.debounceExpiry 0)
    (moved.inputs.get 0).timer = some 3500 ∧ (t.inputs.get 0).trips = 1
      ∧ (t.barriers.get 0).level = .evacuate ∧ (t.barriers.get 0).causes = [.manual] := by
  decide +kernel

theorem test_read_record_returns_the_binding :
    let t := after live (.readRecord 9#12 5#8 6#8 0#8)
    t.pool.routine.map (fun b => b.frame.payload)
        = [[1#8, 5#8, 0#8, 6#8, 0#8] ++ encodeBinding (Binding.emptied 0)] := by decide +kernel

theorem test_write_record_replaces_the_binding :
    let t := after live (.writeRecord 9#12 5#8 6#8 0#8 [255#8, 1#8])
    t.tables.bindings.get 0 = { line := none, kind := .beacon }
      ∧ t.pool.routine.map (fun b => b.frame.payload) = [[2#8, 5#8, 0#8]] := by decide +kernel

theorem test_read_state_starts_with_relay_time :
    let t := after live (.readState 9#12 5#8 0#8 0#8 0#8)
    t.pool.routine.map (fun b => b.frame.payload.take 10)
        = [[3#8, 5#8, 0#8, 0#8, 0#8, 0#8, 0#8, 0#8, 0#8, 3#8]] := by decide +kernel

theorem test_clear_drop_counters_leaves_zero :
    (after (live.setPool { live.pool with drops := { live.pool.drops with foreign := 4 } })
      (.clearDropCounters 9#12 1#8)).pool.drops = DropCounters.zero := by decide +kernel

theorem test_lock_and_clear_keeps_the_seed :
    let r := live.setChecker
      { live.checker with
        upper := { frames := 3, bytes := 18, mismatched := 0, lost := 1, overflow := 0 }
        upperSeed := some 10#8 }
    let t := after r (.lockAndClear 9#12 1#8)
    t.checker.upper = TestCounts.zero ∧ t.checker.upperSeed = some 10#8
      ∧ t.checker.snapshot
        = some ({ frames := 3, bytes := 18, mismatched := 0, lost := 1, overflow := 0 },
            TestCounts.zero) := by decide +kernel

theorem test_stand_down_below_evacuate :
    (after guarded (.standDown 9#12 1#8 0#8)).pool.routine.map (fun b => b.frame.payload)
      = [[7#8, 1#8, byte Result.notLatched.code, 0#8, 0#8]] := by decide +kernel

theorem test_stand_down_accepted :
    let t := after (standing latched) (.standDown 9#12 1#8 0#8)
    (t.barriers.get 0).level = .watch ∧ (t.barriers.get 0).manual = false
      ∧ (t.barriers.get 0).hold = some 63 := by decide +kernel

theorem test_rearm_wire_releases :
    let t := after (standing { BarrierDyn.start with level := .watch, inflowBroken := true })
      (.rearmWire 9#12 1#8 0#8 0#8)
    (t.barriers.get 0).inflowBroken = false := by decide +kernel

theorem test_test_sound_starts :
    let t := after (playing Channel.start) (.testSound 9#12 1#8 0#8 1#8)
    (t.channels.get 0).owner = some .test ∧ (t.channels.get 0).segmentEnd = some 3500 := by
  decide +kernel

theorem test_stop_channel_stops :
    ((after (playing soundingChannel) (.stopChannel 9#12 1#8 0#8)).channels.get 0).state
      = .stopping := by decide +kernel

theorem test_line_test_starts_a_run :
    let t := after live (.lineTest 9#12 1#8 1#8 4#16 6#8 10#8 296#16)
    t.generator.running = true ∧ t.generator.outstanding = true
      ∧ t.pool.routine.map (fun b => b.frame.cls) = [.test, .mgmtRep] := by decide +kernel

theorem test_save_invalidates_the_header :
    let t := after live (.save 9#12 1#8)
    t.memory.cells = [(0, 0#8), (1, 0#8)] ∧ t.store.saving = true
      ∧ t.agent.requester = some (9#12, 1#8) := by decide +kernel

/-- The part with a save in flight for station 9, in a mode, and a memory that answers or not. -/
def saving (mode : Mode) (answers : Bool) : Relay :=
  ((live.setStore { live.store with saving := true, mode := mode }).setAgent
    { live.agent with requester := some (9#12, 1#8) }).setMemory
      { live.memory with answers := answers }

theorem test_restart_with_a_save_in_flight :
    let r := (saving .assessing true).setLower { upPort with sending := some (underWay .other) }
    let t := after r (.restart 9#12 2#8)
    t.pool.urgent.map (fun b => (b.frame.urgent, b.frame.payload))
        = [(true, [14#8, 2#8, byte Result.busy.code])]
      ∧ t.pool.routine = [] := by decide +kernel

theorem test_restart_with_lower_down :
    let t := after (standing latched) (.restart 9#12 1#8)
    (t.barriers.get 0).level = .evacuate ∧ (t.barriers.get 0).manual = true ∧ t.now = 0
      ∧ t.store.cause = .restart ∧ (t.pool.urgent.length, t.pool.routine.length) = (1, 1) := by
  decide +kernel

/-- What a start finds: 12.00 V, own address 7 and the memory it had. -/
def startPins : StartPins :=
  { centivolts := 1200, straps := 7#12, rate := .bps4800, memory := none, readMs := 0 }

theorem test_power_on_of_a_blank_memory :
    let t := after State.reset.relay (.powerOn startPins)
    t.store.mode = .openLine ∧ t.store.own = 7#12 ∧ t.store.status = .invalid
      ∧ t.lineLoss.confirm = some 5000 := by decide +kernel

theorem test_battery_sample_sheds :
    let r := live.setStore { live.store with nextSample := 3 }
    let t := after r (.batterySample 1099 [.classifier, .generator, .channels, .agent])
    t.store.band = .critical ∧ t.store.nextSample = 13
      ∧ t.pool.urgent.map (fun b => b.frame.cls) = [.health] := by decide +kernel

theorem test_health_timer_starts_afresh :
    let t := after (live.setAgent { live.agent with healthTimer := some 3000 }) .healthTimerExpiry
    t.agent.healthTimer = some 303000 ∧ t.pool.routine.map (fun b => b.frame.cls) = [.health] := by
  decide +kernel

/-! ## States that meet the hypotheses of the statements -/

theorem test_meets_EmptyQueueLetsTheClockRun :
    (State.reset.relay.setClock { ms := 1000, lost := false }).nextEvent
        = some (.strapRetry 0#12 0)
      ∧ (State.reset.relay.nextEvent = none ∧ State.reset.relay.clock.lost = false)
      ∧ (live.setClock { ms := 0, lost := true }).clock.lost = true := by decide +kernel

theorem test_meets_EmptyQueueLetsTheClockRun_due :
    let key := fun n => live.setKey { state := .timing, timer := some n }
    let sampled := fun n => live.setStore { live.store with nextSample := n }
    let start := State.reset.relay.setStore { State.reset.relay.store with nextSample := 0 }
    ((key 3000).nextEvent = some .keyTimerExpiry ∧ (key 3000).due .keyTimerExpiry = true
        ∧ (key 3001).nextEvent = none ∧ (key 3001).awake = true)
      ∧ ((sampled 3).nextEvent.map (fun c => (c == .batterySample live.pins.centivolts usualOrder))
          = some true
        ∧ (sampled 4).nextEvent = none)
      ∧ (start.store.mode = .starting
        ∧ start.nextEvent = some (.batterySample start.pins.centivolts usualOrder)) := by
  decide +kernel

theorem test_meets_EveryCommandAnswersANextState :
    (State.reset.relay.awake = false ∧ actsAsleep .fieldLineQuiet = false)
      ∧ (live.setUpper { seekPort with silence := some 3001 }).due (.silenceTimerExpiry .upper)
        = false := by decide +kernel

theorem test_meets_BuffersAreAlwaysForty :
    ∃ s t, s.relay.PoolBalanced ∧ step s = .next t :=
  ⟨⟨live, [.testGapExpiry]⟩, _, rfl, rfl⟩

theorem test_meets_QueuesStayWithinTheirCaps :
    ∃ s t, (s.relay.WithinCaps ∧ s.relay.ClearInStarting) ∧ step s = .next t :=
  ⟨⟨live.setPool { live.pool with
      free := 8
      routine := List.replicate 24 (parcel 1#8)
      up := List.replicate 8 (parcel 2#8) }, [.healthTimerExpiry]⟩, _,
    ⟨⟨by decide +kernel, by decide +kernel⟩, fun h => by cases h⟩, rfl⟩

theorem test_meets_MemoryStaysCanonical :
    ∃ s t, (∀ c ∈ s.pending, c.wellFormed = true) ∧ s.relay.MemoryOk ∧ step s = .next t :=
  ⟨⟨live.setMemory { live.memory with cells := [(0, 0#8), (1248, 1#8)] }, [.save 9#12 1#8]⟩, _,
    by decide, by unfold Relay.MemoryOk; decide +kernel, rfl⟩

theorem test_meets_StationsAndFiguresStayInRange_deadlines :
    ∃ s t, s.relay.DeadlinesAgree ∧ step s = .next t := by
  refine ⟨⟨live, [.lockCounters 9#12 1#8]⟩, _, ?_, rfl⟩
  intro i
  change ((Bank.fill 48 StationDyn.start).get i).Watched .assessing ((Bank.fill 48 none).get i)
  rw [Bank.get_fill, Bank.get_fill]
  exact ⟨rfl, rfl⟩

theorem test_meets_StationsAndFiguresStayInRange :
    ∃ s t, s.relay.StationsAgree ∧ s.relay.FiguresOk ∧ step s = .next t := by
  refine ⟨⟨live.setMeasures 0
    { Measures.start with fill := 1200, rate := some (-999), ttf := 65535 }, [.fieldLineQuiet]⟩, _,
    ?_, ⟨?_, ?_⟩, rfl⟩
  · intro i
    change ((Bank.fill 48 StationDyn.start).get i).Agrees
    rw [Bank.get_fill]
    exact (rfl : (0 : Nat) = 0)
  · intro i
    change ((Bank.fill 48 StationDyn.start).get i).FillsOk
    rw [Bank.get_fill]
    exact ⟨by decide, by decide, by decide⟩
  · intro b
    simp only [Relay.setMeasures, Relay.setBarrier, Relay.setBarriers_barriers, Bank.get_set]
    split
    · exact ⟨by decide, by decide, by decide⟩
    · change ((Bank.fill 8 BarrierDyn.start).get b).measures.InRange
      rw [Bank.get_fill]
      exact ⟨by decide, by decide, by decide⟩

theorem test_meets_OnlyAssessedBarriersLeaveCalm :
    ∃ s t, s.relay.CalmUnlessAssessed ∧ step s = .next t :=
  ⟨⟨standing latched, [.fieldLineQuiet]⟩, _,
    by unfold Relay.CalmUnlessAssessed; decide +kernel, rfl⟩

theorem test_meets_EvacuateIsHeldByItsLatch :
    (∃ s t, s.relay.NoHoldAtEvacuate ∧ step s = .next t)
      ∧ ∃ s t, s.relay.NoHoldAtEvacuate ∧ mayStandDown .fieldLineQuiet = false
        ∧ (∀ p, Instr.fieldLineQuiet ≠ .powerOn p) ∧ (∀ p, Instr.fieldLineQuiet ≠ .clockResume p)
        ∧ (s.relay.barriers.get 0).level = .evacuate ∧ exec .fieldLineQuiet s = .next t :=
  have h : (standing latched).NoHoldAtEvacuate := by
    unfold Relay.NoHoldAtEvacuate
    decide +kernel
  ⟨⟨⟨standing latched, [.fieldLineQuiet]⟩, _, h, rfl⟩, ⟨standing latched, []⟩, _, h, rfl,
    nofun, nofun, by decide +kernel, rfl⟩

theorem test_meets_AlertSerialNeverDecreases :
    ∃ s t, (∀ b, (s.relay.barriers.get b).serial ≤ 16777215) ∧ exec .fieldLineQuiet s = .next t
      ∧ (∀ p, Instr.fieldLineQuiet ≠ .powerOn p) ∧ ∀ p, Instr.fieldLineQuiet ≠ .clockResume p :=
  ⟨⟨standing { latched with serial := 16777215 }, []⟩, _, by decide +kernel, rfl, nofun, nofun⟩

theorem test_meets_TablesStayConsistent :
    ∃ s t, (s.relay.TablesOk ∧ s.relay.ClearInStarting) ∧ step s = .next t :=
  ⟨⟨live, [.lockCounters 9#12 1#8]⟩, _, ⟨tablesOk_of_emptied rfl, fun h => by cases h⟩, rfl⟩

theorem test_meets_IdleChannelsHoldNothing :
    ∃ s t, s.relay.ChannelsSettled ∧ step s = .next t := by
  refine ⟨⟨playing soundingChannel, [.stepBoundary 0]⟩, _, ?_, rfl⟩
  unfold Relay.ChannelsSettled Channel.Settled
  decide +kernel

theorem test_meets_RecordsReadBackFromTheirBytes :
    ({ Identity.defaults with
        activityUpper := 15
        starvation := 0
        evidenceLife := 600
        healthInterval := 3600
        manager := some 4094#12 } : Identity).Ok
      ∧ ({ address := 4094#12, role := .gauge 7 200 100, interval := 3600, forwarding := .eventUrgent }
          : StationConfig).Ok
      ∧ ({ watched with holdTime := 7200, rateWindow := 1800, feeder := some (1#12, 7) }
          : BarrierConfig).Ok
      ∧ ({ steps := List.replicate 8 (255, 255), rounds := 255, gap := 255, kind := .siren }
          : Cadence).inRange = true
      ∧ ({ function := .resetKey, expected := .low, debounce := 25 } : InputConfig).Ok := by
  refine ⟨⟨by decide, ?_⟩, ⟨by decide, by decide, ?_⟩, ⟨by decide, ?_⟩, by decide, by decide,
    by decide⟩
  · intro m h
    cases h
    decide
  · intro b e f h
    cases h
    decide
  · intro a k h
    cases h
    decide

theorem test_meets_RecordsReadBackFromTheirBytes_load :
    let own : StationConfig := { gauge214 with address := 7#12 }
    let key := encodeInput { function := .resetKey, expected := .high, debounce := 5 }
    let bound := encodeBinding { line := some 0, kind := .siren }
    let cells := [(33, encodeStation (some own)), (45, encodeStation (some gauge214)),
      (57, encodeStation (some gauge214)), (1209, key), (1213, key), (1237, key), (1241, bound),
      (1247, bound)].foldl (fun m x => Memory.writeBytes m x.1 x.2) []
    let t := (loadTables cells 7#12).1
    (List.map t.stations.get [0, 1, 2] = [none, some gauge214, none])
      ∧ ([0, 1, 7].map (fun i => (t.inputs.get i).function) = [.resetKey, .resetKey, .unused])
      ∧ ([0, 3].map (fun c => (t.bindings.get c).line) = [some 0, none])
      ∧ t.identity = Identity.defaults ∧ decodeIdentity (Memory.readBytes cells 6 27) = none := by
  decide +kernel

theorem test_meets_RecordsReadBackFromTheirBytes_manager :
    let cells := Memory.writeBytes [] 6 (encodeIdentity { Identity.defaults with manager := some 8#12 })
    ((loadTables cells 8#12).1.identity.manager = none
        ∧ (loadTables cells 7#12).1.identity.manager = some 8#12)
      ∧ (loadTables cells 8#12).2 = (loadTables cells 7#12).2 + 1 := by decide +kernel

theorem test_meets_SentFramesPassTheChecks :
    let t : Transmission :=
      { underWay .other with
        buffer := { parcel 1#8 with frame := { (parcel 1#8).frame with
          payload := List.replicate 56 0#8 } } }
    t.buffer.frame.origin.isDevice = true ∧ t.buffer.frame.payload.length ≤ 56
      ∧ t.buffer.frame.cls.fitsLength t.buffer.frame.payload.length = true := by decide

theorem test_meets_EnergyAndSilenceMoveTheLink :
    let s := live.setUpper seekPort
    let u := live.setUpper upPort
    (live.awake = true ∧ (live.port .upper).link = .down)
      ∧ (s.awake = true ∧ (s.port .upper).link = .seek ∧ (s.port .upper).silence = some 3000
        ∧ 3000 ≤ s.clock.ms)
      ∧ (u.awake = true ∧ (u.port .upper).link = .up) := by decide +kernel

theorem test_meets_SeekRunCountsWordsAndEntersUp :
    let s := live.setLower { seekPort with seekRun := 1 }
    let u := live.setUpper seekPort
    (s.awake = true ∧ (s.port .lower).link = .seek ∧ (s.port .lower).seekRun < 2
        ∧ (s.port .lower).assembly = none)
      ∧ (u.awake = true ∧ (u.port .upper).link = .seek ∧ (u.port .upper).seekRun = 2) := by
  decide +kernel

theorem test_word_in_down_counts_in_the_seek_run :
    let t := after live (.lineWord .lower (.frameStart .inverted))
    (live.lower.link = .down ∧ live.lower.assembly = none)
      ∧ (t.lower.link, t.lower.seekRun, t.lower.silence) = (.seek, 1, some 5000)
      ∧ (t.lower.polarity, t.lower.counters.polarityChanges) = (.inverted, 1) := by decide +kernel

/-- The part with barrier 0 watching the upper line, and that line in a given condition. -/
def lineWatching (x : LineLoss) : Relay :=
  (guarded.setTables
    { guarded.tables with
      barriers := guarded.tables.barriers.set 0 { watched with lineWatched := true } }).setLineLoss x

theorem test_upper_line_lost_and_back_evaluates_its_barriers :
    let gone := after (lineWatching { lost := false, confirm := some 3000 }) .upperConfirmExpiry
    let back := after (gone.setUpper seekPort) (.lineWord .upper (.idle .normal))
    (gone.setUpper seekPort).lineLoss.lost = true
      ∧ ((gone.barriers.get 0).level, (gone.barriers.get 0).causes) = (.watch, [.lineLost])
      ∧ (back.barriers.get 0).hold = some 63 ∧ (back.barriers.get 0).lineBase = none := by
  decide +kernel

theorem test_meets_WordsFillTheAssembly :
    let u := live.setUpper upPort
    let held := fun n => live.setUpper
      { upPort with assembly := some (inAssembly (List.replicate n 0#8)) }
    (u.awake = true ∧ (u.port .upper).link = .up ∧ (u.port .upper).polarity = .normal
        ∧ (u.port .upper).assembly = none)
      ∧ ((held 63).port .upper).assembly.map (fun a => a.bytes.length) = some 63
      ∧ ((held 64).port .upper).assembly.map (fun a => a.bytes.length) = some 64
      ∧ ((held 64).awake = true ∧ ((held 64).port .upper).link = .up) := by decide +kernel

/-- A report of one reading from the gauge, on the line. -/
def reportBytes : List Byte :=
  onLine { (parcel 1#8).frame with origin := 214#12 }

theorem test_meets_EndedFrameIsChecked :
    let good := inAssembly (reportBytes.take 14)
    let short := inAssembly (List.replicate 7 0#8)
    let bad := inAssembly (List.replicate 8 0#8)
    let u := fun a => live.setUpper { upPort with assembly := some a }
    let f := fun a => live.setField { live.field with assembly := some a, quiet := some 3000 }
    ((u good).awake = true ∧ ((u good).port .upper).link = .up
        ∧ ((u good).port .upper).polarity = .normal ∧ Polarity.normal ≠ .inverted
        ∧ ((u good).port .upper).assembly = some good)
      ∧ short.bytes.length < 8
      ∧ (8 ≤ bad.bytes.length ∧ crcGood bad.order bad.bytes = false)
      ∧ (8 ≤ good.bytes.length ∧ crcGood good.order good.bytes = true)
      ∧ (live.field.assembly = none ∧ (live.port .upper).assembly = none ∧ live.field.quiet = none)
      ∧ ((f good).field.assembly = some good ∧ (f good).field.quiet = some 3000
        ∧ 3000 ≤ (f good).clock.ms)
      ∧ (live.setField { live.field with quiet := some 3001 }).clock.ms < 3001
      ∧ ¬ (8 ≤ short.bytes.length ∧ crcGood short.order short.bytes = true) := by decide +kernel

theorem test_meets_FieldPolarityIsDecidedPerFrame :
    let a := fun n => inAssembly (List.replicate n 0#8)
    let f := fun n => live.setField { live.field with assembly := some (a n) }
    ((f 63).awake = true ∧ (f 63).field.assembly = some (a 63) ∧ (a 63).bytes.length < 64)
      ∧ ((f 64).field.assembly = some (a 64) ∧ 64 ≤ (a 64).bytes.length)
      ∧ (live.awake = true ∧ live.field.assembly = none ∧ live.store.rate = .bps4800) := by
  decide +kernel

theorem test_meets_WindowCloseKeepsOrDropsTheLink :
    let u := fun n m => live.setUpper { upPort with tally := n, sending := some (underWay m) }
    let l := (live.setLower upPort).setAgent { live.agent with restartPending := true }
    ((u 4 .other).awake = true ∧ ((u 4 .other).port .upper).link = .up
        ∧ ((u 4 .other).port .upper).window = some 3000 ∧ 3000 ≤ (u 4 .other).clock.ms
        ∧ (u 4 .other).activityCount .upper ≤ ((u 4 .other).port .upper).tally)
      ∧ (((u 3 .other).port .upper).tally < (u 3 .other).activityCount .upper
        ∧ (u 3 .other).agent.restartPending = false
        ∧ (underWay .other).buffer.maker ≠ .restartReply)
      ∧ (l.awake = true ∧ (l.port .lower).link = .up ∧ (l.port .lower).window = some 3000
        ∧ (l.port .lower).tally < l.activityCount .lower ∧ l.agent.restartPending = true) := by
  decide +kernel

theorem test_meets_WindowCloseKeepsOrDropsTheLink_frames :
    let held := fun n m => (live.setLower
      { upPort with
        tally := 0
        assembly := some (inAssembly (List.replicate n 0#8))
        sending := some (underWay m) }).setPool { live.pool with free := 39 }
    let pending := (held 7 .restartReply).setAgent { live.agent with restartPending := true }
    let t := fun r => after r (.activityWindowClose .lower)
    let counts := fun n => (t (held n .other)).lower.counters
    let tested := (t ((held 0 (.testRun 0)).setGenerator
      { testing.generator with run := 0, outstanding := true }))
    ((held 7 .other).lower.tally < (held 7 .other).activityCount .lower
        ∧ (held 7 .other).agent.restartPending = false)
      ∧ [7, 8].map (fun n => ((counts n).runtsGiants, (counts n).crcErrors)) = [(1, 0), (0, 1)]
      ∧ ((counts 7).transmitAborts, (t (held 7 .other)).pool.free) = (1, 40)
      ∧ (tested.generator.finished, tested.generator.outstanding) = (1, false)
      ∧ ((t (held 7 .restartReply)).store.cause, (t pending).store.cause)
        = (.powerOn, .restart) := by decide +kernel

theorem test_meets_ConfirmExpiryLosesTheUpperLine :
    let r := live.setLineLoss { lost := false, confirm := some 3000 }
    r.awake = true ∧ r.lineLoss.confirm = some 3000 ∧ 3000 ≤ r.clock.ms
      ∧ ∀ b, (r.tables.barriers.get b).lineWatched = false := by decide +kernel

/-- The part with LOWER up and idle, and given queues. -/
def queued (urgent routine : List Buffer) (run limit : Nat) : Relay :=
  ((live.setLower upPort).setPool
    { live.pool with
      free := 40 - urgent.length - routine.length
      urgent := urgent
      routine := routine
      run := run }).setTables
    { live.tables with identity := { live.tables.identity with starvation := limit } }

theorem test_meets_LowerArbiterChoosesByTheTable :
    let u := [parcel 1#8]
    let x := [parcel 2#8]
    ((queued u x 0 4).awake = true ∧ (queued u x 0 4).lower.link = .up
        ∧ (queued u x 0 4).lower.sending = none)
      ∧ ((queued [] x 3 4).pool.urgent = [] ∧ (queued [] x 3 4).pool.routine = x)
      ∧ ((queued u [] 3 4).pool.urgent = u ∧ (queued u [] 3 4).pool.routine = [])
      ∧ (queued u x 3 0).tables.identity.starvation = 0
      ∧ ((queued u x 3 4).tables.identity.starvation ≠ 0
        ∧ (queued u x 3 4).pool.run < (queued u x 3 4).tables.identity.starvation)
      ∧ (queued u x 4 4).tables.identity.starvation ≤ (queued u x 4 4).pool.run := by
  decide +kernel

theorem test_meets_TransmittersTakeAndComplete :
    let u := (live.setUpper upPort).setPool { live.pool with free := 39, up := [parcel 1#8] }
    let sent := fun m pending => (live.setLower { upPort with sending := some (underWay m) }).setAgent
      { live.agent with restartPending := pending }
    (u.awake = true ∧ u.upper.link = .up ∧ u.upper.sending = none ∧ u.pool.up = [parcel 1#8])
      ∧ (live.pool.up = [] ∧ live.pool.urgent = [] ∧ live.pool.routine = []
        ∧ (live.port .lower).link ≠ .up)
      ∧ ((sent .other false).port .lower).sending ≠ none
      ∧ ((sent .other false).port .lower).sending = some (underWay .other)
      ∧ ((sent (.testRun 0) false).port .lower).sending = some (underWay (.testRun 0))
      ∧ (((sent .restartReply false).port .lower).sending = some (underWay .restartReply)
        ∧ (sent .restartReply false).agent.restartPending = false)
      ∧ (((sent .restartReply true).port .lower).sending = some (underWay .restartReply)
        ∧ (sent .restartReply true).agent.restartPending = true) := by decide +kernel

/-- The part with queues of given lengths and free buffers. -/
def loaded (free urgent routine up : Nat) : Relay :=
  live.setPool
    { live.pool with
      free := free
      urgent := List.replicate urgent (parcel 1#8)
      routine := List.replicate routine (parcel 2#8)
      up := List.replicate up (parcel 3#8) }

theorem test_meets_RoutineAndUpQueuesAdmitByCap :
    let a := loaded 9 0 23 7
    let b := loaded 8 0 24 8
    (a.pool.routine.length < a.routineCap ∧ 0 < a.pool.free ∧ a.pool.up.length < 8)
      ∧ ¬ (b.pool.routine.length < b.routineCap ∧ 0 < b.pool.free)
      ∧ ¬ (b.pool.up.length < 8 ∧ 0 < b.pool.free)
      ∧ (live.setStore { live.store with band := .critical }).store.band = .critical := by
  decide +kernel

theorem test_meets_UrgentFramesArePlacedByEviction :
    (0 < (loaded 1 38 1 0).pool.free)
      ∧ ((loaded 0 39 1 0).pool.free = 0 ∧ (loaded 0 39 1 0).pool.routine = [parcel 2#8])
      ∧ ((loaded 0 39 0 1).pool.free = 0 ∧ (loaded 0 39 0 1).pool.routine = []
        ∧ (loaded 0 39 0 1).pool.up = [parcel 3#8])
      ∧ ((loaded 0 40 0 0).pool.free = 0 ∧ (loaded 0 40 0 0).pool.routine = []
        ∧ (loaded 0 40 0 0).pool.up = [] ∧ (loaded 0 40 0 0).PoolBalanced) := by
  unfold Relay.PoolBalanced
  decide +kernel

theorem test_meets_GapExpiryMakesTheNextTestFrame :
    let full := testing.setPool
      { live.pool with free := 0, urgent := List.replicate 40 (parcel 1#8) }
    let up := full.setGenerator
      { testing.generator with
        params := some { port := .upper, count := 0, length := 56, gap := 0, target := 0#12 } }
    (testing.awake = true ∧ testing.generator.running = true
        ∧ testing.generator.params.map TestParams.port = some .lower
        ∧ testing.generator.gapTimer = some 3000 ∧ 3000 ≤ testing.clock.ms
        ∧ testing.lower.link ≠ .up ∧ testing.pool.routine.length < testing.routineCap
        ∧ 0 < testing.pool.free)
      ∧ ¬ (full.pool.routine.length < full.routineCap ∧ 0 < full.pool.free)
      ∧ (up.generator.params.map TestParams.port = some .upper
        ∧ ¬ (up.pool.up.length < 8 ∧ 0 < up.pool.free)) := by decide +kernel

theorem test_meets_GapExpiryMakesTheNextTestFrame_finished :
    let run := fun port count gap =>
      ({ testing.generator with
          params := some { port := port, count := count, length := 6, gap := gap, target := 0#12 }
          outstanding := true
          gapTimer := none } : Generator)
    let ended := fun port count gap =>
      ((testing.setGenerator (run port count gap)).testFrameFinished testing.generator.run).generator
    (testing.makeTestFrame.generator.outstanding = true
        ∧ (testing.offerUp (parcel 1#8)).2 = true ∧ (testing.offerRoutine (parcel 1#8)).2 = true)
      ∧ ((loaded 0 40 0 0).offerUp (parcel 1#8)).2 = false
      ∧ ((run .lower 1 0).running, (run .lower 1 0).outstanding, (run .lower 1 0).finished)
        = (true, true, 0)
      ∧ ((ended .lower 1 0).running, (ended .lower 1 0).last) = (false, some .done)
      ∧ ((ended .lower 2 0).finished, (ended .lower 2 0).outstanding) = (1, true)
      ∧ ((ended .upper 0 0).finished, (ended .upper 0 0).outstanding) = (1, true)
      ∧ ((ended .lower 2 10).gapTimer, (ended .lower 2 10).outstanding) = (some 4000, false)
      ∧ testing.generator.run ≠ testing.generator.run + 1 := by decide +kernel

/-- An arrival of a class at a port, for a target. -/
def arrival (port : PortName) (c : FrameClass) (target : Addr) (payload : List Byte) : Arrival :=
  { port := port
    cls := c
    urgent := true
    fresh := false
    hops := 1#4
    origin := 9#12
    target := target
    sequence := 1#8
    payload := payload }

theorem test_meets_TestFramesGoToTheCheckerAlone :
    (arrival .upper .test 7#12 [5#8]).cls = .test
      ∧ (arrival .upper .test 7#12 [5#8]).target = live.store.own
      ∧ (arrival .lower .test 0#12 [5#8]).port = .lower
      ∧ ((arrival .lower .test 4095#12 [5#8]).target ≠ live.store.own
        ∧ (arrival .lower .test 4095#12 [5#8]).target ≠ 0#12)
      ∧ live.tables.identity.countMode = .single
      ∧ (live.checker.upper.overflow ≤ 255 ∧ live.checker.lower.overflow ≤ 255)
      ∧ (live.setTables { live.tables with identity :=
          { live.tables.identity with countMode := .continuous } }).tables.identity.countMode
        = .continuous := by decide +kernel

theorem test_continuous_counters_wrap_at_the_checker :
    let r := (live.setTables { live.tables with identity :=
      { live.tables.identity with countMode := .continuous } }).setChecker
      { live.checker with
        upper := { frames := 65535, bytes := 65530, mismatched := 0, lost := 0, overflow := 254 } }
    (r.checkTest .upper (testPattern 6 7#8)).checker.upper
      = { frames := 0, bytes := 0, mismatched := 0, lost := 0, overflow := 255 } := by
  decide +kernel

theorem test_meets_LineTestIsDecidedAndStopped :
    live.Serves 9#12 ∧ testing.Serves 9#12 ∧ (standing latched).Serves 9#12
      ∧ (1#8).toNat ≤ 1 ∧ 1 ≤ (56#8).toNat ∧ (56#8).toNat ≤ 56 ∧ (4094#16).toNat ≤ 4094
      ∧ (standing latched).highestLevel ≠ .calm
      ∧ (live.setStore { live.store with band := .low }).store.band ≠ .normal
      ∧ (testing.highestLevel = .calm ∧ testing.store.band = .normal
        ∧ testing.generator.running = true)
      ∧ (live.highestLevel = .calm ∧ live.store.band = .normal ∧ live.generator.running = false)
      ∧ 1 < (2#8).toNat ∧ (0#8).toNat = 0 ∧ 56 < (57#8).toNat ∧ 4094 < (4095#16).toNat := by
  unfold Relay.Serves
  decide +kernel

/-- A frame's bytes of a class, with an origin and hops. -/
def bodyOf (c : FrameClass) (origin : Addr) : List Byte :=
  Frame.bytes
    { cls := c
      urgent := false
      fresh := false
      hops := 0#4
      origin := origin
      target := 7#12
      sequence := 1#8
      payload := [1#8, 2#8, 3#8, 4#8] }

theorem test_meets_FramesAreClassifiedAndForwarded :
    let passing := live.setTables
      { live.tables with identity := { live.tables.identity with passSet := 512#64 } }
    parseFrame .upper (bodyOf .report 0#12) = none
      ∧ ((parseFrame .upper (bodyOf .report 9#12)).isSome = true
        ∧ takesClass .upper .report = true)
      ∧ ((parseFrame .field (bodyOf .quiet 9#12)).isSome = true
        ∧ takesClass .field .quiet = false)
      ∧ ({ arrival .upper .report 0#12 [] with hops := 0#4 } : Arrival).hops = 0#4
      ∧ (arrival .upper .report 0#12 []).hops ≠ 0#4
      ∧ (live.setStore { live.store with mode := .openLine }).store.mode ≠ .assessing
      ∧ (live.store.mode = .assessing ∧ live.lookup 9#12 = none)
      ∧ (passing.tables.identity.passSet.getLsbD (9 % 64 ^^^ (9 / 64 % 64)) = true
        ∧ live.tables.identity.passSet.getLsbD (9 % 64 ^^^ (9 / 64 % 64)) = false)
      ∧ (arrival .lower .mgmtReq 7#12 [14#8, 1#8]).target = live.store.own
      ∧ ((arrival .lower .mgmtReq 4095#12 [14#8, 1#8]).target ≠ live.store.own
        ∧ (arrival .lower .mgmtReq 4095#12 [14#8, 1#8]).payload.getD 0 0#8 = 14#8)
      ∧ (arrival .lower .mgmtReq 4095#12 [13#8, 1#8]).payload.getD 0 0#8 ≠ 14#8
      ∧ ((arrival .lower .mgmtReq 0#12 [13#8, 1#8]).target ≠ live.store.own
        ∧ (arrival .lower .mgmtReq 0#12 [13#8, 1#8]).target ≠ 4095#12) := by decide +kernel

/-- A request of a barrier at a level that waits in a channel's slot. -/
def waitFor (b : Fin 8) (level : Level) : Option Request :=
  some { barrier := b, level := level, attention := some 1, sustain := none }

theorem test_meets_FramesAreClassifiedAndForwarded_stations :
    let r := heard { StationDyn.start with lastSeq := some 5#8 }
    let fed := r.setBarrier 0 { BarrierDyn.start with level := .watch, feeder := some (.warn, true) }
    (r.store.mode = .assessing ∧ r.lookup 214#12 = some (0, gauge214)
        ∧ (arrival .field .report 0#12 []).urgent = true)
      ∧ ((r.judgeFrame 0 gauge214 5#8 false).2 = false ∧ (r.judgeFrame 0 gauge214 6#8 false).2 = true)
      ∧ gauge214.forwarding = .routine
      ∧ ({ gauge214 with forwarding := .none } : StationConfig).forwarding = .none
      ∧ ({ gauge214 with forwarding := .eventUrgent } : StationConfig).forwarding = .eventUrgent
      ∧ (gauge214.role.barrier = some 0 ∧ (fed.barriers.get 0).level ≠ .calm
        ∧ (r.barriers.get 0).level = .calm)
      ∧ (gauge214.role ≠ .relay ∧ ({ gauge214 with role := .relay } : StationConfig).role = .relay)
      ∧ ((7#8).toNat = (7 : Fin 8).val ∧ (3#8).toNat = Level.rank .evacuate)
      ∧ (8 ≤ (8#8).toNat ∧ 4 ≤ (4#8).toNat)
      ∧ ((fed.barriers.get 0).feeder.map Prod.fst = some .warn
        ∧ (r.barriers.get 0).feeder.map Prod.fst ≠ some .warn) := by decide +kernel

theorem test_meets_FramesAreClassifiedAndForwarded_header :
    let heads := fun (a b c d : Byte) n => (parseFrame .upper ([a, b, c, d, 0#8, 0#8]
      ++ List.replicate n 0#8)).isSome
    (heads 0x00#8 4#8 0#8 0x10#8 4, heads 0x00#8 4#8 0xFF#8 0xE0#8 4) = (true, true)
      ∧ (heads 0x00#8 4#8 0#8 0x0F#8 4, heads 0x00#8 4#8 0xFF#8 0xF0#8 4) = (false, false)
      ∧ (heads 0xE0#8 4#8 0#8 0x10#8 4, heads 0x10#8 4#8 0#8 0x10#8 4) = (false, false)
      ∧ (heads 0x00#8 0#8 0#8 0x10#8 0, heads 0x00#8 5#8 0#8 0x10#8 5) = (false, false)
      ∧ (heads 0xC0#8 56#8 0#8 0x10#8 56, heads 0xC0#8 57#8 0#8 0x10#8 57) = (true, false)
      ∧ (heads 0x20#8 17#8 0#8 0x10#8 17, heads 0x20#8 16#8 0#8 0x10#8 16) = (true, false)
      ∧ heads 0x00#8 4#8 0#8 0x10#8 5 = false := by decide +kernel

theorem test_meets_FramesAreClassifiedAndForwarded_request :
    let a := arrival .lower .mgmtReq 7#12 [13#8, 1#8]
    requestOf (.save 9#12 1#8) = some (a.origin, 1#8, 13, []) ∧ live.awake = true
      ∧ a.payload = byte 13 :: 1#8 :: [] := by decide +kernel

theorem test_meets_QuietFramesQuietTheirBarriers :
    let r := (standing { latched with quieted := some .watch }).setChannel 0
      { soundingChannel with owner := some (.barrier 0 .evacuate) }
    (0 * 256 + 8 ≠ r.store.own.toNat ∧ 0 * 256 + 8 ≠ 4095)
      ∧ (15 * 256 + 255 = 4095)
      ∧ (r.tables.identity.manager = none ∧ (7#8).toNat < 8 ∧ 1 ≤ (3#8).toNat ∧ (3#8).toNat ≤ 3)
      ∧ (r.barriers.get 0).level ≠ .calm ∧ (r.barriers.get 7).level = .calm
      ∧ ¬ ((8#8).toNat < 8 ∨ (8#8) = 255#8)
      ∧ (r.barriers.get 0).quieted = some .watch
      ∧ ((r.channels.get 0).state = .sounding
        ∧ (r.channels.get 0).owner = some (.barrier 0 .evacuate)
        ∧ Level.rank .evacuate ≤ 3)
      ∧ (({ soundingChannel with waiting := waitFor 0 .evacuate } : Channel).waiting
          = waitFor 0 .evacuate ∧ soundingChannel.waiting = none) := by decide +kernel

theorem test_meets_SequenceIsJudged :
    let at_ := fun st l => heard { StationDyn.start with state := st, lastSeq := some l }
    (((at_ .live 5#8).stations.get 0).lastSeq = some 5#8)
      ∧ (128 ≤ (5#8 - 133#8).toNat ∧ ((at_ .live 133#8).stations.get 0).state ≠ .silent)
      ∧ (live.stations.get 0).lastSeq = none
      ∧ (5#8 ≠ 134#8 ∧ (5#8 - 134#8).toNat ≤ 127)
      ∧ ((at_ .silent 133#8).stations.get 0).state = .silent := by decide +kernel

theorem test_meets_SequenceIsJudged_hearing :
    let late : StationDyn :=
      { StationDyn.start with
        state := .late
        misses := 2
        smoothed := some 9
        lastReading := some (6000, .good) }
    let silent : StationDyn := { late with state := .silent, smoothed := none }
    let live_ : StationDyn := { late with state := .live }
    let t := fun d => (heard d).hearStation 0 gauge214
    let sights := fun d => (((t d).stations.get 0).sighting, ((heard d).stations.get 0).sighting)
    (heard late).tables.stations.get 0 = some gauge214
      ∧ (sights late = (true, false) ∧ sights live_ = (true, true))
      ∧ ((t late).barriers.get 0).measures.source = some 0
      ∧ (((heard silent).stations.get 0).smoothed = none
        ∧ ((t silent).stations.get 0).counters.returns = 1)
      ∧ (((t late).stations.get 0).deadline = some 93 ∧ gauge214.interval ≠ 0)
      ∧ ({ gauge214 with interval := 0 } : StationConfig).interval = 0 := by decide +kernel

theorem test_meets_MissedDeadlinesMakeLateThenSilent :
    let late := fun n => heard { StationDyn.start with state := .late, misses := n, deadline := some 3 }
    let r := (late 2).setBarrier 0 { BarrierDyn.start with level := .watch }
    let lossy := r.setTables
      { r.tables with barriers := r.tables.barriers.set 0 { watched with gaugeLoss := true } }
    ((late 1).awake = true ∧ (late 1).tables.stations.get 0 = some gauge214
        ∧ ((late 1).stations.get 0).deadline = some 3 ∧ 3 ≤ (late 1).now
        ∧ ((late 1).stations.get 0).misses < 2)
      ∧ (2 ≤ ((late 2).stations.get 0).misses ∧ gauge214.role = .gauge 0 6200 1400)
      ∧ ((lossy.barriers.get 0).level ≠ .calm ∧ (lossy.tables.barriers.get 0).gaugeLoss = true
        ∧ lossy.assessed 0 = true)
      ∧ ((late 2).stations.get 0).sighting = false
      ∧ ((heard { StationDyn.start with
          state := .late
          misses := 2
          deadline := some 3
          heard := true
          smoothed := some 9
          lastReading := some (6000, .good) }).stations.get 0).sighting = true
      ∧ ({ gauge214 with role := .wire 0 .inflow } : StationConfig).role = .wire 0 .inflow
      ∧ ({ gauge214 with role := .relay } : StationConfig).role = .relay := by decide +kernel

theorem test_meets_RangeReadingFormsTheSmoothedFill :
    let near : Reading := { kind := some .range, value := 6199, quality := .suspect, age := 0 }
    let far : Reading := { near with value := 6200 }
    let none_ : Reading := { near with value := 0 }
    let at_ := fun w => (heard { StationDyn.start with window := w }).stations.get 0
    gauge214.role = .gauge 0 6200 1400 ∧ (near.effective ≠ .fault ∧ near.value < 6200)
      ∧ (far.effective ≠ .fault ∧ 6200 ≤ far.value) ∧ none_.effective = .fault
      ∧ (at_ []).window = [] ∧ (at_ [4]).window = [4] ∧ (at_ [4, 5]).window = [4, 5]
      ∧ (at_ [4, 5, 6]).window = [4, 5, 6] := by decide +kernel

theorem test_meets_RangeReadingFormsTheSmoothedFill_readings :
    let near : Reading := { kind := some .range, value := 6199, quality := .suspect, age := 2 }
    let wire := fun n => ({ near with kind := some .wire, value := n } : Reading)
    let at_ := fun n => heard { StationDyn.start with lastSample := some n }
    let sighted : StationDyn :=
      { StationDyn.start with
        state := .live
        smoothed := some 9
        lastSample := some 1
        lastReading := some (6000, .good) }
    let broken := standing { BarrierDyn.start with inflowBroken := true }
    (gauge214.role = .gauge 0 6200 1400 ∧ near.kind = some .range ∧ (wire 0).kind ≠ some .range)
      ∧ (((at_ 2).stations.get 0).lastSample = some 2 ∧ (at_ 2).now - near.age < 2
        ∧ ¬ (at_ 1).now - near.age < 1)
      ∧ ({ near with value := 65535 } : Reading).effective = .fault
      ∧ ((wire 2).effective = .fault ∧ (wire 1).effective = .suspect ∧ (wire 0).effective = .suspect)
      ∧ ((heard sighted).tables.stations.get 0 = some gauge214
        ∧ ({ sighted with lastReading := some (0, .fault), lastSample := some 2 } : StationDyn).sighting
          ≠ ((heard sighted).stations.get 0).sighting
        ∧ ({ StationDyn.start with lastReading := some (0, .fault), lastSample := some 2 }
            : StationDyn).sighting = ((at_ 2).stations.get 0).sighting)
      ∧ (broken.barriers.get 0).inflowBroken = true
      ∧ (guarded.assessed 0 = true ∧ (guarded.barriers.get 0).inflowBroken = false
        ∧ (guarded.barriers.get 0).overflowBroken = false)
      ∧ ({ gauge214 with role := .shake 0 } : StationConfig).role = .shake 0
      ∧ ({ gauge214 with role := .rain 7 } : StationConfig).role = .rain 7 := by decide +kernel

theorem test_meets_TimeToFullFollowsFillAndRate :
    let m := fun fill rate =>
      ({ Measures.start with sight := .sighted, source := some 0, fill := fill, rate := rate }
        : Measures).recompute true (some (0, fill)) none 60
    (m 999 none).rate = none ∧ (m 999 (some 0)).rate = some 0
      ∧ ((m 1000 (some 1)).rate = some 1 ∧ 1000 ≤ (m 1000 (some 1)).fill)
      ∧ ((m 999 (some 1)).rate = some 1 ∧ (m 999 (some 1)).fill < 1000) := by decide +kernel

theorem test_meets_TimeToFullFollowsFillAndRate_rateStep :
    let m := fun anchor =>
      ({ Measures.start with sight := .sighted, source := some 0, fill := 500, anchor := anchor }
        : Measures)
    let from_ := fun i => ({ fill := 400, time := 1000, source := i } : Anchor)
    let here : Anchor := { fill := 500, time := 1060, source := 0 }
    (m none).anchor = none ∧ ((m (some (from_ 1))).anchor = some (from_ 1) ∧ (from_ 1).source ≠ 0)
      ∧ (from_ 0).source = 0 ∧ 1059 < (from_ 0).time + 60 ∧ (from_ 0).time + 60 ≤ 1060
      ∧ (m (some (from_ 0))).rateStep 1060 61
        = { m (some (from_ 0)) with rate := some 100 }
      ∧ (m (some (from_ 0))).rateStep 1060 60
        = { m (some (from_ 0)) with rate := some 100, anchor := some here } := by decide +kernel

theorem test_recompute_takes_the_lowest_of_equal_gauges :
    let d : StationDyn :=
      { StationDyn.start with state := .live, smoothed := some 9, lastReading := some (6000, .good) }
    let two := (heard d).setTables
      { (heard d).tables with
        stations := (heard d).tables.stations.set 7 (some { gauge214 with address := 215#12 }) }
    (two.setStation 7 d).bestGauge 0 = some (0, 9)
      ∧ (two.setStation 7 { d with smoothed := some 10 }).bestGauge 0 = some (7, 10) := by
  decide +kernel

theorem test_meets_EvidenceAgesOut :
    let r := (live.setClock { ms := 123000, lost := false }).setMeasures 0
      { Measures.start with shake := [{ value := 9, time := 3 }], rain := [{ value := 8, time := 3 }] }
    r.awake = true ∧ 3 + r.tables.identity.evidenceLife ≤ r.now
      ∧ (r.barriers.get 0).measures.shake = [{ value := 9, time := 3 }]
      ∧ (r.barriers.get 0).measures.rain = [{ value := 8, time := 3 }] := by decide +kernel

theorem test_meets_EvidenceAgesOut_placing :
    let e := fun value time => ({ value := value, time := time } : Contribution)
    let eight := [e 90 10, e 80 20, e 70 25, e 60 30, e 50 40, e 40 50, e 30 60, e 20 70]
    (60 + 120 ≤ 180 ∧ 180 < 61 + 120)
      ∧ (e 90 10).time ≥ (e 90 10).time
      ∧ contribute eight (e 10 80) 120 100
        = [e 90 10, e 80 25, e 60 30, e 50 40, e 40 50, e 30 60, e 20 70, e 10 80]
      ∧ [e 9 3].head?.map Contribution.value ≠ [e 8 3].head?.map Contribution.value := by
  decide +kernel

theorem test_meets_EvaluationRaisesAndHolds :
    let dem := fun (d : BarrierDyn) => (d.demanded watched false).rank
    let sus := fun (d : BarrierDyn) => (d.sustained watched false).rank
    let alarm : BarrierDyn := { BarrierDyn.start with manual := true }
    let fill := fun level n hold =>
      ({ BarrierDyn.start with
          level := level
          hold := hold
          measures := { Measures.start with fill := n, sight := .sighted } } : BarrierDyn)
    alarm.level.rank < dem alarm
      ∧ (dem (fill .watch 400 none) ≤ Level.rank .watch ∧ Level.rank .watch ≤ sus (fill .watch 400 none))
      ∧ (dem (fill .watch 399 none) ≤ Level.rank .watch ∧ Level.rank .watch ≤ sus (fill .watch 350 none))
      ∧ (dem (fill .watch 349 none) ≤ Level.rank .watch ∧ sus (fill .watch 349 none) < Level.rank .watch
        ∧ (fill .watch 349 none).hold = none)
      ∧ (sus (fill .watch 349 (some 9)) < Level.rank .watch ∧ (fill .watch 349 (some 9)).hold = some 9)
      ∧ live.assessed 0 = false := by decide +kernel

theorem test_meets_EvaluationRaisesAndHolds_conditions :
    let m := { Measures.start with sight := .sighted }
    let at_ := fun m => ({ BarrierDyn.start with measures := m } : BarrierDyn)
    let fill := fun h n => (at_ { m with fill := n }).calls watched false h .fill
    let zero := { watched with watchFill := 50, warnFill := 0, fullFill := 0, hysteresis := 100 }
    let rate := fun v => (at_ { m with rate := v }).calls { watched with rateWatch := 5 } false 0 .rate
    let ttf := fun n => (at_ { m with ttf := n }).calls { watched with ttfWarn := 30 } false 0 .ttf
    let shake := fun n => (at_ { m with shake := [⟨n, 3⟩] }).calls
      { watched with shakeWarn := 200 } false 0 .shake
    let wires := fun sight c => ({ at_ { m with sight := sight } with inflowBroken := true }
      : BarrierDyn).calls watched false 0 c
    let feeds := fun v => ({ at_ m with feeder := some (v, true) }).calls watched false 0 .feeder
    let lines := fun base => ({ at_ m with lineBase := base }).calls
      { watched with lineWatched := true } true 0 .lineLost
    [399, 400, 699, 700, 899, 900].map (fill 0) = [.calm, .watch, .watch, .warn, .warn, .evacuate]
      ∧ [349, 350, 650, 850].map (fill 50) = [.calm, .watch, .warn, .evacuate]
      ∧ [0, 1].map (fun n => (at_ { m with fill := n }).calls zero false 100 .fill) = [.calm, .watch]
      ∧ [none, some 4, some 5].map rate = [.calm, .calm, .watch] ∧ [31, 30].map ttf = [.calm, .warn]
      ∧ [99, 100, 199, 200].map shake = [.calm, .watch, .watch, .warn]
      ∧ [(wires .sighted .inflowWire, wires .sighted .blind),
          (wires .blind .inflowWire, wires .blind .blind)] = [(.warn, .calm), (.evacuate, .evacuate)]
      ∧ [Level.watch, .warn, .evacuate].map feeds = [.calm, .watch, .warn]
      ∧ [none, some .calm, some .watch].map lines = [.calm, .watch, .warn] := by decide +kernel

theorem test_meets_EvaluationRaisesAndHolds_handedOn :
    let at_ := fun level q => standing { BarrierDyn.start with level := level, quieted := q }
    let entry : DispatchEntry := { channels := 1#4, attention := some 1, sustain := none }
    let loud := fun r => (playing Channel.start).setTables
      { (playing Channel.start).tables with dispatch := r }
    let siren := loud (live.tables.dispatch.set 2 entry)
    let running := (at_ .watch none).setGenerator testing.generator
    (((at_ .warn none).barriers.get 0).quieted = none
        ∧ Level.rank .watch < Level.rank ((at_ .warn none).barriers.get 0).level)
      ∧ (((at_ .warn (some .watch)).barriers.get 0).quieted = some .watch
        ∧ ((at_ .warn (some .warn)).barriers.get 0).quieted = some .warn)
      ∧ (((at_ .calm (some .warn)).handOver 0 .watch).barriers.get 0).quieted = none
      ∧ ((siren.requestSounding 0 .warn).channels.get 0).state = .sounding
      ∧ ((at_ .warn none).toldOfChange 0).generator.running = false
      ∧ (running.handOver 0 .calm).generator.running = false
      ∧ (running.handOver 0 .calm).generator.last = some .preempted := by decide +kernel

theorem test_meets_HoldExpiryLowersOneStep :
    let at_ := fun level => standing { BarrierDyn.start with level := level, hold := some 3 }
    ((at_ .warn).awake = true ∧ (at_ .warn).assessed 0 = true
        ∧ ((at_ .warn).barriers.get 0).hold = some 3 ∧ 3 ≤ (at_ .warn).now
        ∧ ((at_ .warn).barriers.get 0).level = .warn)
      ∧ ((at_ .watch).barriers.get 0).level = .watch
      ∧ (at_ .watch).key.state ≠ .timing
      ∧ (((at_ .watch).setKey { state := .timing, timer := some 3000 }).key.state = .timing
        ∧ 3000 ≤ (at_ .watch).clock.ms) := by decide +kernel

theorem test_meets_ManualAlarmLatches :
    (guarded.assessed 0 = true ∧ (guarded.barriers.get 0).manual = false)
      ∧ ((standing latched).assessed 0 = true ∧ ((standing latched).barriers.get 0).manual = true)
      ∧ live.assessed 0 = false ∧ latched.manual = true := by decide +kernel

theorem test_meets_RepeatExpiryRepeatsTheAlert :
    let at_ := fun q => standing { latched with repeatAt := some 3, quieted := q }
    ((at_ none).awake = true ∧ ((at_ none).barriers.get 0).repeatAt = some 3 ∧ 3 ≤ (at_ none).now
        ∧ ((at_ none).barriers.get 0).level ≠ .calm ∧ ((at_ none).barriers.get 0).quieted = none)
      ∧ (((at_ (some .warn)).barriers.get 0).quieted = some .warn
        ∧ Level.rank .warn < ((at_ (some .warn)).barriers.get 0).level.rank)
      ∧ (((at_ (some .evacuate)).barriers.get 0).quieted = some .evacuate
        ∧ ((at_ (some .evacuate)).barriers.get 0).level.rank ≤ Level.rank .evacuate) := by
  decide +kernel

theorem test_alert_carries_flags_and_rate :
    let m := { Measures.start with sight := .blind, held := true }
    let d := fun rate => ({ latched with
      measures := { m with rate := rate }, quieted := some .watch, feeder := some (.warn, true) }
        : BarrierDyn)
    let shown := fun rate => (((standing (d rate)).buildAlert 0).pool.urgent.map
      (fun b => (b.frame.payload.drop 4).take 5))
    [shown none, shown (some (-999)), shown (some 14)]
      = [[[0x80#8, 0x00#8, 0xFF#8, 0xFF#8, 29#8]], [[0xFC#8, 0x19#8, 0xFF#8, 0xFF#8, 29#8]],
          [[0x00#8, 0x0E#8, 0xFF#8, 0xFF#8, 29#8]]] := by decide +kernel

theorem test_meets_StepBoundaryAdvancesEndsOrHandsOver :
    let wait := fun b level => some ({ barrier := b, level := level, attention := none, sustain := none }
      : Request)
    let same := { soundingChannel with waiting := wait 0 .warn }
    let higher := { soundingChannel with waiting := wait 1 .warn }
    let equal := { soundingChannel with waiting := wait 1 .watch }
    let test := { soundingChannel with owner := some .test, waiting := wait 1 .watch }
    let last := { soundingChannel with step := 2, rounds := 1 }
    let chained := { last with continueMark := true, next := some 1 }
    ((playing soundingChannel).awake = true
        ∧ ((playing soundingChannel).channels.get 0).segmentEnd = some 3000
        ∧ 3000 ≤ (playing soundingChannel).clock.ms)
      ∧ ({ soundingChannel with state := .stopping, stop := some .levelFell } : Channel).state
        = .stopping
      ∧ same.takeover = .renewal ∧ higher.takeover = .preemption ∧ test.takeover = .preemption
      ∧ equal.takeover = .nothing
      ∧ (playing soundingChannel).cadenceAt soundingChannel.cadence = some twoTone
      ∧ twoTone.following .on 1 0 = .segment .off 1 0 3
      ∧ twoTone.following .on last.step last.rounds = .complete 2
      ∧ (chained.continueMark = true ∧ chained.takeover = .nothing
        ∧ (playing chained).usable 0 1 = true)
      ∧ (chained.next = some 1 ∧ ({ chained with next := some 2 } : Channel).next = some 2
        ∧ (playing chained).usable 0 2 = false)
      ∧ last.continueMark = false := by decide +kernel

theorem test_meets_StepBoundaryAdvancesEndsOrHandsOver_requests :
    let x : Request := { barrier := 0, level := .warn, attention := some 1, sustain := none }
    let held := fun w => (playing { soundingChannel with waiting := w }).channels.get 0
    let critical := (playing soundingChannel).setStore { live.store with band := .critical }
    let beacon := critical.setTables
      { critical.tables with
        bindings := critical.tables.bindings.set 0 { line := some 0, kind := .beacon } }
    (playing soundingChannel).startCheck 0 x.attention x.sustain = true
      ∧ (playing soundingChannel).startCheck 0 (some 2) none = false
      ∧ ((playing Channel.start).channels.get 0).state = .idle
      ∧ ((held none).state ≠ .idle ∧ (held none).waiting = none)
      ∧ (held (waitFor 7 .watch)).waiting = waitFor 7 .watch
      ∧ Level.rank .watch < x.level.rank ∧ x.level.rank ≤ Level.rank .warn
      ∧ (7 : Fin 8) ≠ x.barrier ∧ (31 : Fin 32).val = 4 * (7 : Fin 8).val + Level.rank .evacuate
      ∧ ((playing { soundingChannel with cadence := some 0 }).endlessAt (some 0) = false
        ∧ ((playing soundingChannel).setTables
            { (playing soundingChannel).tables with
              cadences := (playing soundingChannel).tables.cadences.set 0
                (some { twoTone with rounds := 0 }) }).endlessAt (some 0) = true)
      ∧ Level.rank .calm < Level.rank .watch
      ∧ (beacon.tables.bindings.get 0).line ≠ none ∧ (beacon.tables.bindings.get 0).kind = .beacon
      ∧ (beacon.channels.get 0).state ≠ .idle ∧ (beacon.channels.get 1).state = .idle := by
  decide +kernel

theorem test_meets_StepBoundaryAdvancesEndsOrHandsOver_table :
    let steady := { twoTone with gap := 0, rounds := 0 }
    [twoTone.following .on 1 0, twoTone.following .off 1 0, twoTone.following .on 2 0,
        twoTone.following .gap 1 1, twoTone.following .on 2 1]
      = [.segment .off 1 0 3, .segment .on 2 0 2, .segment .gap 1 1 4, .segment .on 1 1 5,
          .complete 2]
      ∧ [steady.following .on 2 0, steady.following .on 2 255]
        = [.segment .on 1 1 5, .segment .on 1 255 5]
      ∧ (1 < twoTone.steps.length ∧ twoTone.steps.length ≤ 2 ∧ 0 < twoTone.gap)
      ∧ (twoTone.rounds ≠ 0 ∧ min (0 + 1) 255 < twoTone.rounds ∧ twoTone.rounds ≤ min (1 + 1) 255)
      ∧ (0 < (twoTone.steps.getD 0 (0, 0)).2 ∧ (twoTone.steps.getD 1 (0, 0)).2 = 0) := by
  decide +kernel

theorem test_meets_StepBoundaryAdvancesEndsOrHandsOver_lines :
    let r := (playing soundingChannel).setPins
      { live.pins with loads := live.pins.loads.set 0 .openLoad }
    let unbound := r.setTables
      { r.tables with bindings := r.tables.bindings.set 0 { line := none, kind := .siren } }
    ((r.tables.bindings.get 0).line = some 0 ∧ (unbound.tables.bindings.get 0).line = none)
      ∧ ((r.play 0 soundingChannel).lines.get 0).sensing = some 3500
      ∧ ((r.play 0 { soundingChannel with segment := some .off }).lines.get 0).sensing = none := by
  decide +kernel

theorem test_critical_band_cuts_a_beacon_alone :
    let r := playing soundingChannel
    let beacon := r.setTables
      { r.tables with bindings := r.tables.bindings.set 0 { line := some 0, kind := .beacon } }
    ((beacon.bandAtChannels .critical).channels.get 0).state = .idle
      ∧ ((beacon.bandAtChannels .critical).channels.get 0).last = some .config
      ∧ ((r.bandAtChannels .critical).channels.get 0).state = .sounding := by decide +kernel

theorem test_meets_LoadFaultEndsTheSounding :
    let r := playing soundingChannel
    let faulty := (r.setLine 0 { fault := false, sensing := some 3000 }).setPins
      { r.pins with loads := r.pins.loads.set 0 .openLoad }
    live.driverOf 0 = none
      ∧ (r.awake = true ∧ r.lineOf 0 = some 0 ∧ r.driverOf 0 = some 0
        ∧ r.pins.loads.get 0 ≠ .openLoad ∧ r.pins.loads.get 0 = .sound)
      ∧ (faulty.driverOf 0 = some 0 ∧ (faulty.lines.get 0).sensing = some 3000
        ∧ 3000 ≤ faulty.clock.ms) := by decide +kernel

theorem test_meets_TestSoundAndStopChannelAreDecided :
    let flagged := playing { Channel.start with normalDone := true }
    live.Serves 9#12 ∧ (playing soundingChannel).Serves 9#12
      ∧ (standing latched).highestLevel ≠ .calm
      ∧ ((playing soundingChannel).highestLevel = .calm
        ∧ ((playing soundingChannel).channels.get 0).state ≠ .idle)
      ∧ (flagged.highestLevel = .calm ∧ (flagged.channels.get 0).state = .idle
        ∧ (flagged.channels.get 0).normalDone = true)
      ∧ ((playing Channel.start).startCheck 0 (some 2) none = false
        ∧ (playing Channel.start).startCheck 0 (some 1) none = true)
      ∧ 4 ≤ (4#8).toNat ∧ 16 ≤ (16#8).toNat := by
  unfold Relay.Serves
  decide +kernel

theorem test_meets_ClearChannelFlagsClearsThreeFlags : live.Serves 9#12 := by
  unfold Relay.Serves
  decide +kernel

theorem test_meets_InputsDebounceAndTrip :
    let r := fun st => pushed { state := st, timer := some 3000, trips := 65535 }
    let low := fun st => (r st).setPins { (r st).pins with contacts := (r st).pins.contacts.set 0 .low }
    ((r .normal).awake = true ∧ ((r .normal).tables.inputs.get 0).function ≠ .unused
        ∧ (r .normal).pins.contacts.get 0 ≠ .low ∧ (r .normal).pins.contacts.get 0 = .high
        ∧ ((r .normal).inputs.get 0).state = .normal
        ∧ PinLevel.low ≠ ((r .normal).tables.inputs.get 0).expected)
      ∧ ((low .deviating).pins.contacts.get 0 ≠ .high
        ∧ PinLevel.high = ((low .deviating).tables.inputs.get 0).expected)
      ∧ ((r .deviating).inputs.get 0).state = .deviating
      ∧ (((r .tripped).inputs.get 0).state = .tripped
        ∧ ((r .tripped).inputs.get 0).timer = some 3000 ∧ 3000 ≤ (r .tripped).clock.ms)
      ∧ ((live.tables.inputs.get 0).function = .unused ∧ live.pins.contacts.get 0 ≠ .low) := by
  decide +kernel

/-- The part with inputs 6 and 7 as the reset keys, both in a state, and the key in a given one. -/
def keyed (key : ResetKey) (st : InputState) : Relay :=
  let c : InputConfig := { function := .resetKey, expected := .high, debounce := 5 }
  let d : InputDyn := { state := st, timer := none, trips := 0 }
  (((live.setTables
    { live.tables with inputs := (live.tables.inputs.set 6 c).set 7 c }).setInput 6 d).setInput 7
      d).setKey key

theorem test_meets_InputsDebounceAndTrip_key :
    let off : ResetKey := { state := .disarmed, timer := none }
    let armed : ResetKey := { state := .armed, timer := none }
    let timing : ResetKey := { state := .timing, timer := some 7000 }
    ((List.finRange 8).filter (fun i => decide
        (((keyed off .normal).tables.inputs.get i).function = .resetKey))).length = 2
      ∧ (keyed off .normal).settleKey.key = armed ∧ (keyed off .tripped).settleKey.key = off
      ∧ (keyed armed .tripped).settleKey.key = timing ∧ (keyed armed .normal).settleKey.key = armed
      ∧ (keyed timing .tripped).settleKey.key = timing
      ∧ (keyed timing .deviating).settleKey.key = armed := by decide +kernel

theorem test_meets_KeyExpiryRestartsThePart :
    let r := live.setKey { state := .timing, timer := some 3000 }
    let saving := r.setStore { r.store with saveBegun := true }
    r.awake = true ∧ r.key.state = .timing ∧ r.key.timer = some 3000 ∧ 3000 ≤ r.clock.ms
      ∧ r.store.saveBegun = false ∧ saving.store.saveBegun = true := by decide +kernel

/-- The part with a manager address. -/
def managed : Relay :=
  live.setTables
    { live.tables with identity := { live.tables.identity with manager := some 8#12 } }

theorem test_meets_RequestsAreScreenedFirst :
    let pending := live.setAgent { live.agent with restartPending := true }
    (requestOf (.clearDropCounters 9#12 5#8) = some (9#12, 5#8, 4, [1#8]) ∧ managed.awake = true
        ∧ managed.actsFor 9#12 = false)
      ∧ (requestOf (.writeRecord 9#12 5#8 6#8 0#8 [1#8]) = some (9#12, 5#8, 2, [6#8, 0#8, 1#8])
        ∧ live.actsFor 9#12 = true ∧ wellSized 2 [6#8, 0#8, 1#8] = false)
      ∧ (pending.actsFor 9#12 = true ∧ wellSized 4 [1#8] = true
        ∧ pending.agent.restartPending = true) := by decide +kernel

theorem test_meets_RequestsAreScreenedFirst_frames :
    let pending := live.setAgent { live.agent with restartPending := true }
    let answers := fun (r : Relay) payload =>
      (r.handRequest (arrival .lower .mgmtReq 7#12 payload)).pool.routine.map (fun b => b.frame.payload)
    (managed.actsFor 9#12 = false ∧ answers managed [5#8, 1#8] = [])
      ∧ live.actsFor 9#12 = true
      ∧ [[0#8, 1#8], [15#8, 1#8], [1#8, 1#8, 0#8], [4#8, 1#8],
            [11#8, 1#8, 0#8, 0#8, 1#8, 6#8, 0#8, 1#8], [2#8, 1#8, 6#8, 0#8, 1#8],
            2#8 :: 1#8 :: 0#8 :: List.replicate 27 0#8].map (answers live)
        = [[[0#8, 1#8, 1#8]], [[15#8, 1#8, 1#8]], [[1#8, 1#8, 1#8]], [[4#8, 1#8, 1#8]],
            [[11#8, 1#8, 1#8]], [[2#8, 1#8, 1#8]], [[2#8, 1#8, 1#8]]]
      ∧ (pending.actsFor 9#12 = true
        ∧ answers pending [4#8, 1#8, 4#8] = [[4#8, 1#8, byte Result.busy.code]])
      ∧ [[4#8, 1#8, 4#8], [4#8, 1#8, 255#8], [4#8, 1#8, 3#8], [4#8, 1#8, 4#8, 9#8]].map (answers live)
        = [Result.badField, .badField, .done, .badField].map
          (fun x => [[4#8, 1#8, byte x.code]]) := by
  decide +kernel

theorem test_meets_RequestsAreScreenedFirst_restart :
    requestOf (.restart 9#12 5#8) = some (9#12, 5#8, 14, []) := rfl

theorem test_meets_ReplyGoesToTheRoutineQueue :
    ((loaded 9 0 23 7).pool.routine.length < (loaded 9 0 23 7).routineCap
        ∧ 0 < (loaded 9 0 23 7).pool.free)
      ∧ ¬ ((loaded 8 0 24 8).pool.routine.length < (loaded 8 0 24 8).routineCap
        ∧ 0 < (loaded 8 0 24 8).pool.free)
      ∧ ((loaded 1 0 0 0).offerUrgent (parcel 1#8)).2 = true
      ∧ ((loaded 0 40 0 0).offerUrgent (parcel 1#8)).2 = false := by decide +kernel

theorem test_meets_ReadsAreAnswered :
    live.Serves 9#12 ∧ findSlot (1#8).toNat (47#8).toNat = .ok (.station 47)
      ∧ findSlot (1#8).toNat (48#8).toNat = .error .badIndex
      ∧ findSlot (7#8).toNat (0#8).toNat = .error .badTable
      ∧ findView (7#8).toNat (0#8).toNat (1#8).toNat = .ok (.relay 1)
      ∧ findView (7#8).toNat (0#8).toNat (2#8).toNat = .error .badIndex
      ∧ findView (8#8).toNat (0#8).toNat (0#8).toNat = .error .badTable :=
  ⟨by unfold Relay.Serves; decide +kernel, rfl, rfl, rfl, rfl, rfl, rfl⟩

theorem test_meets_ReadsAreAnswered_parts :
    let r := heard StationDyn.start
    let unbound := r.setTables
      { r.tables with bindings := r.tables.bindings.set 0 { line := none, kind := .siren } }
    (r.tables.stations.get 0 = some gauge214 ∧ r.tables.stations.get 1 = none)
      ∧ (r.tables.bindings.get 0).line = some 0 ∧ (unbound.tables.bindings.get 0).line = none
      ∧ ((r.inputs.get 0).timer = none
        ∧ ((pushed { InputDyn.start with timer := some 3001 }).inputs.get 0).timer = some 3001)
      ∧ (r.view (.relay 1)).length = 13 ∧ (r.view (.station 0 0)).length = 26 := by decide +kernel

theorem test_meets_WritesAreCheckedThenCarriedOut :
    let saving := live.setStore { live.store with saving := true }
    let used := live.setTables
      { live.tables with stations := live.tables.stations.set 5 (some gauge214) }
    let busy := standing { BarrierDyn.start with level := .warn }
    (findSlot (6#8).toNat (0#8).toNat = .ok (.binding 0) ∧ recordLength (6#8).toNat = some 2)
      ∧ (live.Serves 9#12 ∧ saving.Serves 9#12 ∧ saving.store.saving = true)
      ∧ decodeRecord (.binding 0) [4#8, 0#8] = none
      ∧ (decodeRecord (.binding 0) [1#8, 0#8] = some (.binding 0 { line := some 1, kind := .siren })
        ∧ live.fits (.binding 0 { line := some 1, kind := .siren }) = false)
      ∧ (used.fits (.station 4 (some gauge214)) = true
        ∧ used.addressTaken (.station 4 (some gauge214)) = true)
      ∧ (busy.fits (.barrier 0 BarrierConfig.emptied) = true
        ∧ busy.addressTaken (.barrier 0 BarrierConfig.emptied) = false
        ∧ busy.inUse (.barrier 0 BarrierConfig.emptied) = true)
      ∧ (live.fits (.binding 0 { line := none, kind := .beacon }) = true
        ∧ live.addressTaken (.binding 0 { line := none, kind := .beacon }) = false
        ∧ live.inUse (.binding 0 { line := none, kind := .beacon }) = false) := by
  refine ⟨⟨rfl, rfl⟩, ?_⟩
  unfold Relay.Serves
  decide +kernel

theorem test_meets_WritesAreCheckedThenCarriedOut_effects :
    let shake : StationConfig := { gauge214 with role := .shake 0 }
    let moved : StationConfig := { gauge214 with role := .gauge 7 6200 1400 }
    let finer : StationConfig := { gauge214 with role := .gauge 0 6200 1401 }
    let r := heard StationDyn.start
    (7 ≤ (7#8).toNat ∧ recordLength (6#8).toNat = some 2
        ∧ [1, 48, 8, 16, 32, 8, 4].getD (6#8).toNat 0 ≤ (4#8).toNat)
      ∧ (r.tables.stations.get 0 = some gauge214 ∧ gauge214.role.code ≠ shake.role.code
        ∧ gauge214.role.calibration ≠ finer.role.calibration)
      ∧ (gaugeBarrier none = none ∧ gaugeBarrier (some shake) = none
        ∧ gaugeBarrier (some gauge214) = some 0 ∧ gaugeBarrier (some moved) = some 7)
      ∧ ((guarded.tables.barriers.get 0).enabled = true
        ∧ BarrierConfig.emptied.enabled = false ∧ guarded.store.mode = .assessing
        ∧ ((standing { BarrierDyn.start with level := .watch }).barriers.get 0).level = .watch
        ∧ (guarded.barriers.get 0).level ≠ .watch)
      ∧ ((pushed InputDyn.start).tables.inputs.get 0).function = .manualAlarm 0
      ∧ ((pushed InputDyn.start).tables.inputs.get 0).expected = .high := by decide +kernel

theorem test_meets_WritesAreCheckedThenCarriedOut_checks :
    let r := heard StationDyn.start
    let relay : StationConfig := { gauge214 with role := .relay }
    let fed := r.setTables { r.tables with stations := r.tables.stations.set 0 (some relay) }
    let feeds := fun (r : Relay) => r.fits (.barrier 0 { watched with feeder := some (214#12, 0) })
    let armed := keyed ResetKey.start .normal
    let keys : InputConfig := { function := .resetKey, expected := .high, debounce := 5 }
    let lively := r.setBarrier 0 { BarrierDyn.start with level := .warn }
    (r.fits (.identity { Identity.defaults with manager := some 7#12 }) = false
        ∧ r.fits (.identity { Identity.defaults with manager := some 8#12 }) = true)
      ∧ (feeds r = false ∧ feeds fed = true)
      ∧ (armed.fits (.input 0 keys) = false ∧ armed.fits (.input 7 keys) = true)
      ∧ (r.addressTaken (.station 1 (some gauge214)) = true
        ∧ r.addressTaken (.station 0 (some gauge214)) = false
        ∧ r.addressTaken (.station 0 (some { gauge214 with address := 7#12 })) = true)
      ∧ (lively.inUse (.station 0 none) = true ∧ lively.inUse (.station 0 (some gauge214)) = false
        ∧ r.inUse (.station 0 none) = false)
      ∧ ((playing soundingChannel).inUse (.cadence 1 none) = true
        ∧ (playing soundingChannel).inUse (.cadence 2 none) = false)
      ∧ ((playing soundingChannel).inUse (.binding 0 (Binding.emptied 0)) = true
        ∧ (playing soundingChannel).inUse (.binding 1 (Binding.emptied 1)) = false) := by
  decide +kernel

theorem test_meets_WritesAreCheckedThenCarriedOut_identity :
    let r := (live.setClock { ms := 123000, lost := false }).setMeasures 0
      { Measures.start with shake := [⟨9, 63⟩, ⟨8, 64⟩] }
    let write := fun life => ((r.writeRecord (.identity
      { r.tables.identity with evidenceLife := life })).barriers.get 0).measures.shake
    r.tables.identity.evidenceLife = 120
      ∧ [120, 61, 60, 59].map write = [[⟨9, 63⟩, ⟨8, 64⟩], [⟨9, 63⟩, ⟨8, 64⟩], [⟨8, 64⟩], []] := by
  decide +kernel

theorem test_write_of_a_contact_starts_it :
    let t := after (pushed { state := .tripped, timer := none, trips := 4 })
      (.writeRecord 9#12 5#8 5#8 0#8 (encodeInput
        { function := .manualAlarm 0, expected := .low, debounce := 5 }))
    t.inputs.get 0 = { state := .deviating, timer := some 3500, trips := 4 } := by decide +kernel

theorem test_meets_ClearsZeroTheirCounters : live.Serves 4094#12 := by
  unfold Relay.Serves
  decide +kernel

theorem test_meets_LocksAnswerWithTheSnapshot : testing.Serves 1#12 := by
  unfold Relay.Serves
  decide +kernel

theorem test_meets_StandDownIsDecidedByTheDemand :
    let r := standing latched
    let wired := standing { latched with overflowBroken := true }
    live.Serves 9#12 ∧ (live.barriers.get 7).level ≠ .evacuate
      ∧ ((wired.barriers.get 0).level = .evacuate
        ∧ ({ wired.barriers.get 0 with manual := wired.manualHeld 0 } : BarrierDyn).demanded
          (wired.tables.barriers.get 0) wired.lineLoss.lost = .evacuate)
      ∧ (r.Serves 9#12 ∧ ({ r.barriers.get 0 with manual := r.manualHeld 0 } : BarrierDyn).demanded
          (r.tables.barriers.get 0) r.lineLoss.lost ≠ .evacuate)
      ∧ 8 ≤ (8#8).toNat := by
  unfold Relay.Serves
  decide +kernel

theorem test_meets_RearmWireReleasesTheLatch :
    let held := (guarded.setTables
      { guarded.tables with
        inputs := guarded.tables.inputs.set 0
          { function := .inflowWire 0, expected := .high, debounce := 5 } }).setInput 0
      { state := .tripped, timer := none, trips := 1 }
    (held.Serves 9#12 ∧ held.inputTripped (WirePosition.inflow.input 0) = true)
      ∧ (guarded.inputTripped (WirePosition.inflow.input 0) = false ∧ guarded.assessed 0 = true)
      ∧ live.assessed 7 = false ∧ 8 ≤ (8#8).toNat ∧ (7#8).toNat < 8 ∧ 2 ≤ (2#8).toNat := by
  unfold Relay.Serves
  decide +kernel

theorem test_meets_RestartWaitsForItsReply :
    let up := live.setLower upPort
    let saving := live.setStore { live.store with saving := true }
    let full := up.setPool { live.pool with free := 0, urgent := List.replicate 40 (parcel 1#8) }
    let offer := fun (r : Relay) => (r.setAgent { r.agent with restartPending := true }).offerUrgent
      (parcel 1#8)
    live.Serves 9#12 ∧ saving.store.saving = true ∧ live.lower.link ≠ .up
      ∧ (up.Serves 9#12 ∧ up.store.saving = false ∧ up.lower.link = .up ∧ (offer up).2 = true)
      ∧ (full.lower.link = .up ∧ (offer full).2 = false) := by
  unfold Relay.Serves
  decide +kernel

theorem test_meets_SaveWritesTheImage :
    let saving := saving .assessing true
    let open_ := Tests.saving .openLine true
    let mute := live.setMemory { live.memory with answers := false }
    let flawed := Memory.writeCells (Memory.writeBytes saving.memory.cells 0
          (imageBytes Tables.emptied 1)) [(1248, 9#8)]
    (live.Serves 9#12 ∧ live.store.saving = false ∧ live.memory.answers = true)
      ∧ (mute.Serves 9#12 ∧ mute.memory.answers = false)
      ∧ (saving.awake = true ∧ saving.store.saving = true
        ∧ saving.agent.requester = some (9#12, 1#8) ∧ saving.MemoryOk ∧ saving.TablesOk
        ∧ saving.tables = Tables.emptied
        ∧ saving.store.mode = .assessing ∧ open_.store.mode = .openLine)
      ∧ Memory.readBytes flawed 0 1249 ≠ imageBytes Tables.emptied 1 := by
  refine ⟨?_, ?_, ⟨by decide +kernel, rfl, rfl, rfl, tablesOk_of_emptied rfl, rfl, rfl, rfl⟩, ?_⟩
  · unfold Relay.Serves
    decide +kernel
  · unfold Relay.Serves
    decide +kernel
  · exact lastByte_ne _ _ 1248 _ (Memory.wf_writeBytes _ _ Memory.wf_reset) (by decide +kernel)

/-- A flaw in a cell beyond the image leaves the image as written. -/
theorem test_meets_SaveWritesTheImage_as_written :
    Memory.readBytes
        (Memory.writeCells (Memory.writeBytes [] 0 (imageBytes Tables.emptied 1)) [(1249, 9#8)])
        0 1249
      = imageBytes Tables.emptied 1 :=
  readBytes_writeCell_beyond _ 9#8 rfl (by decide +kernel)

theorem test_save_end_without_an_answer_is_absent :
    let t := after (saving .openLine true) (.saveEnd false ⟨[], ⟨true, []⟩⟩)
    t.store.status = .absent ∧ t.store.saving = false ∧ t.memory.answers = false
      ∧ t.store.mode = .openLine
      ∧ t.pool.routine.map (fun b => b.frame.payload.take 3)
        = [[13#8, 1#8, byte Result.memoryFault.code]] := by
  decide +kernel

theorem test_load_after_a_save_meets_no_answer :
    let t := (saving .openLine true).loadAfterSave ⟨false, []⟩
    t.store.status = .absent ∧ t.store.version = 0 ∧ t.store.mode = .openLine
      ∧ t.memory.answers = false := by decide +kernel

theorem test_load_after_a_save_shows_a_bad_image :
    let t := (saving .openLine true).loadAfterSave ⟨true, [(3, 4#8)]⟩
    t.store.status = .invalid ∧ t.store.mode = .openLine ∧ t.memory = live.memory := by
  decide +kernel

theorem test_meets_ClockLossAndResetsStartThePart :
    let lost := live.setClock { ms := 3000, lost := true }
    let start := State.reset.relay.setClock { ms := 1000, lost := false }
    (lost.clock.lost = true ∧ live.clock.lost = false)
      ∧ (startPins.straps ≠ 0#12 ∧ startPins.straps ≠ 4095#12)
      ∧ ({ startPins with straps := 4095#12 } : StartPins).straps = 4095#12
      ∧ judgeImage live.memory ≠ .valid
      ∧ (start.clock.lost = false ∧ start.store.mode = .starting
        ∧ start.store.nextStrap ≤ start.now) := by decide +kernel

theorem valid_of_written (cells : List Host.Cell)
    (h : cells = Memory.writeBytes [] 0 (imageBytes Tables.emptied 1)) :
    judgeImage ⟨true, cells⟩ = .valid :=
  judgeImage_written 1 emptied_inRange (m := []) rfl rfl h

theorem test_meets_ClockLossAndResetsStartThePart_image :
    ∃ memory, judgeImage memory = .valid :=
  ⟨_, valid_of_written _ rfl⟩

theorem test_meets_ClockLossAndResetsStartThePart_barriers :
    let r := heard StationDyn.start
    let told := fun q => ((standing { latched with quieted := q }).evaluate 0).toldOfChange 0
    let quiet := standing { latched with quieted := some .evacuate }
    let busy := quiet.setGenerator testing.generator
    (r.store.mode = .assessing ∧ live.assessed 0 = false ∧ guarded.assessed 0 = true
        ∧ (guarded.barriers.get 0).level ≠ .evacuate
        ∧ ((standing latched).barriers.get 0).level = .evacuate)
      ∧ (((told none).barriers.get 0).quieted ≠ some .evacuate
        ∧ ((told (some .evacuate)).barriers.get 0).quieted = some .evacuate)
      ∧ (quiet.startBarrier 0).generator.last = none
      ∧ (busy.startBarrier 0).generator.last = some .preempted
      ∧ (r.tables.stations.get 0 = some gauge214 ∧ r.tables.stations.get 1 = none)
      ∧ [0, 1].map (fun b => (r.startAssessing.barriers.get b).measures.sight) = [.blind, .ungauged]
      ∧ (r.startAssessing.stations.get 0).deadline = some 93 := by decide +kernel

theorem valid_of_shown (cells : List Host.Cell)
    (h : cells = Memory.writeBytes [] 0 (imageBytes Tables.emptied 1)) :
    judgeImage ⟨true, Memory.writeCells cells []⟩ = .valid :=
  valid_of_written cells h

theorem test_meets_SaveWritesTheImage_load :
    ∃ cells, judgeImage ⟨true, Memory.writeCells cells []⟩ = .valid :=
  ⟨_, valid_of_shown _ rfl⟩

theorem test_meets_SaveWritesTheImage_lines :
    let r := (playing soundingChannel).setPins
      { live.pins with loads := live.pins.loads.set 0 .openLoad }
    (r.pins.loads.get 0 ≠ .sound ∧ (Tables.emptied.bindings.get 0).line = some 0
        ∧ (r.channels.get 0).state ≠ .idle ∧ (r.channels.get 0).segment = some .on)
      ∧ r.pins.loads.get 1 = .sound ∧ (r.lines.get 0).sensing = none
      ∧ judgeImage ⟨false, []⟩ = .absent ∧ judgeImage ⟨true, []⟩ ≠ .valid := by decide +kernel

theorem test_meets_BatterySampleMovesTheBand :
    let r := fun band => live.setStore { live.store with band := band, nextSample := 3 }
    ((r .normal).clock.lost = false ∧ (r .normal).store.nextSample ≤ (r .normal).now
        ∧ (r .normal).store.mode ≠ .starting)
      ∧ ((r .normal).store.band = .normal ∧ 1180 ≤ 1180 ∧ ¬ (1180 : Nat) < 1180)
      ∧ ((r .low).store.band = .low ∧ 1100 ≤ 1199 ∧ 1199 < 1200)
      ∧ ((r .critical).store.band = .critical ∧ 1119 < 1120)
      ∧ State.reset.relay.store.mode = .starting
      ∧ usualOrder.contains .classifier = true
      ∧ Band.low ≠ .normal ∧ testing.generator.running = true := by decide +kernel

theorem test_low_band_sheds_the_oldest_frames :
    let r := live.setPool
      { live.pool with
        free := 26
        routine := (List.range 14).map (fun n => parcel (BitVec.ofNat 8 n)) }
    let t := r.deliverBand .low .classifier
    t.pool.routine = (List.range 12).map (fun n => parcel (BitVec.ofNat 8 (n + 2)))
      ∧ t.pool.free = 28 ∧ t.pool.drops.routineDrops = 2 := by decide +kernel

theorem test_meets_HealthTimerBuildsAHealthFrame :
    let r := live.setAgent { live.agent with healthTimer := some 3000 }
    r.awake = true ∧ r.agent.healthTimer = some 3000 ∧ 3000 ≤ r.clock.ms := by decide +kernel

end Sys2Proof.Tests
end

/-! SUPPORT. Admission to the three queues: where a pool places a frame, and what the offer does
with the pool (R39, R40). -/

namespace Sys2Proof.Machine

/-! ## Joining a queue of the pool -/

theorem joinRoutine_of_room {p : Pool} {cap : Nat} (b : Buffer) (hcap : p.routine.length < cap)
    (hfree : 0 < p.free) :
    p.joinRoutine cap b
      = some { p with free := p.free - 1, routine := p.routine ++ [b] } :=
  if_pos ⟨hcap, hfree⟩

theorem joinRoutine_of_no_room {p : Pool} {cap : Nat} (b : Buffer)
    (h : ¬ (p.routine.length < cap ∧ 0 < p.free)) : p.joinRoutine cap b = none :=
  if_neg h

theorem joinUp_of_room {p : Pool} (b : Buffer) (hcap : p.up.length < 8) (hfree : 0 < p.free) :
    p.joinUp b = some { p with free := p.free - 1, up := p.up ++ [b] } :=
  if_pos ⟨hcap, hfree⟩

theorem joinUp_of_no_room {p : Pool} (b : Buffer) (h : ¬ (p.up.length < 8 ∧ 0 < p.free)) :
    p.joinUp b = none :=
  if_neg h

theorem joinUrgent_of_free {p : Pool} (b : Buffer) (hfree : 0 < p.free) :
    p.joinUrgent b = ({ p with free := p.free - 1, urgent := p.urgent ++ [b] }, none, true) :=
  if_pos hfree

theorem joinUrgent_evicts_routine {p : Pool} {x : Buffer} {xs : List Buffer} (b : Buffer)
    (hfree : p.free = 0) (hroutine : p.routine = x :: xs) :
    p.joinUrgent b
      = ({ p with
            urgent := p.urgent ++ [b]
            routine := xs
            drops := { p.drops with evictions := bump p.drops.evictions } }, some x, true) := by
  simp [Pool.joinUrgent, hfree, hroutine]

theorem joinUrgent_evicts_up {p : Pool} {x : Buffer} {xs : List Buffer} (b : Buffer)
    (hfree : p.free = 0) (hroutine : p.routine = []) (hup : p.up = x :: xs) :
    p.joinUrgent b
      = ({ p with
            urgent := p.urgent ++ [b]
            up := xs
            drops := { p.drops with evictions := bump p.drops.evictions } }, some x, true) := by
  simp [Pool.joinUrgent, hfree, hroutine, hup]

theorem joinUrgent_refuses {p : Pool} (b : Buffer) (hfree : p.free = 0) (hroutine : p.routine = [])
    (hup : p.up = []) :
    p.joinUrgent b
      = ({ p with drops := { p.drops with urgentDrops := bump p.drops.urgentDrops } },
          none, false) := by
  simp [Pool.joinUrgent, hfree, hroutine, hup]

/-! ## Offers, by where the pool places the frame -/

theorem offerRoutine_of_joined {r : Relay} {b : Buffer} {p : Pool}
    (h : r.pool.joinRoutine r.routineCap b = some p) :
    r.offerRoutine b = ((r.setPool p).take .lower, true) := by
  simp only [Relay.offerRoutine, h]

theorem offerRoutine_of_refused {r : Relay} {b : Buffer}
    (h : r.pool.joinRoutine r.routineCap b = none) :
    r.offerRoutine b
      = (r.countDrop (fun d => { d with routineDrops := bump d.routineDrops }), false) := by
  simp only [Relay.offerRoutine, h]

theorem offerUp_of_joined {r : Relay} {b : Buffer} {p : Pool} (h : r.pool.joinUp b = some p) :
    r.offerUp b = ((r.setPool p).take .upper, true) := by
  simp only [Relay.offerUp, h]

theorem offerUp_of_refused {r : Relay} {b : Buffer} (h : r.pool.joinUp b = none) :
    r.offerUp b = (r.countDrop (fun d => { d with upDrops := bump d.upDrops }), false) := by
  simp only [Relay.offerUp, h]

theorem offerUrgent_of_placed {r : Relay} {b : Buffer} {p : Pool}
    (h : r.pool.joinUrgent b = (p, none, true)) :
    r.offerUrgent b = ((r.setPool p).take .lower, true) := by
  simp [Relay.offerUrgent, Relay.when, h]

theorem offerUrgent_of_evicted {r : Relay} {b x : Buffer} {p : Pool}
    (h : r.pool.joinUrgent b = (p, some x, true)) :
    r.offerUrgent b = (((r.setPool p).reportLoss x.maker).take .lower, true) := by
  simp [Relay.offerUrgent, Relay.when, h]

theorem offerUrgent_of_refused {r : Relay} {b : Buffer} {p : Pool}
    (h : r.pool.joinUrgent b = (p, none, false)) :
    r.offerUrgent b = (r.setPool p, false) := by
  simp [Relay.offerUrgent, Relay.when, h]

/-! ## The caps and the balance -/

theorem routineCap_of_critical {r : Relay} (h : r.store.band = .critical) : r.routineCap = 0 := by
  simp only [Relay.routineCap, h]

/-- No routine queue is shorter than the cap 0 that CRITICAL sets (R38). -/
theorem offerRoutine_refuses_in_critical {r : Relay} (b : Buffer) (h : r.store.band = .critical) :
    (r.offerRoutine b).2 = false := by
  have hfull : ¬ (r.pool.routine.length < r.routineCap ∧ 0 < r.pool.free) := by
    simp [routineCap_of_critical h]
  rw [offerRoutine_of_refused (joinRoutine_of_no_room b hfull)]

/-- Three of R37's five places hold none of the 40 buffers, so the other two hold all of them. -/
theorem urgent_and_sending_of_poolBalanced {r : Relay} (h : r.PoolBalanced)
    (hfree : r.pool.free = 0) (hroutine : r.pool.routine = []) (hup : r.pool.up = []) :
    r.pool.urgent.length + flag r.upper.sending.isSome + flag r.lower.sending.isSome = 40 := by
  have hsum : r.pool.free + r.pool.urgent.length + r.pool.routine.length + r.pool.up.length
      + flag r.upper.sending.isSome + flag r.lower.sending.isSome = 40 := h
  simpa [hfree, hroutine, hup] using hsum

/-! ## The statements -/

/-- Settles O25: the pool's verdict by cap and free buffer decides each offer. -/
theorem routineAndUpQueuesAdmitByCap : Obligations.RoutineAndUpQueuesAdmitByCap := by
  intro r b
  refine ⟨?routineAdmits, ?routineRefuses, ?upAdmits, ?upRefuses, ?critical⟩
  case routineAdmits =>
    exact fun hcap hfree => offerRoutine_of_joined (joinRoutine_of_room b hcap hfree)
  case routineRefuses => exact fun h => offerRoutine_of_refused (joinRoutine_of_no_room b h)
  case upAdmits => exact fun hcap hfree => offerUp_of_joined (joinUp_of_room b hcap hfree)
  case upRefuses => exact fun h => offerUp_of_refused (joinUp_of_no_room b h)
  case critical => exact offerRoutine_refuses_in_critical b

/-- Settles O26, place by place in the order R40 tries them. -/
theorem urgentFramesArePlacedByEviction : Obligations.UrgentFramesArePlacedByEviction := by
  intro r b
  refine ⟨?free, ?evictsRoutine, ?evictsUp, ?refused⟩
  case free => exact fun hfree => offerUrgent_of_placed (joinUrgent_of_free b hfree)
  case evictsRoutine =>
    exact fun x xs hfree hroutine =>
      offerUrgent_of_evicted (joinUrgent_evicts_routine b hfree hroutine)
  case evictsUp =>
    exact fun x xs hfree hroutine hup =>
      offerUrgent_of_evicted (joinUrgent_evicts_up b hfree hroutine hup)
  case refused =>
    intro hfree hroutine hup
    exact ⟨offerUrgent_of_refused (joinUrgent_refuses b hfree hroutine hup),
      fun hbalanced => urgent_and_sending_of_poolBalanced hbalanced hfree hroutine hup⟩

end Sys2Proof.Machine

/-! SUPPORT. TEST frames at the classifier, and the counter sets of the line-test checker in its two
counting modes (R22, R23, R32). -/

namespace Sys2Proof.Machine

/-! ## TEST frames at the classifier -/

theorem takeFrame_of_test (r : Relay) {a : Arrival} (h : a.cls = .test) :
    r.takeFrame a = r.takeTest a := by
  simp only [Relay.takeFrame, h]

theorem takeTest_at_upper (r : Relay) {a : Arrival} (hport : a.port = .upper)
    (htarget : a.target = r.store.own ∨ a.target = 0#12) :
    r.takeTest a = r.checkTest .upper a.payload := by
  simp only [Relay.takeTest, if_pos htarget, hport]

theorem takeTest_at_lower (r : Relay) {a : Arrival} (hport : a.port = .lower)
    (htarget : a.target = r.store.own ∨ a.target = 0#12) :
    r.takeTest a = r.checkTest .lower a.payload := by
  simp only [Relay.takeTest, if_pos htarget, hport]

theorem takeTest_for_another (r : Relay) {a : Arrival} (hown : a.target ≠ r.store.own)
    (hzero : a.target ≠ 0#12) : r.takeTest a = r :=
  if_neg (not_or.mpr ⟨hown, hzero⟩)

/-! ## One frame at a counter set -/

theorem mismatches_cons (first : Byte) (rest : List Byte) :
    mismatches (first :: rest)
      = (List.range (first :: rest).length).countP (fun n =>
          (first :: rest).getD n 0#8 != (fun x => 5#8 * x + 1#8)^[n] first) :=
  differences_count (first :: rest) first

theorem TestCounts.add_single {t : TestCounts} (last : Option Byte) (first : Byte)
    (rest : List Byte) (h : t.overflow ≤ 255) :
    t.add .single last (first :: rest)
      = { frames := min (t.frames + 1) 65535
          bytes := min (t.bytes + (first :: rest).length) 65535
          mismatched := min (t.mismatched + mismatches (first :: rest)) 65535
          lost := min (t.lost + framesLost last first) 65535
          overflow := t.overflow } := by
  have hoverflow : min (t.overflow + 0 + 0 + 0 + 0) 255 = t.overflow := Nat.min_eq_left h
  simp only [TestCounts.add, countTest, Config.maxCount, List.getD_cons_zero, hoverflow]

theorem TestCounts.add_continuous (t : TestCounts) (last : Option Byte) (first : Byte)
    (rest : List Byte) :
    t.add .continuous last (first :: rest)
      = { frames := (t.frames + 1) % 65536
          bytes := (t.bytes + (first :: rest).length) % 65536
          mismatched := (t.mismatched + mismatches (first :: rest)) % 65536
          lost := (t.lost + framesLost last first) % 65536
          overflow := min (t.overflow + (t.frames + 1) / 65536
            + (t.bytes + (first :: rest).length) / 65536
            + (t.mismatched + mismatches (first :: rest)) / 65536
            + (t.lost + framesLost last first) / 65536) 255 } :=
  rfl

/-! ## One frame at the checker -/

theorem checkTest_upper (r : Relay) (first : Byte) (rest : List Byte) :
    r.checkTest .upper (first :: rest) = r.setChecker
      { r.checker with
        upper := r.checker.upper.add r.tables.identity.countMode r.checker.upperSeed (first :: rest)
        upperSeed := some first } :=
  rfl

theorem checkTest_lower (r : Relay) (first : Byte) (rest : List Byte) :
    r.checkTest .lower (first :: rest) = r.setChecker
      { r.checker with
        lower := r.checker.lower.add r.tables.identity.countMode r.checker.lowerSeed (first :: rest)
        lowerSeed := some first } :=
  rfl

theorem checkTest_sets_checker (r : Relay) (p : LinkPort) (payload : List Byte) :
    ∃ checker, r.checkTest p payload = r.setChecker checker := by
  cases p <;> exact ⟨_, rfl⟩

/-! ## The statement -/

/-- Settles O29: the statement's own counts are those of `TestCounts.add` in each mode, since its
`differing` and `gap` are `mismatches` and `framesLost`. -/
theorem testFramesGoToTheCheckerAlone : Obligations.TestFramesGoToTheCheckerAlone := by
  refine ⟨?classified, ?counted⟩
  case classified =>
    intro r a htest _
    rw [takeFrame_of_test r htest]
    exact ⟨fun htarget => ⟨fun hport => takeTest_at_upper r hport htarget,
      fun hport => takeTest_at_lower r hport htarget⟩, takeTest_for_another r⟩
  case counted =>
    intro r payload rest first differing gap counted wrapped hpayload hdiffering hgap hcounted
      hwrapped
    subst hpayload
    have hmismatches : differing = mismatches (first :: rest) :=
      hdiffering.trans (mismatches_cons first rest).symm
    have hlost : ∀ last, gap last = framesLost last first := by
      intro last
      cases last <;> simp only [hgap, framesLost]
    have hsingle : ∀ (t : TestCounts) last, t.overflow ≤ 255 →
        t.add .single last (first :: rest) = counted t last := by
      intro t last h
      simp only [TestCounts.add_single last first rest h, hcounted, hmismatches, hlost]
    have hcontinuous : ∀ (t : TestCounts) last,
        t.add .continuous last (first :: rest) = wrapped t last := by
      intro t last
      simp only [TestCounts.add_continuous, hwrapped, hmismatches, hlost]
    refine ⟨fun p => checkTest_sets_checker r p _, ?singleUpper, ?singleLower, ?continuous⟩
    case singleUpper =>
      intro hmode h
      rw [checkTest_upper, hmode, hsingle _ _ h]
    case singleLower =>
      intro hmode h
      rw [checkTest_lower, hmode, hsingle _ _ h]
    case continuous =>
      intro hmode
      rw [checkTest_upper, checkTest_lower, hmode, hcontinuous, hcontinuous]
      exact ⟨rfl, rfl⟩

end Sys2Proof.Machine

/-! SUPPORT. The manual latch of a barrier: what its delivery does, which operations keep it and
which clear it, and the level it demands (R95, R105, R109, R186, R191). -/

namespace Sys2Proof.Machine

/-! ## The highest of the levels called for -/

theorem rank_levelMax (a b : Level) : (a.max b).rank = max a.rank b.rank := by
  unfold Level.max
  split
  · next h => exact (Nat.max_eq_right h).symm
  · next h => exact (Nat.max_eq_left (Nat.le_of_not_le h)).symm

theorem rank_le_foldl_max {α : Type} (f : α → Level) (xs : List α) (top : Level) :
    top.rank ≤ (xs.foldl (fun top x => top.max (f x)) top).rank
      ∧ ∀ x ∈ xs, (f x).rank ≤ (xs.foldl (fun top x => top.max (f x)) top).rank := by
  induction xs generalizing top with
  | nil => exact ⟨Nat.le_refl _, fun x h => absurd h List.not_mem_nil⟩
  | cons y ys ih =>
    obtain ⟨hstart, hcalls⟩ := ih (top.max (f y))
    rw [rank_levelMax] at hstart
    refine ⟨(Nat.le_max_left _ _).trans hstart, fun x hx => ?_⟩
    rcases List.mem_cons.mp hx with rfl | hx
    · exact (Nat.le_max_right _ _).trans hstart
    · exact hcalls x hx

theorem Cause.mem_all (k : Cause) : k ∈ Cause.all := by
  cases k <;> decide

/-- No cause calls for more than the highest call (R95, R96). -/
theorem rank_calls_le_highestCall (d : BarrierDyn) (c : BarrierConfig) (lost : Bool) (h : Nat)
    (k : Cause) : (d.calls c lost h k).rank ≤ (d.highestCall c lost h).rank :=
  (rank_le_foldl_max (d.calls c lost h) Cause.all .calm).2 k k.mem_all

/-! ## What the latch demands -/

theorem calls_manual_of_set {d : BarrierDyn} (c : BarrierConfig) (lost : Bool) (h : Nat)
    (hset : d.manual = true) : d.calls c lost h .manual = .evacuate := by
  simp only [BarrierDyn.calls, demand, hset, if_true]

/-- EVACUATE is the highest level there is, so one cause that calls for it decides the demand
(R95). -/
theorem demanded_of_manual_set {d : BarrierDyn} (c : BarrierConfig) (lost : Bool)
    (hset : d.manual = true) : d.demanded c lost = .evacuate := by
  have hcall : (d.calls c lost 0 .manual).rank ≤ (d.demanded c lost).rank :=
    rank_calls_le_highestCall d c lost 0 .manual
  rw [calls_manual_of_set c lost 0 hset] at hcall
  exact Level.eq_evacuate hcall

/-! ## Delivery of a manual alarm -/

theorem deliverManual_of_clear {r : Relay} {b : Fin 8} (hassessed : r.assessed b = true)
    (hclear : (r.barriers.get b).manual = false) :
    r.deliverManual b = (r.setBarrier b { r.barriers.get b with manual := true }).evaluate b := by
  simp only [Relay.deliverManual, hassessed, hclear, Bool.not_false, Bool.and_self, if_true]

theorem deliverManual_of_set {r : Relay} {b : Fin 8} (hset : (r.barriers.get b).manual = true) :
    r.deliverManual b = r := by
  simp [Relay.deliverManual, hset]

theorem deliverManual_of_not_assessed {r : Relay} {b : Fin 8} (h : r.assessed b = false) :
    r.deliverManual b = r := by
  simp [Relay.deliverManual, h]

/-! ## What keeps the latch, and what clears it -/

@[simp] theorem atCalm_manual (d : BarrierDyn) : d.atCalm.manual = d.manual := by
  unfold BarrierDyn.atCalm
  split <;> rfl

@[simp] theorem weigh_manual (d : BarrierDyn) (c : BarrierConfig) (lost : Bool) (now : Nat)
    (start : Level) : (d.weigh c lost now start).manual = d.manual := by
  rw [weigh_rest]

@[simp] theorem weighBarrier_manual (r : Relay) (b : Fin 8) (start : Level) :
    ((r.weighBarrier b start).barriers.get b).manual = (r.barriers.get b).manual := by
  rw [weighBarrier_get, weigh_manual]

@[simp] theorem handOver_manual (r : Relay) (b : Fin 8) (old : Level) :
    ((r.handOver b old).barriers.get b).manual = (r.barriers.get b).manual := by
  rcases handOver_barriers r b old with hsame | ⟨serial, deadline, hset⟩
  · rw [hsame]
  · rw [hset, Bank.get_set_self, atCalm_manual]

/-- The evaluation that ends an accepted STAND-DOWN does not set the latch again (R109). -/
theorem acceptStandDown_manual (r : Relay) (b : Fin 8) :
    ((r.acceptStandDown b).barriers.get b).manual = false := by
  unfold Relay.acceptStandDown
  rw [handOver_manual, weighBarrier_manual, Relay.setBarrier_barriers, Bank.get_set_self]

theorem keptByRestart_manual (r : Relay) (b : Fin 8) :
    (r.keptByRestart.barriers.get b).manual = (r.barriers.get b).manual := by
  have hbarriers : r.keptByRestart.barriers = r.barriers.map BarrierDyn.restarted := rfl
  rw [hbarriers, Bank.get_map]
  rfl

theorem cleared_manual (cause : ResetCause) (pins : Pins) (memory : SerialMemory) (n : Nat)
    (b : Fin 8) : ((Relay.cleared cause pins memory n).barriers.get b).manual = false := by
  have hbarriers : (Relay.cleared cause pins memory n).barriers
      = Bank.fill 8 BarrierDyn.start := rfl
  rw [hbarriers, Bank.get_fill]
  rfl

/-! ## The statement -/

/-- Settles O38, clause by clause: what delivers the latch, what clears or keeps it, what it
demands. -/
theorem manualAlarmLatches : Obligations.ManualAlarmLatches := by
  refine ⟨fun r b =>
    ⟨?delivered, ?sets, ?alreadySet, ?notAssessed, ?standDown, ?restart, ?cleared⟩, ?demands⟩
  case delivered => rfl
  case sets => exact deliverManual_of_clear
  case alreadySet => exact fun _ => deliverManual_of_set
  case notAssessed => exact deliverManual_of_not_assessed
  case standDown => exact acceptStandDown_manual r b
  case restart => exact keptByRestart_manual r b
  case cleared => exact fun cause pins memory n => cleared_manual cause pins memory n b
  case demands =>
    exact fun d c lost h hset =>
      ⟨calls_manual_of_set c lost h hset, demanded_of_manual_set c lost hset⟩

end Sys2Proof.Machine

/-! SUPPORT. The channel flags: what their CLEAR does to a channel and to the rest of the relay, and
the command that carries it (R152, R173). -/

namespace Sys2Proof.Machine

/-! ## What the clear does -/

@[simp] theorem clearChannelFlags_get (r : Relay) (c : Fin 4) :
    r.clearChannelFlags.channels.get c
      = { r.channels.get c with normalDone := false, abnormalDone := false, continued := false } := by
  unfold Relay.clearChannelFlags
  rw [Relay.setChannels_channels, Bank.get_map]

/-- Only the channels differ after the clear: the lines, like every other block, stand as they
did. -/
theorem clearChannelFlags_eq_setChannels (r : Relay) :
    r.clearChannelFlags = r.setChannels r.clearChannelFlags.channels :=
  rfl

theorem counted_channels (r : Relay) : r.counted.channels = r.channels :=
  Relay.setAgent_channels r _

/-! ## The command -/

theorem exec_clearChannelFlags (origin : Addr) (tag : Byte) (s : State) :
    exec (.clearChannelFlags origin tag) s
      = s.onRelay (fun r => r.command origin tag 4 [3#8]) :=
  rfl

/-- The argument byte 3 names the channel flags, so the request passes its checks and is answered
DONE. -/
theorem exec_clearChannelFlags_of_serves {r : Relay} {origin : Addr} (hserves : r.Serves origin)
    (q : List Instr) (tag : Byte) :
    exec (.clearChannelFlags origin tag) ⟨r, q⟩
      = .next ⟨r.counted.clearChannelFlags.reply ⟨origin, 4#8, tag⟩ .done [], q⟩ := by
  have hsized : wellSized (byte 4).toNat [3#8] = true := by decide
  have hchecked : r.counted.checkArgs (byte 4).toNat [3#8] = .ok (.clear .channel) := rfl
  exact exec_carryOut (exec_clearChannelFlags origin tag) hserves hsized hchecked

/-! ## The statement -/

/-- Settles O45: the state before the reply is that of the counted request with its flags
cleared. -/
theorem clearChannelFlagsClearsThreeFlags : Obligations.ClearChannelFlagsClearsThreeFlags := by
  intro r q origin tag hserves
  refine ⟨r.counted.clearChannelFlags, ?answered, ?frame, fun c => ?flags⟩
  case answered => exact exec_clearChannelFlags_of_serves hserves q tag
  case frame => exact clearChannelFlags_eq_setChannels r.counted
  case flags => rw [clearChannelFlags_get, counted_channels]

end Sys2Proof.Machine

/-! SUPPORT. The two locks of the line-test checker: what each leaves of the counter sets and the
seeds, and the command that answers with the snapshot (R23, R174). -/

namespace Sys2Proof.Machine

/-! ## What the locks do to the checker -/

theorem Checker.lock_eq (k : Checker) :
    k.lock = { k with snapshot := some (k.upper, k.lower) } :=
  rfl

theorem Checker.lockAndClear_eq (k : Checker) :
    k.lockAndClear
      = { upper := { frames := 0, bytes := 0, mismatched := 0, lost := 0, overflow := 0 }
          upperSeed := k.upperSeed
          lower := { frames := 0, bytes := 0, mismatched := 0, lost := 0, overflow := 0 }
          lowerSeed := k.lowerSeed
          snapshot := some (k.upper, k.lower) } :=
  rfl

/-- The copy is of the live sets as they stood before the command. -/
@[simp] theorem Checker.lock_snapshot (k : Checker) : k.lock.snapshot = some (k.upper, k.lower) :=
  rfl

/-- The copy is taken before the live sets are zeroed, so it holds what they had counted. -/
@[simp] theorem Checker.lockAndClear_snapshot (k : Checker) :
    k.lockAndClear.snapshot = some (k.upper, k.lower) :=
  rfl

theorem counted_checker (r : Relay) : r.counted.checker = r.checker :=
  Relay.setAgent_checker r _

/-! ## What the answer carries -/

theorem Checker.snapshotBytes_of_some {k : Checker} {upper lower : TestCounts}
    (h : k.snapshot = some (upper, lower)) :
    k.snapshotBytes = 1#8 :: countsBytes upper ++ countsBytes lower := by
  simp only [Checker.snapshotBytes, h]

theorem carryLock_of_snapshot {r : Relay} {k : Checker} {upper lower : TestCounts} (q : Sender)
    (h : k.snapshot = some (upper, lower)) :
    r.carryLock q k
      = (r.setChecker k).reply q .done (1#8 :: countsBytes upper ++ countsBytes lower) := by
  rw [Relay.carryLock, Checker.snapshotBytes_of_some h]

/-! ## The commands -/

theorem exec_lockCounters (origin : Addr) (tag : Byte) (s : State) :
    exec (.lockCounters origin tag) s = s.onRelay (fun r => r.command origin tag 5 []) :=
  rfl

theorem exec_lockAndClear (origin : Addr) (tag : Byte) (s : State) :
    exec (.lockAndClear origin tag) s = s.onRelay (fun r => r.command origin tag 6 []) :=
  rfl

/-- The request has no arguments, so a relay that serves it finds nothing to refuse; the count of the
request does not touch the checker that is locked. -/
theorem exec_lockCounters_of_serves {r : Relay} {origin : Addr} (hserves : r.Serves origin)
    (q : List Instr) (tag : Byte) :
    exec (.lockCounters origin tag) ⟨r, q⟩
      = .next ⟨r.counted.carryLock ⟨origin, 5#8, tag⟩ r.checker.lock, q⟩ := by
  have hsized : wellSized (byte 5).toNat [] = true := by decide
  have hchecked : r.counted.checkArgs (byte 5).toNat [] = .ok .lockCounters := rfl
  rw [← counted_checker r]
  exact exec_carryOut (exec_lockCounters origin tag) hserves hsized hchecked

theorem exec_lockAndClear_of_serves {r : Relay} {origin : Addr} (hserves : r.Serves origin)
    (q : List Instr) (tag : Byte) :
    exec (.lockAndClear origin tag) ⟨r, q⟩
      = .next ⟨r.counted.carryLock ⟨origin, 6#8, tag⟩ r.checker.lockAndClear, q⟩ := by
  have hsized : wellSized (byte 6).toNat [] = true := by decide
  have hchecked : r.counted.checkArgs (byte 6).toNat [] = .ok .lockAndClear := rfl
  rw [← counted_checker r]
  exact exec_carryOut (exec_lockAndClear origin tag) hserves hsized hchecked

/-! ## The statement -/

/-- Settles O53: each lock leaves the copy of both live sets in the snapshot, and the answer is read
from that snapshot. -/
theorem locksAnswerWithTheSnapshot : Obligations.LocksAnswerWithTheSnapshot := by
  intro r q origin tag hserves
  refine ⟨?lock, ?lockAndClear⟩
  case lock =>
    rw [exec_lockCounters_of_serves hserves,
      carryLock_of_snapshot _ (Checker.lock_snapshot r.checker), Checker.lock_eq]
  case lockAndClear =>
    rw [exec_lockAndClear_of_serves hserves,
      carryLock_of_snapshot _ (Checker.lockAndClear_snapshot r.checker), Checker.lockAndClear_eq]

end Sys2Proof.Machine

/-! SUPPORT. What every step keeps: each invariant of moves put together with what holds of a part
that was just cleared, and the two bounds that the moves of Laws/Kept.lean leave open. -/

namespace Sys2Proof.Machine

/-! ## A part that was just cleared -/

@[simp] theorem afresh_stations (r : Relay) (cause : ResetCause) (q : StartPins) :
    (r.afresh cause q).stations = Bank.fill 48 StationDyn.start :=
  rfl

@[simp] theorem afresh_barriers (r : Relay) (cause : ResetCause) (q : StartPins) :
    (r.afresh cause q).barriers = Bank.fill 8 BarrierDyn.start :=
  rfl

@[simp] theorem afresh_tables (r : Relay) (cause : ResetCause) (q : StartPins) :
    (r.afresh cause q).tables = Tables.emptied :=
  rfl

@[simp] theorem afresh_channels (r : Relay) (cause : ResetCause) (q : StartPins) :
    (r.afresh cause q).channels = Bank.fill 4 Channel.start :=
  rfl

@[simp] theorem afresh_memory (r : Relay) (cause : ResetCause) (q : StartPins) :
    (r.afresh cause q).memory = q.memory.getD r.cutMemory :=
  rfl

theorem StationDyn.start_agrees : StationDyn.start.Agrees :=
  rfl

theorem StationDyn.start_resting : StationDyn.start.Resting :=
  ⟨rfl, rfl⟩

theorem Channel.start_settled : Channel.start.Settled :=
  fun _ => ⟨rfl, rfl, rfl, rfl, rfl, rfl, rfl, rfl⟩

/-- A memory fitted with fit operands, or the one that was there, is canonical (log 6). -/
theorem afresh_memory_wf {r : Relay} {c : Instr} {q : StartPins} (cause : ResetCause)
    (hc : Starts c q) (hfit : c.wellFormed = true) (hr : r.MemoryOk) :
    Memory.wf (r.afresh cause q).memory.cells = true := by
  have hpins : q.wellFormed = true := by
    rcases hc with rfl | rfl <;> exact hfit
  rw [afresh_memory]
  unfold StartPins.wellFormed at hpins
  cases hm : q.memory with
  | none => exact cutMemory_wf r hr
  | some m =>
    rw [hm] at hpins
    exact hpins

/-! ## In STARTING -/

theorem pool_of_starting {r : Relay} (hclear : r.ClearInStarting)
    (hmode : r.store.mode = .starting) : r.pool = Pool.start :=
  congrArg Relay.pool (hclear hmode)

theorem tables_of_starting {r : Relay} (hclear : r.ClearInStarting)
    (hmode : r.store.mode = .starting) : r.tables = Tables.emptied :=
  congrArg Relay.tables (hclear hmode)

theorem withinCaps_of_start {r : Relay} (h : r.pool = Pool.start) : r.WithinCaps := by
  unfold Relay.WithinCaps
  rw [h]
  exact ⟨Nat.zero_le _, Nat.zero_le _⟩

theorem assessed_of_starting {r : Relay} (h : r.store.mode = .starting) (b : Fin 8) :
    r.assessed b = false := by
  unfold Relay.assessed
  rw [h]
  exact Bool.and_false _

/-! ## Alert serials (R121) -/

/-- Every alert serial lies in its range (R121). -/
def Relay.SerialsInRange (r : Relay) : Prop :=
  ∀ b, (r.barriers.get b).serial ≤ Config.maxSerial

/-- Every move keeps the alert serials in their range: a new serial is cut at the largest one, and
every other change of a barrier leaves its serial alone. -/
theorem Move.serialsInRange_kept {stand : Bool} {r t : Relay} (h : Move stand r t)
    (hr : r.SerialsInRange) : t.SerialsInRange := by
  have hset : ∀ {b : Fin 8} {d : BarrierDyn}, d.serial ≤ Config.maxSerial →
      ∀ o, ((r.barriers.set b d).get o).serial ≤ Config.maxSerial :=
    fun hd => Bank.forall_set (P := fun d : BarrierDyn => d.serial ≤ Config.maxSerial) hr hd
  cases h with
  | port p x h => cases p <;> exact hr
  | take p =>
    rcases take_cases r p with e | ⟨b, pool, hs, ha, e⟩
    · rw [e]; exact hr
    · rw [e]; cases p <;> exact hr
  | release p x h hx => cases p <;> exact hr
  | barrierRecord b new h hn =>
    refine hset ?_
    rw [(written_cases _ _ _ _).1]
    exact hr b
  | load _ _ =>
    unfold Relay.readImageAs
    dsimp only
    split <;> exact hr
  | latches x hl hh hs hm => exact fun b => (hs b).symm ▸ hr b
  | measures b m h => exact hset (hr b)
  | serial b => exact hset (Nat.min_le_right _ _)
  | weigh b start h =>
    refine hset ?_
    rw [(weigh_cases _ _ _ _ _).2.2]
    exact hr b
  | fall b h hh => exact hset (hr b)
  | standDown b hs h => exact hset (hr b)
  | restart =>
    intro b
    change ((r.barriers.map BarrierDyn.restarted).get b).serial ≤ Config.maxSerial
    rw [Bank.get_map]
    exact hr b
  | _ => exact hr

theorem exec_serialsInRange {c : Instr} {s t : State} (h : exec c s = .next t)
    (hs : s.relay.SerialsInRange) : t.relay.SerialsInRange := by
  refine exec_keeps h Move.serialsInRange_kept (fun _ hr => hr) (fun _ _ _ _ => hs) ?_ hs
  intro cause q hq x y hy b
  change ((Bank.fill 8 BarrierDyn.start).get b).serial ≤ Config.maxSerial
  rw [Bank.get_fill]
  exact Nat.zero_le _

/-- A command that is no reset does not lower an alert serial (R121). -/
theorem exec_serial_le {c : Instr} {s t : State} (h : exec c s = .next t)
    (hc : ∀ q, ¬ Starts c q) (b : Fin 8)
    (hs : (s.relay.barriers.get b).serial ≤ Config.maxSerial) :
    (s.relay.barriers.get b).serial ≤ (t.relay.barriers.get b).serial := by
  have hkept : min (s.relay.barriers.get b).serial Config.maxSerial
      ≤ (t.relay.barriers.get b).serial :=
    exec_keeps
      (P := fun r => min (s.relay.barriers.get b).serial Config.maxSerial
        ≤ (r.barriers.get b).serial) h
      (fun hm => hm.serial_kept b _) (fun _ hr => hr) (fun _ _ _ _ => Nat.min_le_left _ _)
      (fun cause q hq => absurd hq (hc q)) (Nat.min_le_left _ _)
  rwa [Nat.min_eq_left hs] at hkept

theorem not_starts {c : Instr} (hp : ∀ q, c ≠ .powerOn q) (hr : ∀ q, c ≠ .clockResume q)
    (q : StartPins) : ¬ Starts c q :=
  not_or.mpr ⟨hp q, hr q⟩

/-! ## EVACUATE (R101) -/

/-- A change by a command that is no reset and carries no STAND-DOWN keeps what the moves without a
STAND-DOWN keep. -/
theorem Change.keeps_without_standDown {P : Relay → Prop} {c : Instr} {r t : Relay}
    (h : Change c r t) (hstand : mayStandDown c = false) (hstart : ∀ q, ¬ Starts c q)
    (hm : ∀ {r t : Relay}, Move false r t → P r → P t)
    (hc : ∀ {r : Relay} (x : Clock), P r → P (r.setClock x))
    (hs : ∀ {r : Relay} (x : Pins) (y : Store), P r → P ((r.setPins x).setStore y))
    (hr : P r) : P t := by
  cases h with
  | moves ha h =>
    rw [hstand] at h
    exact Moves.keep (fun _ _ => hm) h hr
  | pins x => exact hm (Move.pins (stand := false) r x) hr
  | clock x => exact hc x hr
  | sample x order h =>
    have hsample : (r.setPins x).sampleBattery order = (r.setPins x).setStore
        { r.store with
          nextSample := r.store.nextSample + Config.samplePeriod
          band := nextBand r.store.band x.centivolts } := by
      unfold Relay.sampleBattery
      dsimp only
      rw [if_pos (by exact h)]
      rfl
    rw [hsample]
    exact hs x _ hr
  | straps straps ms h => exact readStraps_keeps hm hc straps ms h (fun x y _ => hs x y hr)
  | startUp cause q h => exact absurd h (hstart q)

theorem exec_keeps_evacuate {c : Instr} {s t : State} (h : exec c s = .next t)
    (hstand : mayStandDown c = false) (hstart : ∀ q, ¬ Starts c q) (b : Fin 8)
    (hs : (s.relay.barriers.get b).level = .evacuate ∧ (s.relay.barriers.get b).hold = none) :
    (t.relay.barriers.get b).level = .evacuate := by
  obtain ⟨u, hu, hchange⟩ := exec_change c s
  rw [h] at hu
  cases hu
  exact (hchange.keeps_without_standDown
    (P := fun r => (r.barriers.get b).level = .evacuate ∧ (r.barriers.get b).hold = none)
    hstand hstart (fun hm => hm.evacuate_kept b) (fun _ hr => hr) (fun _ _ hr => hr) hs).1

/-! ## The statements -/

/-- Settles O5: every move keeps the balance, and a cleared pool has its 40 buffers free. -/
theorem buffersAreAlwaysForty : Obligations.BuffersAreAlwaysForty :=
  fun _ _ hs h => step_keeps h Move.pool_kept (fun _ hr => hr) (fun _ _ _ _ => hs)
    (fun _ _ _ _ _ _ _ _ => rfl) hs

/-- Settles O6: in STARTING, where a new band can come without shedding, the queues are empty. -/
theorem queuesStayWithinTheirCaps : Obligations.QueuesStayWithinTheirCaps := by
  rintro s t ⟨hcaps, hclear⟩ h
  refine ⟨step_keeps h Move.caps_kept (fun _ hr => hr) ?starting ?cleared hcaps,
    step_clear h hclear⟩
  case starting =>
    intro hmode x y _
    have hpool : s.relay.pool = Pool.start := pool_of_starting hclear hmode
    exact withinCaps_of_start hpool
  case cleared => exact fun _ _ _ _ _ _ _ _ => withinCaps_of_start rfl

/-- Settles O8. A station at rest is watched as its mode asks wherever the mode is not ASSESSING, so
the strap and battery reads of STARTING keep it. -/
theorem stationsAndFiguresStayInRange : Obligations.StationsAndFiguresStayInRange := by
  refine ⟨fun s t hagree hfigures h => ⟨?agree, ?figures⟩, fun s t hs h => ?deadlines⟩
  case agree =>
    refine step_keeps h Move.stations_kept (fun _ hr => hr) (fun _ _ _ _ => hagree) ?_ hagree
    intro c q cause _ _ x y _ i
    rw [Relay.setStore_stations, Relay.setPins_stations, afresh_stations, Bank.get_fill]
    exact StationDyn.start_agrees
  case figures =>
    refine step_keeps h Move.figures_kept (fun _ hr => hr) (fun _ _ _ _ => hfigures) ?_ hfigures
    intro c q cause _ _ x y _
    refine ⟨fun i => ?_, fun b => ?_⟩
    · rw [Relay.setStore_stations, Relay.setPins_stations, afresh_stations, Bank.get_fill]
      exact start_fillsOk
    · rw [Relay.setStore_barriers, Relay.setPins_barriers, afresh_barriers, Bank.get_fill]
      exact Measures.start_inRange
  case deadlines =>
    refine step_keeps h Move.deadlines_kept (fun _ hr => hr) ?_ ?_ hs
    · intro hmode x y hy i
      have hrest : (s.relay.stations.get i).Resting :=
        resting_of_watched (by rw [hmode]; decide) (hs i)
      exact watched_of_resting (by rw [Relay.setStore_store, hy]; decide) hrest
    · intro c q cause _ _ x y hy i
      rw [Relay.setStore_stations, Relay.setPins_stations, afresh_stations, Bank.get_fill]
      exact watched_of_resting (by rw [Relay.setStore_store, hy]; decide) StationDyn.start_resting

/-- Settles O9: in STARTING no barrier is assessed, before a store is replaced and after. -/
theorem onlyAssessedBarriersLeaveCalm : Obligations.OnlyAssessedBarriersLeaveCalm := by
  intro s t hs h
  refine step_keeps h Move.calm_kept (fun _ hr => hr) ?starting ?cleared hs
  case starting =>
    exact fun hmode x y _ b _ => hs b (assessed_of_starting hmode b)
  case cleared =>
    intro c q cause _ _ x y _ b _
    rw [Relay.setStore_barriers, Relay.setPins_barriers, afresh_barriers, Bank.get_fill]
    rfl

/-- Settles O10: without a STAND-DOWN or a reset a barrier stays at EVACUATE as long as no hold runs
there, which every step keeps. -/
theorem evacuateIsHeldByItsLatch : Obligations.EvacuateIsHeldByItsLatch := by
  refine ⟨fun s t hs h => ?holds, fun c s t b hs hstand hpower hresume hlevel h => ?stays⟩
  case holds =>
    refine step_keeps h Move.hold_kept (fun _ hr => hr) (fun _ _ _ _ => hs) ?_ hs
    intro c q cause _ _ x y _ b _
    rw [Relay.setStore_barriers, Relay.setPins_barriers, afresh_barriers, Bank.get_fill]
    rfl
  case stays =>
    exact exec_keeps_evacuate h hstand (not_starts hpower hresume) b ⟨hlevel, hs b hlevel⟩

/-- Settles O11: a serial number falls only where a reset starts the part. -/
theorem alertSerialNeverDecreases : Obligations.AlertSerialNeverDecreases :=
  fun _ _ _ hs h b => ⟨exec_serialsInRange h hs b,
    fun hpower hresume => exec_serial_le h (not_starts hpower hresume) b (hs b)⟩

/-- Settles O12: in STARTING, where the own address is read, the tables are the emptied ones. -/
theorem tablesStayConsistent : Obligations.TablesStayConsistent := by
  rintro s t ⟨htables, hclear⟩ h
  refine ⟨step_keeps h Move.tables_kept (fun _ hr => hr) ?starting ?cleared htables,
    step_clear h hclear⟩
  case starting =>
    intro hmode x y _
    have hemptied : s.relay.tables = Tables.emptied := tables_of_starting hclear hmode
    exact tablesOk_of_emptied hemptied
  case cleared => exact fun _ _ _ _ _ _ _ _ => tablesOk_of_emptied rfl

/-- Settles O7: the one memory that a step can bring in is fitted by a reset, with fit operands. -/
theorem memoryStaysCanonical : Obligations.MemoryStaysCanonical :=
  fun _ _ hfit hs h => step_keeps h Move.memory_kept (fun _ hr => hr) (fun _ _ _ _ => hs)
    (fun c _ cause hc hq _ _ _ => afresh_memory_wf cause hq (hfit c hc) hs) hs

/-- Settles O13: a cleared channel holds nothing. -/
theorem idleChannelsHoldNothing : Obligations.IdleChannelsHoldNothing := by
  intro s t hs h
  refine step_keeps h Move.channels_kept (fun _ hr => hr) (fun _ _ _ _ => hs) ?_ hs
  intro c q cause _ _ x y _ n
  rw [Relay.setStore_channels, Relay.setPins_channels, afresh_channels, Bank.get_fill]
  exact Channel.start_settled

end Sys2Proof.Machine

/-! SUPPORT. The queue, the part's own clock and reset: what a step takes, which command acts on a
part that is asleep or before its moment, and what the clearing leaves (log 1, log 2, log 3, log
30). -/

namespace Sys2Proof.Machine

/-! ## Commands of a part that is asleep -/

/-- Every command but the pins, the clock and the resets acts only while the part is awake
(log 30). -/
theorem exec_eq_whenAwake {c : Instr} (h : actsAsleep c = false) :
    ∃ f : Relay → Relay, ∀ s, exec c s = s.onRelay (fun r => r.whenAwake f) := by
  cases c with
  | loadConditionChange l x => cases h
  | inputLevelChange i x => cases h
  | powerOn q => cases h
  | clockLoss => cases h
  | clockResume q => cases h
  | strapRetry a n => cases h
  | batterySample v order => cases h
  | _ => exact ⟨_, fun _ => rfl⟩

/-- A command that acts only while the part is awake changes nothing where its act would not, or
where the part is asleep. -/
theorem exec_still {c : Instr} {f : Relay → Relay} {r : Relay}
    (hc : ∀ s, exec c s = s.onRelay (fun r => r.whenAwake f)) (hf : r.awake = true → f r = r)
    (q : List Instr) : exec c ⟨r, q⟩ = .next ⟨r, q⟩ := by
  rw [hc]
  cases ha : r.awake with
  | false => simp only [State.onRelay, Relay.whenAwake_of_not ha]
  | true => simp only [State.onRelay, Relay.whenAwake_of_awake ha, hf ha]

/-! ## Timers that have not been reached (log 3) -/

theorem reached_some (e now : Nat) : reached (some e) now = decide (e ≤ now) :=
  rfl

theorem reached_of_le {timer : Option Nat} {e now : Nat} (ht : timer = some e) (h : e ≤ now) :
    reached timer now = true := by
  rw [ht, reached_some, decide_eq_true h]

theorem reached_eq_false_iff (timer : Option Nat) (now : Nat) :
    reached timer now = false ↔ ∀ e, timer = some e → now < e := by
  cases timer with
  | none => simp [reached]
  | some e => simp [reached]

theorem fieldQuiet_of_early {r : Relay} (h : reached r.field.quiet r.instant = false) :
    r.fieldQuiet = r := by
  simp [Relay.fieldQuiet, h]

theorem silenceExpires_of_early {r : Relay} {p : LinkPort}
    (h : reached (r.port p).silence r.instant = false) : r.silenceExpires p = r := by
  simp [Relay.silenceExpires, h]

theorem windowCloses_of_early {r : Relay} {p : LinkPort}
    (h : reached (r.port p).window r.instant = false) : r.windowCloses p = r := by
  unfold Relay.windowCloses
  dsimp only
  split
  · next e he =>
    rw [he, reached_some, decide_eq_false_iff_not] at h
    exact if_neg (fun hdue => h hdue.2)
  · rfl

theorem confirmExpires_of_early {r : Relay} (h : reached r.lineLoss.confirm r.instant = false) :
    r.confirmExpires = r := by
  simp [Relay.confirmExpires, h]

theorem gapExpired_of_early {r : Relay} (h : reached r.generator.gapTimer r.instant = false) :
    r.gapExpired = r := by
  simp [Relay.gapExpired, h]

theorem deadlineExpires_of_early {r : Relay} {i : Fin 48}
    (h : reached (r.stations.get i).deadline r.now = false) : r.deadlineExpires i = r := by
  unfold Relay.deadlineExpires
  split
  · rfl
  · simp [h]

theorem evidenceExpires_of_early {r : Relay} {b : Fin 8} {k : Evidence}
    (h : reached (expiryOf r.tables.identity.evidenceLife ((r.barriers.get b).measures.entries k))
      r.now = false) : r.evidenceExpires b k = r := by
  simp [Relay.evidenceExpires, h]

theorem holdExpires_of_early {r : Relay} {b : Fin 8}
    (h : reached (r.barriers.get b).hold r.now = false) : r.holdExpires b = r := by
  simp [Relay.holdExpires, h]

theorem repeatExpires_of_early {r : Relay} {b : Fin 8}
    (h : reached (r.barriers.get b).repeatAt r.now = false) : r.repeatExpires b = r := by
  simp [Relay.repeatExpires, h]

theorem segmentEnds_of_early {r : Relay} {c : Fin 4}
    (h : reached (r.channels.get c).segmentEnd r.instant = false) : r.segmentEnds c = r := by
  unfold Relay.segmentEnds
  split
  · next e he =>
    rw [he, reached_some, decide_eq_false_iff_not] at h
    exact if_neg h
  · rfl

theorem sensingExpires_of_early {r : Relay} {l : Fin 4}
    (h : reached (r.lines.get l).sensing r.instant = false) : r.sensingExpires l = r := by
  unfold Relay.sensingExpires
  split
  · simp [Relay.when, h]
  · rfl

theorem debounceExpires_of_early {r : Relay} {i : Fin 8}
    (h : reached (r.inputs.get i).timer r.instant = false) : r.debounceExpires i = r := by
  simp [Relay.debounceExpires, h]

theorem keyExpires_of_early {r : Relay} (h : reached r.key.timer r.instant = false) :
    r.keyExpires = r := by
  simp [Relay.keyExpires, Relay.when, Relay.resetFalls, h]

theorem healthExpires_of_early {r : Relay} (h : reached r.agent.healthTimer r.instant = false) :
    r.healthExpires = r := by
  simp [Relay.healthExpires, Relay.when, h]

/-- An expiry command before its moment has no effect (log 3). -/
theorem exec_of_not_due {c : Instr} {r : Relay} (h : r.due c = false) (q : List Instr) :
    exec c ⟨r, q⟩ = .next ⟨r, q⟩ := by
  cases c with
  | fieldLineQuiet =>
    exact exec_still (f := Relay.fieldQuiet) (fun _ => rfl) (fun _ => fieldQuiet_of_early h) q
  | silenceTimerExpiry p =>
    exact exec_still (f := fun r => r.silenceExpires p) (fun _ => rfl)
      (fun _ => silenceExpires_of_early h) q
  | activityWindowClose p =>
    exact exec_still (f := fun r => r.windowCloses p) (fun _ => rfl)
      (fun _ => windowCloses_of_early h) q
  | upperConfirmExpiry =>
    exact exec_still (f := Relay.confirmExpires) (fun _ => rfl)
      (fun _ => confirmExpires_of_early h) q
  | testGapExpiry =>
    exact exec_still (f := Relay.gapExpired) (fun _ => rfl) (fun _ => gapExpired_of_early h) q
  | stationDeadlineExpiry i =>
    exact exec_still (f := fun r => r.deadlineExpires i) (fun _ => rfl)
      (fun _ => deadlineExpires_of_early h) q
  | shakeExpiry b k =>
    exact exec_still (f := fun r => r.evidenceExpires b k) (fun _ => rfl)
      (fun _ => evidenceExpires_of_early h) q
  | holdExpiry b =>
    exact exec_still (f := fun r => r.holdExpires b) (fun _ => rfl)
      (fun _ => holdExpires_of_early h) q
  | repeatExpiry b =>
    exact exec_still (f := fun r => r.repeatExpires b) (fun _ => rfl)
      (fun _ => repeatExpires_of_early h) q
  | stepBoundary c =>
    exact exec_still (f := fun r => r.segmentEnds c) (fun _ => rfl)
      (fun _ => segmentEnds_of_early h) q
  | sensingTimerExpiry l =>
    exact exec_still (f := fun r => r.sensingExpires l) (fun _ => rfl)
      (fun _ => sensingExpires_of_early h) q
  | debounceExpiry i =>
    exact exec_still (f := fun r => r.debounceExpires i) (fun _ => rfl)
      (fun _ => debounceExpires_of_early h) q
  | keyTimerExpiry =>
    exact exec_still (f := Relay.keyExpires) (fun _ => rfl) (fun _ => keyExpires_of_early h) q
  | healthTimerExpiry =>
    exact exec_still (f := Relay.healthExpires) (fun _ => rfl) (fun _ => healthExpires_of_early h) q
  | _ => cases h

/-! ## The timer event of the part's own clock (log 2) -/

theorem nextEvent_of_lost {r : Relay} (h : r.clock.lost = true) : r.nextEvent = none := by
  simp [Relay.nextEvent, h]

theorem nextEvent_eq_some {r : Relay} {c : Instr} (h : r.nextEvent = some c) :
    r.clock.lost = false ∧ (true, c) ∈ r.timerEvents := by
  unfold Relay.nextEvent at h
  split at h
  · cases h
  · next hrun =>
    obtain ⟨⟨due, command⟩, hfound, rfl⟩ := Option.map_eq_some_iff.mp h
    have hdue : due = true := List.find?_some hfound
    subst hdue
    exact ⟨Bool.eq_false_of_not_eq_true hrun, List.mem_of_find?_eq_some hfound⟩

theorem nextEvent_eq_none_iff {r : Relay} (hrun : r.clock.lost = false) :
    r.nextEvent = none ↔ ∀ x ∈ r.timerEvents, x.1 = false := by
  simp [Relay.nextEvent, hrun]

theorem timerEvents_of_starting {r : Relay} (h : r.store.mode = .starting) :
    r.timerEvents = r.watchEvents :=
  if_pos h

theorem timerEvents_of_started {r : Relay} (h : r.store.mode ≠ .starting) :
    r.timerEvents
      = r.keyEvents ++ r.portEvents ++ r.deadlineEvents ++ r.localEvents ++ r.watchEvents :=
  if_neg h

/-- The rows of the table that are the expiry of a timer (log 3). -/
def isExpiry : Instr → Bool
  | .fieldLineQuiet => true
  | .silenceTimerExpiry _ => true
  | .activityWindowClose _ => true
  | .upperConfirmExpiry => true
  | .testGapExpiry => true
  | .stationDeadlineExpiry _ => true
  | .shakeExpiry _ _ => true
  | .holdExpiry _ => true
  | .repeatExpiry _ => true
  | .stepBoundary _ => true
  | .sensingTimerExpiry _ => true
  | .debounceExpiry _ => true
  | .keyTimerExpiry => true
  | .healthTimerExpiry => true
  | _ => false

/-- The expiry rows, one by one, beside any further alternative. -/
theorem rows_of_isExpiry {c : Instr} (P : Prop) (h : isExpiry c = true) :
    (∃ p, c = .silenceTimerExpiry p) ∨ (∃ p, c = .activityWindowClose p)
      ∨ (∃ i, c = .stationDeadlineExpiry i) ∨ (∃ b k, c = .shakeExpiry b k)
      ∨ (∃ b, c = .holdExpiry b) ∨ (∃ b, c = .repeatExpiry b) ∨ (∃ n, c = .stepBoundary n)
      ∨ (∃ l, c = .sensingTimerExpiry l) ∨ (∃ i, c = .debounceExpiry i)
      ∨ c ∈ [.fieldLineQuiet, .upperConfirmExpiry, .testGapExpiry, .keyTimerExpiry,
          .healthTimerExpiry]
      ∨ P := by
  cases c <;> simp_all [isExpiry]

theorem keyEvents_due {r : Relay} {c : Instr} (h : (true, c) ∈ r.keyEvents) :
    r.due c = true ∧ isExpiry c = true := by
  simp only [Relay.keyEvents, List.mem_singleton, Prod.mk.injEq] at h
  obtain ⟨hdue, rfl⟩ := h
  exact ⟨hdue.symm, rfl⟩

theorem portEvents_due {r : Relay} {c : Instr} (h : (true, c) ∈ r.portEvents) :
    r.due c = true ∧ isExpiry c = true := by
  simp only [Relay.portEvents, List.mem_cons, List.not_mem_nil, or_false, Prod.mk.injEq] at h
  rcases h with ⟨hdue, rfl⟩ | ⟨hdue, rfl⟩ | ⟨hdue, rfl⟩ | ⟨hdue, rfl⟩ | ⟨hdue, rfl⟩ | ⟨hdue, rfl⟩
    | ⟨hdue, rfl⟩ <;> exact ⟨hdue.symm, rfl⟩

theorem deadlineEvents_due {r : Relay} {c : Instr} (h : (true, c) ∈ r.deadlineEvents) :
    r.due c = true ∧ isExpiry c = true := by
  simp only [Relay.deadlineEvents, List.mem_append, List.mem_map, List.mem_flatMap, List.mem_cons,
    List.not_mem_nil, or_false, List.mem_finRange, true_and, Prod.mk.injEq] at h
  rcases h with ⟨i, hdue, rfl⟩ | ⟨b, ⟨hdue, rfl⟩ | ⟨hdue, rfl⟩ | ⟨hdue, rfl⟩ | ⟨hdue, rfl⟩⟩
  · exact ⟨hdue, rfl⟩
  all_goals exact ⟨hdue.symm, rfl⟩

theorem localEvents_due {r : Relay} {c : Instr} (h : (true, c) ∈ r.localEvents) :
    r.due c = true ∧ isExpiry c = true := by
  simp only [Relay.localEvents, List.mem_append, List.mem_map, List.mem_singleton,
    List.mem_finRange, true_and, Prod.mk.injEq] at h
  rcases h with ((⟨n, hdue, rfl⟩ | ⟨l, hdue, rfl⟩) | ⟨i, hdue, rfl⟩) | ⟨hdue, rfl⟩
  · exact ⟨hdue, rfl⟩
  · exact ⟨hdue, rfl⟩
  · exact ⟨hdue, rfl⟩
  · exact ⟨hdue.symm, rfl⟩

theorem watchEvents_due {r : Relay} {c : Instr} (h : (true, c) ∈ r.watchEvents) :
    (c = .batterySample r.pins.centivolts usualOrder ∧ r.store.nextSample ≤ r.now)
      ∨ (c = .strapRetry r.pins.straps 0 ∧ r.store.mode = .starting
          ∧ r.store.nextStrap ≤ r.now) := by
  simp only [Relay.watchEvents, List.mem_cons, List.not_mem_nil, or_false, Prod.mk.injEq] at h
  rcases h with ⟨hdue, rfl⟩ | ⟨hdue, rfl⟩
  · exact Or.inl ⟨rfl, of_decide_eq_true hdue.symm⟩
  · have hmoment : r.store.mode = .starting ∧ r.store.nextStrap ≤ r.now := by simpa using hdue
    exact Or.inr ⟨rfl, hmoment⟩

/-- A due event is the expiry of a timer that was reached, or one of the two moments that the
stored-tables block keeps. -/
theorem timerEvents_due {r : Relay} {c : Instr} (h : (true, c) ∈ r.timerEvents) :
    (r.store.mode ≠ .starting ∧ r.due c = true ∧ isExpiry c = true)
      ∨ (c = .batterySample r.pins.centivolts usualOrder ∧ r.store.nextSample ≤ r.now)
      ∨ (c = .strapRetry r.pins.straps 0 ∧ r.store.mode = .starting
          ∧ r.store.nextStrap ≤ r.now) := by
  by_cases hmode : r.store.mode = .starting
  · rw [timerEvents_of_starting hmode] at h
    exact Or.inr (watchEvents_due h)
  · rw [timerEvents_of_started hmode] at h
    simp only [List.mem_append] at h
    rcases h with (((h | h) | h) | h) | h
    · exact Or.inl ⟨hmode, keyEvents_due h⟩
    · exact Or.inl ⟨hmode, portEvents_due h⟩
    · exact Or.inl ⟨hmode, deadlineEvents_due h⟩
    · exact Or.inl ⟨hmode, localEvents_due h⟩
    · exact Or.inr (watchEvents_due h)

/-! ## No event is due -/

theorem keyEvents_quiet (r : Relay) :
    (∀ x ∈ r.keyEvents, x.1 = false) ↔ reached r.key.timer r.clock.ms = false := by
  simp [Relay.keyEvents, Relay.instant]

theorem portEvents_quiet (r : Relay) :
    (∀ x ∈ r.portEvents, x.1 = false)
      ↔ ∀ timer ∈ [r.field.quiet, r.upper.silence, r.lower.silence, r.upper.window, r.lower.window,
          r.lineLoss.confirm, r.generator.gapTimer], reached timer r.clock.ms = false := by
  simp [Relay.portEvents, Relay.instant]

theorem deadlineEvents_quiet (r : Relay) :
    (∀ x ∈ r.deadlineEvents, x.1 = false)
      ↔ (∀ i, reached (r.stations.get i).deadline r.now = false)
        ∧ ∀ b, reached (r.barriers.get b).hold r.now = false
          ∧ reached (r.barriers.get b).repeatAt r.now = false
          ∧ reached (expiryOf r.tables.identity.evidenceLife (r.barriers.get b).measures.shake)
              r.now = false
          ∧ reached (expiryOf r.tables.identity.evidenceLife (r.barriers.get b).measures.rain)
              r.now = false := by
  simp only [Relay.deadlineEvents, List.forall_mem_append, List.forall_mem_map,
    List.mem_flatMap, List.mem_finRange, true_and, forall_exists_index, true_imp_iff]
  refine and_congr_right fun _ => ⟨fun h b => ?_, fun h x b hx => ?_⟩
  · refine ⟨h (reached (r.barriers.get b).hold r.now, .holdExpiry b) b ?_,
      h (reached (r.barriers.get b).repeatAt r.now, .repeatExpiry b) b ?_,
      h (reached (expiryOf _ (r.barriers.get b).measures.shake) r.now, .shakeExpiry b .shake) b ?_,
      h (reached (expiryOf _ (r.barriers.get b).measures.rain) r.now, .shakeExpiry b .rain) b ?_⟩
        <;> simp
  · obtain ⟨hhold, hrepeat, hshake, hrain⟩ := h b
    simp only [List.mem_cons, List.not_mem_nil, or_false] at hx
    rcases hx with rfl | rfl | rfl | rfl <;> assumption

theorem localEvents_quiet (r : Relay) :
    (∀ x ∈ r.localEvents, x.1 = false)
      ↔ (∀ c, reached (r.channels.get c).segmentEnd r.clock.ms = false)
        ∧ (∀ l, reached (r.lines.get l).sensing r.clock.ms = false)
        ∧ (∀ i, reached (r.inputs.get i).timer r.clock.ms = false)
        ∧ reached r.agent.healthTimer r.clock.ms = false := by
  simp only [Relay.localEvents, List.forall_mem_append, List.forall_mem_map, List.mem_finRange,
    true_imp_iff, List.forall_mem_singleton, and_assoc, Relay.instant]

theorem watchEvents_quiet (r : Relay) :
    (∀ x ∈ r.watchEvents, x.1 = false)
      ↔ r.now < r.store.nextSample ∧ (r.store.mode = .starting → r.now < r.store.nextStrap) := by
  simp [Relay.watchEvents]

theorem mode_of_awake {r : Relay} (h : r.awake = true) : r.store.mode ≠ .starting := by
  unfold Relay.awake at h
  simp only [Bool.and_eq_true, bne_iff_ne, ne_eq] at h
  exact h.2

theorem running_of_awake {r : Relay} (h : r.awake = true) : r.clock.lost = false := by
  unfold Relay.awake at h
  simp only [Bool.and_eq_true, Bool.not_eq_true'] at h
  exact h.1

/-- While the part is awake no event is taken exactly when nothing has been reached. -/
theorem nextEvent_eq_none_of_awake {r : Relay} (h : r.awake = true) :
    r.nextEvent = none
      ↔ (reached r.key.timer r.clock.ms = false
        ∧ (∀ timer ∈ [r.field.quiet, r.upper.silence, r.lower.silence, r.upper.window,
            r.lower.window, r.lineLoss.confirm, r.generator.gapTimer],
            reached timer r.clock.ms = false)
        ∧ ((∀ i, reached (r.stations.get i).deadline r.now = false)
          ∧ ∀ b, reached (r.barriers.get b).hold r.now = false
            ∧ reached (r.barriers.get b).repeatAt r.now = false
            ∧ reached (expiryOf r.tables.identity.evidenceLife
                  (r.barriers.get b).measures.shake) r.now = false
            ∧ reached (expiryOf r.tables.identity.evidenceLife
                  (r.barriers.get b).measures.rain) r.now = false)
        ∧ ((∀ c, reached (r.channels.get c).segmentEnd r.clock.ms = false)
          ∧ (∀ l, reached (r.lines.get l).sensing r.clock.ms = false)
          ∧ (∀ i, reached (r.inputs.get i).timer r.clock.ms = false)
          ∧ reached r.agent.healthTimer r.clock.ms = false)
        ∧ r.now < r.store.nextSample) := by
  have hmode : r.store.mode ≠ .starting := mode_of_awake h
  rw [nextEvent_eq_none_iff (running_of_awake h), timerEvents_of_started hmode]
  simp only [List.forall_mem_append, keyEvents_quiet, portEvents_quiet, deadlineEvents_quiet,
    localEvents_quiet, watchEvents_quiet, hmode, false_imp_iff, and_true, and_assoc]

theorem nextEvent_eq_none_of_starting {r : Relay} (hrun : r.clock.lost = false)
    (hmode : r.store.mode = .starting) :
    r.nextEvent = none ↔ r.now < r.store.nextSample ∧ r.now < r.store.nextStrap := by
  rw [nextEvent_eq_none_iff hrun, timerEvents_of_starting hmode, watchEvents_quiet]
  simp [hmode]

/-! ## A step with nothing waiting -/

theorem step_of_event {r : Relay} {c : Instr} (h : r.nextEvent = some c) :
    step ⟨r, []⟩ = exec c ⟨r, []⟩ := by
  simp only [step, h]

theorem step_of_quiet {r : Relay} (h : r.nextEvent = none) :
    step ⟨r, []⟩ = .next ⟨r.passTime, []⟩ := by
  simp only [step, h, State.onRelay]

theorem passTime_of_running {r : Relay} (h : r.clock.lost = false) :
    r.passTime = r.setClock { r.clock with ms := r.clock.ms + 1 } := by
  simp [Relay.passTime, h]

theorem passTime_of_lost {r : Relay} (h : r.clock.lost = true) : r.passTime = r := by
  simp [Relay.passTime, h]

/-! ## The part at reset -/

theorem reset_stations : State.reset.relay.stations = Bank.fill 48 StationDyn.start :=
  rfl

theorem reset_barriers : State.reset.relay.barriers = Bank.fill 8 BarrierDyn.start :=
  rfl

theorem reset_channels : State.reset.relay.channels = Bank.fill 4 Channel.start :=
  rfl

theorem reset_inputs : State.reset.relay.inputs = Bank.fill 8 InputDyn.start :=
  rfl

/-! ## The statements -/

/-- Settles O1: the front command is what `step` looks for first. -/
theorem stepRunsTheFrontCommand : Obligations.StepRunsTheFrontCommand :=
  fun _ _ _ => rfl

/-- Settles O2: which events are due is read off the lists the clock searches. -/
theorem emptyQueueLetsTheClockRun : Obligations.EmptyQueueLetsTheClockRun := by
  refine ⟨fun r => ⟨?takes, ?passes, ?lost⟩, fun r c h => ?event, ?quiet⟩
  case takes => exact fun c h => step_of_event h
  case passes =>
    intro h hrun
    rw [step_of_quiet h, passTime_of_running hrun]
  case lost =>
    intro h
    rw [step_of_quiet (nextEvent_of_lost h), passTime_of_lost h]
  case event =>
    obtain ⟨hrun, hmem⟩ := nextEvent_eq_some h
    rcases timerEvents_due hmem with ⟨hmode, hdue, hexpiry⟩ | ⟨rfl, hsample⟩ | ⟨rfl, hmode, hstrap⟩
    · exact ⟨hrun, hdue, rows_of_isExpiry _ hexpiry, fun hstarting => absurd hstarting hmode⟩
    · exact ⟨hrun, rfl, by simp [hsample], fun _ => Or.inl ⟨_, _, rfl⟩⟩
    · exact ⟨hrun, rfl, by simp [hmode, hstrap], fun _ => Or.inr ⟨_, _, rfl⟩⟩
  case quiet =>
    intro r early life hearly hlife
    have hreached : ∀ timer now, reached timer now = false ↔ early timer now := fun timer now =>
      (reached_eq_false_iff timer now).trans (hearly timer now).symm
    subst hlife
    refine ⟨fun hawake => ?_, nextEvent_eq_none_of_starting⟩
    rw [nextEvent_eq_none_of_awake hawake]
    simp only [hreached, expiryOf, List.forall_mem_cons]
    tauto

/-- Settles O3, block by block; the invariants hold there because every block is at its start. -/
theorem resetClearsThePart : Obligations.ResetClearsThePart := by
  refine ⟨rfl, rfl, rfl, rfl, rfl, ?ports, rfl, rfl, rfl, rfl, rfl, rfl, rfl, rfl, rfl, rfl, rfl,
    rfl, rfl, rfl, rfl, rfl, rfl, rfl, rfl, rfl, rfl, ?records, ?stations, ?barriers, rfl,
    ?channels, ?lines, ?inputs, rfl, rfl, rfl, withinCaps_of_start rfl, Memory.wf_reset, ?agree,
    ?deadlines, ?figures,
    ?calm, ?hold, tablesOk_of_emptied rfl, ?settled, fun _ => rfl⟩
  case ports => rintro (_ | _) <;> exact ⟨rfl, rfl, rfl, rfl, rfl, rfl, rfl⟩
  case records => exact Bank.get_fill 48 none
  case stations =>
    intro i
    rw [reset_stations, Bank.get_fill]
    exact ⟨rfl, rfl, rfl, rfl, rfl, rfl, rfl, rfl, rfl⟩
  case barriers => exact Bank.get_fill 8 BarrierDyn.start
  case channels => exact Bank.get_fill 4 Channel.start
  case lines => exact fun l => ⟨Bank.get_fill 4 OutputLine.start l, rfl⟩
  case inputs =>
    intro i
    rw [reset_inputs, Bank.get_fill]
    exact ⟨rfl, rfl, rfl⟩
  case agree =>
    intro i
    rw [reset_stations, Bank.get_fill]
    exact StationDyn.start_agrees
  case deadlines =>
    intro i
    rw [reset_stations, Bank.get_fill]
    exact watched_of_resting (by decide) StationDyn.start_resting
  case figures =>
    refine ⟨fun i => ?_, fun b => ?_⟩
    · rw [reset_stations, Bank.get_fill]
      exact start_fillsOk
    · rw [reset_barriers, Bank.get_fill]
      exact Measures.start_inRange
  case calm =>
    intro b _
    rw [reset_barriers, Bank.get_fill]
    rfl
  case hold =>
    intro b _
    rw [reset_barriers, Bank.get_fill]
    rfl
  case settled =>
    intro c
    rw [reset_channels, Bank.get_fill]
    exact Channel.start_settled

/-- Settles O4: a next state is what `exec_change` gives; the rest is said of each command's act. -/
theorem everyCommandAnswersANextState : Obligations.EveryCommandAnswersANextState := by
  refine fun c r q => ⟨?answers, fun hasleep hc => ?asleep, fun hdue => exec_of_not_due hdue q⟩
  case answers =>
    obtain ⟨t, ht, _⟩ := exec_change c ⟨r, q⟩
    exact ⟨t, ht⟩
  case asleep =>
    obtain ⟨f, hf⟩ := exec_eq_whenAwake hc
    exact exec_still hf (fun hawake => absurd (hasleep.symm.trans hawake) Bool.false_ne_true) q

end Sys2Proof.Machine

/-! SUPPORT. The line ports: what energy, silence and each word do to UPPER and LOWER, by the link
state they find (R3, R4, R5, R7, R11, R12). -/

namespace Sys2Proof.Machine

/-! ## Awake -/

@[simp] theorem awake_setPort (r : Relay) (p : LinkPort) (x : Port) :
    (r.setPort p x).awake = r.awake := by
  cases p <;> rfl

@[simp] theorem instant_setPort (r : Relay) (p : LinkPort) (x : Port) :
    (r.setPort p x).instant = r.instant := by
  cases p <;> rfl

@[simp] theorem rxOrder_setPort (r : Relay) (p : LinkPort) (x : Port) (n : PortName) :
    (r.setPort p x).rxOrder n = r.rxOrder n := by
  cases p <;> cases n <;> rfl

theorem exec_lineEnergy {r : Relay} (ha : r.awake = true) (p : LinkPort) (q : List Instr) :
    exec (.lineEnergy p) ⟨r, q⟩ = .next ⟨r.energy p, q⟩ :=
  exec_awake (f := fun r => r.energy p) (fun _ => rfl) ha

theorem exec_silenceTimerExpiry {r : Relay} (ha : r.awake = true) (p : LinkPort) (q : List Instr) :
    exec (.silenceTimerExpiry p) ⟨r, q⟩ = .next ⟨r.silenceExpires p, q⟩ :=
  exec_awake (f := fun r => r.silenceExpires p) (fun _ => rfl) ha

theorem exec_lineWord {r : Relay} (ha : r.awake = true) (p : PortName) (w : LineWord)
    (q : List Instr) : exec (.lineWord p w) ⟨r, q⟩ = .next ⟨r.word p w, q⟩ :=
  exec_awake (f := fun r => r.word p w) (fun _ => rfl) ha

theorem exec_linkWord {r : Relay} (ha : r.awake = true) (p : LinkPort) (w : LineWord)
    (q : List Instr) : exec (.lineWord p.name w) ⟨r, q⟩ = .next ⟨r.linkWord p w, q⟩ := by
  rw [exec_lineWord ha, word_name]

/-! ## Energy and silence (R3) -/

theorem energy_of_down {r : Relay} {p : LinkPort} (h : (r.port p).link = .down) :
    r.energy p = r.setPort p
      { r.port p with
        link := .seek
        seekRun := 0
        silence := some (r.clock.ms + 2000)
        window := none
        tally := 0 } := by
  unfold Relay.energy
  simp only [h]
  rfl

theorem energy_of_seek {r : Relay} {p : LinkPort} (h : (r.port p).link = .seek) :
    r.energy p = r.setPort p { r.port p with silence := some (r.clock.ms + 2000) } := by
  unfold Relay.energy
  simp only [h]
  rfl

theorem energy_of_up {r : Relay} {p : LinkPort} (h : (r.port p).link = .up) : r.energy p = r := by
  unfold Relay.energy
  simp only [h]

theorem silenceExpires_of_due {r : Relay} {p : LinkPort} {e : Nat} (hlink : (r.port p).link = .seek)
    (hsilence : (r.port p).silence = some e) (hdue : e ≤ r.clock.ms) :
    r.silenceExpires p = r.setPort p { r.port p with link := .down, silence := none } :=
  if_pos ⟨hlink, reached_of_le hsilence hdue⟩

/-! ## Idle and frame-start words (R4, R5, R7) -/

theorem turn_eq (k : Port) (x : Polarity) :
    k.turn x = { k with
      polarity := x
      counters :=
        if k.polarity = x then k.counters
        else
          { k.counters with
            polarityChanges := min (k.counters.polarityChanges + 1) 65535 } } := by
  unfold Port.turn
  by_cases h : k.polarity = x
  · rw [if_pos h, if_pos h, ← h]
  · rw [if_neg h, if_neg h]
    rfl

/-- The turn as the statements write it: of a port that keeps its polarity, nothing. -/
theorem turn_eq_ite (k : Port) (x : Polarity) :
    k.turn x = if k.polarity = x then k
      else
        { k with
          polarity := x
          counters :=
            { k.counters with
              polarityChanges := min (k.counters.polarityChanges + 1) 65535 } } :=
  rfl

@[simp] theorem turn_link (k : Port) (x : Polarity) : (k.turn x).link = k.link := by
  rw [turn_eq]

@[simp] theorem turn_assembly (k : Port) (x : Polarity) : (k.turn x).assembly = k.assembly := by
  rw [turn_eq]

@[simp] theorem turn_tally (k : Port) (x : Polarity) : (k.turn x).tally = k.tally := by
  rw [turn_eq]

/-- An idle or a frame-start word in SEEK counts toward the seek run after its turn (R4, R7). -/
theorem countedWord_of_seek {r : Relay} {p : LinkPort} {x : Polarity}
    (h : (r.port p).link = .seek) :
    r.idleWord p x = (r.setPort p ((r.port p).turn x)).seekWord p
      ∧ r.startWord p x = (r.setPort p ((r.port p).turn x)).seekWord p := by
  unfold Relay.idleWord Relay.startWord
  simp only [port_setPort, turn_link, h, and_self]

theorem seekWord_of_short {r : Relay} {p : LinkPort} (h : (r.port p).seekRun < 2) :
    r.seekWord p = r.setPort p { r.port p with seekRun := (r.port p).seekRun + 1 } :=
  if_pos (Nat.succ_lt_succ h)

theorem seekWord_of_third {r : Relay} {p : LinkPort} (h : (r.port p).seekRun = 2) :
    r.seekWord p = r.enterUp p :=
  if_neg (by rw [h]; decide)

/-- The port as a counted word in SEEK finds and turns it: a new silence timer, and the word's
polarity (R3, R7). -/
def Port.sought (k : Port) (now : Nat) (x : Polarity) : Port :=
  { k with
    silence := some (now + 2000)
    polarity := x
    counters :=
      if k.polarity = x then k.counters
      else
        { k.counters with
          polarityChanges := min (k.counters.polarityChanges + 1) 65535 } }

theorem linkWord_of_seek {r : Relay} {p : LinkPort} {w : LineWord} {x : Polarity}
    (hlink : (r.port p).link = .seek) (hw : w = .idle x ∨ w = .frameStart x) :
    r.linkWord p w = (r.setPort p ((r.port p).sought r.clock.ms x)).seekWord p := by
  have hseek : ((r.energy p).port p).link = .seek := by
    rw [energy_of_seek hlink, port_setPort, hlink]
  obtain ⟨hidle, hstart⟩ := countedWord_of_seek (x := x) hseek
  have hcounted : r.linkWord p w
      = ((r.energy p).setPort p (((r.energy p).port p).turn x)).seekWord p := by
    rcases hw with rfl | rfl
    · exact hidle
    · exact hstart
  rw [hcounted, energy_of_seek hlink, port_setPort, setPort_setPort, turn_eq]
  rfl

/-- A word at a port in DOWN is energy first: it finds the port in SEEK with a run of 0 (log 10). -/
theorem linkWord_of_down {r : Relay} {p : LinkPort} {w : LineWord} {x : Polarity}
    (hlink : (r.port p).link = .down) (hw : w = .idle x ∨ w = .frameStart x) :
    r.linkWord p w = (r.energy p).setPort p
      { ((r.energy p).port p).turn x with seekRun := 1 } := by
  have hsought : ((r.energy p).port p).link = .seek := by
    rw [energy_of_down hlink, port_setPort]
  obtain ⟨hidle, hstart⟩ := countedWord_of_seek (x := x) hsought
  have hcounted : r.linkWord p w
      = ((r.energy p).setPort p (((r.energy p).port p).turn x)).seekWord p := by
    rcases hw with rfl | rfl
    · exact hidle
    · exact hstart
  have hrun : (((r.energy p).port p).turn x).seekRun = 0 := by
    rw [turn_eq, energy_of_down hlink, port_setPort]
  rw [hcounted, seekWord_of_short (by rw [port_setPort, hrun]; decide), port_setPort,
    setPort_setPort, hrun]

/-! ## Entering UP (R4, R15, R17) -/

/-- A port as it enters UP (R4). -/
def Port.entered (k : Port) (now : Nat) : Port :=
  { k with
    link := .up
    seekRun := 3
    silence := none
    window := some (now + 500)
    tally := 0 }

theorem enterUp_lower (r : Relay) :
    r.enterUp .lower = (r.setPort .lower (r.lower.entered r.clock.ms)).take .lower :=
  rfl

/-- Upper line lost as it is set: every line-watched barrier is evaluated, in ascending order (R17;
log 17). -/
theorem setLineLost_eq_foldl (r : Relay) (lost : Bool) :
    r.setLineLost lost = (List.finRange 8).foldl
      (fun t b => if (t.tables.barriers.get b).lineWatched = true then t.evaluate b else t)
      (r.setLineLoss { r.lineLoss with lost := lost }) :=
  rfl

theorem enterUp_upper_of_kept {r : Relay} (h : r.lineLoss.lost = false) :
    r.enterUp .upper
      = ((r.setPort .upper (r.upper.entered r.clock.ms)).setLineLoss
          { lost := false, confirm := none }).take .upper := by
  have hup : (r.setPort .upper (r.upper.entered r.clock.ms)).upperUp
      = (r.setPort .upper (r.upper.entered r.clock.ms)).setLineLoss
          { lost := false, confirm := none } := by
    simp [Relay.upperUp, Relay.when, h]
  exact congrArg (fun t : Relay => t.take .upper) hup

theorem enterUp_upper_of_lost {r : Relay} (h : r.lineLoss.lost = true) :
    r.enterUp .upper
      = (((r.setPort .upper (r.upper.entered r.clock.ms)).setLineLoss
          { lost := true, confirm := none }).setLineLost false).take .upper := by
  have hup : (r.setPort .upper (r.upper.entered r.clock.ms)).upperUp
      = ((r.setPort .upper (r.upper.entered r.clock.ms)).setLineLoss
          { lost := true, confirm := none }).setLineLost false := by
    simp [Relay.upperUp, Relay.when, h]
  exact congrArg (fun t : Relay => t.take .upper) hup

/-- A port under a hand-over keeps all but its transmission. -/
theorem SameButHandOver.port_eq {r t : Relay} (h : SameButHandOver r t) (p : LinkPort) :
    t.port p = { r.port p with sending := (t.port p).sending } := by
  cases p
  · exact h.upper
  · exact h.lower

/-- The entry into UP sets the port and, at UPPER, ends upper line lost; the rest is hand-over
(R4, R17). -/
theorem enterUp_handOver (r : Relay) (p : LinkPort) :
    SameButHandOver
      ((r.setPort p ((r.port p).entered r.clock.ms)).setLineLoss
        (match p with
          | .upper => { lost := false, confirm := none }
          | .lower => r.lineLoss))
      (r.enterUp p) := by
  cases p with
  | upper =>
    cases hlost : r.lineLoss.lost with
    | false =>
      rw [enterUp_upper_of_kept hlost]
      exact take_handOver _ _
    | true =>
      rw [enterUp_upper_of_lost hlost]
      exact (setLineLost_handOver
        ((r.setPort .upper (r.upper.entered r.clock.ms)).setLineLoss
          { lost := true, confirm := none }) false).trans (take_handOver _ _)
  | lower => exact take_handOver _ _

theorem enterUp_port (r : Relay) (p : LinkPort) :
    ∃ sending, (r.enterUp p).port p
      = { (r.port p).entered r.clock.ms with sending := sending } := by
  refine ⟨((r.enterUp p).port p).sending, ((enterUp_handOver r p).port_eq p).trans ?_⟩
  cases p <;> rfl

theorem enterUp_lower_barriers (r : Relay) : (r.enterUp .lower).barriers = r.barriers := by
  rw [enterUp_lower, take_barriers, Relay.setPort_barriers]

/-! ## Data bytes and malformed words (R4, R11) -/

theorem dataWord_of_none {r : Relay} {p : LinkPort} (b : Byte)
    (h : (r.port p).assembly = none) : r.dataWord p b = r := by
  simp only [Relay.dataWord, h]

theorem dataWord_of_room {r : Relay} {p : LinkPort} {a : Assembly} (b : Byte)
    (h : (r.port p).assembly = some a) (hroom : a.bytes.length < 64) :
    r.dataWord p b = r.setPort p
      { r.port p with
        assembly := some
          { a with bytes := a.bytes ++ [if a.polarity = .normal then b else ~~~b] } } := by
  simp only [Relay.dataWord, h, append_room hroom]

theorem dataWord_of_full {r : Relay} {p : LinkPort} {a : Assembly} (b : Byte)
    (h : (r.port p).assembly = some a) (hfull : 64 ≤ a.bytes.length) :
    r.dataWord p b = r.setPort p { (r.port p).countRunt with assembly := none } := by
  simp only [Relay.dataWord, h, append_full hfull]

theorem malformedWord_of_seek {r : Relay} {p : LinkPort} (h : (r.port p).link = .seek) :
    r.malformedWord p = r.setPort p { r.port p with seekRun := 0 } := by
  simp only [Relay.malformedWord, h]

theorem malformedWord_of_assembly {r : Relay} {p : LinkPort} {a : Assembly}
    (hlink : (r.port p).link = .up) (h : (r.port p).assembly = some a) :
    r.malformedWord p = r.setPort p { (r.port p).countCrc with assembly := none } := by
  simp only [Relay.malformedWord, hlink, h]

theorem malformedWord_of_none {r : Relay} {p : LinkPort} (hlink : (r.port p).link = .up)
    (h : (r.port p).assembly = none) : r.malformedWord p = r := by
  simp only [Relay.malformedWord, hlink, h]

/-! ## Words at a port that is UP (R5, R7, R11) -/

theorem exec_idle_of_up {r : Relay} {p : LinkPort} (ha : r.awake = true)
    (h : (r.port p).link = .up) (x : Polarity) (q : List Instr) :
    exec (.lineWord p.name (.idle x)) ⟨r, q⟩ = .next ⟨r.idleWord p x, q⟩ := by
  rw [exec_linkWord ha, Relay.linkWord, energy_of_up h]

theorem exec_frameStart_of_up {r : Relay} {p : LinkPort} (ha : r.awake = true)
    (h : (r.port p).link = .up) (x : Polarity) (q : List Instr) :
    exec (.lineWord p.name (.frameStart x)) ⟨r, q⟩ = .next ⟨r.startWord p x, q⟩ := by
  rw [exec_linkWord ha, Relay.linkWord, energy_of_up h]

theorem exec_data_of_up {r : Relay} {p : LinkPort} (ha : r.awake = true)
    (h : (r.port p).link = .up) (b : Byte) (q : List Instr) :
    exec (.lineWord p.name (.data b)) ⟨r, q⟩ = .next ⟨r.dataWord p b, q⟩ := by
  rw [exec_linkWord ha, Relay.linkWord, energy_of_up h]

theorem exec_malformed_of_up {r : Relay} {p : LinkPort} (ha : r.awake = true)
    (h : (r.port p).link = .up) (q : List Instr) :
    exec (.lineWord p.name .malformed) ⟨r, q⟩ = .next ⟨r.malformedWord p, q⟩ := by
  rw [exec_linkWord ha, Relay.linkWord, energy_of_up h]

theorem idleWord_of_up {r : Relay} {p : LinkPort} (x : Polarity) (h : (r.port p).link = .up) :
    r.idleWord p x = (r.setPort p
      { (r.port p).turn x with tally := (r.port p).tally + 1 }).endAssembly p := by
  simp only [Relay.idleWord, port_setPort, turn_link, h, setPort_setPort, turn_tally]

theorem cutShort_eq (k : Port) :
    k.cutShort = { k with
      counters :=
        if k.assembly = none then k.counters
        else { k.counters with runtsGiants := min (k.counters.runtsGiants + 1) 65535 } } := by
  unfold Port.cutShort
  by_cases h : k.assembly = none
  · rw [if_pos h, if_neg (by simp [h])]
  · rw [if_neg h, if_pos (Option.isSome_iff_ne_none.mpr h)]
    rfl

theorem startWord_of_up {r : Relay} {p : LinkPort} (x : Polarity) (h : (r.port p).link = .up) :
    r.startWord p x = r.setPort p
      { ((r.port p).turn x).cutShort with
        tally := (r.port p).tally + 1
        assembly := some { bytes := [], polarity := x, order := r.rxOrder p.name } } := by
  simp only [Relay.startWord, port_setPort, turn_link, h, setPort_setPort, turn_tally]
  rfl

/-! ## The end of an assembly (R12) -/

theorem endAssembly_of_none {r : Relay} {p : LinkPort} (h : (r.port p).assembly = none) :
    r.endAssembly p = r := by
  simp only [Relay.endAssembly, h]

theorem verdict_of_short {a : Assembly} (h : a.bytes.length < 8) : a.verdict = .runt :=
  if_pos h

theorem verdict_of_good {a : Assembly} (hlong : 8 ≤ a.bytes.length)
    (hcrc : crcGood a.order a.bytes = true) : a.verdict = .good := by
  have hrunt : ¬ a.bytes.length < Config.runtBytes := Nat.not_lt.mpr hlong
  rw [Assembly.verdict, if_neg hrunt, if_pos hcrc]

theorem verdict_of_bad {a : Assembly} (hlong : 8 ≤ a.bytes.length)
    (hcrc : crcGood a.order a.bytes = false) : a.verdict = .bad := by
  have hrunt : ¬ a.bytes.length < Config.runtBytes := Nat.not_lt.mpr hlong
  rw [Assembly.verdict, if_neg hrunt, hcrc]
  rfl

/-- An ended assembly by its verdict (R12). -/
theorem endAssembly_of_some {r : Relay} {p : LinkPort} {a : Assembly}
    (h : (r.port p).assembly = some a) :
    (a.verdict = .runt →
        r.endAssembly p = r.setPort p ({ r.port p with assembly := none } : Port).countRunt)
      ∧ (a.verdict = .bad →
        r.endAssembly p = r.setPort p ({ r.port p with assembly := none } : Port).countCrc)
      ∧ (a.verdict = .good →
        r.endAssembly p
          = (r.setPort p ({ r.port p with assembly := none } : Port).countGood).classify p.name
              (frameBody a.bytes)) := by
  unfold Relay.endAssembly
  simp only [h]
  refine ⟨?_, ?_, ?_⟩ <;> intro hv <;> rw [hv]

theorem assembling_name (r : Relay) (p : LinkPort) :
    r.assembling p.name = (r.port p).assembly.isSome := by
  cases p <;> rfl

theorem exec_frameReceived {r : Relay} (ha : r.awake = true) (p : PortName) (x : Polarity)
    (q : List Instr) :
    exec (.frameReceived p x) ⟨r, q⟩
      = .next ⟨r.when (r.assembling p) (fun r => r.word p (.idle x)), q⟩ :=
  exec_awake (f := fun r => r.when (r.assembling p) (fun r => r.word p (.idle x))) (fun _ => rfl) ha

theorem exec_frameReceived_of_none {r : Relay} {p : PortName} (ha : r.awake = true)
    (h : r.assembling p = false) (x : Polarity) (q : List Instr) :
    exec (.frameReceived p x) ⟨r, q⟩ = .next ⟨r, q⟩ := by
  rw [exec_frameReceived ha]
  simp [Relay.when, h]

/-- FRAME_RECEIVED stands for the idle word that ends an assembly in progress (log 11). -/
theorem exec_frameReceived_of_some {r : Relay} {p : PortName} (ha : r.awake = true)
    (h : r.assembling p = true) (x : Polarity) (q : List Instr) :
    exec (.frameReceived p x) ⟨r, q⟩ = exec (.lineWord p (.idle x)) ⟨r, q⟩ := by
  rw [exec_frameReceived ha, exec_lineWord ha]
  simp [Relay.when, h]

/-! ## The statements on UPPER and LOWER -/

/-- Settles O16: the three link states, and DOWN again after the silence timer. -/
theorem energyAndSilenceMoveTheLink : Obligations.EnergyAndSilenceMoveTheLink := by
  intro r q p ha
  refine ⟨fun h => ?down, fun h => ?seek, fun h => ?up,
    fun e hlink hsilence hdue => ⟨?expires, ?again⟩⟩
  case down => rw [exec_lineEnergy ha, energy_of_down h]
  case seek => rw [exec_lineEnergy ha, energy_of_seek h]
  case up => rw [exec_lineEnergy ha, energy_of_up h]
  case expires => rw [exec_silenceTimerExpiry ha, silenceExpires_of_due hlink hsilence hdue]
  case again =>
    rw [exec_lineEnergy (by rw [awake_setPort, ha]), energy_of_down (by rw [port_setPort]),
      port_setPort, setPort_setPort]
    cases p <;> rfl

/-- The third word in a row at a port in SEEK (R4). -/
theorem linkWord_enters_up {r : Relay} {p : LinkPort} {w : LineWord} {x : Polarity}
    (hlink : (r.port p).link = .seek) (hrun : (r.port p).seekRun = 2)
    (hw : w = .idle x ∨ w = .frameStart x) :
    r.linkWord p w = (r.setPort p ((r.port p).sought r.clock.ms x)).enterUp p := by
  rw [linkWord_of_seek hlink hw, seekWord_of_third (by rw [port_setPort]; exact hrun)]

/-- Settles O17. The fields of the port that enters UP are read through `enterUp_handOver`, which
leaves only its transmission open. -/
theorem seekRunCountsWordsAndEntersUp : Obligations.SeekRunCountsWordsAndEntersUp := by
  refine ⟨⟨fun r q p w ha hlink => ⟨?counts, ?malformed, ?data⟩, ?fields⟩, ?enters, ?down⟩
  case counts =>
    intro x hw hrun
    rw [exec_linkWord ha, linkWord_of_seek hlink hw,
      seekWord_of_short (by rw [port_setPort]; exact hrun), port_setPort, setPort_setPort]
    rfl
  case malformed =>
    rintro rfl
    rw [exec_linkWord ha, Relay.linkWord, energy_of_seek hlink,
      malformedWord_of_seek (by rw [port_setPort]; exact hlink), port_setPort, setPort_setPort]
  case data =>
    rintro b rfl hnone
    rw [exec_linkWord ha, Relay.linkWord, energy_of_seek hlink,
      dataWord_of_none b (by rw [port_setPort]; exact hnone)]
  case fields =>
    intro r q p w x ha hlink hrun hw
    refine ⟨_, exec_linkWord ha p w q, ?_⟩
    rw [linkWord_enters_up hlink hrun hw]
    obtain ⟨sending, hport⟩ := enterUp_port (r.setPort p ((r.port p).sought r.clock.ms x)) p
    rw [port_setPort, Relay.setPort_clock] at hport
    have hrest := enterUp_handOver (r.setPort p ((r.port p).sought r.clock.ms x)) p
    rw [hport]
    refine ⟨rfl, rfl, rfl, rfl, rfl, rfl, rfl, ?_, ?_, ?_, ?_⟩
    · simp only [Port.sought, Port.entered]
      split <;> rfl
    · rintro rfl
      exact hrest.lineLoss
    · rintro rfl
      exact ⟨hrest.lineLoss, enterUp_lower_barriers _⟩
    · refine ⟨hrest.tables.trans ?_, hrest.stations.trans ?_, hrest.inputs.trans ?_⟩ <;>
        cases p <;> rfl
  case enters =>
    intro r q p w x entered ha hlink hrun hw hentered
    rw [exec_linkWord ha, linkWord_enters_up hlink hrun hw]
    refine ⟨?_, ?_, ?_⟩
    · rintro rfl
      rw [enterUp_lower, hentered]
      rfl
    · rintro rfl hlost
      rw [enterUp_upper_of_kept (by rw [Relay.setPort_lineLoss, hlost]), hentered]
      rfl
    · rintro rfl hlost
      rw [enterUp_upper_of_lost (by rw [Relay.setPort_lineLoss, hlost]), hentered]
      rfl
  case down =>
    intro r q p sought ha hlink hsought
    have henergy : r.energy p = r.setPort p sought := by rw [energy_of_down hlink, hsought]
    refine ⟨fun w x hw => ?_, ?_, fun b hnone => ?_⟩
    · rw [exec_linkWord ha, linkWord_of_down hlink hw, henergy, port_setPort, setPort_setPort,
        turn_eq, hsought]
    · rw [exec_linkWord ha, Relay.linkWord, henergy,
        malformedWord_of_seek (by rw [port_setPort, hsought]), port_setPort, setPort_setPort,
        hsought]
    · rw [exec_linkWord ha, Relay.linkWord, henergy,
        dataWord_of_none b (by rw [port_setPort, hsought]; exact hnone)]

/-- Settles O18: a start word, a data byte, a malformed word, each inside and outside a frame. -/
theorem wordsFillTheAssembly : Obligations.WordsFillTheAssembly := by
  intro r q p ha hlink
  refine ⟨?words, ?room, ?full, ?malformed, ?outside⟩
  case words =>
    intro x k hk
    have hturn : (r.port p).turn x = k := hk ▸ turn_eq_ite _ _
    have hassembly : k.assembly = (r.port p).assembly := by rw [← hturn, turn_assembly]
    have hrunts : k.counters.runtsGiants = (r.port p).counters.runtsGiants := by
      rw [← hturn, turn_eq]
      dsimp only
      split <;> rfl
    refine ⟨?_, fun hnone => ?_⟩
    · rw [exec_frameStart_of_up ha hlink, startWord_of_up x hlink, hturn, cutShort_eq,
        hassembly, hrunts]
    · rw [exec_idle_of_up ha hlink, idleWord_of_up x hlink, hturn,
        endAssembly_of_none (by rw [port_setPort]; exact hassembly.trans hnone)]
  case room =>
    intro b a h hroom
    rw [exec_data_of_up ha hlink, dataWord_of_room b h hroom]
  case full =>
    intro b a h hfull
    rw [exec_data_of_up ha hlink, dataWord_of_full b h hfull]
    rfl
  case malformed =>
    intro a h
    rw [exec_malformed_of_up ha hlink, malformedWord_of_assembly hlink h]
    rfl
  case outside =>
    intro h
    refine ⟨?_, fun b => ?_⟩
    · rw [exec_malformed_of_up ha hlink, malformedWord_of_none hlink h]
    · rw [exec_data_of_up ha hlink, dataWord_of_none b h]

end Sys2Proof.Machine

/-! SUPPORT. Ended frames at the three ports, and the words at FIELD (R9, R11, R12, R13). -/

namespace Sys2Proof.Machine

/-! ## Ended frames at UPPER and LOWER -/

/-- An idle word at a port that is UP, given as either of its two rows where a frame is in assembly
(log 11). -/
theorem exec_ending_word {r : Relay} {p : LinkPort} {x : Polarity} {a : Assembly} {c : Instr}
    (ha : r.awake = true) (hlink : (r.port p).link = .up) (hassembly : (r.port p).assembly = some a)
    (hc : c = .frameReceived p.name x ∨ c = .lineWord p.name (.idle x)) (q : List Instr) :
    exec c ⟨r, q⟩ = .next ⟨(r.setPort p
      { (r.port p).turn x with tally := (r.port p).tally + 1 }).endAssembly p, q⟩ := by
  have hword : exec (.lineWord p.name (.idle x)) ⟨r, q⟩ = .next ⟨(r.setPort p
      { (r.port p).turn x with tally := (r.port p).tally + 1 }).endAssembly p, q⟩ := by
    rw [exec_idle_of_up ha hlink, idleWord_of_up x hlink]
  rcases hc with rfl | rfl
  · rw [exec_frameReceived_of_some ha (by rw [assembling_name, hassembly]; rfl), hword]
  · exact hword

/-- A turn counts a polarity change alone (R7). -/
theorem turn_counters (k : Port) (x : Polarity) :
    (k.turn x).counters.goodFrames = k.counters.goodFrames
      ∧ (k.turn x).counters.crcErrors = k.counters.crcErrors
      ∧ (k.turn x).counters.runtsGiants = k.counters.runtsGiants := by
  rw [turn_eq]
  dsimp only
  split <;> exact ⟨rfl, rfl, rfl⟩

/-! ## FIELD -/

theorem endFieldAssembly_of_none {r : Relay} (h : r.field.assembly = none) :
    r.endFieldAssembly = r := by
  simp only [Relay.endFieldAssembly, h]

theorem endFieldAssembly_of_good {r : Relay} {a : Assembly} (h : r.field.assembly = some a)
    (hgood : 8 ≤ a.bytes.length ∧ crcGood a.order a.bytes = true) :
    r.endFieldAssembly = (r.setField
      { r.field with
        assembly := none
        quiet := none
        goodFrames := min (r.field.goodFrames + 1) 65535 }).classify .field
          (a.bytes.take (a.bytes.length - 2)) := by
  simp only [Relay.endFieldAssembly, h, verdict_of_good hgood.1 hgood.2]
  rfl

/-- Every failure at FIELD, a runt included, is a CRC error (R13). -/
theorem endFieldAssembly_of_not_good {r : Relay} {a : Assembly} (h : r.field.assembly = some a)
    (hbad : ¬ (8 ≤ a.bytes.length ∧ crcGood a.order a.bytes = true)) :
    r.endFieldAssembly = r.setField
      { r.field with
        assembly := none
        quiet := none
        crcErrors := min (r.field.crcErrors + 1) 65535 } := by
  by_cases hlong : 8 ≤ a.bytes.length
  · have hcrc : crcGood a.order a.bytes = false :=
      Bool.eq_false_of_not_eq_true (fun hgood => hbad ⟨hlong, hgood⟩)
    simp only [Relay.endFieldAssembly, h, verdict_of_bad hlong hcrc]
    rfl
  · simp only [Relay.endFieldAssembly, h, verdict_of_short (Nat.lt_of_not_le hlong)]
    rfl

theorem exec_fieldWord {r : Relay} (ha : r.awake = true) (w : LineWord) (q : List Instr) :
    exec (.lineWord .field w) ⟨r, q⟩ = .next ⟨r.fieldWord w, q⟩ :=
  exec_lineWord ha .field w q

theorem exec_fieldLineQuiet {r : Relay} (ha : r.awake = true) (q : List Instr) :
    exec .fieldLineQuiet ⟨r, q⟩ = .next ⟨r.fieldQuiet, q⟩ :=
  exec_awake (f := Relay.fieldQuiet) (fun _ => rfl) ha

theorem fieldQuiet_of_due {r : Relay} {e : Nat} (hquiet : r.field.quiet = some e)
    (hdue : e ≤ r.clock.ms) :
    r.fieldQuiet = (r.setField { r.field with quiet := none }).endFieldAssembly :=
  if_pos (reached_of_le hquiet hdue)

/-- The three ways in which a frame at FIELD ends are one: the state in which the ended assembly is
judged differs at most in the quiet timer, which the end stops. -/
theorem exec_field_end {r : Relay} {c : Instr} (ha : r.awake = true)
    (hassembly : r.field.assembly.isSome = true)
    (hc : (∃ x, c = .lineWord .field (.idle x) ∨ c = .frameReceived .field x)
      ∨ (c = .fieldLineQuiet ∧ ∃ e, r.field.quiet = some e ∧ e ≤ r.clock.ms)) (q : List Instr) :
    ∃ quiet, exec c ⟨r, q⟩
      = .next ⟨(r.setField { r.field with quiet := quiet }).endFieldAssembly, q⟩ := by
  rcases hc with ⟨x, rfl | rfl⟩ | ⟨rfl, e, hquiet, hdue⟩
  · exact ⟨r.field.quiet, exec_fieldWord ha _ q⟩
  · exact ⟨r.field.quiet, (exec_frameReceived_of_some (p := .field) ha hassembly x q).trans
      (exec_fieldWord ha _ q)⟩
  · exact ⟨none, by rw [exec_fieldLineQuiet ha, fieldQuiet_of_due hquiet hdue]⟩

theorem quietMs_eq (rate : LineRate) :
    quietMs rate = (match rate with
      | .bps4800 => 5
      | .bps9600 => 3
      | .bps19200 => 2) := by
  cases rate <;> rfl

theorem takeByte_of_none {f : FieldPort} (b : Byte) (quiet : Nat) (h : f.assembly = none) :
    f.takeByte b quiet = f := by
  simp only [FieldPort.takeByte, h]

theorem takeByte_of_room {f : FieldPort} {a : Assembly} (b : Byte) (quiet : Nat)
    (h : f.assembly = some a) (hroom : a.bytes.length < 64) :
    f.takeByte b quiet
      = { f with
          assembly := some
            { a with bytes := a.bytes ++ [if a.polarity = .normal then b else ~~~b] }
          quiet := some quiet } := by
  simp only [FieldPort.takeByte, h, append_room hroom]

theorem takeByte_of_full {f : FieldPort} {a : Assembly} (b : Byte) (quiet : Nat)
    (h : f.assembly = some a) (hfull : 64 ≤ a.bytes.length) :
    f.takeByte b quiet = f.discarded := by
  simp only [FieldPort.takeByte, h, append_full hfull]

theorem startFrame_eq (f : FieldPort) (x : Polarity) (order : FeedOrder) (quiet : Nat) :
    f.startFrame x order quiet
      = { assembly := some { bytes := [], polarity := x, order := order }
          quiet := some quiet
          goodFrames := f.goodFrames
          crcErrors := if f.assembly = none then f.crcErrors else min (f.crcErrors + 1) 65535
          inversions := if x = .inverted then min (f.inversions + 1) 65535 else f.inversions } := by
  cases h : f.assembly <;> simp [FieldPort.startFrame, h, newAssembly, bump, Config.maxCount]

/-! ## The statements -/

/-- Settles O19: each verdict on the ended assembly, at the link ports and at FIELD. -/
theorem endedFrameIsChecked : Obligations.EndedFrameIsChecked := by
  refine ⟨?linkPorts, ?noFrame, fun r q ha => ⟨?fieldIdle, ?noTimer, ?early, ?fieldEnds⟩⟩
  case linkPorts =>
    intro r q p x a k c ha hlink hassembly hc hk
    have hturn : (r.port p).turn x = k := hk ▸ turn_eq_ite _ _
    obtain ⟨hgoods, hcrcs, hrunts⟩ := turn_counters (r.port p) x
    rw [hturn] at hgoods hcrcs hrunts
    have hsome : ((r.setPort p { k with tally := (r.port p).tally + 1 }).port p).assembly
        = some a := by
      rw [port_setPort, ← hturn, turn_assembly, hassembly]
    obtain ⟨hrunt, hbad, hgood⟩ := endAssembly_of_some hsome
    rw [exec_ending_word ha hlink hassembly hc, hturn]
    refine ⟨fun hshort => ?_, fun hlong hcrc => ?_, fun hlong hcrc => ?_⟩
    · rw [hrunt (verdict_of_short hshort), port_setPort, setPort_setPort, ← hrunts]
      rfl
    · rw [hbad (verdict_of_bad hlong hcrc), port_setPort, setPort_setPort, ← hcrcs]
      rfl
    · rw [hgood (verdict_of_good hlong hcrc), port_setPort, setPort_setPort, ← hgoods]
      rfl
  case noFrame =>
    intro r q p x ha hnone
    exact exec_frameReceived_of_none ha (by rw [assembling_name, hnone]; rfl) x q
  case fieldIdle =>
    intro x hnone
    refine ⟨?_, exec_frameReceived_of_none ha (by simp [Relay.assembling, hnone]) x q⟩
    rw [exec_fieldWord ha, Relay.fieldWord, endFieldAssembly_of_none hnone]
  case noTimer =>
    intro hquiet
    rw [exec_fieldLineQuiet ha, fieldQuiet_of_early (by rw [hquiet]; rfl)]
  case early =>
    intro e hquiet he
    have hearly : reached r.field.quiet r.clock.ms = false :=
      (reached_eq_false_iff _ _).mpr (fun t ht => by
        rw [hquiet] at ht
        cases ht
        exact he)
    rw [exec_fieldLineQuiet ha, fieldQuiet_of_early hearly]
  case fieldEnds =>
    intro a c hassembly hc
    obtain ⟨quiet, hexec⟩ := exec_field_end ha (by rw [hassembly]; rfl) hc q
    rw [hexec]
    refine ⟨fun hgood => ?_, fun hbad => ?_⟩
    · rw [endFieldAssembly_of_good (r := r.setField { r.field with quiet := quiet }) hassembly
        hgood]
      rfl
    · rw [endFieldAssembly_of_not_good (r := r.setField { r.field with quiet := quiet }) hassembly
        hbad]
      rfl

/-- Settles O20: the polarity is that of the start word, and any other word meets the assembly there
is. -/
theorem fieldPolarityIsDecidedPerFrame : Obligations.FieldPolarityIsDecidedPerFrame := by
  intro r q twoWords ha htwo
  have hquiet : r.quietFrom = r.clock.ms + twoWords := by
    rw [htwo, Relay.quietFrom, quietMs_eq]
    rfl
  refine ⟨fun x => ?start, fun a b h hroom => ?room, fun a b h hfull => ?full,
    fun a h => ?malformed, fun h => ⟨?malformedOutside, fun b => ?dataOutside⟩, fun x y => ?idles,
    fun h x => ?idleOutside⟩
  case start =>
    rw [exec_fieldWord ha, Relay.fieldWord, startFrame_eq, hquiet]
    rfl
  case room => rw [exec_fieldWord ha, Relay.fieldWord, takeByte_of_room b _ h hroom, hquiet]
  case full =>
    rw [exec_fieldWord ha, Relay.fieldWord, takeByte_of_full b _ h hfull]
    rfl
  case malformed =>
    rw [exec_fieldWord ha]
    simp only [Relay.fieldWord, Relay.when, h, Option.isSome_some, if_true]
    rfl
  case malformedOutside =>
    rw [exec_fieldWord ha]
    simp [Relay.fieldWord, Relay.when, h]
  case dataOutside =>
    rw [exec_fieldWord ha, Relay.fieldWord, takeByte_of_none b _ h]
    rfl
  case idles => rw [exec_fieldWord ha, exec_fieldWord ha, Relay.fieldWord, Relay.fieldWord]
  case idleOutside => rw [exec_fieldWord ha, Relay.fieldWord, endFieldAssembly_of_none h]

end Sys2Proof.Machine

/-! SUPPORT. How a port leaves UP, and what its transmitter takes, completes and abandons (R5, R11,
R15, R16, R17, R43, R44, R179). -/

namespace Sys2Proof.Machine

/-! ## Leaving UP (R5, R11) -/

/-- The counters after the frame in assembly is discarded (R11). -/
def Port.discardCounters (k : Port) : PortCounters :=
  match k.assembly with
  | none => k.counters
  | some a =>
    if a.bytes.length < 8 then
      { k.counters with runtsGiants := min (k.counters.runtsGiants + 1) 65535 }
    else { k.counters with crcErrors := min (k.counters.crcErrors + 1) 65535 }

theorem discardCounters_keep (k : Port) :
    k.discardCounters.linkDrops = k.counters.linkDrops
      ∧ k.discardCounters.transmitAborts = k.counters.transmitAborts := by
  unfold Port.discardCounters
  split
  · exact ⟨rfl, rfl⟩
  · split <;> exact ⟨rfl, rfl⟩

/-- The three cases of R11's discard determine the counters. -/
theorem discardCounters_spec {k : Port} {c : PortCounters}
    (hnone : k.assembly = none → c = k.counters)
    (hshort : ∀ a, k.assembly = some a → a.bytes.length < 8 →
      c = { k.counters with runtsGiants := min (k.counters.runtsGiants + 1) 65535 })
    (hlong : ∀ a, k.assembly = some a → 8 ≤ a.bytes.length →
      c = { k.counters with crcErrors := min (k.counters.crcErrors + 1) 65535 }) :
    c = k.discardCounters := by
  unfold Port.discardCounters
  split
  · next h => exact hnone h
  · next a h =>
    split
    · next hlt => exact hshort a h hlt
    · next hge => exact hlong a h (Nat.le_of_not_lt hge)

/-- A port as it leaves UP, its transmission not yet abandoned (R5, R11). -/
def Port.left (k : Port) (now : Nat) : Port :=
  { k with
    link := .seek
    seekRun := 0
    silence := some (now + 2000)
    window := none
    tally := 0
    assembly := none
    counters :=
      { k.discardCounters with linkDrops := min (k.counters.linkDrops + 1) 65535 } }

theorem left_eq (k : Port) (now : Nat) :
    ((k.seekFrom now).count (fun c => { c with linkDrops := bump c.linkDrops })).discard
      = k.left now := by
  unfold Port.discard Port.left Port.discardCounters
  cases h : k.assembly with
  | none => simp [Port.count, Port.seekFrom, h, bump, Config.maxCount, Config.silenceMs]
  | some a =>
    by_cases hshort : a.bytes.length < 8 <;>
      simp [Port.count, Port.seekFrom, Port.countRunt, Port.countCrc, h, hshort, bump,
        Config.maxCount, Config.silenceMs, Config.runtBytes]

/-- The part as a port has left UP, its transmission not yet abandoned; at UPPER the confirm timer
starts (R5, R17). -/
def Relay.left (r : Relay) (p : LinkPort) : Relay :=
  match p with
  | .upper => (r.setPort .upper (r.upper.left r.clock.ms)).setLineLoss
      { r.lineLoss with
        confirm := some (r.clock.ms + r.tables.identity.confirmTime * 1000) }
  | .lower => r.setPort .lower (r.lower.left r.clock.ms)

theorem leaveUp_upper (r : Relay) : r.leaveUp .upper = (r.left .upper).abandon .upper := by
  unfold Relay.leaveUp
  simp only [left_eq]
  rfl

theorem leaveUp_lower (r : Relay) :
    r.leaveUp .lower = ((r.left .lower).abandon .lower).restartIfPending := by
  unfold Relay.leaveUp
  simp only [left_eq]
  rfl

@[simp] theorem left_port (r : Relay) (p : LinkPort) :
    (r.left p).port p = (r.port p).left r.clock.ms := by
  cases p <;> rfl

@[simp] theorem left_pool (r : Relay) (p : LinkPort) : (r.left p).pool = r.pool := by
  cases p <;> rfl

@[simp] theorem left_agent (r : Relay) (p : LinkPort) : (r.left p).agent = r.agent := by
  cases p <;> rfl

theorem left_rest (r : Relay) (p : LinkPort) :
    (r.left p).barriers = r.barriers ∧ (r.left p).channels = r.channels
      ∧ (r.left p).tables = r.tables ∧ (r.left p).store = r.store
      ∧ (r.left p).memory = r.memory ∧ (r.left p).pins = r.pins := by
  cases p <;> exact ⟨rfl, rfl, rfl, rfl, rfl, rfl⟩

/-! ## Windows (R5) -/

theorem windowCloses_of_due {r : Relay} {p : LinkPort} {e : Nat} (hlink : (r.port p).link = .up)
    (hwindow : (r.port p).window = some e) (hdue : e ≤ r.clock.ms) :
    r.windowCloses p
      = if r.activityCount p ≤ (r.port p).tally then
          r.setPort p { r.port p with window := some (e + 500), tally := 0 }
        else r.leaveUp p := by
  unfold Relay.windowCloses
  simp only [hwindow]
  exact if_pos ⟨hlink, hdue⟩

theorem exec_activityWindowClose {r : Relay} (ha : r.awake = true) (p : LinkPort)
    (q : List Instr) :
    exec (.activityWindowClose p) ⟨r, q⟩ = .next ⟨r.windowCloses p, q⟩ :=
  exec_awake (f := fun r => r.windowCloses p) (fun _ => rfl) ha

/-! ## The fate of a frame in transmission (R16, R42, R179) -/

/-- The part as a transmission is abandoned, its maker not yet told (R16). -/
def Relay.abandoned (r : Relay) (p : LinkPort) : Relay :=
  (r.setPort p
    { r.port p with
      sending := none
      counters :=
        { (r.port p).counters with
          transmitAborts := min ((r.port p).counters.transmitAborts + 1) 65535 } }).setPool
    { r.pool with free := r.pool.free + 1 }

theorem abandon_of_none {r : Relay} {p : LinkPort} (h : (r.port p).sending = none) :
    r.abandon p = r := by
  simp only [Relay.abandon, h]

theorem abandon_of_some {r : Relay} {p : LinkPort} {x : Transmission}
    (h : (r.port p).sending = some x) :
    r.abandon p = (r.abandoned p).reportFate x.buffer.maker := by
  simp only [Relay.abandon, h]
  rfl

theorem reportFate_restartReply (r : Relay) :
    (r.agent.restartPending = true → r.reportFate .restartReply = r.restart)
      ∧ (r.agent.restartPending = false → r.reportFate .restartReply = r) := by
  unfold Relay.reportFate Relay.when
  exact ⟨fun h => if_pos h, fun h => if_neg (by simp [h])⟩

theorem restartIfPending_of_pending {r : Relay} (h : r.agent.restartPending = true) :
    r.restartIfPending = r.restart :=
  if_pos h

theorem restartIfPending_of_idle {r : Relay} (h : r.agent.restartPending = false) :
    r.restartIfPending = r :=
  if_neg (by simp [h])

@[simp] theorem abandoned_agent (r : Relay) (p : LinkPort) : (r.abandoned p).agent = r.agent := by
  cases p <;> rfl

/-- A frame whose fate starts no restart leaves the agent alone. -/
theorem abandon_agent {r : Relay} {p : LinkPort}
    (h : (∀ x, (r.port p).sending = some x → x.buffer.maker ≠ .restartReply)
      ∨ r.agent.restartPending = false) : (r.abandon p).agent = r.agent := by
  cases hs : (r.port p).sending with
  | none => rw [abandon_of_none hs]
  | some x =>
    have hfate : x.buffer.maker ≠ .restartReply ∨ (r.abandoned p).agent.restartPending = false :=
      h.imp (fun hx => hx x hs) (fun hp => by rw [abandoned_agent, hp])
    rw [abandon_of_some hs, (reportFate_frame (r.abandoned p) _ hfate).1.agent, abandoned_agent]

/-- A pending restart takes place at the reply's fate, or, where another frame was in transmission
or none, as LOWER leaves UP (R179). -/
theorem leaveUp_lower_cases (r : Relay) :
    (r.agent.restartPending = false → r.leaveUp .lower = (r.left .lower).abandon .lower)
      ∧ (r.agent.restartPending = true →
          (∀ x, r.lower.sending = some x → x.buffer.maker ≠ .restartReply) →
          r.leaveUp .lower = ((r.left .lower).abandon .lower).restart)
      ∧ ∀ x, r.agent.restartPending = true → r.lower.sending = some x →
          x.buffer.maker = .restartReply →
          r.leaveUp .lower = ((r.left .lower).abandoned .lower).restart := by
  rw [leaveUp_lower]
  refine ⟨fun hidle => ?_, fun hpending hother => ?_, fun x hpending hs hm => ?_⟩
  · refine restartIfPending_of_idle ?_
    rw [abandon_agent (Or.inr (by rw [left_agent, hidle])), left_agent, hidle]
  · refine restartIfPending_of_pending ?_
    rw [abandon_agent (r := r.left .lower) (p := .lower) (Or.inl hother), left_agent, hpending]
  · have htold : (r.left .lower).abandon .lower = ((r.left .lower).abandoned .lower).restart := by
      rw [abandon_of_some (r := r.left .lower) (p := .lower) hs, hm]
      exact (reportFate_restartReply _).1 hpending
    rw [htold, restartIfPending_of_idle (restart_restartPending _)]

/-! ## Upper line lost (R17) -/

theorem confirmExpires_of_due {r : Relay} {e : Nat} (hconfirm : r.lineLoss.confirm = some e)
    (hdue : e ≤ r.clock.ms) :
    r.confirmExpires = (r.setLineLoss { lost := r.lineLoss.lost, confirm := none }).setLineLost
      true :=
  if_pos (reached_of_le hconfirm hdue)

theorem exec_upperConfirmExpiry {r : Relay} (ha : r.awake = true) (q : List Instr) :
    exec .upperConfirmExpiry ⟨r, q⟩ = .next ⟨r.confirmExpires, q⟩ :=
  exec_awake (f := Relay.confirmExpires) (fun _ => rfl) ha

theorem setLineLost_of_none_watched {r : Relay} (lost : Bool)
    (h : ∀ b, (r.tables.barriers.get b).lineWatched = false) :
    r.setLineLost lost = r.setLineLoss { r.lineLoss with lost := lost } := by
  rw [setLineLost_eq_foldl]
  refine List.foldl_fixed' (fun b => if_neg ?_) _
  rw [Relay.setLineLoss_tables, h b]
  exact Bool.false_ne_true

/-! ## Takes (R15, R43, R44) -/

theorem take_of_available {r : Relay} {p : LinkPort} {b : Buffer} {pool : Pool}
    (hlink : (r.port p).link = .up) (hidle : (r.port p).sending = none)
    (h : r.available p = some (b, pool)) : r.take p = (r.setPool pool).beginSending p b := by
  unfold Relay.take
  rw [if_pos ⟨hlink, hidle⟩, h]

theorem take_of_none {r : Relay} {p : LinkPort} (h : r.available p = none) : r.take p = r := by
  unfold Relay.take
  split
  · rw [h]
  · rfl

theorem take_of_busy {r : Relay} {p : LinkPort}
    (h : (r.port p).link ≠ .up ∨ (r.port p).sending ≠ none) : r.take p = r :=
  if_neg (fun hready => h.elim (fun hl => hl hready.1) (fun hs => hs hready.2))

theorem exec_transmitTake {r : Relay} (ha : r.awake = true) (p : LinkPort) (q : List Instr) :
    exec (.transmitTake p) ⟨r, q⟩ = .next ⟨r.take p, q⟩ :=
  exec_awake (f := fun r => r.take p) (fun _ => rfl) ha

/-- The LOWER arbiter's table (R43). -/
theorem takeLower_of_routine {p : Pool} (limit : Nat) {x : Buffer} {xs : List Buffer}
    (hu : p.urgent = []) (hr : p.routine = x :: xs) :
    p.takeLower limit = some (x, { p with routine := xs, run := 0 }) := by
  simp only [Pool.takeLower, hu, hr]

theorem takeLower_of_urgent {p : Pool} (limit : Nat) {u : Buffer} {us : List Buffer}
    (hu : p.urgent = u :: us) (hr : p.routine = []) :
    p.takeLower limit = some (u, { p with urgent := us, run := 0 }) := by
  simp only [Pool.takeLower, hu, hr]

theorem takeLower_of_both {p : Pool} (limit : Nat) {u x : Buffer} {us xs : List Buffer}
    (hu : p.urgent = u :: us) (hr : p.routine = x :: xs) :
    p.takeLower limit
      = if limit = 0 then some (u, { p with urgent := us })
        else if p.run < limit then some (u, { p with urgent := us, run := p.run + 1 })
        else some (x, { p with routine := xs, run := 0 }) := by
  simp only [Pool.takeLower, hu, hr]

theorem takeLower_of_empty {p : Pool} (limit : Nat) (hu : p.urgent = []) (hr : p.routine = []) :
    p.takeLower limit = none := by
  simp only [Pool.takeLower, hu, hr]

theorem takeUpper_of_cons {p : Pool} {x : Buffer} {xs : List Buffer} (h : p.up = x :: xs) :
    p.takeUpper = some (x, { p with up := xs }) := by
  simp only [Pool.takeUpper, h]

theorem takeUpper_of_empty {p : Pool} (h : p.up = []) : p.takeUpper = none := by
  simp only [Pool.takeUpper, h]

theorem exec_takeLower {r : Relay} {b : Buffer} {pool : Pool} (ha : r.awake = true)
    (hlink : r.lower.link = .up) (hidle : r.lower.sending = none)
    (h : r.pool.takeLower r.tables.identity.starvation = some (b, pool)) (q : List Instr) :
    exec (.transmitTake .lower) ⟨r, q⟩
      = .next ⟨(r.setPool pool).beginSending .lower b, q⟩ := by
  rw [exec_transmitTake ha, take_of_available (p := .lower) hlink hidle h]

theorem txPolarity_eq (r : Relay) (p : LinkPort) :
    r.txPolarity p
      = match (match p with
          | .upper => r.tables.identity.txUpper
          | .lower => r.tables.identity.txLower) with
        | .normal => .normal
        | .inverted => .inverted
        | .follow => (r.port p).polarity := by
  cases p <;> rfl

/-! ## Completion (R16) -/

/-- The part as a transmission completes, its maker not yet told (R16). -/
def Relay.completed (r : Relay) (p : LinkPort) : Relay :=
  (r.setPort p
    { r.port p with
      sending := none
      counters :=
        { (r.port p).counters with
          framesSent := min ((r.port p).counters.framesSent + 1) 65535 } }).setPool
    { r.pool with free := r.pool.free + 1 }

@[simp] theorem completed_agent (r : Relay) (p : LinkPort) : (r.completed p).agent = r.agent := by
  cases p <;> rfl

theorem exec_transmitComplete {r : Relay} {p : LinkPort} {t : Transmission} (ha : r.awake = true)
    (h : (r.port p).sending = some t) (q : List Instr) :
    exec (.transmitComplete p) ⟨r, q⟩
      = .next ⟨((r.completed p).reportFate t.buffer.maker).take p, q⟩ := by
  refine (exec_awake (f := fun r => r.completeTransmission p) (fun _ => rfl) ha).trans ?_
  simp only [Relay.completeTransmission, h]
  rfl

/-! ## The statements -/

/-- Settles O21. The port's counters in the second part are those of the port as it left UP, with
the abort beside them. -/
theorem windowCloseKeepsOrDropsTheLink : Obligations.WindowCloseKeepsOrDropsTheLink := by
  refine ⟨fun r q p e ha hlink hwindow hdue => ⟨fun henough => ?keeps, fun hfew hfate => ?drops,
    fun hfew hp hpending => ?restarts⟩, ?exact⟩
  case keeps =>
    rw [exec_activityWindowClose ha, windowCloses_of_due hlink hwindow hdue, if_pos henough]
  case drops =>
    rw [exec_activityWindowClose ha, windowCloses_of_due hlink hwindow hdue,
      if_neg (Nat.not_le.mpr hfew)]
    have habandon : r.leaveUp p = (r.left p).abandon p := by
      cases p with
      | upper => exact leaveUp_upper r
      | lower => exact (leaveUp_lower_cases r).1 (hfate.resolve_right (fun h => by simp at h))
    have hsending : (∀ x, ((r.left p).port p).sending = some x → x.buffer.maker ≠ .restartReply)
        ∨ (r.left p).agent.restartPending = false := by
      rw [left_agent, left_port]
      rcases hfate with hidle | ⟨rfl, hother⟩
      · exact Or.inr hidle
      · exact Or.inl hother
    obtain ⟨hloss, hbarriers, hchannels, htables, -, -, -, -, hport⟩ :=
      abandon_frame (r.left p) p (by rw [left_port]; simp [Port.left]) hsending
    obtain ⟨hb, hc, ht, -, -, -⟩ := left_rest r p
    obtain ⟨-, haborts⟩ := discardCounters_keep (r.port p)
    rw [left_port] at hport
    refine ⟨_, rfl, ?_⟩
    rw [habandon, hport, hloss, hbarriers, hchannels, htables, hb, hc, ht]
    refine ⟨rfl, rfl, rfl, rfl, rfl, rfl, rfl, rfl, ?_, ?_, ?_, ?_, rfl, rfl, rfl⟩
    · simp only [Port.left, haborts]
    · cases p <;> rfl
    · rintro rfl; rfl
    · rintro rfl; rfl
  case restarts =>
    subst hp
    rw [exec_activityWindowClose ha, windowCloses_of_due hlink hwindow hdue,
      if_neg (Nat.not_le.mpr hfew)]
    obtain ⟨hb, -, ht, hs, hm, hpins⟩ := left_rest r .lower
    obtain ⟨-, hother, hreply⟩ := leaveUp_lower_cases r
    by_cases hmaker : ∃ x, r.lower.sending = some x ∧ x.buffer.maker = .restartReply
    · obtain ⟨x, hx, hxm⟩ := hmaker
      exact ⟨(r.left .lower).abandoned .lower, by rw [hreply x hpending hx hxm], hb, ht, hs, hm,
        hpins⟩
    · have hno : ∀ x, r.lower.sending = some x → x.buffer.maker ≠ .restartReply :=
        fun x hx hxm => hmaker ⟨x, hx, hxm⟩
      obtain ⟨-, hbarriers, -, htables, -, hstore, hmemory, hpinsKept, -⟩ :=
        abandon_frame (r.left .lower) .lower (by rw [left_port]; simp [Port.left]) (Or.inl hno)
      exact ⟨_, by rw [hother hpending hno], hbarriers.trans hb, htables.trans ht, hstore.trans hs,
        hmemory.trans hm, hpinsKept.trans hpins⟩
  case exact =>
    intro r q p e k gone left told ha hlink hwindow hdue hfew hnone hshort hlong hgone hupper hlower
      htoldNone htoldSome
    have hk : k = (r.port p).discardCounters := discardCounters_spec hnone hshort hlong
    have hdrops : k.linkDrops = (r.port p).counters.linkDrops := by
      rw [hk, (discardCounters_keep _).1]
    have hleft : left = (r.left p).setPort p gone := by
      cases p with
      | upper => exact hupper rfl
      | lower => exact (hlower rfl).trans (setPort_setPort r .lower _ _).symm
    have htold : told = (r.left p).abandon p := by
      have hsending : ((r.left p).port p).sending = (r.port p).sending := by rw [left_port]; rfl
      cases hs : (r.port p).sending with
      | none =>
        have hgoneLeft : gone = (r.left p).port p := by
          rw [hgone, if_pos hs, left_port, hdrops, hk, ← hs]
          rfl
        rw [htoldNone hs, abandon_of_none (hsending.trans hs), hleft, hgoneLeft, setPort_port]
      | some x =>
        have hfreed : (r.left p).abandoned p
            = left.setPool { r.pool with free := r.pool.free + 1 } := by
          rw [hleft, hgone, if_neg (by rw [hs]; simp), Relay.abandoned, left_port, left_pool,
            hdrops, hk]
          rfl
        obtain ⟨hother, hrun, hpending, hidle⟩ := htoldSome x _ hs rfl
        have hagent : (left.setPool { r.pool with free := r.pool.free + 1 }).agent = r.agent := by
          rw [← hfreed, abandoned_agent, left_agent]
        obtain ⟨hrestart, hstill⟩ :=
          reportFate_restartReply (left.setPool { r.pool with free := r.pool.free + 1 })
        rw [hagent] at hrestart hstill
        rw [abandon_of_some (hsending.trans hs), hfreed]
        cases hm : x.buffer.maker with
        | other => exact hother hm
        | testRun run => exact hrun run hm
        | restartReply =>
          cases hp : r.agent.restartPending with
          | true => rw [hrestart hp, hpending hm hp]
          | false => rw [hstill hp, hidle hm hp]
    rw [exec_activityWindowClose ha, windowCloses_of_due hlink hwindow hdue,
      if_neg (Nat.not_le.mpr hfew), htold]
    refine ⟨fun hquiet => ?_, fun hp hpending => ⟨fun hother => ?_, fun x hx hm => ?_⟩⟩
    · cases p with
      | upper => rw [leaveUp_upper]
      | lower => rw [(leaveUp_lower_cases r).1 (hquiet.resolve_left (by decide))]
    · subst hp
      rw [(leaveUp_lower_cases r).2.1 hpending hother]
    · subst hp
      rw [(leaveUp_lower_cases r).2.2 x hpending hx hm,
        abandon_of_some (r := r.left .lower) (p := .lower) hx, hm,
        (reportFate_restartReply _).1 (by rw [abandoned_agent, left_agent, hpending])]

/-- Settles O22: the confirm timer ends and the line-watched barriers are told of the loss. -/
theorem confirmExpiryLosesTheUpperLine : Obligations.ConfirmExpiryLosesTheUpperLine := by
  intro r q e ha hconfirm hdue
  have hexec : exec .upperConfirmExpiry ⟨r, q⟩
      = .next ⟨(r.setLineLoss { lost := r.lineLoss.lost, confirm := none }).setLineLost true,
          q⟩ := by
    rw [exec_upperConfirmExpiry ha, confirmExpires_of_due hconfirm hdue]
  have hrest : SameButHandOver (r.setLineLoss { lost := true, confirm := none })
      ((r.setLineLoss { lost := r.lineLoss.lost, confirm := none }).setLineLost true) :=
    setLineLost_handOver (r.setLineLoss { lost := r.lineLoss.lost, confirm := none }) true
  refine ⟨hexec, ⟨_, hexec, hrest.lineLoss, hrest⟩, fun hnone => ?_⟩
  have hkept := setLineLost_of_none_watched
    (r := r.setLineLoss { lost := r.lineLoss.lost, confirm := none }) true hnone
  rw [hexec, hkept]
  rfl

/-- Settles O23, row by row of R43's table. -/
theorem lowerArbiterChoosesByTheTable : Obligations.LowerArbiterChoosesByTheTable := by
  refine ⟨fun r q ha hlink hidle => ⟨?routine, ?urgent, ?unlimited, ?within, ?starved⟩, rfl,
    fun r => rfl, fun _ _ _ _ => rfl, rfl⟩
  case routine =>
    exact fun x xs hu hr => exec_takeLower ha hlink hidle (takeLower_of_routine _ hu hr) q
  case urgent =>
    exact fun u us hu hr => exec_takeLower ha hlink hidle (takeLower_of_urgent _ hu hr) q
  case unlimited =>
    intro u us x xs hu hr hzero
    exact exec_takeLower ha hlink hidle (by rw [takeLower_of_both _ hu hr, if_pos hzero]) q
  case within =>
    intro u us x xs hu hr hlimit hrun
    exact exec_takeLower ha hlink hidle
      (by rw [takeLower_of_both _ hu hr, if_neg hlimit, if_pos hrun]) q
  case starved =>
    intro u us x xs hu hr hlimit hrun
    exact exec_takeLower ha hlink hidle
      (by rw [takeLower_of_both _ hu hr, if_neg hlimit, if_neg (Nat.not_lt.mpr hrun)]) q

/-- Settles O24: what each port takes, by link state, transmission and queues. -/
theorem transmittersTakeAndComplete : Obligations.TransmittersTakeAndComplete := by
  refine ⟨fun r q ha => ⟨?upper, ?upEmpty, ?lowerEmpty, ?takes, ?busy, ?begins⟩, ?words, ?completes⟩
  case upper =>
    intro x xs hlink hidle hup
    rw [exec_transmitTake ha,
      take_of_available (p := .upper) hlink hidle (takeUpper_of_cons hup)]
    rfl
  case upEmpty =>
    intro h
    rw [exec_transmitTake ha, take_of_none (p := .upper) (takeUpper_of_empty h)]
  case lowerEmpty =>
    intro hu hr
    rw [exec_transmitTake ha, take_of_none (p := .lower) (takeLower_of_empty _ hu hr)]
  case takes => exact fun p => exec_transmitTake ha p q
  case busy =>
    intro p h
    rw [exec_transmitTake ha, take_of_busy h]
  case begins => exact fun x => rfl
  case words =>
    intro r p t h
    refine ⟨rfl, ?_, fun b => ?_, ?_⟩
    · simp only [Relay.wordOnLine, Relay.sendingPolarity, SentWord.inFrame, h]
    · simp only [Relay.wordOnLine, Relay.sendingPolarity, SentWord.inFrame, h]
      cases t.polarity <;> rfl
    · exact congrArg LineWord.idle (txPolarity_eq r p)
  case completes =>
    intro r q p t released ha h hreleased
    have hexec := exec_transmitComplete ha h q
    have hcompleted : r.completed p = released := hreleased.symm
    have hagent : released.agent = r.agent := by rw [← hcompleted, completed_agent]
    obtain ⟨hpending, hidle⟩ := reportFate_restartReply released
    rw [hcompleted] at hexec
    refine ⟨fun hm => ?_, fun run hm => ?_, fun hm hp => ?_, fun hm hp => ?_⟩
    · rw [hexec, hm]
      rfl
    · rw [hexec, hm]
      rfl
    · rw [hexec, hm, hidle (by rw [hagent, hp])]
    · rw [hexec, hm, hpending (by rw [hagent, hp])]

end Sys2Proof.Machine

/-! SUPPORT. The header's fields as numbers, and what the classifier does with a frame of each class
(R24 to R31, R34, R125, R126, R179, R196). -/

namespace Sys2Proof.Machine

/-! ## Bits of a byte -/

theorem extract_toNat {w : Nat} (x : BitVec w) (start len : Nat) :
    (x.extractLsb' start len).toNat = x.toNat / 2 ^ start % 2 ^ len := by
  rw [BitVec.extractLsb'_toNat, Nat.shiftRight_eq_div_pow]

theorem append_toNat {n m : Nat} (x : BitVec n) (y : BitVec m) :
    (x ++ y).toNat = x.toNat * 2 ^ m + y.toNat := by
  rw [BitVec.toNat_append, ← Nat.shiftLeft_add_eq_or_of_lt y.isLt, Nat.shiftLeft_eq]

theorem bit_eq_true_iff {w : Nat} (x : BitVec w) (i : Nat) :
    x.getLsbD i = true ↔ x.toNat / 2 ^ i % 2 = 1 := by
  rw [BitVec.getLsbD, Nat.testBit_eq_decide_div_mod_eq, decide_eq_true_iff]

/-! ## The header (R196) -/

theorem ofCode_eq_getElem (c : BitVec 3) :
    FrameClass.ofCode c
      = [FrameClass.report, .alert, .health, .mgmtRep, .mgmtReq, .quiet, .test][c.toNat]? := by
  decide +revert

/-- The class and the other header fields, as numbers of the bytes (R196). -/
theorem readHeader_fields (bs : List Byte) (b : Nat → Nat)
    (hb : b = fun n => (bs.getD n 0#8).toNat) :
    ((readHeader bs).mustZero = true ↔ b 0 / 16 % 2 = 1)
      ∧ (readHeader bs).hops.toNat = b 0 % 16
      ∧ ((readHeader bs).urgent = true ↔ 128 ≤ b 1)
      ∧ ((readHeader bs).fresh = true ↔ b 1 / 64 % 2 = 1)
      ∧ (readHeader bs).length = b 1 % 64
      ∧ (readHeader bs).origin.toNat = b 2 * 16 + b 3 / 16
      ∧ (readHeader bs).target.toNat = b 3 % 16 * 256 + b 4
      ∧ (readHeader bs).sequence.toNat = b 5 := by
  have hlt : ∀ n, b n < 256 := fun n => by rw [hb]; exact (bs.getD n 0#8).isLt
  have h1 := hlt 1
  have h3 := hlt 3
  have hget : ∀ n, (bs.getD n 0#8).toNat = b n := fun n => by rw [hb]
  unfold readHeader
  simp only [bit_eq_true_iff, extract_toNat, append_toNat, hget]
  refine ⟨Iff.rfl, ?_, ?_, Iff.rfl, ?_, ?_, ?_, trivial⟩ <;> omega

theorem isDevice_iff (a : Addr) : a.isDevice = true ↔ 1 ≤ a.toNat ∧ a.toNat ≤ 4094 := by
  have hlt : a.toNat < 4096 := a.isLt
  unfold Addr.isDevice
  simp only [Bool.and_eq_true, bne_iff_ne, ne_eq, ← BitVec.toNat_inj, BitVec.toNat_ofNat]
  omega

/-- The conditions of R24 on a header whose class is known. -/
theorem parseFrame_of_class {bs : List Byte} {c : FrameClass} (port : PortName)
    (hc : (readHeader bs).cls = some c) :
    parseFrame port bs
      = if (readHeader bs).mustZero = false ∧ (readHeader bs).length ≤ 56
            ∧ (readHeader bs).length + 6 = bs.length ∧ (readHeader bs).origin.isDevice = true
            ∧ c.fitsLength (readHeader bs).length = true then
          some
            { port := port
              cls := c
              urgent := (readHeader bs).urgent
              fresh := (readHeader bs).fresh
              hops := (readHeader bs).hops
              origin := (readHeader bs).origin
              target := (readHeader bs).target
              sequence := (readHeader bs).sequence
              payload := bs.drop 6 }
        else none := by
  unfold parseFrame
  simp only [hc]

theorem parseFrame_of_no_class {bs : List Byte} (port : PortName)
    (hc : (readHeader bs).cls = none) : parseFrame port bs = none := by
  unfold parseFrame
  simp only [hc]

/-- The payload lengths a class can have, by its code (R24, R197). -/
theorem fitsLength_iff {code : Nat} {c : FrameClass} (n : Nat)
    (hc : [FrameClass.report, .alert, .health, .mgmtRep, .mgmtReq, .quiet, .test][code]? = some c) :
    c.fitsLength n = true
      ↔ (code = 0 → n ≠ 0 ∧ n % 4 = 0) ∧ (code ≠ 0 → [0, 17, 25, 3, 2, 4, 1].getD code 0 ≤ n) := by
  have hlt : code < 7 := (List.getElem?_eq_some_iff.mp hc).1
  interval_cases code <;> cases hc <;>
    simp only [FrameClass.fitsLength, decide_eq_true_iff] <;> simp [FrameClass.fixedPart]

/-- What the classifier reads of a frame's bytes, and when it reads nothing (R24, R196). -/
theorem parseFrame_spec (port : PortName) (bs : List Byte) (b : Nat → Nat) (sound : Prop)
    (hb : b = fun n => (bs.getD n 0#8).toNat)
    (hsound : sound ↔ b 0 / 32 ≤ 6 ∧ b 0 / 16 % 2 = 0 ∧ b 1 % 64 ≤ 56 ∧ b 1 % 64 + 6 = bs.length
      ∧ 1 ≤ b 2 * 16 + b 3 / 16 ∧ b 2 * 16 + b 3 / 16 ≤ 4094
      ∧ (b 0 / 32 = 0 → b 1 % 64 ≠ 0 ∧ b 1 % 64 % 4 = 0)
      ∧ (b 0 / 32 ≠ 0 → [0, 17, 25, 3, 2, 4, 1].getD (b 0 / 32) 0 ≤ b 1 % 64)) :
    (¬ sound → parseFrame port bs = none)
      ∧ (sound → ∃ a, parseFrame port bs = some a ∧ a.port = port
          ∧ [FrameClass.report, .alert, .health, .mgmtRep, .mgmtReq, .quiet, .test][b 0 / 32]?
            = some a.cls
          ∧ a.hops.toNat = b 0 % 16 ∧ (a.urgent = true ↔ 128 ≤ b 1)
          ∧ (a.fresh = true ↔ b 1 / 64 % 2 = 1) ∧ a.origin.toNat = b 2 * 16 + b 3 / 16
          ∧ a.target.toNat = b 3 % 16 * 256 + b 4 ∧ a.sequence.toNat = b 5
          ∧ a.payload = bs.drop 6) := by
  obtain ⟨hzero, hhops, hurgent, hfresh, hlength, horigin, htarget, hsequence⟩ :=
    readHeader_fields bs b hb
  have hclass : (readHeader bs).cls = FrameClass.ofCode ((bs.getD 0 0#8).extractLsb' 5 3) := rfl
  have hcode : ((bs.getD 0 0#8).extractLsb' 5 3).toNat = b 0 / 32 := by
    have hlt : (bs.getD 0 0#8).toNat < 256 := (bs.getD 0 0#8).isLt
    have hget : (bs.getD 0 0#8).toNat = b 0 := by rw [hb]
    rw [hget] at hlt
    rw [extract_toNat, hget]
    omega
  by_cases hknown : b 0 / 32 ≤ 6
  · obtain ⟨c, hc⟩ : ∃ c, [FrameClass.report, .alert, .health, .mgmtRep, .mgmtReq, .quiet,
        .test][b 0 / 32]? = some c :=
      ⟨_, List.getElem?_eq_getElem (Nat.lt_succ_of_le hknown)⟩
    have hcls : (readHeader bs).cls = some c := by rw [hclass, ofCode_eq_getElem, hcode, hc]
    have hzeroFalse : (readHeader bs).mustZero = false ↔ b 0 / 16 % 2 = 0 := by
      rw [← Bool.not_eq_true, hzero]
      omega
    have hchecks : sound ↔ (readHeader bs).mustZero = false ∧ (readHeader bs).length ≤ 56
        ∧ (readHeader bs).length + 6 = bs.length ∧ (readHeader bs).origin.isDevice = true
        ∧ c.fitsLength (readHeader bs).length = true := by
      rw [hsound, hzeroFalse, hlength, isDevice_iff, horigin, fitsLength_iff _ hc]
      simp only [hknown, true_and, and_assoc]
    rw [parseFrame_of_class port hcls]
    refine ⟨fun hnot => if_neg (fun h => hnot (hchecks.mpr h)), fun h => ?_⟩
    exact ⟨_, if_pos (hchecks.mp h), rfl, hc, hhops, hurgent, hfresh, horigin, htarget, hsequence,
      rfl⟩
  · have hcls : (readHeader bs).cls = none := by
      rw [hclass, ofCode_eq_getElem, hcode, List.getElem?_eq_none (Nat.lt_of_not_le hknown)]
    exact ⟨fun _ => parseFrame_of_no_class port hcls, fun h => absurd (hsound.mp h).1 hknown⟩

/-! ## Classification and forwards (R24 to R26) -/

theorem classify_of_malformed {r : Relay} {port : PortName} {bs : List Byte}
    (h : parseFrame port bs = none) :
    r.classify port bs = r.countDrop (fun d => { d with malformed := bump d.malformed }) := by
  simp only [Relay.classify, h]

theorem classify_of_wrong {r : Relay} {port : PortName} {bs : List Byte} {a : Arrival}
    (h : parseFrame port bs = some a) (ht : takesClass port a.cls = false) :
    r.classify port bs
      = r.countDrop (fun d => { d with wrongDirection := bump d.wrongDirection }) := by
  simp only [Relay.classify, h, ht]
  rfl

theorem classify_of_taken {r : Relay} {port : PortName} {bs : List Byte} {a : Arrival}
    (h : parseFrame port bs = some a) (ht : takesClass port a.cls = true) :
    r.classify port bs = r.takeFrame a := by
  simp only [Relay.classify, h, ht, if_true]

theorem forward_of_zero {r : Relay} {a : Arrival} (lane : Lane) (h : a.hops = 0#4) :
    r.forward a lane = r.countDrop (fun d => { d with hopExpired := bump d.hopExpired }) :=
  if_pos h

theorem forward_of_hops {r : Relay} {a : Arrival} (lane : Lane) (h : a.hops ≠ 0#4) :
    r.forward a lane = (r.offer lane { frame := a.forwarded, maker := .other }).1 :=
  if_neg h

/-! ## Frames by their class (R28 to R31, R34) -/

theorem takeDown_of_assessing {r : Relay} {a : Arrival} (f : Relay → Relay)
    (h : r.store.mode = .assessing) : r.takeDown a f = f r :=
  if_pos h

theorem takeDown_of_not_assessing {r : Relay} {a : Arrival} (f : Relay → Relay)
    (h : r.store.mode ≠ .assessing) : r.takeDown a f = r.forward a (laneDown a.urgent) :=
  if_neg h

theorem takeFrame_of_report {r : Relay} {a : Arrival} (h : a.cls = .report) :
    r.takeFrame a = r.takeDown a (fun r => r.takeReport a) := by
  simp only [Relay.takeFrame, h]

theorem takeFrame_of_alert {r : Relay} {a : Arrival} (h : a.cls = .alert) :
    r.takeFrame a = r.takeDown a (fun r => r.takeAlert a) := by
  simp only [Relay.takeFrame, h]

theorem takeFrame_of_health {r : Relay} {a : Arrival} (h : a.cls = .health) :
    r.takeFrame a = r.takeDown a (fun r => r.takeHealth a) := by
  simp only [Relay.takeFrame, h]

theorem takeFrame_of_mgmtRep {r : Relay} {a : Arrival} (h : a.cls = .mgmtRep) :
    r.takeFrame a = r.forward a (laneDown a.urgent) := by
  simp only [Relay.takeFrame, h]

theorem takeFrame_of_mgmtReq {r : Relay} {a : Arrival} (h : a.cls = .mgmtReq) :
    r.takeFrame a = r.takeRequest a := by
  simp only [Relay.takeFrame, h]

theorem takeFrame_of_quiet {r : Relay} {a : Arrival} (h : a.cls = .quiet) :
    r.takeFrame a = r.takeQuiet a := by
  simp only [Relay.takeFrame, h]

/-- A frame travelling down outside ASSESSING mode is forwarded by its urgent mark (R34). -/
theorem takeFrame_of_not_assessing {r : Relay} {a : Arrival}
    (hcls : a.cls = .report ∨ a.cls = .alert ∨ a.cls = .health) (h : r.store.mode ≠ .assessing) :
    r.takeFrame a = r.forward a (laneDown a.urgent) := by
  rcases hcls with hcls | hcls | hcls
  · rw [takeFrame_of_report hcls, takeDown_of_not_assessing _ h]
  · rw [takeFrame_of_alert hcls, takeDown_of_not_assessing _ h]
  · rw [takeFrame_of_health hcls, takeDown_of_not_assessing _ h]

/-! ## Frames of a known station (R28, R30) -/

section
variable {r : Relay} {a : Arrival} {i : Fin 48} {c : StationConfig}

theorem takeFrame_report_known (hcls : a.cls = .report) (hmode : r.store.mode = .assessing)
    (hknown : r.lookup a.origin = some (i, c)) :
    r.takeFrame a
      = if (r.judgeFrame i c a.sequence a.fresh).2 then
          ((r.judgeFrame i c a.sequence a.fresh).1.takeReadings i c a.payload).forwardReport c a
        else (r.judgeFrame i c a.sequence a.fresh).1 := by
  rw [takeFrame_of_report hcls, takeDown_of_assessing _ hmode]
  simp only [Relay.takeReport, hknown, Relay.stationReport]

theorem takeFrame_alert_known (hcls : a.cls = .alert) (hmode : r.store.mode = .assessing)
    (hknown : r.lookup a.origin = some (i, c)) :
    r.takeFrame a
      = if (r.judgeFrame i c a.sequence a.fresh).2 then
          ((r.judgeFrame i c a.sequence a.fresh).1.when (c.role == .relay)
            (fun r => r.feederUpdate a.origin a.payload)).forward a .urgent
        else (r.judgeFrame i c a.sequence a.fresh).1 := by
  rw [takeFrame_of_alert hcls, takeDown_of_assessing _ hmode]
  simp only [Relay.takeAlert, hknown]

theorem takeFrame_health_known (hcls : a.cls = .health) (hmode : r.store.mode = .assessing)
    (hknown : r.lookup a.origin = some (i, c)) :
    r.takeFrame a
      = if (r.judgeFrame i c a.sequence a.fresh).2 then
          (r.judgeFrame i c a.sequence a.fresh).1.forward a (laneDown a.urgent)
        else (r.judgeFrame i c a.sequence a.fresh).1 := by
  rw [takeFrame_of_health hcls, takeDown_of_assessing _ hmode]
  simp only [Relay.takeHealth, hknown]

theorem takeFrame_not_accepted (hcls : a.cls = .report ∨ a.cls = .alert ∨ a.cls = .health)
    (hmode : r.store.mode = .assessing) (hknown : r.lookup a.origin = some (i, c))
    (h : (r.judgeFrame i c a.sequence a.fresh).2 = false) :
    r.takeFrame a = (r.judgeFrame i c a.sequence a.fresh).1 := by
  rcases hcls with hcls | hcls | hcls
  · rw [takeFrame_report_known hcls hmode hknown, h]
    rfl
  · rw [takeFrame_alert_known hcls hmode hknown, h]
    rfl
  · rw [takeFrame_health_known hcls hmode hknown, h]
    rfl

end

theorem one_le_rank_iff (l : Level) : 1 ≤ l.rank ↔ l ≠ .calm := by
  cases l <;> decide

theorem roleAlert_iff (r : Relay) (role : Role) :
    r.roleAlert role = true
      ↔ ∃ b, role.barrier = some b ∧ (r.barriers.get b).level ≠ .calm := by
  unfold Relay.roleAlert
  cases role.barrier with
  | none => simp
  | some b => simp [one_le_rank_iff]

theorem forwardReport_of_none {r : Relay} {c : StationConfig} (a : Arrival)
    (h : c.forwarding = .none) : r.forwardReport c a = r := by
  simp only [Relay.forwardReport, h]

theorem forwardReport_of_routine {r : Relay} {c : StationConfig} (a : Arrival)
    (h : c.forwarding = .routine) : r.forwardReport c a = r.forward a (laneDown a.urgent) := by
  simp only [Relay.forwardReport, h]

theorem forwardReport_of_eventUrgent {r : Relay} {c : StationConfig} (a : Arrival)
    (h : c.forwarding = .eventUrgent) :
    (r.roleAlert c.role = true → r.forwardReport c a = r.forward a .urgent)
      ∧ (r.roleAlert c.role = false →
          r.forwardReport c a = r.forward a (laneDown a.urgent)) := by
  simp only [Relay.forwardReport, h]
  exact ⟨fun hb => by rw [hb, Bool.or_true]; rfl, fun hb => by rw [hb, Bool.or_false]⟩

/-! ## Feeders (R125, R126) -/

theorem finOf_val {n : Nat} (k : Fin n) : finOf n k.val = some k :=
  dif_pos k.isLt

theorem finOf_of_ge {n x : Nat} (h : n ≤ x) : finOf n x = none :=
  dif_neg (Nat.not_lt.mpr h)

theorem Level.ofCode_rank (v : Level) : Level.ofCode v.rank = some v := by
  cases v <;> rfl

theorem Level.ofCode_of_ge {n : Nat} (h : 4 ≤ n) : Level.ofCode n = none := by
  obtain ⟨m, rfl⟩ := Nat.exists_eq_add_of_le' h
  rfl

theorem feederUpdate_of_codes {r : Relay} {origin : Addr} {payload : List Byte} {k : Fin 8}
    {v : Level} (hk : (payload.getD 0 0#8).toNat = k.val)
    (hv : (payload.getD 1 0#8).toNat = v.rank) :
    r.feederUpdate origin payload = (List.finRange 8).foldl
      (fun t b => if (t.tables.barriers.get b).feeder = some (origin, k) then t.feedBarrier b v
        else t) r := by
  simp only [Relay.feederUpdate, byteAt, hk, hv, finOf_val, Level.ofCode_rank, Relay.when,
    beq_iff_eq]

theorem feederUpdate_of_unknown {r : Relay} {origin : Addr} {payload : List Byte}
    (h : 8 ≤ (payload.getD 0 0#8).toNat ∨ 4 ≤ (payload.getD 1 0#8).toNat) :
    r.feederUpdate origin payload = r := by
  unfold Relay.feederUpdate
  rcases h with h | h
  · rw [byteAt, finOf_of_ge h]
  · rw [byteAt, byteAt, Level.ofCode_of_ge h]
    split
    · next hv => cases hv
    · rfl

theorem feedBarrier_of_same {r : Relay} {b : Fin 8} {v : Level}
    (h : (r.barriers.get b).feeder.map Prod.fst = some v) :
    r.feedBarrier b v = r.setBarrier b { r.barriers.get b with feeder := some (v, false) } := by
  obtain ⟨⟨held, stale⟩, hfeeder, rfl⟩ := Option.map_eq_some_iff.mp h
  simp [Relay.feedBarrier, hfeeder]

theorem feedBarrier_of_other {r : Relay} {b : Fin 8} {v : Level}
    (h : (r.barriers.get b).feeder.map Prod.fst ≠ some v) :
    r.feedBarrier b v
      = (r.setBarrier b { r.barriers.get b with feeder := some (v, false) }).evaluate b := by
  cases hfeeder : (r.barriers.get b).feeder with
  | none => simp [Relay.feedBarrier, hfeeder]
  | some f =>
    obtain ⟨held, stale⟩ := f
    have hne : held ≠ v := fun e => h (by rw [hfeeder, e]; rfl)
    simp [Relay.feedBarrier, hfeeder, hne]

/-! ## Requests as rows and as frames (R31, R165; log 21) -/

theorem exec_of_request {c : Instr} {origin : Addr} {tag : Byte} {code : Nat} {args : List Byte}
    (h : requestOf c = some (origin, tag, code, args)) (s : State) :
    exec c s = s.onRelay (fun r => r.command origin tag code args) := by
  cases c <;> cases h <;> rfl

theorem handRequest_of_payload {r : Relay} {a : Arrival} {code : Nat} {tag : Byte}
    {args : List Byte} (h : a.payload = byte code :: tag :: args) :
    r.handRequest a = r.request ⟨a.origin, byte code, tag⟩ args := by
  rw [Relay.handRequest, h]
  rfl

/-! ## The statement -/

theorem takesClass_iff (port : PortName) (c : FrameClass) : takesClass port c = true ↔
    (port = .lower ∧ (c = .mgmtReq ∨ c = .quiet ∨ c = .test))
      ∨ (port = .upper ∧ (c = .report ∨ c = .alert ∨ c = .health ∨ c = .mgmtRep ∨ c = .test))
      ∨ (port = .field ∧ c = .report) := by
  cases port <;> cases c <;> decide

theorem takeRequest_by_target (r : Relay) (a : Arrival) :
    (a.target = r.store.own → r.takeRequest a = r.handRequest a)
      ∧ (a.target ≠ r.store.own → a.target = 4095#12 → a.payload.getD 0 0#8 ≠ 14#8 →
          r.takeRequest a = (r.handRequest a).forward a .up)
      ∧ (a.target ≠ r.store.own → a.target = 4095#12 → a.payload.getD 0 0#8 = 14#8 →
          r.takeRequest a = (r.forward a .up).handRequest a)
      ∧ (a.target ≠ r.store.own → a.target ≠ 4095#12 → r.takeRequest a = r.forward a .up) := by
  unfold Relay.takeRequest
  refine ⟨fun hown => if_pos hown, fun hown hall hcode => ?_, fun hown hall hcode => ?_,
    fun hown hall => ?_⟩
  · rw [if_neg hown, if_pos hall, if_neg hcode]
  · rw [if_neg hown, if_pos hall, if_pos hcode]
  · rw [if_neg hown, if_neg hall]

/-- Settles O27, clause by clause: the checks, the forward, the frames of a known station, the
feeder update, the other frames, the header, and the requests that come as rows. -/
theorem framesAreClassifiedAndForwarded : Obligations.FramesAreClassifiedAndForwarded := by
  refine ⟨⟨fun r port bs => ⟨fun h => ?malformed, fun a h => ⟨fun ht => ?wrong, fun ht => ?taken⟩⟩,
    takesClass_iff, fun r a lane => ⟨fun h => ?hopsZero, fun h => ?hopsLeft⟩, ?known, ?feeders,
    ?others⟩, ?header, ?rows⟩
  case malformed => exact classify_of_malformed h
  case wrong => exact classify_of_wrong h ht
  case taken => exact classify_of_taken h ht
  case hopsZero => exact forward_of_zero lane h
  case hopsLeft => exact forward_of_hops lane h
  case known =>
    intro r a lane i c judged hlane hmode hknown hjudged
    have hdown : laneDown a.urgent = lane := hlane.symm
    subst hjudged
    refine ⟨fun hcls => takeFrame_not_accepted hcls hmode hknown, fun read hcls hacc hread => ?_,
      fun hcls hacc => ?_, fun hcls hacc => ?_⟩
    · have htake : r.takeFrame a = read.forwardReport c a := by
        rw [takeFrame_report_known hcls hmode hknown, if_pos hacc, hread]
        rfl
      rw [htake]
      refine ⟨forwardReport_of_none a, fun h => ?_, fun h => ⟨fun hb => ?_, fun hb => ?_⟩⟩
      · rw [forwardReport_of_routine a h, hdown]
      · rw [(forwardReport_of_eventUrgent a h).1 ((roleAlert_iff _ _).mpr hb)]
      · have hcalm : read.roleAlert c.role = false := by
          rw [← Bool.not_eq_true, roleAlert_iff]
          rintro ⟨b, hrole, hlevel⟩
          exact hlevel (hb b hrole)
        rw [(forwardReport_of_eventUrgent a h).2 hcalm, hdown]
    · rw [takeFrame_alert_known hcls hmode hknown, if_pos hacc]
      refine ⟨fun hrole => ?_, fun hrole => ?_⟩
      · simp [Relay.when, hrole]
      · simp [Relay.when, hrole]
    · rw [takeFrame_health_known hcls hmode hknown, if_pos hacc, hdown]
  case feeders =>
    intro r origin payload
    refine ⟨fun k v hk hv => feederUpdate_of_codes hk hv, feederUpdate_of_unknown,
      fun b v fed hfed => ⟨fun h => ?_, fun h => ?_⟩⟩
    · rw [feedBarrier_of_same h, hfed]
    · rw [feedBarrier_of_other h, hfed]
  case others =>
    intro r a lane hlane
    have hdown : laneDown a.urgent = lane := hlane.symm
    refine ⟨fun hcls hmode hunknown => ?_, fun hcls hmode hunknown => ?_, fun hcls hmode => ?_,
      fun hcls => ?_, fun bin hcls hmode hunknown hbin => ?_, fun hcls => ?_, fun hcls hmode => ?_,
      fun hcls hmode => ?_⟩
    · rw [takeFrame_of_alert hcls, takeDown_of_assessing _ hmode]
      simp only [Relay.takeAlert, hunknown]
    · rw [takeFrame_of_health hcls, takeDown_of_assessing _ hmode]
      simp only [Relay.takeHealth, hunknown, hdown]
    · rw [takeFrame_of_not_assessing hcls hmode, hdown]
    · rw [takeFrame_of_mgmtRep hcls, hdown]
    · have hforeign : r.takeFrame a = r.foreignReport a := by
        rw [takeFrame_of_report hcls, takeDown_of_assessing _ hmode]
        simp only [Relay.takeReport, hunknown]
      have hbinOf : foreignBin a.origin = bin := hbin.symm
      rw [hforeign, Relay.foreignReport, hbinOf, hdown]
      exact ⟨fun hset => if_pos hset, fun hclear => if_neg (by rw [hclear]; decide)⟩
    · rw [takeFrame_of_mgmtReq hcls]
      exact takeRequest_by_target r a
    · rw [takeFrame_of_quiet hcls]
      simp [Relay.takeQuiet, Relay.when, hmode]
    · rw [takeFrame_of_quiet hcls]
      simp [Relay.takeQuiet, Relay.when, hmode]
  case header =>
    rintro port bs b len origin code sound hb rfl rfl rfl hsound
    exact parseFrame_spec port bs b sound hb hsound
  case rows =>
    intro c r q a tag code args hrequest ha hpayload
    rw [exec_awake (f := fun r => r.request ⟨a.origin, byte code, tag⟩ args)
      (fun s => exec_of_request hrequest s) ha, handRequest_of_payload hpayload]

end Sys2Proof.Machine

/-! SUPPORT. The line-test generator: the frame it makes, the end of its outstanding frame, and the
requests that start and stop a run (R19, R20, R177). -/

namespace Sys2Proof.Machine

/-! ## What an offer leaves -/

@[simp] theorem take_generator (r : Relay) (p : LinkPort) : (r.take p).generator = r.generator := by
  rcases take_cases r p with h | ⟨b, pool, -, -, h⟩
  · rw [h]
  · rw [h]
    cases p <;> rfl

@[simp] theorem take_emitter (r : Relay) (p : LinkPort) : (r.take p).emitter = r.emitter := by
  rcases take_cases r p with h | ⟨b, pool, -, -, h⟩
  · rw [h]
  · rw [h]
    cases p <;> rfl

theorem offerRoutine_keeps (r : Relay) (b : Buffer) :
    (r.offerRoutine b).1.generator = r.generator ∧ (r.offerRoutine b).1.emitter = r.emitter := by
  cases h : r.pool.joinRoutine r.routineCap b with
  | none =>
    rw [offerRoutine_of_refused h]
    exact ⟨rfl, rfl⟩
  | some pool =>
    rw [offerRoutine_of_joined h]
    exact ⟨take_generator _ _, take_emitter _ _⟩

theorem offerUp_keeps (r : Relay) (b : Buffer) :
    (r.offerUp b).1.generator = r.generator ∧ (r.offerUp b).1.emitter = r.emitter := by
  cases h : r.pool.joinUp b with
  | none =>
    rw [offerUp_of_refused h]
    exact ⟨rfl, rfl⟩
  | some pool =>
    rw [offerUp_of_joined h]
    exact ⟨take_generator _ _, take_emitter _ _⟩

theorem offerTest_keeps (r : Relay) (p : LinkPort) (b : Buffer) :
    (r.offerTest p b).1.generator = r.generator ∧ (r.offerTest p b).1.emitter = r.emitter
      ∧ (r.offerTest p b).1.clock = r.clock := by
  have hclock := (offerTest_handOver r p b).clock
  cases p with
  | upper => exact ⟨(offerUp_keeps r b).1, (offerUp_keeps r b).2, hclock⟩
  | lower => exact ⟨(offerRoutine_keeps r b).1, (offerRoutine_keeps r b).2, hclock⟩

/-! ## The TEST frame (R19) -/

/-- The TEST frame that the generator makes next, in its buffer (R19). -/
def Relay.testBuffer (r : Relay) (q : TestParams) : Buffer where
  frame :=
    { cls := .test
      urgent := false
      fresh := decide (r.emitter.fresh < 4)
      hops := 0#4
      origin := r.store.own
      target := q.target
      sequence := r.emitter.sequence
      payload := testPattern q.length r.generator.seed }
  maker := .testRun r.generator.run

theorem makeTestFrame_of_params {r : Relay} {q : TestParams} (h : r.generator.params = some q) :
    ((r.offerTest q.port (r.testBuffer q)).2 = true →
        r.makeTestFrame
          = ((r.offerTest q.port (r.testBuffer q)).1.setEmitter
            { r.emitter with
              sequence := r.emitter.sequence + 1#8
              fresh := min (r.emitter.fresh + 1) 4 }).setGenerator
            { r.generator with
              seed := r.generator.seed + 1#8
              outstanding := true
              gapTimer := none })
      ∧ ((r.offerTest q.port (r.testBuffer q)).2 = false →
        r.makeTestFrame = (r.offerTest q.port (r.testBuffer q)).1.setGenerator
          { r.generator with gapTimer := some (r.clock.ms + max 1 q.gap * 100) }) := by
  obtain ⟨hgenerator, hemitter, hclock⟩ := offerTest_keeps r q.port (r.testBuffer q)
  have hmake : r.makeTestFrame
      = if (r.offerTest q.port (r.testBuffer q)).2 then
          (r.offerTest q.port (r.testBuffer q)).1.countAdmitted.setGenerator
            { r.generator with
              seed := r.generator.seed + 1#8
              outstanding := true
              gapTimer := none }
        else (r.offerTest q.port (r.testBuffer q)).1.startGap (max 1 q.gap) := by
    simp only [Relay.makeTestFrame, h]
    rfl
  refine ⟨fun hin => ?_, fun hout => ?_⟩
  · rw [hmake, if_pos hin, Relay.countAdmitted, hemitter]
  · rw [hmake, hout, if_neg Bool.false_ne_true, Relay.startGap, Relay.instant, hgenerator, hclock]

/-- A TEST frame for LOWER waits in the routine queue where the transmitter is not UP (R19, R42). -/
theorem makeTestFrame_waits {g : Relay} {q : TestParams} (hparams : g.generator.params = some q)
    (hport : q.port = .lower) (hlink : g.lower.link ≠ .up)
    (hcap : g.pool.routine.length < g.routineCap) (hfree : 0 < g.pool.free) :
    g.makeTestFrame
      = ((g.setPool { g.pool with
            free := g.pool.free - 1, routine := g.pool.routine ++ [g.testBuffer q] }).setEmitter
          { g.emitter with
            sequence := g.emitter.sequence + 1#8
            fresh := min (g.emitter.fresh + 1) 4 }).setGenerator
          { g.generator with
            seed := g.generator.seed + 1#8
            outstanding := true
            gapTimer := none } := by
  have htake (pool : Pool) : (g.setPool pool).take .lower = g.setPool pool :=
    take_of_busy (Or.inl hlink)
  have hoffer : g.offerTest q.port (g.testBuffer q)
      = (g.setPool { g.pool with
          free := g.pool.free - 1, routine := g.pool.routine ++ [g.testBuffer q] }, true) := by
    rw [hport]
    refine (offerRoutine_of_joined (joinRoutine_of_room _ hcap hfree)).trans ?_
    rw [htake]
  rw [(makeTestFrame_of_params hparams).1 (congrArg Prod.snd hoffer), hoffer]

theorem makeTestFrame_refused_lower {g : Relay} {q : TestParams}
    (hparams : g.generator.params = some q) (hport : q.port = .lower)
    (hfull : ¬ (g.pool.routine.length < g.routineCap ∧ 0 < g.pool.free)) :
    g.makeTestFrame
      = (g.countDrop (fun d => { d with routineDrops := bump d.routineDrops })).setGenerator
          { g.generator with gapTimer := some (g.clock.ms + max 1 q.gap * 100) } := by
  have hoffer : g.offerTest q.port (g.testBuffer q)
      = (g.countDrop (fun d => { d with routineDrops := bump d.routineDrops }), false) := by
    rw [hport]
    exact offerRoutine_of_refused (joinRoutine_of_no_room _ hfull)
  rw [(makeTestFrame_of_params hparams).2 (congrArg Prod.snd hoffer), hoffer]

theorem makeTestFrame_refused_upper {g : Relay} {q : TestParams}
    (hparams : g.generator.params = some q) (hport : q.port = .upper)
    (hfull : ¬ (g.pool.up.length < 8 ∧ 0 < g.pool.free)) :
    g.makeTestFrame
      = (g.countDrop (fun d => { d with upDrops := bump d.upDrops })).setGenerator
          { g.generator with gapTimer := some (g.clock.ms + max 1 q.gap * 100) } := by
  have hoffer : g.offerTest q.port (g.testBuffer q)
      = (g.countDrop (fun d => { d with upDrops := bump d.upDrops }), false) := by
    rw [hport]
    exact offerUp_of_refused (joinUp_of_no_room _ hfull)
  rw [(makeTestFrame_of_params hparams).2 (congrArg Prod.snd hoffer), hoffer]

theorem testPattern_eq (n : Nat) (seed : Byte) :
    testPattern n seed = (List.range n).map (fun k => (fun x => 5#8 * x + 1#8)^[k] seed) := by
  induction n generalizing seed with
  | zero => rfl
  | succ n ih =>
    rw [testPattern, ih, List.range_succ_eq_map, List.map_cons, List.map_map]
    rfl

theorem exec_testGapExpiry {r : Relay} (ha : r.awake = true) (hrun : r.generator.running = true)
    (hdue : ∃ e, r.generator.gapTimer = some e ∧ e ≤ r.clock.ms) (q : List Instr) :
    exec .testGapExpiry ⟨r, q⟩
      = .next ⟨(r.setGenerator { r.generator with gapTimer := none }).makeTestFrame, q⟩ := by
  obtain ⟨e, hgap, he⟩ := hdue
  refine (exec_awake (f := Relay.gapExpired) (fun _ => rfl) ha).trans ?_
  rw [Relay.gapExpired, if_pos]
  rw [hrun, Bool.true_and]
  exact reached_of_le hgap he

/-! ## The end of the outstanding frame (R19, R20) -/

theorem testFrameFinished_of_other {r : Relay} {run : Nat}
    (h : r.generator.params = none ∨ r.generator.running = false
      ∨ r.generator.outstanding = false ∨ run ≠ r.generator.run) :
    r.testFrameFinished run = r := by
  unfold Relay.testFrameFinished
  split
  · rfl
  · next q hq =>
    refine if_neg ?_
    rintro ⟨hrun, hout, hnumber⟩
    rcases h with h | h | h | h
    · rw [hq] at h
      cases h
    · exact Bool.false_ne_true (h.symm.trans hrun)
    · exact Bool.false_ne_true (h.symm.trans hout)
    · exact h hnumber

theorem testFrameFinished_of_present {r : Relay} {run : Nat} {p : TestParams}
    (hparams : r.generator.params = some p) (hrun : r.generator.running = true)
    (hout : r.generator.outstanding = true) (hnumber : run = r.generator.run) :
    r.testFrameFinished run
      = if p.count ≠ 0 ∧ bump r.generator.finished = p.count then r.countFinished.endRun .done
        else if p.gap = 0 then r.countFinished.makeTestFrame
        else r.countFinished.startGap p.gap := by
  simp only [Relay.testFrameFinished, hparams]
  exact if_pos ⟨hrun, hout, hnumber⟩

/-! ## LINE-TEST and LINE-TEST-STOP (R177) -/

theorem byte_toNat {n : Nat} (h : n < 256) : (byte n).toNat = n := by
  rw [byte, BitVec.toNat_ofNat]
  exact Nat.mod_eq_of_lt h

/-- Two bytes read back as the number they spell (R194). -/
theorem be2_toNat {n : Nat} (h : n < 65536) :
    (byte (n / 256)).toNat * 256 + (byte n).toNat = n := by
  simp only [byte, BitVec.toNat_ofNat]
  omega

/-- The parameters that the bytes of a LINE-TEST spell (R197). -/
def testParams (port length gap : Byte) (count target : BitVec 16) : TestParams where
  port := if port = 0#8 then .upper else .lower
  count := count.toNat
  length := length.toNat
  gap := gap.toNat
  target := BitVec.ofNat 12 target.toNat

theorem toNat_eq_zero_iff (x : Byte) : x.toNat = 0 ↔ x = 0#8 := by
  rw [← BitVec.toNat_inj]
  rfl

theorem checkLineTest_eq (port length gap : Byte) (count target : BitVec 16) :
    checkLineTest (port :: be2 count.toNat ++ length :: gap :: be2 target.toNat)
      = if port.toNat ≤ 1 ∧ within 1 56 length.toNat = true ∧ target.toNat ≤ 4094 then
          .ok (.lineTest (testParams port length gap count target))
        else .error .badField := by
  have hcount : (byte (count.toNat / 256)).toNat * 256 + (byte count.toNat).toNat = count.toNat :=
    be2_toNat count.isLt
  have htarget : (byte (target.toNat / 256)).toNat * 256 + (byte target.toNat).toNat
      = target.toNat := be2_toNat target.isLt
  simp only [checkLineTest, testParams, byteAt, pairAt, be2, List.cons_append, List.nil_append,
    List.getD_cons_zero, List.getD_cons_succ, hcount, htarget, toNat_eq_zero_iff]

theorem within_iff (lo hi x : Nat) : within lo hi x = true ↔ lo ≤ x ∧ x ≤ hi := by
  simp [within]

theorem lineTest_sized (port length gap : Byte) (count target : BitVec 16) :
    wellSized (byte 11).toNat (port :: be2 count.toNat ++ length :: gap :: be2 target.toNat)
      = true :=
  rfl

@[simp] theorem counted_generator (r : Relay) : r.counted.generator = r.generator :=
  rfl

theorem highestLevel_counted (r : Relay) : r.counted.highestLevel = r.highestLevel :=
  rfl

theorem carryLineTest_of_event {r : Relay} (q : Sender) (p : TestParams)
    (h : r.highestLevel ≠ .calm ∨ r.store.band ≠ .normal) :
    r.carryLineTest q p = r.reply q .event [] :=
  if_pos (h.imp_left (one_le_rank_iff _).mpr)

theorem carryLineTest_of_calm {r : Relay} (q : Sender) (p : TestParams)
    (hlevel : r.highestLevel = .calm) (hband : r.store.band = .normal) :
    r.carryLineTest q p
      = if r.generator.running then r.reply q .busy [] else (r.startRun p).reply q .done [] :=
  if_neg (not_or.mpr ⟨by rw [hlevel]; decide, not_not.mpr hband⟩)

theorem lineTestStop_checked (r : Relay) :
    r.checkArgs (byte 12).toNat [] = .ok .lineTestStop :=
  rfl

/-! ## The statements -/

/-- Settles O28: the general offer decides, and a frame that waits behind a port that is not UP is
not taken. -/
theorem gapExpiryMakesTheNextTestFrame : Obligations.GapExpiryMakesTheNextTestFrame := by
  refine ⟨fun r q p e ha hrun hparams hgap hdue => ?expiry, fun r q ha hrun hdue => ?exact,
    testPattern_eq, fun r p b offered hparams hb hlower hupper => ?made, ?finished⟩
  case expiry =>
    have hexec := exec_testGapExpiry ha hrun ⟨e, hgap, hdue⟩ q
    have hmade : ∀ t, (r.setGenerator { r.generator with gapTimer := none }).makeTestFrame = t →
        exec .testGapExpiry ⟨r, q⟩ = .next ⟨t, q⟩ := fun t ht => ht ▸ hexec
    exact ⟨fun hport hlink hcap hfree =>
        hmade _ (makeTestFrame_waits (g := r.setGenerator _) hparams hport hlink hcap hfree),
      fun hport hfull =>
        hmade _ (makeTestFrame_refused_lower (g := r.setGenerator _) hparams hport hfull),
      fun hport hfull =>
        hmade _ (makeTestFrame_refused_upper (g := r.setGenerator _) hparams hport hfull)⟩
  case exact => exact exec_testGapExpiry ha hrun hdue q
  case made =>
    have hoffered : offered = r.offerTest p.port (r.testBuffer p) := by
      subst hb
      cases hport : p.port with
      | upper => exact hupper hport
      | lower => exact hlower hport
    rw [hoffered]
    exact makeTestFrame_of_params hparams
  case finished =>
    intro r run done hdone
    have hbump : bump r.generator.finished = done := hdone.symm
    refine ⟨testFrameFinished_of_other, fun p hparams hrun hout hnumber => ?_⟩
    rw [testFrameFinished_of_present hparams hrun hout hnumber, hbump]
    refine ⟨fun hcount hlast => ?_, fun hmore hgap => ?_, fun hmore hgap => ?_⟩
    · rw [if_pos ⟨hcount, hlast⟩, hdone]
      rfl
    · rw [if_neg (by omega), if_pos hgap, hdone]
      rfl
    · rw [if_neg (by omega), if_neg hgap, hdone]
      rfl

/-- Settles O30: the argument check first, then the event, the run and the outcome. -/
theorem lineTestIsDecidedAndStopped : Obligations.LineTestIsDecidedAndStopped := by
  intro r q origin tag hserves
  refine ⟨fun port length gap count target hport hlow hhigh htarget => ?decided,
    fun port length gap count target hbad => ?badField, fun hrun => ?stops, fun hrun => ?stopped⟩
  case decided =>
    have hcheck : r.counted.checkArgs (byte 11).toNat
        (port :: be2 count.toNat ++ length :: gap :: be2 target.toNat)
          = .ok (.lineTest (testParams port length gap count target)) :=
      (checkLineTest_eq port length gap count target).trans
        (if_pos ⟨hport, (within_iff _ _ _).mpr ⟨hlow, hhigh⟩, htarget⟩)
    have hexec : exec (.lineTest origin tag port count length gap target) ⟨r, q⟩
        = .next ⟨r.counted.carryLineTest ⟨origin, 11#8, tag⟩
            (testParams port length gap count target), q⟩ :=
      exec_carryOut (exec_of_request rfl) hserves (lineTest_sized _ _ _ _ _) hcheck
    rw [hexec]
    refine ⟨fun hevent => ?_, fun hlevel hband hrun => ?_, fun hlevel hband hrun => ?_⟩
    · rw [carryLineTest_of_event (r := r.counted) _ _ hevent]
    · rw [carryLineTest_of_calm (r := r.counted) _ _ hlevel hband, counted_generator, if_pos hrun]
    · rw [carryLineTest_of_calm (r := r.counted) _ _ hlevel hband, counted_generator, hrun]
      rfl
  case badField =>
    have hcheck : r.counted.checkArgs (byte 11).toNat
        (port :: be2 count.toNat ++ length :: gap :: be2 target.toNat) = .error .badField := by
      refine (checkLineTest_eq port length gap count target).trans (if_neg ?_)
      rw [within_iff]
      omega
    exact exec_refused (exec_of_request rfl) hserves (lineTest_sized _ _ _ _ _) hcheck (by decide)
  case stops =>
    refine (exec_carryOut (exec_of_request rfl) hserves rfl (lineTestStop_checked _)).trans ?_
    simp only [Relay.carryOut, Relay.carryLineTestStop, Relay.when, counted_generator, hrun]
    rfl
  case stopped =>
    refine (exec_carryOut (exec_of_request rfl) hserves rfl (lineTestStop_checked _)).trans ?_
    simp only [Relay.carryOut, Relay.carryLineTestStop, Relay.when, counted_generator, hrun,
      Bool.false_eq_true, if_false, Generator.outcomeByte]
    cases r.generator.last with
    | none => rfl
    | some o => cases o <;> rfl

end Sys2Proof.Machine

/-! SUPPORT. The station table and the silence monitor: sequence acceptance, hearing, missed
deadlines, and what an applied reading does (R35, R49 to R56, R65 to R76). -/

namespace Sys2Proof.Machine

/-! ## Gauges and sighting (R76, R78) -/

theorem gaugeBarrier_of_gauge {c : StationConfig} {b : Fin 8} {e f : Nat}
    (h : c.role = .gauge b e f) : gaugeBarrier (some c) = some b := by
  obtain ⟨address, role, interval⟩ := c
  cases h
  rfl

theorem gaugeBarrier_eq_some_iff (x : Option StationConfig) (b : Fin 8) :
    gaugeBarrier x = some b ↔ ∃ c e f, x = some c ∧ c.role = .gauge b e f := by
  constructor
  · intro h
    cases x with
    | none => cases h
    | some c =>
      obtain ⟨address, role, interval⟩ := c
      cases role with
      | gauge b' e f =>
        cases h
        exact ⟨_, e, f, rfl, rfl⟩
      | wire _ _ => cases h
      | shake _ => cases h
      | rain _ => cases h
      | relay => cases h
  · rintro ⟨c, e, f, rfl, h⟩
    exact gaugeBarrier_of_gauge h

theorem gaugeBarrier_of_not_gauge {c : StationConfig} (h : ∀ b e f, c.role ≠ .gauge b e f) :
    gaugeBarrier (some c) = none := by
  rw [Option.eq_none_iff_forall_ne_some]
  intro b hb
  obtain ⟨c', e, f, hc, hrole⟩ := (gaugeBarrier_eq_some_iff _ _).mp hb
  cases hc
  exact h b e f hrole

theorem readable_iff (d : StationDyn) :
    d.readable = true ↔ ∃ v grade, d.lastReading = some (v, grade) ∧ grade ≠ .fault := by
  unfold StationDyn.readable
  cases d.lastReading with
  | none => simp
  | some x =>
    obtain ⟨v, grade⟩ := x
    simp

theorem hearable_iff (d : StationDyn) :
    d.hearable = true ↔ d.state = .live ∨ (d.state = .late ∧ d.heard = true) := by
  unfold StationDyn.hearable
  cases d.state <;> simp

theorem sighting_iff (d : StationDyn) :
    d.sighting = true ↔ (d.state = .live ∨ (d.state = .late ∧ d.heard = true)) ∧ d.smoothed ≠ none
      ∧ ∃ v grade, d.lastReading = some (v, grade) ∧ grade ≠ .fault := by
  rw [StationDyn.sighting, Bool.and_eq_true, Bool.and_eq_true, hearable_iff, readable_iff,
    Option.isSome_iff_ne_none, and_assoc]

theorem sighting_of_no_fill {d : StationDyn} (h : d.smoothed = none) : d.sighting = false := by
  rw [StationDyn.sighting, h]
  simp

theorem setSighting_of_same {r : Relay} {i : Fin 48} {d : StationDyn}
    (h : d.sighting = (r.stations.get i).sighting) : r.setSighting i d = r.setStation i d := by
  unfold Relay.setSighting
  split
  · exact if_pos h
  · rfl

theorem setSighting_of_not_gauge {r : Relay} {i : Fin 48} {d : StationDyn}
    (h : gaugeBarrier (r.tables.stations.get i) = none) :
    r.setSighting i d = r.setStation i d := by
  simp only [Relay.setSighting, h]

theorem setSighting_of_changed {r : Relay} {i : Fin 48} {d : StationDyn} {b : Fin 8}
    (hgauge : gaugeBarrier (r.tables.stations.get i) = some b)
    (h : d.sighting ≠ (r.stations.get i).sighting) :
    r.setSighting i d = (r.setStation i d).remeasure b none := by
  simp only [Relay.setSighting, hgauge, if_neg h]

/-! ## Sequence acceptance and hearing (R35, R49, R65) -/

theorem judgeFrame_of_accepted {r : Relay} {i : Fin 48} {n : Byte} {fresh : Bool}
    (c : StationConfig) (h : (r.stations.get i).judge n fresh = .accepted) :
    r.judgeFrame i c n fresh = (r.acceptFrame i c n, true) := by
  simp only [Relay.judgeFrame, h]

theorem judgeFrame_of_duplicate {r : Relay} {i : Fin 48} {n : Byte} {fresh : Bool}
    (c : StationConfig) (h : (r.stations.get i).judge n fresh = .duplicate) :
    r.judgeFrame i c n fresh
      = (r.countStation i (fun k => { k with duplicates := bump k.duplicates }), false) := by
  simp only [Relay.judgeFrame, h]

theorem judgeFrame_of_old {r : Relay} {i : Fin 48} {n : Byte} {fresh : Bool}
    (c : StationConfig) (h : (r.stations.get i).judge n fresh = .old) :
    r.judgeFrame i c n fresh
      = (r.countStation i (fun k => { k with oldSequence := bump k.oldSequence }), false) := by
  simp only [Relay.judgeFrame, h]

theorem judge_of_same {d : StationDyn} {n : Byte} (fresh : Bool) (h : d.lastSeq = some n) :
    d.judge n fresh = .duplicate := by
  simp only [StationDyn.judge, h, if_true]

theorem judge_of_behind {d : StationDyn} {n l : Byte} (h : d.lastSeq = some l)
    (hfar : 128 ≤ (n - l).toNat) (hstate : d.state ≠ .silent) : d.judge n false = .old := by
  have hne : n ≠ l := by
    rintro rfl
    rw [BitVec.sub_self] at hfar
    exact absurd hfar (by decide)
  have hahead : ¬ (n - l).toNat ≤ 127 := by omega
  simp only [StationDyn.judge, h, if_neg hne, if_neg hahead, Bool.false_eq_true, false_or,
    if_neg hstate]

theorem judge_of_first {d : StationDyn} (n : Byte) (fresh : Bool) (h : d.lastSeq = none) :
    d.judge n fresh = .accepted := by
  simp only [StationDyn.judge, h]

theorem judge_of_next {d : StationDyn} {n l : Byte} {fresh : Bool} (h : d.lastSeq = some l)
    (hne : n ≠ l) (hnext : (n - l).toNat ≤ 127 ∨ fresh = true ∨ d.state = .silent) :
    d.judge n fresh = .accepted := by
  simp only [StationDyn.judge, h, if_neg hne]
  rcases hnext with hahead | hagain
  · exact if_pos hahead
  · rw [if_pos hagain, ite_self]

theorem deadlineFrom_of_unwatched {c : StationConfig} (grace now : Nat) (h : c.interval = 0) :
    c.deadlineFrom grace now = none :=
  if_pos h

theorem deadlineFrom_of_watched {c : StationConfig} (grace now : Nat) (h : c.interval ≠ 0) :
    c.deadlineFrom grace now = some (now + c.interval + grace * c.interval / 100) :=
  if_neg h

/-! ## Missed deadlines (R66, R68 to R70) -/

theorem exec_stationDeadlineExpiry {r : Relay} (ha : r.awake = true) (i : Fin 48)
    (q : List Instr) :
    exec (.stationDeadlineExpiry i) ⟨r, q⟩ = .next ⟨r.deadlineExpires i, q⟩ :=
  exec_awake (f := fun r => r.deadlineExpires i) (fun _ => rfl) ha

theorem deadlineExpires_of_due {r : Relay} {i : Fin 48} {c : StationConfig} {e : Nat}
    (hc : r.tables.stations.get i = some c) (hdeadline : (r.stations.get i).deadline = some e)
    (hdue : e ≤ r.now) :
    r.deadlineExpires i
      = if (r.stations.get i).misses + 1 < 3 then
          r.setStation i ((r.stations.get i).late c.interval)
        else r.goSilent i c := by
  simp only [Relay.deadlineExpires, hc]
  exact if_pos (reached_of_le hdeadline hdue)

theorem goSilent_of_local {r : Relay} {i : Fin 48} {c : StationConfig}
    (h : ∃ b p, c.role = .wire b p ∨ c.role = .shake b ∨ c.role = .rain b) :
    r.goSilent i c = r.setStation i (r.stations.get i).silenced := by
  obtain ⟨b, p, h | h | h⟩ := h <;> simp only [Relay.goSilent, h]

theorem goSilent_of_relay {r : Relay} {i : Fin 48} {c : StationConfig} (h : c.role = .relay) :
    r.goSilent i c = (r.setStation i (r.stations.get i).silenced).feederSilent c.address := by
  simp only [Relay.goSilent, h]

theorem goSilent_of_gauge {r : Relay} {i : Fin 48} {c : StationConfig} {b : Fin 8} {e f : Nat}
    (h : c.role = .gauge b e f) : r.goSilent i c = r.gaugeSilent i b := by
  simp only [Relay.goSilent, h]

/-! ## What an evaluation and a recompute leave of a barrier -/

theorem recompute_handOver (r : Relay) (b : Fin 8) (advancing : Option Nat) :
    SameButHandOver r (r.recompute b advancing) :=
  setBarrier_handOver r b _

theorem remeasure_handOver (r : Relay) (b : Fin 8) (advancing : Option Nat) :
    SameButHandOver r (r.remeasure b advancing) :=
  (recompute_handOver r b advancing).trans (evaluate_handOver _ b)

theorem recompute_others (r : Relay) (b : Fin 8) (advancing : Option Nat) {o : Fin 8}
    (h : o ≠ b) : (r.recompute b advancing).barriers.get o = r.barriers.get o :=
  Bank.get_set_of_ne _ _ h.symm

theorem recompute_get (r : Relay) (b : Fin 8) (advancing : Option Nat) :
    ∃ m, (r.recompute b advancing).barriers.get b = { r.barriers.get b with measures := m } :=
  ⟨_, Bank.get_set_self _ _ _⟩

theorem weigh_not_calm {d : BarrierDyn} (c : BarrierConfig) (lost : Bool) (now : Nat)
    (start : Level) (h : d.level ≠ .calm) : (d.weigh c lost now start).level ≠ .calm := by
  have hrise := (weigh_cases d c lost now start).1
  rw [← one_le_rank_iff] at h ⊢
  exact h.trans hrise

/-- Above CALM an evaluation leaves the gauge-lost latch (R99, R110 step 1). -/
theorem evaluate_gaugeLost {r : Relay} {b : Fin 8} (h : (r.barriers.get b).level ≠ .calm) :
    ((r.evaluate b).barriers.get b).gaugeLost = (r.barriers.get b).gaugeLost := by
  unfold Relay.evaluate
  split
  · have hweighed := weighBarrier_get r b (r.barriers.get b).level
    have hkept : ((r.weighBarrier b (r.barriers.get b).level).barriers.get b).gaugeLost
        = (r.barriers.get b).gaugeLost := by
      rw [hweighed, weigh_rest]
    have hcalm : ((r.weighBarrier b (r.barriers.get b).level).barriers.get b).level ≠ .calm := by
      rw [hweighed]
      exact weigh_not_calm _ _ _ _ h
    rcases handOver_barriers (r.weighBarrier b (r.barriers.get b).level) b
      (r.barriers.get b).level with hsame | ⟨s, at_, hset⟩
    · rw [hsame, hkept]
    · rw [hset, Bank.get_set_self, BarrierDyn.atCalm, if_neg hcalm]
      exact hkept
  · rfl

/-! ## Readings (R50 to R56, R73, R74) -/

theorem effective_of_range {x : Reading} (hkind : x.kind = some .range) :
    x.effective = if x.value = 0 ∨ x.value = 65535 then .fault else x.quality := by
  simp only [Reading.effective, hkind]

theorem effective_of_wire {x : Reading} (hkind : x.kind = some .wire) :
    x.effective = if x.value ≤ 1 then x.quality else .fault := by
  simp only [Reading.effective, hkind]

theorem effective_of_fit {x : Reading}
    (hrange : x.kind = some .range → x.value ≠ 0 ∧ x.value ≠ 65535)
    (hwire : x.kind = some .wire → x.value ≤ 1) : x.effective = x.quality := by
  cases hkind : x.kind with
  | none => simp only [Reading.effective, hkind]
  | some k =>
    cases k with
    | range => rw [effective_of_range hkind, if_neg (not_or.mpr (hrange hkind))]
    | wire => rw [effective_of_wire hkind, if_pos (hwire hkind)]
    | shake => simp only [Reading.effective, hkind]
    | rain => simp only [Reading.effective, hkind]

theorem takes_iff (role : Role) (kind : Option ReadingKind) :
    role.takes kind = true ↔ ((∃ b e f, role = .gauge b e f) ∧ kind = some .range)
      ∨ ((∃ b p, role = .wire b p) ∧ kind = some .wire)
      ∨ ((∃ b, role = .shake b) ∧ kind = some .shake)
      ∨ ((∃ b, role = .rain b) ∧ kind = some .rain) := by
  cases role <;> rcases kind with _ | _ | _ | _ | _ <;> simp [Role.takes]

theorem staleAt_iff (d : StationDyn) (sample : Nat) :
    d.staleAt sample = true ↔ ∃ last, d.lastSample = some last ∧ sample < last := by
  unfold StationDyn.staleAt
  cases d.lastSample <;> simp

theorem advancedBy_iff (d : StationDyn) (sample : Nat) :
    d.advancedBy sample = true ↔ ∀ last, d.lastSample = some last → last < sample := by
  unfold StationDyn.advancedBy
  cases d.lastSample <;> simp

section
variable {r : Relay} {i : Fin 48} {c : StationConfig} {b : Fin 8} {x : Reading} {sample : Nat}

theorem takeReading_of_ignored (h : c.role.takes x.kind = false) :
    r.takeReading i c x = r.countStation i (fun k => { k with ignored := bump k.ignored }) :=
  if_neg (by rw [h]; exact Bool.false_ne_true)

theorem takeReading_of_stale (htakes : c.role.takes x.kind = true)
    (hstale : (r.stations.get i).staleAt (r.now - x.age) = true) :
    r.takeReading i c x = r.countStation i (fun k => { k with stale := bump k.stale }) := by
  rw [Relay.takeReading, if_pos htakes, if_pos hstale]

theorem takeReading_of_applied (htakes : c.role.takes x.kind = true)
    (hstale : (r.stations.get i).staleAt (r.now - x.age) = false) :
    r.takeReading i c x = r.handReading i c x (r.now - x.age) := by
  rw [Relay.takeReading, if_pos htakes, hstale, if_neg Bool.false_ne_true]

theorem handReading_gauge {e f : Nat} (hrole : c.role = .gauge b e f)
    (hgood : x.effective ≠ .fault) :
    r.handReading i c x sample
      = (r.setStation i (((r.stations.get i).note x.value x.effective sample).takeFill
            (fillOf e f x.value))).remeasure b
          (if (r.stations.get i).advancedBy sample then some sample else none) := by
  cases hq : x.effective with
  | fault => exact absurd hq hgood
  | good => simp only [Relay.handReading, hrole, hq]
  | suspect => simp only [Relay.handReading, hrole, hq]

theorem handReading_gauge_fault {e f : Nat} (hrole : c.role = .gauge b e f)
    (hfault : x.effective = .fault) :
    r.handReading i c x sample
      = r.setSighting i ((r.stations.get i).note x.value x.effective sample) := by
  simp only [Relay.handReading, hrole, hfault]

theorem handReading_wire {p : WirePosition} (hrole : c.role = .wire b p)
    (hgood : x.effective ≠ .fault) :
    r.handReading i c x sample
      = if x.value = 1 then
          (r.setStation i ((r.stations.get i).note x.value x.effective sample)).deliverBreak b p
        else if (r.barriers.get b).wireBroken p then
          r.setStation i
            { (r.stations.get i).note x.value x.effective sample with
              counters :=
                { (r.stations.get i).counters with
                  heldBreaks := bump (r.stations.get i).counters.heldBreaks } }
        else r.setStation i ((r.stations.get i).note x.value x.effective sample) := by
  cases hq : x.effective with
  | fault => exact absurd hq hgood
  | good => simp only [Relay.handReading, hrole, hq, StationDyn.note]
  | suspect => simp only [Relay.handReading, hrole, hq, StationDyn.note]

theorem handReading_shake (hrole : c.role = .shake b) (hgood : x.effective ≠ .fault) :
    r.handReading i c x sample
      = (r.setStation i ((r.stations.get i).note x.value x.effective sample)).contributeTo b .shake
          { value := x.value, time := sample } := by
  cases hq : x.effective with
  | fault => exact absurd hq hgood
  | good => simp only [Relay.handReading, hrole, hq]
  | suspect => simp only [Relay.handReading, hrole, hq]

theorem handReading_rain (hrole : c.role = .rain b) (hgood : x.effective ≠ .fault) :
    r.handReading i c x sample
      = (r.setStation i ((r.stations.get i).note x.value x.effective sample)).contributeTo b .rain
          { value := x.value, time := sample } := by
  cases hq : x.effective with
  | fault => exact absurd hq hgood
  | good => simp only [Relay.handReading, hrole, hq]
  | suspect => simp only [Relay.handReading, hrole, hq]

theorem handReading_local_fault
    (hrole : ∃ p, c.role = .wire b p ∨ c.role = .shake b ∨ c.role = .rain b)
    (hfault : x.effective = .fault) :
    r.handReading i c x sample
      = r.setStation i ((r.stations.get i).note x.value x.effective sample) := by
  obtain ⟨p, h | h | h⟩ := hrole <;> simp only [Relay.handReading, h, hfault]

end

/-! ## The smoothed fill (R73, R74) -/

theorem fillOf_beyond_empty {e f d : Nat} (h : e ≤ d) : fillOf e f d = 0 :=
  if_pos h

theorem fillOf_within {e f d : Nat} (h : d < e) :
    fillOf e f d = min 1200 (1000 * (e - d) / (e - f)) :=
  if_neg (by omega)

/-- The smoothed fill of three is the one that two of them do not exceed and two do not fall below
(R74). -/
theorem smoothedOf_three (u v w : Nat) :
    ∃ m, smoothedOf [u, v, w] = some m ∧ m ∈ [u, v, w]
      ∧ 2 ≤ [u, v, w].countP (fun n => decide (n ≤ m))
      ∧ 2 ≤ [u, v, w].countP (fun n => decide (m ≤ n)) := by
  refine ⟨_, rfl, ?_, ?_, ?_⟩
  · simp only [List.mem_cons, List.not_mem_nil, or_false]
    omega
  · simp only [List.countP_cons, List.countP_nil, decide_eq_true_eq]
    split_ifs <;> omega
  · simp only [List.countP_cons, List.countP_nil, decide_eq_true_eq]
    split_ifs <;> omega

theorem deliverBreak_of_intact {r : Relay} {b : Fin 8} {p : WirePosition}
    (hassessed : r.assessed b = true) (hintact : (r.barriers.get b).wireBroken p = false) :
    r.deliverBreak b p = (r.setBarrier b ((r.barriers.get b).setWire p true)).evaluate b :=
  if_pos (by rw [hassessed, hintact]; rfl)

theorem deliverBreak_of_nothing {r : Relay} {b : Fin 8} {p : WirePosition}
    (h : r.assessed b = false ∨ (r.barriers.get b).wireBroken p = true) :
    r.deliverBreak b p = r :=
  if_neg (by rcases h with h | h <;> simp [h])

theorem setSighting_get (r : Relay) (i : Fin 48) (d : StationDyn) :
    (r.setSighting i d).stations.get i = d := by
  have hset : (r.setStation i d).stations.get i = d := Bank.get_set_self _ _ _
  unfold Relay.setSighting
  split
  · split
    · exact hset
    · rw [(remeasure_handOver _ _ _).stations]
      exact hset
  · exact hset

/-! ## A gauge goes SILENT (R68) -/

/-- The record of a gauge that goes SILENT: its window is emptied too (R66, R75). -/
def Relay.gaugeFell (r : Relay) (i : Fin 48) : Relay :=
  r.setStation i
    { r.stations.get i with
      state := .silent
      misses := 3
      deadline := none
      window := []
      smoothed := none }

/-- The gauge-lost latch set where the barrier stands above CALM and takes gauge loss as evidence
(R106). -/
def Relay.gaugeLatched (r : Relay) (i : Fin 48) (b : Fin 8) : Relay :=
  if (r.barriers.get b).level ≠ .calm ∧ (r.tables.barriers.get b).gaugeLoss = true then
    (r.gaugeFell i).setBarrier b { r.barriers.get b with gaugeLost := true }
  else r.gaugeFell i

/-- The barrier recomputed where the gauge was sighting. -/
def Relay.gaugeRecomputed (r : Relay) (i : Fin 48) (b : Fin 8) : Relay :=
  if (r.stations.get i).sighting = true then (r.gaugeLatched i b).recompute b none
  else r.gaugeLatched i b

theorem gaugeSilent_eq (r : Relay) (i : Fin 48) (b : Fin 8) :
    r.gaugeSilent i b = (r.gaugeRecomputed i b).evaluate b := by
  have hlatch : (decide (1 ≤ (r.barriers.get b).level.rank)
      && (r.tables.barriers.get b).gaugeLoss) = true
        ↔ (r.barriers.get b).level ≠ .calm ∧ (r.tables.barriers.get b).gaugeLoss = true := by
    rw [Bool.and_eq_true, decide_eq_true_iff, one_le_rank_iff]
  simp only [Relay.gaugeSilent, Relay.gaugeRecomputed, Relay.gaugeLatched, Relay.when, hlatch]
  rfl

theorem gaugeLatched_handOver (r : Relay) (i : Fin 48) (b : Fin 8) :
    SameButHandOver (r.gaugeFell i) (r.gaugeLatched i b) := by
  unfold Relay.gaugeLatched
  split
  · exact setBarrier_handOver _ _ _
  · exact SameButHandOver.refl _

theorem gaugeRecomputed_handOver (r : Relay) (i : Fin 48) (b : Fin 8) :
    SameButHandOver (r.gaugeFell i) (r.gaugeRecomputed i b) := by
  unfold Relay.gaugeRecomputed
  split
  · exact (gaugeLatched_handOver r i b).trans (recompute_handOver _ b none)
  · exact gaugeLatched_handOver r i b

theorem gaugeRecomputed_others (r : Relay) (i : Fin 48) {b o : Fin 8} (h : o ≠ b) :
    (r.gaugeRecomputed i b).barriers.get o = r.barriers.get o := by
  have hlatched : (r.gaugeLatched i b).barriers.get o = r.barriers.get o := by
    unfold Relay.gaugeLatched
    split
    · exact Bank.get_set_of_ne _ _ h.symm
    · rfl
  unfold Relay.gaugeRecomputed
  split
  · rw [recompute_others _ _ _ h, hlatched]
  · exact hlatched

/-- The latched barrier keeps its level under the recompute. -/
theorem gaugeRecomputed_of_latch {r : Relay} {i : Fin 48} {b : Fin 8}
    (hlevel : (r.barriers.get b).level ≠ .calm)
    (hloss : (r.tables.barriers.get b).gaugeLoss = true) :
    ((r.gaugeRecomputed i b).barriers.get b).level = (r.barriers.get b).level
      ∧ ((r.gaugeRecomputed i b).barriers.get b).gaugeLost = true := by
  have hlatched : (r.gaugeLatched i b).barriers.get b
      = { r.barriers.get b with gaugeLost := true } := by
    rw [Relay.gaugeLatched, if_pos ⟨hlevel, hloss⟩]
    exact Bank.get_set_self _ _ _
  unfold Relay.gaugeRecomputed
  split
  · obtain ⟨m, hm⟩ := recompute_get (r.gaugeLatched i b) b none
    rw [hm, hlatched]
    exact ⟨rfl, rfl⟩
  · rw [hlatched]
    exact ⟨rfl, rfl⟩

/-! ## The statements -/

/-- Settles O31: the judgement on the sequence decides what the frame changes. -/
theorem sequenceIsJudged : Obligations.SequenceIsJudged := by
  intro r i c n fresh
  refine ⟨fun hsame => ?duplicate, fun l hlast hfar hfresh hstate => ?old,
    fun haccepted => ?accepted, fun deadline heard hc hunwatched hwatched hheard => ?heard⟩
  case duplicate => exact judgeFrame_of_duplicate c (judge_of_same fresh hsame)
  case old =>
    subst hfresh
    exact judgeFrame_of_old c (judge_of_behind hlast hfar hstate)
  case accepted =>
    have hjudged : (r.stations.get i).judge n fresh = .accepted := by
      rcases haccepted with hnone | ⟨l, hlast, hne, hnext⟩
      · exact judge_of_first n fresh hnone
      · exact judge_of_next hlast hne hnext
    exact judgeFrame_of_accepted c hjudged
  case heard =>
    have hdeadline : c.deadlineFrom r.tables.identity.grace r.now = deadline := by
      by_cases hzero : c.interval = 0
      · rw [deadlineFrom_of_unwatched _ _ hzero, hunwatched hzero]
      · rw [deadlineFrom_of_watched _ _ hzero, hwatched hzero]
    have hhear : r.hearStation i c = r.setSighting i heard := by
      rw [Relay.hearStation, hdeadline, hheard]
      rfl
    rw [hhear]
    refine ⟨fun hrole => ?_, fun hblank => ?_, fun b e f hrole => ⟨?_, fun hchanged => ?_⟩⟩
    · exact setSighting_of_not_gauge (by rw [hc]; exact gaugeBarrier_of_not_gauge hrole)
    · refine setSighting_of_same ?_
      rw [sighting_of_no_fill hblank]
      exact sighting_of_no_fill (by rw [hheard]; exact hblank)
    · exact setSighting_of_same
    · exact setSighting_of_changed (by rw [hc]; exact gaugeBarrier_of_gauge hrole) hchanged

/-- Settles O32. The gauge's latch outlives the evaluation, since one never lowers a level. -/
theorem missedDeadlinesMakeLateThenSilent : Obligations.MissedDeadlinesMakeLateThenSilent := by
  intro r q i c e ha hc hdeadline hdue
  have hexec := (exec_stationDeadlineExpiry ha i q).trans
    (congrArg (fun t => Host.Outcome.next (State.mk t q))
      (deadlineExpires_of_due hc hdeadline hdue))
  refine ⟨fun hfew => ?late, fun hmany => ?silent⟩
  case late =>
    rw [hexec, if_pos (by omega), StationDyn.late, hdeadline]
    rfl
  case silent =>
    rw [if_neg (by omega)] at hexec
    rw [hexec]
    refine ⟨fun b p hrole => ?wired, fun hrole => ?feeder,
      fun b ef ff fell latched t hrole hfell hlatched ht => ?gauge⟩
    case wired =>
      rw [goSilent_of_local ⟨b, p, hrole⟩]
      rfl
    case feeder =>
      rw [goSilent_of_relay hrole]
      rfl
    case gauge =>
      have hrecomputed : t = (r.gaugeRecomputed i b).evaluate b := by
        rw [ht, hlatched, hfell]
        rfl
      have hsame := (gaugeRecomputed_handOver r i b).trans (evaluate_handOver _ b)
      rw [← hrecomputed] at hsame
      refine ⟨?_, hsame.stations.trans (hfell ▸ rfl), fun hlevel hloss _ => ?_, hsame.tables,
        hsame.inputs, hsame.agent, fun o ho => ?_⟩
      · rw [goSilent_of_gauge hrole, gaugeSilent_eq, hrecomputed]
      · obtain ⟨hkept, hlost⟩ := gaugeRecomputed_of_latch (i := i) hlevel hloss
        rw [hrecomputed, evaluate_gaugeLost (by rw [hkept]; exact hlevel), hlost]
      · rw [hrecomputed, evaluate_others _ _ ho, gaugeRecomputed_others _ _ ho]

/-- Settles O33: a reading of a gauge is taken by its kind, its age and its quality, and the fill
follows from its calibration. -/
theorem rangeReadingFormsTheSmoothedFill : Obligations.RangeReadingFormsTheSmoothedFill := by
  refine ⟨fun r i c b e f sample x hrole => ⟨fun hgood => ?fill, fun hfault => ?fault⟩,
    fun r i c x fits hfits => ?taken, fun x => ⟨?range, ?wire, effective_of_fit⟩,
    fun r i c x sample noted told hnoted htold => ?handed, fun r b => ?broken⟩
  case broken =>
    exact ⟨deliverBreak_of_intact (p := .inflow), deliverBreak_of_intact (p := .overflow),
      deliverBreak_of_nothing (p := .inflow), deliverBreak_of_nothing (p := .overflow)⟩
  case taken =>
    rw [← takes_iff] at hfits
    refine ⟨fun hno => ?_, fun last hyes hlast hbefore => ?_, fun hyes hnew => ?_⟩
    · rw [hfits, Bool.not_eq_true] at hno
      exact takeReading_of_ignored hno
    · exact takeReading_of_stale (hfits.mp hyes) ((staleAt_iff _ _).mpr ⟨last, hlast, hbefore⟩)
    · refine takeReading_of_applied (hfits.mp hyes) ?_
      rw [← Bool.not_eq_true, staleAt_iff]
      rintro ⟨last, hlast, hbefore⟩
      have := hnew last hlast
      omega
  case range =>
    intro hkind hvalue
    rw [effective_of_range hkind, if_pos hvalue]
  case wire =>
    intro hkind hvalue
    rw [effective_of_wire hkind, if_neg (by omega)]
  case handed =>
    have hnote : (r.stations.get i).note x.value x.effective sample = noted := hnoted.symm
    refine ⟨fun b e f hrole hc hfault => ?gauge, fun b p broken hrole hbroken => ?tripWire,
      fun b hrole => ⟨fun hfault => ?shakeFault, fun hgood => ?shake⟩,
      fun b hrole => ⟨fun hfault => ?rainFault, fun hgood => ?rain⟩⟩
    case gauge =>
      rw [handReading_gauge_fault hrole hfault, hnote, htold]
      exact ⟨setSighting_of_same,
        setSighting_of_changed (by rw [hc]; exact gaugeBarrier_of_gauge hrole)⟩
    case tripWire =>
      have hheld : (r.barriers.get b).wireBroken p = broken := by
        rw [hbroken]
        cases p <;> rfl
      refine ⟨fun hfault => ?_, fun hgood hone => ?_, fun hgood hone hset => ?_,
        fun hgood hone hclear => ?_⟩
      · rw [handReading_local_fault ⟨p, Or.inl hrole⟩ hfault, hnote, htold]
      · rw [handReading_wire hrole hgood, if_pos hone, hnote, htold]
      · rw [handReading_wire hrole hgood, if_neg hone, hheld, if_pos hset, hnote]
        rfl
      · rw [handReading_wire hrole hgood, if_neg hone, hheld, hclear, if_neg Bool.false_ne_true,
          hnote, htold]
    case shakeFault =>
      rw [handReading_local_fault ⟨.inflow, Or.inr (Or.inl hrole)⟩ hfault, hnote, htold]
    case shake => rw [handReading_shake hrole hgood, hnote, htold]
    case rainFault =>
      rw [handReading_local_fault ⟨.inflow, Or.inr (Or.inr hrole)⟩ hfault, hnote, htold]
    case rain => rw [handReading_rain hrole hgood, hnote, htold]
  case fill =>
    have hget : (r.handReading i c x sample).stations.get i
        = ((r.stations.get i).note x.value x.effective sample).takeFill (fillOf e f x.value) := by
      rw [handReading_gauge hrole hgood, (remeasure_handOver _ _ _).stations]
      exact Bank.get_set_self _ _ _
    have hsmoothed (w : List Nat) (hw : (r.stations.get i).window = w) :
        ((r.handReading i c x sample).stations.get i).smoothed
          = smoothedOf (pushFill w (fillOf e f x.value)) := by
      rw [hget, ← hw]
      rfl
    refine ⟨fillOf e f x.value, fillOf_beyond_empty, fillOf_within, ?_, ?_, fun hw => ?_,
      fun u hw => ?_, fun u v w hw => ?_, fun d hd => ?_⟩
    · rw [hget]
      rfl
    · rw [hget]
      rfl
    · rw [hsmoothed _ hw]
      rfl
    · rw [hsmoothed _ hw]
      rfl
    · have hthree : ((r.handReading i c x sample).stations.get i).smoothed
          = smoothedOf [u, v, fillOf e f x.value] := by
        rcases hw with hw | hw
        · exact hsmoothed _ hw
        · exact hsmoothed _ hw
      rw [hthree]
      exact smoothedOf_three u v _
    · rw [handReading_gauge hrole hgood, hd, hget]
      exact congrArg₂ (fun t a => Relay.remeasure t b a) rfl
        (if_congr (advancedBy_iff _ _) rfl rfl)
  case fault =>
    have hget : (r.handReading i c x sample).stations.get i
        = (r.stations.get i).note x.value x.effective sample := by
      rw [handReading_gauge_fault hrole hfault]
      exact setSighting_get r i _
    rw [hget, ← hfault]
    exact ⟨rfl, rfl, rfl⟩

end Sys2Proof.Machine

/-! SUPPORT. The measures of a barrier: the gauge it is read from, the rate step, the time to full,
and the contributions that count (R78 to R90). -/

namespace Sys2Proof.Machine

/-! ## The time to full (R85) -/

theorem timeToFull_of_no_rate (fill : Nat) : timeToFull fill none = 65535 :=
  rfl

theorem timeToFull_of_falling {v : Int} (fill : Nat) (h : v ≤ 0) :
    timeToFull fill (some v) = 65535 :=
  if_pos h

theorem timeToFull_of_full {fill : Nat} {v : Int} (hv : 0 < v) (h : 1000 ≤ fill) :
    timeToFull fill (some v) = 0 := by
  rw [timeToFull, if_neg (not_le.mpr hv), if_pos h]

/-- The least whole number of minutes in which a gap closes, at a positive rate. -/
theorem ceil_div_spec {gap rate : Nat} (hgap : 1 ≤ gap) (hrate : 1 ≤ rate) :
    (gap + rate - 1) / rate ≤ gap ∧ gap ≤ (gap + rate - 1) / rate * rate
      ∧ (gap + rate - 1) / rate * rate < gap + rate := by
  have hsplit := Nat.div_add_mod' (gap + rate - 1) rate
  have hrest := Nat.mod_lt (gap + rate - 1) hrate
  refine ⟨?_, by omega, by omega⟩
  refine Nat.div_le_of_le_mul ?_
  obtain ⟨g, rfl⟩ := Nat.exists_eq_add_of_le' hgap
  obtain ⟨w, rfl⟩ := Nat.exists_eq_add_of_le' hrate
  have hproduct : (w + 1) * (g + 1) = w * g + w + g + 1 := by ring
  omega

theorem timeToFull_of_rising {fill : Nat} {v : Int} (hv : 0 < v) (hfill : fill < 1000) :
    (timeToFull fill (some v) : Int) ≤ 1000 ∧ (1000 - fill : Int) ≤ timeToFull fill (some v) * v
      ∧ (timeToFull fill (some v) : Int) * v < 1000 - fill + v := by
  obtain ⟨w, rfl⟩ := Int.eq_ofNat_of_zero_le hv.le
  have hw : 1 ≤ w := by omega
  obtain ⟨hle, hlow, hhigh⟩ := ceil_div_spec (gap := 1000 - fill) (rate := w) (by omega) hw
  have hvalue : timeToFull fill (some (w : Int)) = (1000 - fill + w - 1) / w := by
    rw [timeToFull, if_neg (by omega), if_neg (by omega), Int.toNat_natCast]
    exact min_eq_right (by omega)
  rw [hvalue]
  generalize (1000 - fill + w - 1) / w = n at hle hlow hhigh
  refine ⟨by omega, ?_, ?_⟩
  · have hcast : ((1000 - fill : Nat) : Int) ≤ (n * w : Nat) := by exact_mod_cast hlow
    push_cast at hcast
    omega
  · have hcast : ((n * w : Nat) : Int) < ((1000 - fill + w : Nat) : Int) := by exact_mod_cast hhigh
    push_cast at hcast
    omega

/-! ## The recompute and its rate step (R78 to R84) -/

theorem recompute_ttf (m : Measures) (gauged : Bool) (best : Option (Fin 48 × Nat))
    (advancing : Option Nat) (window : Nat) :
    (m.recompute gauged best advancing window).ttf
      = timeToFull (m.recompute gauged best advancing window).fill
          (m.recompute gauged best advancing window).rate :=
  rfl

theorem stepIfCalled_of_unsighted {m : Measures} (advancing : Option Nat) (window : Nat)
    (h : m.sight ≠ .sighted) : m.stepIfCalled advancing window = m := by
  cases advancing with
  | none => rfl
  | some t => exact if_neg h

theorem recompute_of_blind (m : Measures) (advancing : Option Nat) (window : Nat) :
    m.recompute true none advancing window
      = { m with
          held := true
          sight := .blind
          source := none
          anchor := none
          rate := none
          ttf := 65535 } := by
  rw [Measures.recompute, stepIfCalled_of_unsighted _ _ (fun h => Sight.noConfusion h)]
  rfl

theorem recompute_of_ungauged (m : Measures) (advancing : Option Nat) (window : Nat) :
    m.recompute false none advancing window
      = { m with
          fill := 0
          held := false
          sight := .ungauged
          source := none
          anchor := none
          rate := none
          ttf := 65535 } := by
  rw [Measures.recompute, stepIfCalled_of_unsighted _ _ (fun h => Sight.noConfusion h)]
  rfl

section
variable {m : Measures} {t window : Nat} {src : Fin 48}

theorem rateStep_of_no_anchor (h : m.anchor = none) : m.rateStep t window = m.reanchor t := by
  simp only [Measures.rateStep, h]

theorem rateStep_of_other_source {a : Anchor} (h : m.anchor = some a)
    (hsource : m.source ≠ some a.source) : m.rateStep t window = m.reanchor t := by
  simp only [Measures.rateStep, h, if_pos hsource]

theorem rateStep_of_same_source {a : Anchor} (h : m.anchor = some a)
    (hsource : m.source = some a.source) :
    m.rateStep t window
      = if t < a.time + 60 then m
        else if a.time + window ≤ t then
          ({ m with rate := some (rateBetween a m.fill t) } : Measures).reanchor t
        else { m with rate := some (rateBetween a m.fill t) } := by
  simp only [Measures.rateStep, h, if_neg (not_not.mpr hsource)]

theorem reanchor_of_source (h : m.source = some src) :
    m.reanchor t = { m with anchor := some { fill := m.fill, time := t, source := src } } := by
  rw [Measures.reanchor, h]
  rfl

end

/-! ## The best gauge (R78) -/

/-- One gauge taken into the search for the best one: the step of the fold. -/
def Relay.betterGauge (r : Relay) (best : Option (Fin 48 × Nat)) (i : Fin 48) :
    Option (Fin 48 × Nat) :=
  match (r.stations.get i).sighting, (r.stations.get i).smoothed, best with
  | true, some f, none => some (i, f)
  | true, some f, some (j, g) => if g < f then some (i, f) else some (j, g)
  | _, _, _ => best

theorem bestGauge_eq (r : Relay) (b : Fin 8) :
    r.bestGauge b = (r.gaugesOf b).foldl r.betterGauge none :=
  rfl

theorem betterGauge_of_blind {r : Relay} {i : Fin 48} (best : Option (Fin 48 × Nat))
    (h : (r.stations.get i).sighting = false) : r.betterGauge best i = best := by
  simp only [Relay.betterGauge, h]

theorem betterGauge_of_first {r : Relay} {i : Fin 48} {f : Nat}
    (h : (r.stations.get i).sighting = true) (hf : (r.stations.get i).smoothed = some f) :
    r.betterGauge none i = some (i, f) := by
  simp only [Relay.betterGauge, h, hf]

theorem betterGauge_of_next {r : Relay} {i : Fin 48} {f : Nat}
    (h : (r.stations.get i).sighting = true) (hf : (r.stations.get i).smoothed = some f)
    (j : Fin 48) (g : Nat) :
    r.betterGauge (some (j, g)) i = if g < f then some (i, f) else some (j, g) := by
  simp only [Relay.betterGauge, h, hf]

/-- Among the gauges seen so far, none sights, or the best one has the largest smoothed fill, and
the lowest index among equals. -/
def Relay.BestAmong (r : Relay) (seen : Fin 48 → Prop) (best : Option (Fin 48 × Nat)) : Prop :=
  (best = none → ∀ i, seen i → (r.stations.get i).sighting = false)
  ∧ ∀ i f, best = some (i, f) → seen i ∧ (r.stations.get i).sighting = true
    ∧ (r.stations.get i).smoothed = some f
    ∧ ∀ j g, seen j → (r.stations.get j).sighting = true →
        (r.stations.get j).smoothed = some g → g ≤ f ∧ (g = f → i ≤ j)

theorem bestAmong_step {r : Relay} {seen : Fin 48 → Prop} {best : Option (Fin 48 × Nat)}
    {i : Fin 48} (h : r.BestAmong seen best) (hbefore : ∀ j, seen j → j < i) :
    r.BestAmong (fun j => seen j ∨ j = i) (r.betterGauge best i) := by
  obtain ⟨hnone, hsome⟩ := h
  cases hsight : (r.stations.get i).sighting with
  | false =>
    rw [betterGauge_of_blind best hsight]
    refine ⟨fun hbest j hj => ?_, fun j g hbest => ?_⟩
    · rcases hj with hj | rfl
      · exact hnone hbest j hj
      · exact hsight
    · obtain ⟨hj, hjsight, hjfill, hall⟩ := hsome j g hbest
      refine ⟨Or.inl hj, hjsight, hjfill, fun k x hk hksight hkfill => ?_⟩
      rcases hk with hk | rfl
      · exact hall k x hk hksight hkfill
      · exact absurd hksight (by rw [hsight]; exact Bool.false_ne_true)
  | true =>
    obtain ⟨f, hf⟩ := Option.ne_none_iff_exists'.mp ((sighting_iff _).mp hsight).2.1
    cases best with
    | none =>
      rw [betterGauge_of_first hsight hf]
      refine ⟨fun hbest => absurd hbest (Option.some_ne_none _), fun j g hbest => ?_⟩
      cases hbest
      refine ⟨Or.inr rfl, hsight, hf, fun k x hk hksight hkfill => ?_⟩
      rcases hk with hk | rfl
      · exact absurd hksight (by rw [hnone rfl k hk]; exact Bool.false_ne_true)
      · rw [hf] at hkfill
        cases hkfill
        exact ⟨le_rfl, fun _ => le_rfl⟩
    | some held =>
      obtain ⟨j, g⟩ := held
      obtain ⟨hj, hjsight, hjfill, hall⟩ := hsome j g rfl
      rw [betterGauge_of_next hsight hf]
      split
      · next hlarger =>
        refine ⟨fun hbest => absurd hbest (Option.some_ne_none _), fun k x hbest => ?_⟩
        cases hbest
        refine ⟨Or.inr rfl, hsight, hf, fun k x hk hksight hkfill => ?_⟩
        rcases hk with hk | rfl
        · have hle := (hall k x hk hksight hkfill).1
          exact ⟨by omega, fun heq => by omega⟩
        · rw [hf] at hkfill
          cases hkfill
          exact ⟨le_rfl, fun _ => le_rfl⟩
      · next hsmaller =>
        refine ⟨fun hbest => absurd hbest (Option.some_ne_none _), fun k x hbest => ?_⟩
        cases hbest
        refine ⟨Or.inl hj, hjsight, hjfill, fun k x hk hksight hkfill => ?_⟩
        rcases hk with hk | rfl
        · exact hall k x hk hksight hkfill
        · rw [hf] at hkfill
          cases hkfill
          exact ⟨by omega, fun _ => (hbefore j hj).le⟩

theorem bestAmong_foldl {r : Relay} (xs : List (Fin 48)) :
    ∀ {seen : Fin 48 → Prop} {best : Option (Fin 48 × Nat)}, r.BestAmong seen best →
      xs.Pairwise (· < ·) → (∀ i ∈ xs, ∀ j, seen j → j < i) →
      r.BestAmong (fun j => seen j ∨ j ∈ xs) (xs.foldl r.betterGauge best) := by
  induction xs with
  | nil =>
    intro seen best h _ _
    simpa using h
  | cons x xs ih =>
    intro seen best h hsorted hbefore
    obtain ⟨hx, hxs⟩ := List.pairwise_cons.mp hsorted
    have hstep := bestAmong_step h (hbefore x List.mem_cons_self)
    have hrest := ih hstep hxs (fun i hi j hj => by
      rcases hj with hj | rfl
      · exact hbefore i (List.mem_cons_of_mem _ hi) j hj
      · exact hx i hi)
    simpa only [List.foldl_cons, List.mem_cons, or_assoc] using hrest

theorem mem_gaugesOf (r : Relay) (b : Fin 8) (i : Fin 48) :
    i ∈ r.gaugesOf b ↔ ∃ c e f, r.tables.stations.get i = some c ∧ c.role = .gauge b e f := by
  rw [Relay.gaugesOf, List.mem_filter, beq_iff_eq, gaugeBarrier_eq_some_iff]
  exact and_iff_right (List.mem_finRange i)

theorem bestGauge_bestAmong (r : Relay) (b : Fin 8) :
    r.BestAmong (fun i => i ∈ r.gaugesOf b) (r.bestGauge b) := by
  have hempty : r.BestAmong (fun _ => False) none :=
    ⟨fun _ _ h => h.elim, fun _ _ h => nomatch h⟩
  have hfold := bestAmong_foldl (r.gaugesOf b) hempty
    ((List.pairwise_lt_finRange 48).filter _) (fun _ _ _ h => h.elim)
  rw [bestGauge_eq]
  simpa only [false_or] using hfold

/-- Settles O34: the recompute by what the best gauge is, and the rate step by the anchor. -/
theorem timeToFullFollowsFillAndRate : Obligations.TimeToFullFollowsFillAndRate := by
  refine ⟨fun m t gauged best advancing window ht => ?recomputed,
    fun m t window src here hsource hhere => ?stepped, sighting_iff,
    fun r b advancing gauges hgauges => ⟨rfl, ?remeasured⟩⟩
  case recomputed =>
    have httf : t.ttf = timeToFull t.fill t.rate := by
      rw [ht]
      rfl
    refine ⟨fun hrate => ?_, fun v hrate hv => ?_, fun v hrate hv hfull => ?_,
      fun v hrate hv hfill => ?_, fun hbest => ?_, fun i f s hbest hadv => ?_,
      fun i f hbest hadv => ?_, fun hbest hgauged => ?_, fun hbest hgauged => ?_⟩
    · rw [httf, hrate, timeToFull_of_no_rate]
    · rw [httf, hrate, timeToFull_of_falling _ hv]
    · rw [httf, hrate, timeToFull_of_full hv hfull]
    · rw [httf, hrate]
      exact timeToFull_of_rising hv hfill
    · subst hbest
      cases gauged with
      | true => rw [ht, recompute_of_blind]
      | false => rw [ht, recompute_of_ungauged]
    · subst hbest hadv
      rw [ht]
      rfl
    · subst hbest hadv
      rw [ht]
      rfl
    · rw [ht, hbest, hgauged, recompute_of_blind]
    · rw [ht, hbest, hgauged, recompute_of_ungauged]
  case stepped =>
    subst hhere
    refine ⟨fun hnew => ?_, fun a ha hsrc => ⟨fun hearly => ?_, fun v hlate hv => ?_⟩⟩
    · rcases hnew with hnone | ⟨a, ha, hother⟩
      · rw [rateStep_of_no_anchor hnone, reanchor_of_source hsource]
      · have hmoved : m.source ≠ some a.source := by
          rw [hsource]
          exact fun h => hother (Option.some.inj h).symm
        rw [rateStep_of_other_source ha hmoved, reanchor_of_source hsource]
    · rw [rateStep_of_same_source ha (by rw [hsource, hsrc]), if_pos hearly]
    · have hrate : rateBetween a m.fill t = v := hv.symm
      rw [rateStep_of_same_source ha (by rw [hsource, hsrc]), if_neg (by omega), hrate]
      refine ⟨fun hwithin => ?_, fun hbeyond => ?_⟩
      · exact if_neg (by omega)
      · rw [if_pos hbeyond]
        exact reanchor_of_source hsource
  case remeasured =>
    have hmem (i : Fin 48) : gauges i ↔ i ∈ r.gaugesOf b :=
      (hgauges i).trans (mem_gaugesOf r b i).symm
    obtain ⟨hnone, hsome⟩ := bestGauge_bestAmong r b
    refine ⟨!(r.gaugesOf b).isEmpty, r.bestGauge b, rfl, ?_, fun hbest i hi => ?_,
      fun i f hbest => ?_⟩
    · simp only [hmem, Bool.not_eq_true', List.isEmpty_eq_false_iff_exists_mem]
    · exact hnone hbest i ((hmem i).mp hi)
    · obtain ⟨hi, hsight, hfill, hall⟩ := hsome i f hbest
      exact ⟨(hmem i).mpr hi, hsight, hfill, fun j g hj => hall j g ((hmem j).mp hj)⟩

/-! ## Contributions (R86 to R90) -/

theorem contribute_of_aged {entries : List Contribution} {c : Contribution} {life now : Nat}
    (h : c.time + life ≤ now) : contribute entries c life now = entries :=
  if_pos h

theorem outranked_iff (entries : List Contribution) (c : Contribution) :
    outranked entries c = true ↔ ∃ e ∈ entries, c.time ≤ e.time ∧ c.value ≤ e.value := by
  simp only [outranked, List.any_eq_true, Bool.and_eq_true, decide_eq_true_eq]

theorem contribute_of_outranked {entries : List Contribution} {c : Contribution} (life now : Nat)
    (h : ∃ e ∈ entries, c.time ≤ e.time ∧ c.value ≤ e.value) :
    contribute entries c life now = entries := by
  rw [contribute, if_pos ((outranked_iff _ _).mpr h), ite_self]

theorem contribute_of_placed {entries : List Contribution} {c : Contribution} {life now : Nat}
    (hyoung : now < c.time + life)
    (hnew : ∀ e ∈ entries, ¬ (c.time ≤ e.time ∧ c.value ≤ e.value)) :
    contribute entries c life now
      = if 8 < (placed entries c).length then mergeClosest (placed entries c)
        else placed entries c := by
  have hout : ¬ outranked entries c = true := by
    rw [outranked_iff]
    rintro ⟨e, he, hboth⟩
    exact hnew e he hboth
  rw [contribute, if_neg (by omega), if_neg hout]
  rfl

theorem placed_eq (entries : List Contribution) (c : Contribution) :
    placed entries c
      = (entries.filter (fun e => decide (¬ (e.time ≤ c.time ∧ e.value ≤ c.value)))).filter
          (fun e => decide (e.time < c.time))
        ++ c :: (entries.filter (fun e => decide (¬ (e.time ≤ c.time ∧ e.value ≤ c.value)))).filter
          (fun e => decide (c.time ≤ e.time)) := by
  have hkept : (fun e : Contribution => !(decide (e.time ≤ c.time) && decide (e.value ≤ c.value)))
      = fun e => decide (¬ (e.time ≤ c.time ∧ e.value ≤ c.value)) := by
    funext e
    rw [decide_not, Bool.decide_and]
  have hlater : (fun e : Contribution => !decide (e.time < c.time))
      = fun e => decide (c.time ≤ e.time) := by
    funext e
    rw [← decide_not, decide_eq_decide, not_lt]
  rw [placed, hkept, hlater]

theorem mergeAt_of_lt {list : List Contribution} {n : Nat} (c : Contribution)
    (h : n + 1 < list.length) :
    mergeAt list n = list.take n
      ++ { value := (list.getD n c).value, time := (list.getD (n + 1) c).time }
        :: list.drop (n + 2) := by
  have hdrop : list.drop n = list[n] :: list[n + 1] :: list.drop (n + 2) := by
    rw [List.drop_eq_getElem_cons (by omega), List.drop_eq_getElem_cons h]
  rw [List.getD_eq_getElem _ _ h, List.getD_eq_getElem _ _ (by omega)]
  simp only [mergeAt, hdrop]

theorem spacings_length (list : List Contribution) : (spacings list).length = list.length - 1 := by
  rw [spacings, List.length_zipWith, List.length_tail]
  omega

theorem spacings_getElem {list : List Contribution} {n : Nat} (c : Contribution)
    (h : n < (spacings list).length) :
    (spacings list)[n] = (list.getD (n + 1) c).time - (list.getD n c).time := by
  have hn : n + 1 < list.length := by
    rw [spacings_length] at h
    omega
  rw [List.getD_eq_getElem _ _ hn, List.getD_eq_getElem _ _ (by omega)]
  simp only [spacings, List.getElem_zipWith, List.getElem_tail]

/-- The closest neighbours are merged, the oldest pair among equals (R89). -/
theorem mergeClosest_spec {list : List Contribution} (c : Contribution) (h : 2 ≤ list.length) :
    ∃ n, n + 1 < list.length ∧ mergeClosest list = mergeAt list n
      ∧ ∀ k, k + 1 < list.length →
        (list.getD (n + 1) c).time - (list.getD n c).time
            ≤ (list.getD (k + 1) c).time - (list.getD k c).time
          ∧ ((list.getD (n + 1) c).time - (list.getD n c).time
              = (list.getD (k + 1) c).time - (list.getD k c).time → n ≤ k) := by
  have hlength := spacings_length list
  obtain ⟨d, hd⟩ : ∃ d, (spacings list).min? = some d := by
    refine Option.ne_none_iff_exists'.mp (fun hnone => ?_)
    rw [List.min?_eq_none_iff] at hnone
    rw [hnone, List.length_nil] at hlength
    omega
  obtain ⟨hmem, hleast⟩ := List.min?_eq_some_iff.mp hd
  have hfirst : (spacings list).idxOf d < (spacings list).length := List.idxOf_lt_length_of_mem hmem
  have hvalue : (list.getD ((spacings list).idxOf d + 1) c).time
      - (list.getD ((spacings list).idxOf d) c).time = d := by
    rw [← spacings_getElem c hfirst]
    exact List.getElem_idxOf hfirst
  refine ⟨(spacings list).idxOf d, by omega, by simp only [mergeClosest, hd], fun k hk => ?_⟩
  have hk' : k < (spacings list).length := by omega
  rw [hvalue, ← spacings_getElem c hk']
  refine ⟨hleast _ (List.getElem_mem hk'), fun heq => ?_⟩
  by_contra hlt
  have hnot := List.not_of_lt_findIdx (not_le.mp hlt)
  rw [← heq, beq_self_eq_true] at hnot
  cases hnot

theorem exec_shakeExpiry {r : Relay} (ha : r.awake = true) (b : Fin 8) (k : Evidence)
    (q : List Instr) :
    exec (.shakeExpiry b k) ⟨r, q⟩ = .next ⟨r.evidenceExpires b k, q⟩ :=
  exec_awake (f := fun r => r.evidenceExpires b k) (fun _ => rfl) ha

theorem evidenceExpires_of_due {r : Relay} {b : Fin 8} {k : Evidence} {x : Contribution}
    {xs : List Contribution} (hlist : (r.barriers.get b).measures.entries k = x :: xs)
    (hdue : x.time + r.tables.identity.evidenceLife ≤ r.now) :
    r.evidenceExpires b k
      = (r.setMeasures b ((r.barriers.get b).measures.setEntries k xs)).evaluate b := by
  have hreached : reached (expiryOf r.tables.identity.evidenceLife
      ((r.barriers.get b).measures.entries k)) r.now = true := by
    rw [hlist]
    exact decide_eq_true hdue
  rw [Relay.evidenceExpires, if_pos hreached, hlist, List.tail_cons]

theorem setEvidence_of_same {r : Relay} {b : Fin 8} {k : Evidence} {xs : List Contribution}
    (h : xs.head?.map Contribution.value
      = ((r.barriers.get b).measures.entries k).head?.map Contribution.value) :
    r.setEvidence b k xs
      = r.setMeasures b ((r.barriers.get b).measures.setEntries k xs) :=
  if_pos h

theorem setEvidence_of_changed {r : Relay} {b : Fin 8} {k : Evidence} {xs : List Contribution}
    (h : xs.head?.map Contribution.value
      ≠ ((r.barriers.get b).measures.entries k).head?.map Contribution.value) :
    r.setEvidence b k xs
      = (r.setMeasures b ((r.barriers.get b).measures.setEntries k xs)).evaluate b :=
  if_neg h

/-! ## The statements -/

/-- Settles O35: the expiry drops the oldest entry; a contribution is aged, outranked, placed or
merged. -/
theorem evidenceAgesOut : Obligations.EvidenceAgesOut := by
  refine ⟨fun r q b x xs ha hdue => ⟨fun hshake => ?shake, fun hrain => ?rain⟩,
    fun entries kept list c life now spacing => ⟨contribute_of_aged,
      contribute_of_outranked life now, fun hyoung hnew hkept hlist hspacing => ?placed⟩,
    fun r b c list m placed hm => ⟨?contributeShake, ?contributeRain⟩⟩
  case shake =>
    rw [exec_shakeExpiry ha, evidenceExpires_of_due (k := .shake) hshake hdue]
    rfl
  case rain =>
    rw [exec_shakeExpiry ha, evidenceExpires_of_due (k := .rain) hrain hdue]
    rfl
  case placed =>
    have hplaced : Machine.placed entries c = list := by rw [placed_eq, hlist, hkept]
    rw [contribute_of_placed hyoung hnew, hplaced]
    refine ⟨fun hfew => if_neg (by omega), fun hmany => ?_⟩
    rw [if_pos hmany]
    obtain ⟨n, hn, hmerged, hleast⟩ := mergeClosest_spec (list := list) c (by omega)
    refine ⟨n, hn, hmerged.trans (mergeAt_of_lt c hn), ?_⟩
    rw [hspacing]
    exact hleast
  case contributeShake =>
    intro hlist hplaced
    subst hm
    have hset : r.contributeTo b .shake c = r.setEvidence b .shake list := by
      rw [hlist]
      rfl
    rw [hset, hplaced]
    exact ⟨setEvidence_of_same (k := .shake), setEvidence_of_changed (k := .shake)⟩
  case contributeRain =>
    intro hlist hplaced
    subst hm
    have hset : r.contributeTo b .rain c = r.setEvidence b .rain list := by
      rw [hlist]
      rfl
    rw [hset, hplaced]
    exact ⟨setEvidence_of_same (k := .rain), setEvidence_of_changed (k := .rain)⟩

end Sys2Proof.Machine

/-! SUPPORT. The level assessor: what each condition calls for, how a level rises and is held, and
how a change is handed on (R95 to R100, R110, R111, R120 to R123). -/

namespace Sys2Proof.Machine

/-! ## Conditions (R95, R96) -/

theorem le_rank_demand {n : Nat} (hn : 1 ≤ n) (holds : Bool) (v : Level) :
    n ≤ (demand holds v).rank ↔ holds = true ∧ n ≤ v.rank := by
  cases holds with
  | false =>
    refine iff_of_false (fun h => ?_) (fun h => Bool.false_ne_true h.1)
    have hzero : n ≤ 0 := h
    omega
  | true => exact (and_iff_right rfl).symm

/-- A condition that calls for one level where it holds, and for none where it does not. -/
theorem demand_only {holds : Bool} {p : Prop} (v : Level) (h : holds = true ↔ p) :
    (p → demand holds v = v) ∧ (¬ p → demand holds v = .calm) :=
  ⟨fun hp => if_pos (h.mpr hp), fun hp => if_neg (fun hh => hp (h.mp hh))⟩

theorem fillMeets_iff (bound h fill : Nat) :
    fillMeets bound h fill = true ↔ bound ≠ 0 ∧ 1 ≤ fill ∧ bound ≤ fill + h := by
  rw [fillMeets, Bool.and_eq_true, bne_iff_ne, decide_eq_true_iff]
  omega

theorem meets_peak_iff (bound : Nat) (entries : List Contribution) :
    meets bound (peak entries) = true
      ↔ bound ≠ 0 ∧ ∃ e, entries.head? = some e ∧ bound ≤ e.value := by
  rw [peak]
  cases entries.head? with
  | none => simp [meets]
  | some e => simp [meets]

theorem rateMeets_iff (bound : Nat) (rate : Option Int) :
    rateMeets bound rate = true ↔ bound ≠ 0 ∧ ∃ v, rate = some v ∧ (bound : Int) ≤ v := by
  cases rate with
  | none => simp [rateMeets]
  | some v => simp [rateMeets]

section
variable (d : BarrierDyn) (c : BarrierConfig) (lost : Bool) (h : Nat)

theorem le_rank_calls_fill {n : Nat} (hn : 1 ≤ n) :
    n ≤ (d.calls c lost h .fill).rank
      ↔ ((fillMeets c.watchFill h d.measures.fill = true ∧ n ≤ 1)
          ∨ (fillMeets c.warnFill h d.measures.fill = true ∧ n ≤ 2))
        ∨ (fillMeets c.fullFill h d.measures.fill = true ∧ n ≤ 3) := by
  rw [BarrierDyn.calls, rank_levelMax, rank_levelMax, le_max_iff, le_max_iff, le_rank_demand hn,
    le_rank_demand hn, le_rank_demand hn]
  rfl

theorem le_rank_calls_shake {n : Nat} (hn : 1 ≤ n) :
    n ≤ (d.calls c lost h .shake).rank
      ↔ (meets c.shakeWatch (peak d.measures.shake) = true ∧ n ≤ 1)
        ∨ (meets c.shakeWarn (peak d.measures.shake) = true ∧ n ≤ 2) := by
  rw [BarrierDyn.calls, rank_levelMax, le_max_iff, le_rank_demand hn, le_rank_demand hn]
  rfl

theorem calls_inflow_clear (hwire : d.inflowBroken = false) :
    d.calls c lost h .inflowWire = .calm := by
  rw [BarrierDyn.calls, hwire]
  rfl

theorem calls_inflow_broken (hwire : d.inflowBroken = true) :
    d.calls c lost h .inflowWire = if d.measures.sight = .blind then .evacuate else .warn := by
  rw [BarrierDyn.calls, hwire]
  rfl

theorem calls_feeder_warn {stale : Bool} (hfeeder : d.feeder = some (.warn, stale)) :
    d.calls c lost h .feeder = .watch := by
  simp only [BarrierDyn.calls, hfeeder]

theorem calls_feeder_evacuate {stale : Bool} (hfeeder : d.feeder = some (.evacuate, stale)) :
    d.calls c lost h .feeder = .warn := by
  simp only [BarrierDyn.calls, hfeeder]

theorem calls_feeder_low (hlow : ∀ v stale, d.feeder = some (v, stale) → v.rank ≤ 1) :
    d.calls c lost h .feeder = .calm := by
  cases hfeeder : d.feeder with
  | none => simp only [BarrierDyn.calls, hfeeder]
  | some x =>
    obtain ⟨v, stale⟩ := x
    have hv := hlow v stale hfeeder
    cases v with
    | calm => simp only [BarrierDyn.calls, hfeeder]
    | watch => simp only [BarrierDyn.calls, hfeeder]
    | warn => exact absurd hv (by decide)
    | evacuate => exact absurd hv (by decide)

theorem calls_lineLost_of_base {base : Level} (hwatched : c.lineWatched = true)
    (hlost : lost = true) (hbase : d.lineBase = some base) :
    d.calls c lost h .lineLost = if base = .calm then .watch else .warn := by
  simp only [BarrierDyn.calls, hbase, hwatched, hlost, demand, Bool.and_self, if_true]

theorem calls_lineLost_of_none
    (hnone : c.lineWatched = false ∨ lost = false ∨ d.lineBase = none) :
    d.calls c lost h .lineLost = .calm := by
  cases hbase : d.lineBase with
  | none => simp only [BarrierDyn.calls, hbase]
  | some base =>
    have hoff : (c.lineWatched && lost) = false := by
      rcases hnone with hwatched | hlost | hb
      · rw [hwatched, Bool.false_and]
      · rw [hlost, Bool.and_false]
      · rw [hbase] at hb
        cases hb
    simp only [BarrierDyn.calls, hbase, hoff]
    rfl

theorem calls_blind_of_wire (hsight : d.measures.sight = .blind) (hwire : d.inflowBroken = true) :
    d.calls c lost h .blind = .evacuate := by
  rw [BarrierDyn.calls, hsight, hwire]
  cases c.blindEvidence <;> rfl

theorem calls_blind_of_option (hsight : d.measures.sight = .blind)
    (hwire : d.inflowBroken = false) (hoption : c.blindEvidence = true) :
    d.calls c lost h .blind = .watch := by
  rw [BarrierDyn.calls, hsight, hwire, hoption]
  rfl

theorem calls_blind_of_neither
    (hnone : d.measures.sight ≠ .blind ∨ d.inflowBroken = false ∧ c.blindEvidence = false) :
    d.calls c lost h .blind = .calm := by
  rcases hnone with hsight | ⟨hwire, hoption⟩
  · have hoff : (d.measures.sight == Sight.blind) = false := beq_eq_false_iff_ne.mpr hsight
    rw [BarrierDyn.calls, hoff, Bool.and_false, Bool.and_false]
    rfl
  · rw [BarrierDyn.calls, hwire, hoption]
    rfl

end

/-- The highest of a list of levels is one of them, or none was called for. -/
theorem foldl_max_attained {α : Type} (f : α → Level) (xs : List α) (top : Level) :
    xs.foldl (fun top x => top.max (f x)) top = top
      ∨ ∃ x ∈ xs, f x = xs.foldl (fun top x => top.max (f x)) top := by
  induction xs generalizing top with
  | nil => exact Or.inl rfl
  | cons x xs ih =>
    rw [List.foldl_cons]
    rcases ih (top.max (f x)) with hsame | ⟨y, hy, hvalue⟩
    · rw [hsame, Level.max]
      split
      · exact Or.inr ⟨x, List.mem_cons_self, rfl⟩
      · exact Or.inl rfl
    · exact Or.inr ⟨y, List.mem_cons_of_mem _ hy, hvalue⟩

theorem highestCall_attained (d : BarrierDyn) (c : BarrierConfig) (lost : Bool) (h : Nat) :
    d.highestCall c lost h = .calm ∨ ∃ k, d.calls c lost h k = d.highestCall c lost h := by
  rcases foldl_max_attained (d.calls c lost h) Cause.all .calm with hcalm | ⟨k, _, hk⟩
  · exact Or.inl hcalm
  · exact Or.inr ⟨k, hk⟩

/-! ## Rise and hold (R99) -/

section
variable {d : BarrierDyn} {c : BarrierConfig} {dem sus : Level} {now : Nat}

theorem settle_of_rise (h : d.level.rank < dem.rank) :
    d.settle c dem sus now = { d with level := dem, hold := none } :=
  if_pos h

theorem settle_of_sustained (hdem : dem.rank ≤ d.level.rank) (hsus : d.level.rank ≤ sus.rank) :
    d.settle c dem sus now = { d with hold := none } := by
  rw [BarrierDyn.settle, if_neg (not_lt.mpr hdem), if_pos hsus]

theorem settle_of_unheld (hdem : dem.rank ≤ d.level.rank) (hsus : sus.rank < d.level.rank)
    (hlevel : d.level ≠ .evacuate) (hhold : d.hold = none) :
    d.settle c dem sus now = { d with hold := some (now + c.holdTime) } := by
  rw [BarrierDyn.settle, if_neg (not_lt.mpr hdem), if_neg (not_le.mpr hsus),
    if_pos ⟨hlevel, hhold⟩]

theorem settle_of_held (hdem : dem.rank ≤ d.level.rank) (hsus : sus.rank < d.level.rank)
    (hhold : d.level = .evacuate ∨ d.hold ≠ none) : d.settle c dem sus now = d := by
  rw [BarrierDyn.settle, if_neg (not_lt.mpr hdem), if_neg (not_le.mpr hsus), if_neg]
  rintro ⟨hlevel, hnone⟩
  rcases hhold with h | h
  · exact hlevel h
  · exact h hnone

theorem settle_level_of_no_rise (hdem : dem.rank ≤ d.level.rank) :
    (d.settle c dem sus now).level = d.level := by
  rw [BarrierDyn.settle, if_neg (not_lt.mpr hdem)]
  split_ifs <;> rfl

end

theorem weigh_eq (d : BarrierDyn) (c : BarrierConfig) (lost : Bool) (now : Nat) (start : Level)
    {based settled : BarrierDyn} (hbased : based = d.withBase c lost start)
    (hsettled : settled = based.settle c (based.demanded c lost) (based.sustained c lost) now) :
    d.weigh c lost now start
      = { settled with causes := based.causeSet c lost settled.level } := by
  subst hsettled hbased
  rfl

theorem mem_causeSet {d : BarrierDyn} {c : BarrierConfig} {lost : Bool} {level : Level}
    (h : level ≠ .calm) (k : Cause) :
    k ∈ d.causeSet c lost level ↔ level.rank ≤ (d.calls c lost 0 k).rank
      ∨ level.rank ≤ (d.calls c lost c.hysteresis k).rank := by
  rw [BarrierDyn.causeSet, if_neg h, List.mem_filter, Bool.or_eq_true, decide_eq_true_iff,
    decide_eq_true_iff]
  exact and_iff_right k.mem_all

theorem causeSet_pairwise (d : BarrierDyn) (c : BarrierConfig) (lost : Bool) (level : Level) :
    (d.causeSet c lost level).Pairwise (fun x y => x.code < y.code) := by
  have hall : Cause.all.Pairwise (fun x y => x.code < y.code) := by decide
  rw [BarrierDyn.causeSet]
  split
  · exact List.Pairwise.nil
  · exact hall.filter _

theorem weighBarrier_others (r : Relay) (b : Fin 8) (start : Level) {o : Fin 8} (h : o ≠ b) :
    (r.weighBarrier b start).barriers.get o = r.barriers.get o :=
  Bank.get_set_of_ne _ _ h.symm

theorem evaluate_of_not_assessed {r : Relay} {b : Fin 8} (h : r.assessed b = false) :
    r.evaluate b = r :=
  if_neg (by rw [h]; exact Bool.false_ne_true)

theorem evaluate_of_assessed {r : Relay} {b : Fin 8} (h : r.assessed b = true) :
    r.evaluate b
      = (r.weighBarrier b (r.barriers.get b).level).handOver b (r.barriers.get b).level :=
  if_pos h

/-! ## Handing a change on (R110, R111, R122) -/

@[simp] theorem setBarrier_self (r : Relay) (b : Fin 8) :
    r.setBarrier b (r.barriers.get b) = r := by
  rw [Relay.setBarrier, Bank.set_get]
  rfl

theorem buildAlert_get (r : Relay) (b : Fin 8) :
    (r.buildAlert b).barriers.get b = (r.barriers.get b).nextSerial := by
  rw [buildAlert_barriers, Bank.get_set_self]

theorem SameButHandOver.now_eq {r t : Relay} (h : SameButHandOver r t) : t.now = r.now := by
  rw [Relay.now, Relay.now, h.clock]

theorem toldOfChange_eq (r : Relay) (b : Fin 8) :
    r.toldOfChange b = (r.buildAlert b).setBarrier b
      { r.barriers.get b with
        serial := min ((r.barriers.get b).serial + 1) 16777215
        repeatAt := (r.repeatInterval (r.barriers.get b).level).map (fun i => r.now + i) } := by
  have hsame := buildAlert_handOver r b
  have hinterval (l : Level) : (r.buildAlert b).repeatInterval l = r.repeatInterval l := by
    unfold Relay.repeatInterval
    rw [hsame.tables]
  rw [Relay.toldOfChange, Relay.restartRepeat, buildAlert_get, hsame.now_eq, hinterval]
  rfl

theorem toldOfChange_get (r : Relay) (b : Fin 8) :
    ∃ s at_, (r.toldOfChange b).barriers.get b
      = { r.barriers.get b with serial := s, repeatAt := at_ } := by
  rw [toldOfChange_barriers, Bank.get_set_self]
  exact ⟨_, _, rfl⟩

theorem quietFor_iff (d : BarrierDyn) (v : Level) :
    d.quietFor v = true ↔ ∃ q, d.quieted = some q ∧ v.rank ≤ q.rank := by
  unfold BarrierDyn.quietFor
  cases d.quieted <;> simp

theorem requestUnlessQuieted_of_heard {r : Relay} {b : Fin 8} {v : Level}
    (h : ∀ q, (r.barriers.get b).quieted = some q → q.rank < v.rank) :
    r.requestUnlessQuieted b v = r.requestSounding b v := by
  refine if_neg (fun hquiet => ?_)
  obtain ⟨q, hq, hle⟩ := (quietFor_iff _ _).mp hquiet
  have hlt := h q hq
  omega

theorem requestUnlessQuieted_of_quieted {r : Relay} {b : Fin 8} {v q : Level}
    (hq : (r.barriers.get b).quieted = some q) (hle : v.rank ≤ q.rank) :
    r.requestUnlessQuieted b v = r :=
  if_pos ((quietFor_iff _ _).mpr ⟨q, hq, hle⟩)

theorem soundChange_of_rise {r : Relay} {b : Fin 8} {old new : Level} (h : old.rank < new.rank) :
    r.soundChange b old new = r.requestUnlessQuieted b new :=
  if_pos h

theorem soundChange_of_all_clear {r : Relay} {b : Fin 8} {old : Level} :
    r.soundChange b old .calm = (r.fallNotice b .calm).requestSounding b .calm := by
  have hno : ¬ old.rank < Level.calm.rank := Nat.not_lt_zero _
  rw [Relay.soundChange, if_neg hno, if_pos rfl]

theorem soundChange_of_fall {r : Relay} {b : Fin 8} {old new : Level} (h : new.rank < old.rank)
    (hnew : new ≠ .calm) : r.soundChange b old new = r.fallNotice b new := by
  rw [Relay.soundChange, if_neg (by omega), if_neg hnew]

theorem handOver_of_same {r : Relay} {b : Fin 8} {old : Level}
    (h : (r.barriers.get b).level = old) : r.handOver b old = r :=
  if_pos h

theorem handOver_of_changed {r : Relay} {b : Fin 8} {old new : Level}
    (hnew : new = (r.barriers.get b).level) (h : new ≠ old) :
    r.handOver b old = r.handChange b old new := by
  subst hnew
  exact if_neg h

theorem preemptTest_of_idle {r : Relay} (h : r.generator.running = false) : r.preemptTest = r := by
  rw [Relay.preemptTest, Relay.when, h]
  rfl

theorem preemptTest_of_running {r : Relay} (h : r.generator.running = true) :
    r.preemptTest = r.setGenerator
      { r.generator with
        running := false
        outstanding := false
        gapTimer := none
        last := some .preempted } := by
  rw [Relay.preemptTest, Relay.when, h]
  rfl

theorem rank_injective {v w : Level} (h : v.rank = w.rank) : v = w := by
  have hcode : Level.ofCode v.rank = Level.ofCode w.rank := by rw [h]
  rw [Level.ofCode_rank, Level.ofCode_rank] at hcode
  exact Option.some.inj hcode

/-! ## The statements -/

/-- Settles O36: the base, the settled level and the causes are taken in the order the model weighs
them. -/
theorem evaluationRaisesAndHolds : Obligations.EvaluationRaisesAndHolds := by
  refine ⟨fun r b start based d dem sus hbased hdem hsus hd => ?weighed, rfl,
    fun d c lost h m calls met shaken only hm hcalls hmet hshaken honly => ?conditions,
    fun d c lost h top htop => ?highest, fun r b => ?told,
    fun r b old new told sounded hnew hcalm hup hrise hquiet hfall hclear => ?handed⟩
  case weighed =>
    have hbase : based = (r.barriers.get b).withBase (r.tables.barriers.get b) r.lineLoss.lost
        start := by
      rw [hbased, BarrierDyn.withBase]
      cases (r.barriers.get b).lineBase <;> simp only [Bool.and_eq_true] <;> rfl
    have hlevel : based.level = (r.barriers.get b).level := by rw [hbased]
    have hhold : based.hold = (r.barriers.get b).hold := by rw [hbased]
    generalize hsettled : based.settle (r.tables.barriers.get b) dem sus r.now = settled
    have hweigh : d = { settled with
        causes := based.causeSet (r.tables.barriers.get b) r.lineLoss.lost settled.level } := by
      rw [hd, weighBarrier_get]
      exact weigh_eq _ _ _ _ _ hbase (by rw [← hsettled, hdem, hsus])
    have hdlevel : d.level = settled.level := by rw [hweigh]
    have hdhold : d.hold = settled.hold := by rw [hweigh]
    have hcauses : d.causes
        = based.causeSet (r.tables.barriers.get b) r.lineLoss.lost d.level := by rw [hweigh]
    refine ⟨?_, fun hlt => ?_, fun hle => ?_, fun hle hsust => ?_, fun hle hunsust hne hnone => ?_,
      fun e hle hunsust hsome => ?_, fun hzero => ?_, fun hnz k => ?_, ?_,
      fun o ho => weighBarrier_others r b start ho, evaluate_of_not_assessed,
      evaluate_of_assessed, evaluate_handOver r b⟩
    · rw [hweigh, ← hsettled, settle_rest]
    · rw [← hlevel] at hlt
      rw [hdlevel, hdhold, ← hsettled, settle_of_rise hlt]
      exact ⟨rfl, rfl⟩
    · rw [← hlevel] at hle ⊢
      rw [hdlevel, ← hsettled]
      exact settle_level_of_no_rise hle
    · rw [← hlevel] at hle hsust
      rw [hdhold, ← hsettled, settle_of_sustained hle hsust]
    · rw [← hlevel] at hle hunsust hne
      rw [hdhold, ← hsettled, settle_of_unheld hle hunsust hne (hhold.trans hnone)]
    · rw [← hlevel] at hle hunsust
      have hheld : based.hold ≠ none := by
        rw [hhold, hsome]
        exact Option.some_ne_none e
      rw [hdhold, ← hsettled, settle_of_held hle hunsust (Or.inr hheld), hhold, hsome]
    · rw [hcauses]
      exact if_pos hzero
    · rw [hcauses]
      exact mem_causeSet hnz k
    · rw [hcauses]
      exact causeSet_pairwise _ _ _ _
  case conditions =>
    subst hm hcalls
    have hfills (n : Nat) (hn : 1 ≤ n) : n ≤ (d.calls c lost h .fill).rank
        ↔ ((met c.watchFill ∧ n ≤ 1) ∨ (met c.warnFill ∧ n ≤ 2)) ∨ (met c.fullFill ∧ n ≤ 3) := by
      rw [le_rank_calls_fill d c lost h hn, fillMeets_iff, fillMeets_iff, fillMeets_iff, ← hmet,
        ← hmet, ← hmet]
    have hshakes (n : Nat) (hn : 1 ≤ n) : n ≤ (d.calls c lost h .shake).rank
        ↔ (shaken c.shakeWatch ∧ n ≤ 1) ∨ (shaken c.shakeWarn ∧ n ≤ 2) := by
      rw [le_rank_calls_shake d c lost h hn, meets_peak_iff, meets_peak_iff, ← hshaken, ← hshaken]
    have hdemands {k : Cause} {v : Level} {holds : Bool} {p : Prop}
        (hk : d.calls c lost h k = demand holds v) (hp : holds = true ↔ p) : only k v p := by
      rw [honly, hk]
      exact demand_only v hp
    have httf : (c.ttfWarn != 0 && decide (d.measures.ttf ≤ c.ttfWarn)) = true
        ↔ c.ttfWarn ≠ 0 ∧ d.measures.ttf ≤ c.ttfWarn := by
      rw [Bool.and_eq_true, bne_iff_ne, decide_eq_true_iff]
    refine ⟨?_, ?_, ?_, hdemands rfl (rateMeets_iff _ _), hdemands rfl httf, ?_, ?_, ?_,
      hdemands rfl (meets_peak_iff _ _), calls_inflow_clear d c lost h, fun hwire hsight => ?_,
      fun hwire hsight => ?_, hdemands rfl Iff.rfl, fun _ => calls_feeder_warn d c lost h,
      fun _ => calls_feeder_evacuate d c lost h, calls_feeder_low d c lost h,
      calls_lineLost_of_base d c lost h, fun base hwatched hlost hbase hne => ?_,
      calls_lineLost_of_none d c lost h, hdemands rfl Iff.rfl, hdemands rfl Iff.rfl,
      calls_blind_of_wire d c lost h, calls_blind_of_option d c lost h,
      calls_blind_of_neither d c lost h⟩
    · simp [hfills 3]
    · simp [hfills 2, or_comm]
    · simp [hfills 1, or_comm, or_left_comm]
    · have hthree := hshakes 3 (by decide)
      simp only [Nat.reduceLeDiff, and_false, or_false, iff_false] at hthree
      omega
    · simp [hshakes 2]
    · simp [hshakes 1, or_comm]
    · rw [calls_inflow_broken d c lost h hwire, if_neg hsight]
    · rw [calls_inflow_broken d c lost h hwire, if_pos hsight]
    · rw [calls_lineLost_of_base d c lost h hwatched hlost hbase, if_neg hne]
  case highest =>
    rcases htop with ⟨hh, ht⟩ | ⟨hh, ht⟩
    · rw [hh, ht]
      exact ⟨rank_calls_le_highestCall d c lost 0, highestCall_attained d c lost 0⟩
    · rw [hh, ht]
      exact ⟨rank_calls_le_highestCall d c lost _, highestCall_attained d c lost _⟩
  case told =>
    rw [toldOfChange_eq]
    cases (r.barriers.get b).level <;> rfl
  case handed =>
    have htold : (r.setBarrier b (r.barriers.get b).atCalm).toldOfChange b = told := by
      by_cases hzero : new = .calm
      · rw [hcalm hzero, BarrierDyn.atCalm, if_pos (hnew.symm.trans hzero)]
      · rw [hup hzero, BarrierDyn.atCalm, if_neg (fun h => hzero (hnew.trans h)), setBarrier_self]
    have hsounded (hne : new ≠ old) : told.soundChange b old new = sounded := by
      rcases lt_trichotomy old.rank new.rank with hlt | heq | hgt
      · have hzero : new ≠ .calm := (one_le_rank_iff _).mp (by omega)
        have hkept : (told.barriers.get b).quieted = (r.barriers.get b).quieted := by
          obtain ⟨s, at_, hget⟩ := toldOfChange_get r b
          rw [hup hzero, hget]
        rw [soundChange_of_rise hlt]
        by_cases hheard : ∀ v, (r.barriers.get b).quieted = some v → v.rank < new.rank
        · rw [hrise hlt hheard]
          exact requestUnlessQuieted_of_heard (by rw [hkept]; exact hheard)
        · push Not at hheard
          obtain ⟨v, hv, hle⟩ := hheard
          rw [hquiet v hlt hv hle]
          exact requestUnlessQuieted_of_quieted (hkept.trans hv) hle
      · exact absurd (rank_injective heq.symm) hne
      · by_cases hzero : new = .calm
        · rw [hclear hgt hzero, hzero, soundChange_of_all_clear]
        · rw [hfall hgt hzero, soundChange_of_fall hgt hzero]
    have hchanged (hne : new ≠ old) : r.handOver b old
        = sounded.when (decide (1 ≤ new.rank)) Relay.preemptTest := by
      rw [handOver_of_changed hnew hne, Relay.handChange, htold, hsounded hne]
    refine ⟨fun hsame => handOver_of_same (hnew.symm.trans hsame), fun hne hquietly => ?_,
      fun hne hzero hrunning => ?_⟩
    · rw [hchanged hne]
      rcases hquietly with hzero | hidle
      · rw [hzero]
        rfl
      · rw [Relay.when, preemptTest_of_idle hidle, ite_self]
    · rw [hchanged hne, Relay.when, if_pos (decide_eq_true ((one_le_rank_iff _).mpr hzero)),
        preemptTest_of_running hrunning]
end Sys2Proof.Machine

/-! SUPPORT. Hold and repeat deadlines, the ALERT frame, what a notice does at the channels, and
QUIET (R100, R120 to R128, R144 to R146). -/

namespace Sys2Proof.Machine

/-! ## Hold and repeat deadlines (R100, R123) -/

theorem exec_holdExpiry {r : Relay} (ha : r.awake = true) (b : Fin 8) (q : List Instr) :
    exec (.holdExpiry b) ⟨r, q⟩ = .next ⟨r.holdExpires b, q⟩ :=
  exec_awake (f := fun r => r.holdExpires b) (fun _ => rfl) ha

theorem resetFalls_iff (r : Relay) :
    r.resetFalls = true
      ↔ r.key.state = .timing ∧ ∃ k, r.key.timer = some k ∧ k ≤ r.clock.ms := by
  rw [Relay.resetFalls, Bool.and_eq_true, beq_iff_eq]
  cases r.key.timer with
  | none => simp [reached]
  | some k => simp only [reached_some, decide_eq_true_eq, Relay.instant, Option.some.injEq,
      exists_eq_left']

theorem holdExpires_of_reset {r : Relay} (b : Fin 8) (h : r.resetFalls = true) :
    r.holdExpires b = r :=
  if_neg (by rw [h]; simp)

theorem holdExpires_of_due {r : Relay} {b : Fin 8} {e : Nat} (hassessed : r.assessed b = true)
    (hhold : (r.barriers.get b).hold = some e) (hdue : e ≤ r.now) (hreset : r.resetFalls = false) :
    r.holdExpires b
      = ((r.setBarrier b
            { r.barriers.get b with
              hold := none
              level := (r.barriers.get b).level.stepDown }).weighBarrier b
          (r.barriers.get b).level).handOver b (r.barriers.get b).level :=
  if_pos (by rw [hassessed, hreset, reached_of_le hhold hdue]; rfl)

theorem exec_repeatExpiry {r : Relay} (ha : r.awake = true) (b : Fin 8) (q : List Instr) :
    exec (.repeatExpiry b) ⟨r, q⟩ = .next ⟨r.repeatExpires b, q⟩ :=
  exec_awake (f := fun r => r.repeatExpires b) (fun _ => rfl) ha

theorem repeatExpires_of_due {r : Relay} {b : Fin 8} {e : Nat}
    (hrepeat : (r.barriers.get b).repeatAt = some e) (hdue : e ≤ r.now) :
    r.repeatExpires b
      = (r.toldOfChange b).requestUnlessQuieted b (r.barriers.get b).level := by
  have hlevel : ((r.toldOfChange b).barriers.get b).level = (r.barriers.get b).level := by
    obtain ⟨s, at_, hget⟩ := toldOfChange_get r b
    rw [hget]
  rw [← hlevel]
  exact if_pos (reached_of_le hrepeat hdue)

/-! ## The ALERT's payload (R120, R195, R197) -/

theorem rateBytes_eq (rate : Option Int) :
    rateBytes rate = be2 ((rate.getD (-32768)) % 65536).toNat := by
  rw [rateBytes, BitVec.toNat_ofInt]
  rfl

theorem alertFlags_eq (d : BarrierDyn) (sight held quieted stale : Nat)
    (hsight : sight = d.measures.sight.code) (hheld : held = flag d.measures.held)
    (hquieted : quieted = flag d.quieted.isSome)
    (hstale : stale = flag (d.feeder.any (fun f => f.2))) :
    alertFlags d = byte (sight + 4 * held + 8 * quieted + 16 * stale) := by
  subst hsight hheld hquieted hstale
  unfold alertFlags
  cases d.feeder <;> rfl

/-! ## Notices at a channel (R144 to R146) -/

/-- An owner is a barrier at a level that a test names. -/
def Owner.named (p : Fin 8 → Level → Bool) : Owner → Bool
  | .barrier b l => p b l
  | .test => false

/-- A channel sounds for a barrier and level that a test names. -/
def Channel.soundsWhere (ch : Channel) (p : Fin 8 → Level → Bool) : Bool :=
  ch.state == .sounding && ch.owner.any (Owner.named p)

/-- A channel after a notice of every barrier and level that a test names: a waiting request it
names is gone, and a sounding it names is stopped where the notice stops it. -/
def Channel.noticed (ch : Channel) (p : Fin 8 → Level → Bool) (stops : Bool)
    (reason : StopReason) : Channel :=
  { ch with
    waiting := ch.waiting.filter (fun w => !p w.barrier w.level)
    state := if ch.soundsWhere p && stops then .stopping else ch.state
    stop := if ch.soundsWhere p && stops then some reason else ch.stop }

theorem soundsWhere_iff (ch : Channel) (p : Fin 8 → Level → Bool) :
    ch.soundsWhere p = true
      ↔ ch.state = .sounding ∧ ∃ b l, ch.owner = some (.barrier b l) ∧ p b l = true := by
  rw [Channel.soundsWhere, Bool.and_eq_true, beq_iff_eq]
  refine and_congr_right (fun _ => ?_)
  cases ch.owner with
  | none => simp
  | some o => cases o <;> simp [Owner.named]

theorem soundsFor_eq (ch : Channel) (b : Fin 8) (test : Level → Bool) :
    ch.soundsFor b test = ch.soundsWhere (fun o l => o == b && test l) := by
  unfold Channel.soundsFor Channel.soundsWhere
  cases ch.state with
  | idle => rfl
  | stopping => rfl
  | sounding =>
    cases ch.owner with
    | none => rfl
    | some o => cases o <;> rfl

theorem dropWaiting_eq (ch : Channel) (b : Fin 8) (test : Level → Bool) :
    ch.dropWaiting b test
      = { ch with waiting := ch.waiting.filter (fun w => !(w.barrier == b && test w.level)) } := by
  unfold Channel.dropWaiting
  cases hw : ch.waiting with
  | none =>
    obtain ⟨⟩ := ch
    cases hw
    rfl
  | some w =>
    by_cases h : w.barrier = b ∧ test w.level = true
    · simp [h, Option.filter]
    · have hkeep : (w.barrier == b && test w.level) = false := by
        rw [← Bool.not_eq_true, Bool.and_eq_true, beq_iff_eq]
        exact h
      obtain ⟨⟩ := ch
      cases hw
      simp [h, hkeep, Option.filter]

theorem notice_eq_noticed (ch : Channel) (b : Fin 8) (test : Level → Bool) (stops : Bool)
    (reason : StopReason) :
    ch.notice b test stops reason = ch.noticed (fun o l => o == b && test l) stops reason := by
  have hsame : (ch.dropWaiting b test).soundsFor b test
      = ch.soundsWhere (fun o l => o == b && test l) := by
    rw [soundsFor_eq, dropWaiting_eq]
    rfl
  simp only [Channel.notice, hsame]
  rw [dropWaiting_eq, Channel.noticed]
  cases ch.soundsWhere (fun o l => o == b && test l) && stops <;> rfl

theorem noticed_of_none (ch : Channel) (stops : Bool) (reason : StopReason) :
    ch.noticed (fun _ _ => false) stops reason = ch := by
  have hno : ch.soundsWhere (fun _ _ => false) = false := by
    rw [← Bool.not_eq_true, soundsWhere_iff]
    rintro ⟨_, _, _, _, h⟩
    exact Bool.false_ne_true h
  have hwaiting : ch.waiting.filter (fun _ => !false) = ch.waiting := by
    cases ch.waiting <;> rfl
  rw [Channel.noticed, hno, hwaiting]
  rfl

/-- Two notices in turn are one notice of what either names. -/
theorem noticed_noticed (ch : Channel) (p p' : Fin 8 → Level → Bool) (reason : StopReason) :
    (ch.noticed p true reason).noticed p' true reason
      = ch.noticed (fun b l => p b l || p' b l) true reason := by
  have hwaiting : (ch.waiting.filter (fun w => !p w.barrier w.level)).filter
      (fun w => !p' w.barrier w.level)
        = ch.waiting.filter (fun w => !(p w.barrier w.level || p' w.barrier w.level)) := by
    rw [Option.filter_filter]
    simp only [Bool.not_or]
  have hboth : ch.soundsWhere (fun b l => p b l || p' b l)
      = (ch.soundsWhere p || ch.soundsWhere p') := by
    unfold Channel.soundsWhere
    rw [← Bool.and_or_distrib_left]
    cases ch.owner with
    | none => rfl
    | some o => cases o <;> rfl
  have hsecond : (ch.noticed p true reason).soundsWhere p'
      = (!ch.soundsWhere p && ch.soundsWhere p') := by
    rw [Channel.noticed]
    cases ch.soundsWhere p <;> rfl
  rw [Channel.noticed, hsecond]
  simp only [Channel.noticed, hwaiting, hboth, Bool.and_true]
  cases ch.soundsWhere p <;> cases ch.soundsWhere p' <;> rfl

/-- What a notice leaves of a channel, said with the requests and soundings it names. -/
theorem noticed_spec {ch kept : Channel} {p : Fin 8 → Level → Bool} {stops : Bool}
    {reason : StopReason} {waits sounds : Prop}
    (hwaits : waits ↔ ∃ w, ch.waiting = some w ∧ p w.barrier w.level = true)
    (hsounds : sounds ↔ ch.soundsWhere p = true ∧ stops = true)
    (hgone : waits → kept = { ch with waiting := none }) (hkept : ¬ waits → kept = ch) :
    (sounds → ch.noticed p stops reason = { kept with state := .stopping, stop := some reason })
      ∧ (¬ sounds → ch.noticed p stops reason = kept) := by
  have hdrop : { ch with waiting := ch.waiting.filter (fun w => !p w.barrier w.level) } = kept := by
    by_cases hw : waits
    · obtain ⟨w, hwaiting, hp⟩ := hwaits.mp hw
      rw [hgone hw, hwaiting]
      simp [hp, Option.filter]
    · rw [hkept hw]
      cases hwaiting : ch.waiting with
      | none =>
        obtain ⟨⟩ := ch
        cases hwaiting
        rfl
      | some w =>
        have hp : p w.barrier w.level = false := by
          rw [← Bool.not_eq_true]
          exact fun hp => hw (hwaits.mpr ⟨w, hwaiting, hp⟩)
        obtain ⟨⟩ := ch
        cases hwaiting
        simp [hp, Option.filter]
  rw [← Bool.and_eq_true] at hsounds
  rw [← hdrop]
  refine ⟨fun hs => ?_, fun hs => ?_⟩
  · rw [Channel.noticed, hsounds.mp hs]
    rfl
  · rw [Channel.noticed, Bool.eq_false_iff.mpr ((not_congr hsounds).mp hs)]
    rfl

/-! ## QUIET (R127, R128) -/

/-- The quieted level that a QUIET leaves at a barrier (R128). -/
def Relay.quietedBy (r : Relay) (q : Level) (b : Fin 8) : Level :=
  match (r.barriers.get b).quieted with
  | none => q
  | some old => old.max q

theorem quietedBy_of_none {r : Relay} {q : Level} {b : Fin 8}
    (h : (r.barriers.get b).quieted = none) : r.quietedBy q b = q := by
  simp only [Relay.quietedBy, h]

theorem quietedBy_of_some {r : Relay} {q old : Level} {b : Fin 8}
    (h : (r.barriers.get b).quieted = some old) :
    (r.quietedBy q b).rank = max old.rank q.rank := by
  simp only [Relay.quietedBy, h, rank_levelMax]

theorem quietBarrier_eq (r : Relay) (b : Fin 8) (q : Level) :
    r.quietBarrier b q
      = (r.setBarrier b { r.barriers.get b with quieted := some (r.quietedBy q b) }).quietNotice b
          (r.quietedBy q b) :=
  rfl

theorem quietNotice_get (r : Relay) (b : Fin 8) (v : Level) (c : Fin 4) :
    (r.quietNotice b v).channels.get c
      = (r.channels.get c).noticed (fun o l => o == b && decide (l.rank ≤ v.rank)) true
          .stoppedQuiet := by
  rw [← notice_eq_noticed]
  exact Bank.get_map _ _ _

/-- The quieting of a list of barriers, one after the other, read off at the end (R127 step 3). -/
theorem quietBarriers_spec (q : Level) (st : Fin 8 → Level) (xs : List (Fin 8)) :
    ∀ r t : Relay, xs.Nodup → (∀ b ∈ xs, r.quietedBy q b = st b) →
      t = xs.foldl (fun r b => r.quietBarrier b q) r →
      t = (r.setBarriers t.barriers).setChannels t.channels
      ∧ (∀ b, b ∉ xs → t.barriers.get b = r.barriers.get b)
      ∧ (∀ b ∈ xs, t.barriers.get b = { r.barriers.get b with quieted := some (st b) })
      ∧ ∀ c, t.channels.get c
        = (r.channels.get c).noticed
            (fun o l => xs.any (fun b => o == b && decide (l.rank ≤ (st b).rank))) true
            .stoppedQuiet := by
  induction xs with
  | nil =>
    intro r t _ _ ht
    subst ht
    exact ⟨rfl, fun _ _ => rfl, fun _ h => absurd h List.not_mem_nil,
      fun c => (noticed_of_none _ _ _).symm⟩
  | cons x xs ih =>
    intro r t hnodup hst ht
    obtain ⟨hx, hxs⟩ := List.nodup_cons.mp hnodup
    have hfirst : r.quietBarrier x q = (r.setBarrier x
        { r.barriers.get x with quieted := some (st x) }).quietNotice x (st x) := by
      rw [quietBarrier_eq, hst x List.mem_cons_self]
    have hother (b : Fin 8) (hb : b ≠ x) :
        (r.quietBarrier x q).barriers.get b = r.barriers.get b := by
      rw [hfirst]
      exact Bank.get_set_of_ne _ _ hb.symm
    have hself : (r.quietBarrier x q).barriers.get x
        = { r.barriers.get x with quieted := some (st x) } := by
      rw [hfirst]
      exact Bank.get_set_self _ _ _
    have hne (b : Fin 8) (hb : b ∈ xs) : b ≠ x := fun h => hx (h ▸ hb)
    obtain ⟨hrest, hout, hin, hchannels⟩ := ih (r.quietBarrier x q) t hxs
      (fun b hb => by
        rw [Relay.quietedBy, hother b (hne b hb)]
        exact hst b (List.mem_cons_of_mem _ hb)) ht
    refine ⟨?_, fun b hb => ?_, fun b hb => ?_, fun c => ?_⟩
    · rw [hrest, hfirst]
      rfl
    · rw [List.mem_cons, not_or] at hb
      rw [hout b hb.2, hother b hb.1]
    · rcases List.mem_cons.mp hb with rfl | hb
      · rw [hout b hx, hself]
      · rw [hin b hb, hother b (hne b hb)]
    · have hnoticed : (r.quietBarrier x q).channels.get c
          = (r.channels.get c).noticed (fun o l => o == x && decide (l.rank ≤ (st x).rank)) true
              .stoppedQuiet := by
        rw [hfirst, quietNotice_get]
        rfl
      rw [hchannels c, hnoticed, noticed_noticed]
      simp only [List.any_cons]

theorem mem_quietNames (index : Nat) (b : Fin 8) :
    b ∈ quietNames index ↔ index = b.val ∨ index = 255 := by
  have hb := b.isLt
  by_cases hall : index = 255
  · subst hall
    simp [quietNames]
  · rw [quietNames, if_neg hall, or_iff_left hall, Option.mem_toList]
    by_cases hlow : index < 8
    · have hname : finOf 8 index = some ⟨index, hlow⟩ := finOf_val (⟨index, hlow⟩ : Fin 8)
      rw [hname, Option.some.injEq, Fin.ext_iff]
    · rw [finOf_of_ge (by omega)]
      exact iff_of_false (fun h => nomatch h) (by omega)

theorem quietNames_nodup (index : Nat) : (quietNames index).Nodup := by
  rw [quietNames]
  split
  · exact List.nodup_finRange 8
  · cases finOf 8 index with
    | none => exact List.nodup_nil
    | some b => exact List.nodup_singleton b

theorem authorised_iff (r : Relay) (origin : Addr) :
    r.authorised origin = true
      ↔ r.tables.identity.manager = none ∨ r.tables.identity.manager = some origin := by
  unfold Relay.authorised
  cases r.tables.identity.manager <;> simp

theorem quietNamed_of_none {r : Relay} {names : List (Fin 8)} {q : Level}
    (h : ∀ b ∈ names, (r.barriers.get b).level = .calm) :
    r.quietNamed names q = r.quietNotActed := by
  have hempty : names.filter (fun b => decide (1 ≤ (r.barriers.get b).level.rank)) = [] := by
    rw [List.filter_eq_nil_iff]
    intro b hb
    rw [h b hb]
    decide
  rw [Relay.quietNamed, hempty]
  rfl

theorem quietNamed_of_some {r : Relay} {names hit : List (Fin 8)} {q : Level}
    (hhit : hit = names.filter (fun b => decide (1 ≤ (r.barriers.get b).level.rank)))
    (h : hit ≠ []) :
    r.quietNamed names q
      = (hit.foldl (fun r b => r.quietBarrier b q) r).setEmitter
          { (hit.foldl (fun r b => r.quietBarrier b q) r).emitter with
            quietActed :=
              bump (hit.foldl (fun r b => r.quietBarrier b q) r).emitter.quietActed } := by
  rw [Relay.quietNamed, ← hhit, List.isEmpty_eq_false_iff.mpr h]
  rfl

section
variable {r : Relay} {origin : Addr} {payload : List Byte}

theorem judgeQuiet_of_another (hown : pairAt payload 0 ≠ r.store.own.toNat)
    (hall : pairAt payload 0 ≠ 4095) : r.judgeQuiet origin payload = r :=
  if_pos ⟨hown, hall⟩

theorem judgeQuiet_of_here (here : pairAt payload 0 = r.store.own.toNat ∨ pairAt payload 0 = 4095)
    {q : Level} (hq : Level.ofCode (byteAt payload 3) = some q) :
    r.judgeQuiet origin payload
      = if r.authorised origin = true ∧ (byteAt payload 2 < 8 ∨ byteAt payload 2 = 255)
            ∧ q ≠ .calm then
          r.quietNamed (quietNames (byteAt payload 2)) q
        else r.quietNotActed := by
  have hno : ¬ (pairAt payload 0 ≠ r.store.own.toNat ∧ pairAt payload 0 ≠ 4095) := by
    rintro ⟨h, h'⟩
    exact here.elim h h'
  simp only [Relay.judgeQuiet, if_neg hno, hq]

theorem judgeQuiet_of_no_level
    (here : pairAt payload 0 = r.store.own.toNat ∨ pairAt payload 0 = 4095)
    (hq : Level.ofCode (byteAt payload 3) = none) :
    r.judgeQuiet origin payload = r.quietNotActed := by
  have hno : ¬ (pairAt payload 0 ≠ r.store.own.toNat ∧ pairAt payload 0 ≠ 4095) := by
    rintro ⟨h, h'⟩
    exact here.elim h h'
  simp only [Relay.judgeQuiet, if_neg hno, hq]

end

theorem Level.ofCode_eq_some_iff (n : Nat) (v : Level) : Level.ofCode n = some v ↔ v.rank = n := by
  constructor
  · intro h
    by_cases hn : 4 ≤ n
    · rw [Level.ofCode_of_ge hn] at h
      cases h
    · interval_cases n <;> cases h <;> rfl
  · rintro rfl
    exact Level.ofCode_rank v

/-! ## The statements -/

/-- Settles O37: a field reset due at the same instant comes first (log 2); otherwise the level
falls one step. -/
theorem holdExpiryLowersOneStep : Obligations.HoldExpiryLowersOneStep := by
  intro r q b e ha hassessed hhold hdue
  have hexec := exec_holdExpiry ha b q
  refine ⟨fun k hstate htimer hreached => ?_, fun hearly => ?_⟩
  · rw [hexec, holdExpires_of_reset b ((resetFalls_iff r).mpr ⟨hstate, k, htimer, hreached⟩)]
  · have hreset : r.resetFalls = false := by
      rw [← Bool.not_eq_true, resetFalls_iff]
      rintro ⟨hstate, k, htimer, hreached⟩
      have := hearly hstate k htimer
      omega
    have hexpires := holdExpires_of_due hassessed hhold hdue hreset
    refine ⟨fun hwarn => ?_, fun hwatch => ?_, r.holdExpires b, hexec, holdExpires_handOver r b⟩
    · rw [hexec, hexpires, hwarn]
      rfl
    · rw [hexec, hexpires, hwatch]
      rfl

/-- Settles O39: `Relay.toldOfChange` is the repeated alert, and it leaves the quieted level as it
was. -/
theorem repeatExpiryRepeatsTheAlert : Obligations.RepeatExpiryRepeatsTheAlert := by
  intro r q b e told ha hrepeat hdue hlevel htold
  have hsame : r.toldOfChange b = told := by
    rw [toldOfChange_eq, htold]
    cases hl : (r.barriers.get b).level with
    | calm => exact absurd hl hlevel
    | watch => rfl
    | warn => rfl
    | evacuate => rfl
  have hquieted : (told.barriers.get b).quieted = (r.barriers.get b).quieted := by
    obtain ⟨s, at_, hget⟩ := toldOfChange_get r b
    rw [← hsame, hget]
  have hexpires := repeatExpires_of_due hrepeat hdue
  rw [hsame] at hexpires
  rw [exec_repeatExpiry ha]
  refine ⟨fun hheard => ?_, fun v hv hle => ?_, r.repeatExpires b, rfl, ?_,
    repeatExpires_handOver r b⟩
  · rw [hexpires, requestUnlessQuieted_of_heard (by rw [hquieted]; exact hheard)]
  · rw [hexpires, requestUnlessQuieted_of_quieted (hquieted.trans hv) hle]
  · rw [hexpires, requestUnlessQuieted_barriers]

/-- Settles O40: the rate and the flags byte are the only fields that are computed. -/
theorem alertCarriesTheBarrierRecord : Obligations.AlertCarriesTheBarrierRecord := by
  intro r b d rate sight held quieted stale hd hrate hsight hheld hquieted hstale
  have hrates : rateBytes d.measures.rate = [byte (rate / 256), byte rate] := by
    rw [rateBytes_eq, hrate]
    cases d.measures.rate <;> rfl
  have hflags : alertFlags d = byte (sight + 4 * held + 8 * quieted + 16 * stale) := by
    refine alertFlags_eq d sight held quieted stale ?_ hheld ?_ ?_
    · rw [hsight]
      cases d.measures.sight <;> rfl
    · rw [hquieted]
      cases d.quieted <;> rfl
    · rw [hstale]
      cases d.feeder with
      | none => rfl
      | some f =>
        obtain ⟨v, s⟩ := f
        cases s <;> rfl
  have hpayload : alertPayload b d r.now
      = [byte b.val, byte d.level.rank, byte (d.measures.fill / 256), byte d.measures.fill]
        ++ [byte (rate / 256), byte rate, byte (d.measures.ttf / 256), byte d.measures.ttf,
          byte (sight + 4 * held + 8 * quieted + 16 * stale),
          byte (d.serial / 65536), byte (d.serial / 256), byte d.serial,
          byte (r.now / 16777216), byte (r.now / 65536), byte (r.now / 256), byte r.now,
          byte d.causes.length] ++ d.causes.map (fun c => byte c.code) := by
    rw [alertPayload, hrates, hflags]
    rfl
  have hbuild : r.buildAlert b = ((r.setBarrier b d).offerOwn .urgent
      (r.ownFrame .alert true r.hopBudget r.hubTarget (alertPayload b d r.now)) .other).1 := by
    rw [hd]
    rfl
  rw [hbuild, hpayload, Relay.ownFrame, Relay.hubTarget]
  cases r.tables.identity.manager <;> rfl

/-- Settles O41. The named barriers are quieted one after the other, and the notices of all of them
are at each channel one notice of what any of them names. -/
theorem quietFramesQuietTheirBarriers : Obligations.QuietFramesQuietTheirBarriers := by
  intro r origin hi lo index level rest payload relay fits named t hpayload hrelay hfits hnamed ht
  have hrelay' : pairAt payload 0 = relay := by
    rw [hpayload, hrelay]
    rfl
  have hindex : byteAt payload 2 = index.toNat := by
    rw [hpayload]
    rfl
  have hlevel : byteAt payload 3 = level.toNat := by
    rw [hpayload]
    rfl
  have hnames (b : Fin 8) : b ∈ quietNames index.toNat ↔ index.toNat = b.val ∨ index = 255#8 := by
    rw [mem_quietNames, ← BitVec.toNat_inj]
    rfl
  have hgood (q : Level) (hq : q.rank = level.toNat) :
      (r.authorised origin = true ∧ (byteAt payload 2 < 8 ∨ byteAt payload 2 = 255) ∧ q ≠ .calm)
        ↔ fits := by
    have hrank : q.rank ≤ 3 := by cases q <;> decide
    rw [hfits, authorised_iff, hindex, ← one_le_rank_iff, hq, ← BitVec.toNat_inj]
    refine and_congr_right (fun _ => and_congr_right (fun _ => ?_))
    omega
  refine ⟨fun hown hall => ?another, fun here hno => ?unheeded, fun here hyes hsome => ?heeded⟩
  case another =>
    rw [ht, judgeQuiet_of_another (by rw [hrelay']; exact hown) (by rw [hrelay']; exact hall)]
  case unheeded =>
    rw [← hrelay'] at here
    rw [ht]
    cases hcode : Level.ofCode (byteAt payload 3) with
    | none => exact judgeQuiet_of_no_level here hcode
    | some q =>
      have hq : q.rank = level.toNat := by rw [← hlevel, ← Level.ofCode_eq_some_iff, hcode]
      rw [judgeQuiet_of_here here hcode]
      by_cases hf : fits
      · rw [if_pos ((hgood q hq).mpr hf)]
        refine quietNamed_of_none (fun b hb => ?_)
        rw [hindex, hnames] at hb
        by_contra hb'
        exact hno.resolve_left (not_not.mpr hf) b ((hnamed b).mpr ⟨hb, hb'⟩)
      · exact if_neg (fun h => hf ((hgood q hq).mp h))
  case heeded =>
    rw [← hrelay'] at here
    obtain ⟨_, _, hlow, hhigh⟩ := hfits.mp hyes
    obtain ⟨q, hcode⟩ : ∃ q, Level.ofCode (byteAt payload 3) = some q := by
      rw [hlevel]
      interval_cases level.toNat <;> exact ⟨_, rfl⟩
    have hq : q.rank = level.toNat := by rw [← hlevel, ← Level.ofCode_eq_some_iff, hcode]
    generalize hhit : (quietNames (byteAt payload 2)).filter
      (fun b => decide (1 ≤ (r.barriers.get b).level.rank)) = hit
    have hmem (b : Fin 8) : b ∈ hit ↔ named b := by
      rw [← hhit, List.mem_filter, decide_eq_true_iff, one_le_rank_iff, hindex, hnames, hnamed]
    have hne : hit ≠ [] := by
      obtain ⟨b, hb⟩ := hsome
      exact List.ne_nil_of_mem ((hmem b).mpr hb)
    have hnodup : hit.Nodup := hhit ▸ (quietNames_nodup _).filter _
    generalize hfold : hit.foldl (fun r b => r.quietBarrier b q) r = u
    obtain ⟨hrest, hout, hin, hchannels⟩ := quietBarriers_spec q (r.quietedBy q) hit r u hnodup
      (fun _ _ => rfl) hfold.symm
    have htold : t = u.setEmitter
        { u.emitter with quietActed := bump u.emitter.quietActed } := by
      rw [ht, judgeQuiet_of_here here hcode, if_pos ((hgood q hq).mpr hyes),
        quietNamed_of_some hhit.symm hne, hfold]
    have hemitter : u.emitter = r.emitter := by rw [hrest]; rfl
    have hbarriers : t.barriers = u.barriers := by rw [htold]; rfl
    have hchannels' : t.channels = u.channels := by rw [htold]; rfl
    rw [hbarriers, hchannels']
    refine ⟨?_, fun b hb => hout b (fun h => hb ((hmem b).mp h)), r.quietedBy q, fun b hb =>
      ⟨hin b ((hmem b).mpr hb), fun hnone => ?_, fun old hold => ?_⟩,
      fun c ch kept waits sounds hch hwaits hsounds hgone hkept => ?_⟩
    · rw [htold, hemitter]
      conv_lhs => rw [hrest]
      rfl
    · rw [quietedBy_of_none hnone, hq]
    · rw [quietedBy_of_some hold, hq]
    · have hany (o : Fin 8) (l : Level) : hit.any (fun b => o == b
          && decide (l.rank ≤ (r.quietedBy q b).rank)) = true
            ↔ named o ∧ l.rank ≤ (r.quietedBy q o).rank := by
        rw [List.any_eq_true, ← hmem]
        simp only [Bool.and_eq_true, beq_iff_eq, decide_eq_true_eq]
        exact ⟨fun ⟨b, hb, hob, hle⟩ => hob ▸ ⟨hb, hle⟩, fun ⟨ho, hle⟩ => ⟨o, ho, rfl, hle⟩⟩
      rw [hchannels c, ← hch]
      refine noticed_spec (waits := waits) (hwaits.trans ?_) (hsounds.trans ?_) hgone hkept
      · simp only [hany]
      · rw [soundsWhere_iff, and_iff_left rfl]
        simp only [hany]

end Sys2Proof.Machine

/-! SUPPORT. The dispatch channels and their lines: the start check, requests, step boundaries,
notices, the supply band, load sensing and the manual requests (R131 to R152). -/

namespace Sys2Proof.Machine

/-! ## Cadences, lines and the start check (R131, R133, R138, R147) -/

theorem legalOn_iff (required : CadenceKind) (line : LineKind) :
    required.legalOn line = true ↔ required = .either ∨ (required = .siren ∧ line = .siren)
      ∨ (required = .beacon ∧ line = .beacon) := by
  cases required <;> simp [CadenceKind.legalOn]

theorem usable_iff (r : Relay) (c : Fin 4) (k : Fin 16) :
    r.usable c k = true ↔ ∃ cad, r.tables.cadences.get k = some cad
      ∧ cad.kind.legalOn (r.tables.bindings.get c).kind = true := by
  unfold Relay.usable
  cases r.tables.cadences.get k <;> simp

theorem endlessAt_none (r : Relay) : r.endlessAt none = false :=
  rfl

theorem endlessAt_some_iff (r : Relay) (n : Fin 16) :
    r.endlessAt (some n) = true ↔ ∃ cad, r.tables.cadences.get n = some cad ∧ cad.rounds = 0 := by
  unfold Relay.endlessAt Relay.cadenceAt
  cases h : r.tables.cadences.get n <;> simp [h, Cadence.endless]

theorem endlessAt_iff (r : Relay) (k : Option (Fin 16)) :
    r.endlessAt k = true
      ↔ ∃ n cad, k = some n ∧ r.tables.cadences.get n = some cad ∧ cad.rounds = 0 := by
  cases k with
  | none => simp [endlessAt_none]
  | some n => simp [endlessAt_some_iff]

theorem startCheck_iff (r : Relay) (c : Fin 4) (attention sustain : Option (Fin 16)) :
    r.startCheck c attention sustain = true
      ↔ (r.tables.bindings.get c).line ≠ none
        ∧ (∃ k, attention = some k ∧ r.usable c k = true)
        ∧ (∀ k, sustain = some k → r.usable c k = true ∧ r.endlessAt attention = false)
        ∧ (r.store.band = .critical → (r.tables.bindings.get c).kind = .siren) := by
  have hband : (r.store.band != .critical || (r.tables.bindings.get c).kind == .siren) = true
      ↔ (r.store.band = .critical → (r.tables.bindings.get c).kind = .siren) := by
    rw [Bool.or_eq_true, bne_iff_ne, beq_iff_eq, imp_iff_not_or]
  unfold Relay.startCheck
  rw [Bool.and_eq_true, Bool.and_eq_true, Bool.and_eq_true, and_assoc, and_assoc, hband,
     Option.isSome_iff_ne_none]
  refine and_congr_right (fun _ => and_congr ?_ (and_congr_left' ?_))
  · cases attention <;> simp
  · cases sustain <;> simp

theorem play_of_unbound {r : Relay} {c : Fin 4} (ch : Channel)
    (h : (r.tables.bindings.get c).line = none) : r.play c ch = r.setChannel c ch := by
  have hline : (r.setChannel c ch).lineOf c = none := h
  simp only [Relay.play, Relay.senseChannel, hline]

theorem markLine_of_unbound {r : Relay} {c : Fin 4} (fault : Bool)
    (h : (r.tables.bindings.get c).line = none) : r.markLine c fault = r := by
  have hline : r.lineOf c = none := h
  simp only [Relay.markLine, hline]

theorem markLine_of_line {r : Relay} {c l : Fin 4} (fault : Bool)
    (h : (r.tables.bindings.get c).line = some l) :
    r.markLine c fault = r.setLine l { r.lines.get l with fault := fault } := by
  have hline : r.lineOf c = some l := h
  simp only [Relay.markLine, hline]

theorem senseChannel_of_line {r : Relay} {c l : Fin 4}
    (h : (r.tables.bindings.get c).line = some l) :
    r.senseChannel c = r.setLine l
      { r.lines.get l with
        sensing :=
          if (r.channels.get c).driving && r.pins.loads.get l != .sound then
            some (r.clock.ms + 500)
          else none } := by
  have hline : r.lineOf c = some l := h
  simp only [Relay.senseChannel, hline]
  rfl

theorem play_of_line {r : Relay} {c l : Fin 4} (ch : Channel)
    (h : (r.tables.bindings.get c).line = some l) :
    r.play c ch = (r.setChannel c ch).setLine l
      { r.lines.get l with
        sensing :=
          if ch.driving && r.pins.loads.get l != .sound then some (r.clock.ms + 500)
          else none } := by
  rw [Relay.play, senseChannel_of_line (r := r.setChannel c ch) h]
  rw [Relay.setChannel_channels, Bank.get_set_self]
  rfl

theorem driving_iff (ch : Channel) :
    ch.driving = true ↔ ch.state ≠ .idle ∧ ch.segment = some .on := by
  rw [Channel.driving, Bool.and_eq_true, bne_iff_ne, beq_iff_eq]

@[simp] theorem setChannel_setChannel (r : Relay) (c : Fin 4) (x y : Channel) :
    (r.setChannel c x).setChannel c y = r.setChannel c y := by
  rw [Relay.setChannel, Relay.setChannel_channels, Bank.set_set]
  rfl

theorem play_setChannel (r : Relay) (c : Fin 4) (x y : Channel) :
    (r.setChannel c x).play c y = r.play c y := by
  rw [Relay.play, setChannel_setChannel]
  rfl

/-! ## Requests (R137 to R140) -/

theorem startRequest_of_failed {r : Relay} {c : Fin 4} {x : Request}
    (h : r.startCheck c x.attention x.sustain = false) :
    r.startRequest c x = r.failRequest c .config :=
  if_neg (by rw [h]; exact Bool.false_ne_true)

theorem startRequest_of_passed {r : Relay} {c : Fin 4} {x : Request}
    (h : r.startCheck c x.attention x.sustain = true) :
    r.startRequest c x
      = r.startSounding c (.barrier x.barrier x.level) x.attention x.sustain :=
  if_pos h

theorem channelRequest_of_failed {r : Relay} {c : Fin 4} {x : Request}
    (h : r.startCheck c x.attention x.sustain = false) :
    r.channelRequest x c = r.failRequest c .config :=
  if_neg (by rw [h]; exact Bool.false_ne_true)

theorem channelRequest_of_idle {r : Relay} {c : Fin 4} {x : Request}
    (h : r.startCheck c x.attention x.sustain = true) (hidle : (r.channels.get c).state = .idle) :
    r.channelRequest x c = r.startRequest c x := by
  simp only [Relay.channelRequest, if_pos h, hidle]

theorem channelRequest_of_busy {r : Relay} {c : Fin 4} {x : Request}
    (h : r.startCheck c x.attention x.sustain = true) (hbusy : (r.channels.get c).state ≠ .idle) :
    r.channelRequest x c
      = r.when ((r.channels.get c).admits x)
          (fun r => r.setChannel c { r.channels.get c with waiting := some x }) := by
  cases hstate : (r.channels.get c).state with
  | idle => exact absurd hstate hbusy
  | sounding => simp only [Relay.channelRequest, if_pos h, hstate]
  | stopping => simp only [Relay.channelRequest, if_pos h, hstate]

theorem admits_iff (ch : Channel) (x : Request) :
    ch.admits x = true
      ↔ ∀ w, ch.waiting = some w → w.level.rank < x.level.rank ∨ w.barrier = x.barrier := by
  unfold Channel.admits
  cases ch.waiting <;> simp

theorem dispatchIndex_val (b : Fin 8) (level : Level) :
    (dispatchIndex b level).val = 4 * b.val + level.rank := by
  have hrank : level.rank ≤ 3 := by cases level <;> decide
  have hb := b.isLt
  exact Nat.mod_eq_of_lt (by omega)

theorem requestSounding_eq {r : Relay} {b : Fin 8} {level : Level} {entry : DispatchEntry}
    (hentry : entry = r.tables.dispatch.get (dispatchIndex b level)) :
    r.requestSounding b level = (List.finRange 4).foldl
      (fun t c =>
        if entry.channels.getLsbD c.val = true then
          t.channelRequest
            { barrier := b
              level := level
              attention := entry.attention
              sustain := entry.sustain } c
        else t) r := by
  subst hentry
  rw [Relay.requestSounding, List.foldl_filter]

/-! ## Step boundaries (R136, R140, R141, R143) -/

theorem exec_stepBoundary {r : Relay} (ha : r.awake = true) (c : Fin 4) (q : List Instr) :
    exec (.stepBoundary c) ⟨r, q⟩ = .next ⟨r.segmentEnds c, q⟩ :=
  exec_awake (f := fun r => r.segmentEnds c) (fun _ => rfl) ha

theorem segmentEnds_of_due {r : Relay} {c : Fin 4} {e : Nat}
    (h : (r.channels.get c).segmentEnd = some e) (hdue : e ≤ r.clock.ms) :
    r.segmentEnds c = r.stepBoundary c e := by
  simp only [Relay.segmentEnds, h]
  exact if_pos hdue

theorem record_of_abnormal {o : ChannelOutcome} (ch : Channel) (h : o ≠ .done) :
    ch.record o = ch.fail o := by
  cases o with
  | done => exact absurd rfl h
  | _ => rfl

section
variable {r : Relay} {c : Fin 4} {e : Nat}

theorem stepBoundary_of_stopping {reason : StopReason}
    (hstate : (r.channels.get c).state = .stopping)
    (hstop : (r.channels.get c).stop = some reason) :
    r.stepBoundary c e = r.endAndTake c reason.outcome := by
  simp only [Relay.stepBoundary, hstate, hstop, Option.getD_some]

theorem stepBoundary_of_renewal (hstate : (r.channels.get c).state = .sounding)
    (htake : (r.channels.get c).takeover = .renewal) : r.stepBoundary c e = r.renew c := by
  simp only [Relay.stepBoundary, hstate, htake]

theorem stepBoundary_of_preemption (hstate : (r.channels.get c).state = .sounding)
    (htake : (r.channels.get c).takeover = .preemption) :
    r.stepBoundary c e = r.endAndTake c .preempted := by
  simp only [Relay.stepBoundary, hstate, htake]

theorem stepBoundary_of_nothing (hstate : (r.channels.get c).state = .sounding)
    (htake : (r.channels.get c).takeover = .nothing) : r.stepBoundary c e = r.advance c e := by
  simp only [Relay.stepBoundary, hstate, htake]

end

theorem takeover_of_own {ch : Channel} {w : Request} {b : Fin 8} {level : Level}
    (hwaiting : ch.waiting = some w) (howner : ch.owner = some (.barrier b level))
    (hown : w.barrier = b) : ch.takeover = .renewal := by
  simp only [Channel.takeover, hwaiting, howner, if_pos hown]

theorem takeover_of_test {ch : Channel} {w : Request} (hwaiting : ch.waiting = some w)
    (howner : ch.owner = some .test) : ch.takeover = .preemption := by
  simp only [Channel.takeover, hwaiting, howner]

theorem takeover_of_higher {ch : Channel} {w : Request} {b : Fin 8} {level : Level}
    (hwaiting : ch.waiting = some w) (howner : ch.owner = some (.barrier b level))
    (hother : w.barrier ≠ b) (hhigher : level.rank < w.level.rank) :
    ch.takeover = .preemption := by
  simp only [Channel.takeover, hwaiting, howner, if_neg hother, if_pos hhigher]

theorem takeover_nothing_iff (ch : Channel) :
    ch.takeover = .nothing ↔ ch.waiting = none ∨ ch.owner = none
      ∨ ∃ w b level, ch.waiting = some w ∧ ch.owner = some (.barrier b level) ∧ w.barrier ≠ b
          ∧ w.level.rank ≤ level.rank := by
  cases hwaiting : ch.waiting with
  | none => simp [Channel.takeover, hwaiting]
  | some w =>
    cases howner : ch.owner with
    | none => simp [Channel.takeover, hwaiting, howner]
    | some o =>
      cases o with
      | test => simp [Channel.takeover, hwaiting, howner]
      | barrier b level =>
        by_cases hown : w.barrier = b
        · simp [takeover_of_own hwaiting howner hown, hown]
        · by_cases hhigher : level.rank < w.level.rank
          · simp [takeover_of_higher hwaiting howner hown hhigher, hhigher]
          · simp [Channel.takeover, hwaiting, howner, hown, hhigher, not_lt.mp hhigher]

theorem endAndTake_eq (r : Relay) (c : Fin 4) (o : ChannelOutcome) :
    r.endAndTake c o
      = (r.play c { ((r.channels.get c).record o).toIdle with waiting := none }).startWaiting c
          (r.channels.get c).waiting :=
  rfl

/-- A channel replaced and then ended: the replacement shows in the fields that IDLE keeps. -/
theorem endAndTake_setChannel (r : Relay) (c : Fin 4) (x : Channel) (o : ChannelOutcome) :
    (r.setChannel c x).endAndTake c o
      = (r.play c { (x.record o).toIdle with waiting := none }).startWaiting c x.waiting := by
  rw [endAndTake_eq, Relay.setChannel_channels, Bank.get_set_self, play_setChannel]

section
variable {r : Relay} {c : Fin 4} {e : Nat} {cad : Cadence} {seg : Segment}

theorem advance_of_segment {next : Segment} {step rounds tenths : Nat}
    (hcad : r.cadenceAt (r.channels.get c).cadence = some cad)
    (hseg : (r.channels.get c).segment = some seg)
    (hnext : cad.following seg (r.channels.get c).step (r.channels.get c).rounds
      = .segment next step rounds tenths) :
    r.advance c e = r.play c
      { r.channels.get c with
        step := step
        rounds := rounds
        segment := some next
        segmentEnd := some (e + tenths * 100) } := by
  simp only [Relay.advance, hcad, hseg, hnext]

theorem advance_of_complete {rounds : Nat}
    (hcad : r.cadenceAt (r.channels.get c).cadence = some cad)
    (hseg : (r.channels.get c).segment = some seg)
    (hnext : cad.following seg (r.channels.get c).step (r.channels.get c).rounds
      = .complete rounds) :
    r.advance c e = r.completeCadence c e rounds := by
  simp only [Relay.advance, hcad, hseg, hnext]

theorem completeCadence_of_next {rounds : Nat} {k : Fin 16}
    (hmark : (r.channels.get c).continueMark = true)
    (hnext : (r.channels.get c).next = some k) :
    r.completeCadence c e rounds
      = if r.usable c k then
          r.play c
            { r.channels.get c with
              cadence := some k
              step := 1
              rounds := 0
              segment := some .on
              segmentEnd := some (e + r.firstOn (some k))
              next := none
              continueMark := false
              continued := true }
        else (r.setChannel c { r.channels.get c with rounds := rounds }).endAndTake c .config := by
  simp only [Relay.completeCadence, hmark, hnext]

theorem completeCadence_of_last {rounds : Nat}
    (hlast : (r.channels.get c).continueMark = false ∨ (r.channels.get c).next = none) :
    r.completeCadence c e rounds
      = (r.setChannel c { r.channels.get c with rounds := rounds }).endAndTake c .done := by
  rcases hlast with hmark | hnext
  · simp only [Relay.completeCadence, hmark]
  · cases hmark : (r.channels.get c).continueMark <;>
      simp only [Relay.completeCadence, hmark, hnext]

end

theorem following_spec (cad : Cadence) (step rounds : Nat) :
    (0 < (cad.stepAt step).2 →
      cad.following .on step rounds = .segment .off step rounds (cad.stepAt step).2)
    ∧ ((cad.stepAt step).2 = 0 → cad.following .on step rounds = cad.afterStep step rounds)
    ∧ cad.following .off step rounds = cad.afterStep step rounds
    ∧ cad.following .gap step rounds = .segment .on 1 rounds (cad.stepAt 1).1 :=
  ⟨fun h => if_pos h, fun h => if_neg (by omega), rfl, rfl⟩

theorem endless_iff (cad : Cadence) : cad.endless = true ↔ cad.rounds = 0 :=
  beq_iff_eq

theorem afterStep_of_more {cad : Cadence} {step : Nat} (rounds : Nat)
    (h : step < cad.steps.length) :
    cad.afterStep step rounds = .segment .on (step + 1) rounds (cad.stepAt (step + 1)).1 :=
  if_pos h

section
variable {cad : Cadence} {step rounds : Nat}

theorem afterStep_of_gap (hlast : cad.steps.length ≤ step)
    (hmore : cad.rounds = 0 ∨ min (rounds + 1) 255 < cad.rounds) (hgap : 0 < cad.gap) :
    cad.afterStep step rounds = .segment .gap 1 (min (rounds + 1) 255) cad.gap := by
  rw [← endless_iff] at hmore
  rw [Cadence.afterStep, if_neg (by omega), Cadence.afterRound, if_pos hmore, if_pos hgap]

theorem afterStep_of_no_gap (hlast : cad.steps.length ≤ step)
    (hmore : cad.rounds = 0 ∨ min (rounds + 1) 255 < cad.rounds) (hgap : cad.gap = 0) :
    cad.afterStep step rounds = .segment .on 1 (min (rounds + 1) 255) (cad.stepAt 1).1 := by
  rw [← endless_iff] at hmore
  rw [Cadence.afterStep, if_neg (by omega), Cadence.afterRound, if_pos hmore, if_neg (by omega)]

theorem afterStep_of_done (hlast : cad.steps.length ≤ step) (hrounds : cad.rounds ≠ 0)
    (hdone : cad.rounds ≤ min (rounds + 1) 255) :
    cad.afterStep step rounds = .complete (min (rounds + 1) 255) := by
  have hno : ¬ (cad.endless = true ∨ min (rounds + 1) 255 < cad.rounds) := by
    rw [endless_iff]
    omega
  rw [Cadence.afterStep, if_neg (by omega), Cadence.afterRound, if_neg hno]

end

/-! ## The supply band (R149) -/

/-- A channel replaced with the sensing of its line touches that channel and sensing timers
alone. -/
theorem play_frame (r : Relay) (c : Fin 4) (ch : Channel) :
    r.play c ch = (r.setChannels (r.channels.set c ch)).setLines (r.play c ch).lines
      ∧ ∀ l, ((r.play c ch).lines.get l).fault = (r.lines.get l).fault := by
  cases hline : (r.tables.bindings.get c).line with
  | none =>
    rw [play_of_unbound ch hline]
    exact ⟨rfl, fun _ => rfl⟩
  | some l =>
    rw [play_of_line ch hline]
    refine ⟨rfl, fun l' => ?_⟩
    rw [Relay.setLine_lines, Relay.setChannel_lines, Bank.get_set]
    split
    · next h => rw [h]
    · rfl

theorem beaconSounding_iff (r : Relay) (c : Fin 4) :
    r.beaconSounding c = true ↔ (r.tables.bindings.get c).line ≠ none
      ∧ (r.tables.bindings.get c).kind = .beacon ∧ (r.channels.get c).state ≠ .idle := by
  rw [Relay.beaconSounding, Bool.and_eq_true, Bool.and_eq_true, beq_iff_eq, bne_iff_ne, and_assoc,
    Option.isSome_iff_ne_none]
  rfl

/-- One beacon channel at a band of CRITICAL (R149). -/
def Relay.cutBeacon (r : Relay) (c : Fin 4) : Relay :=
  r.when (r.beaconSounding c) (fun r => r.cutSounding c .config)

theorem cutBeacon_frame (r : Relay) (c : Fin 4) :
    r.cutBeacon c = (r.setChannels (r.cutBeacon c).channels).setLines (r.cutBeacon c).lines
      ∧ (∀ l, ((r.cutBeacon c).lines.get l).fault = (r.lines.get l).fault)
      ∧ (∀ o, o ≠ c → (r.cutBeacon c).channels.get o = r.channels.get o)
      ∧ (r.cutBeacon c).channels.get c
        = if r.beaconSounding c then
            { ((r.channels.get c).fail .config).toIdle with waiting := none }
          else r.channels.get c := by
  rw [Relay.cutBeacon, Relay.when]
  split
  · obtain ⟨hplay, hfault⟩ := play_frame r c
      { ((r.channels.get c).fail .config).toIdle with waiting := none }
    have hcut : r.cutSounding c .config
        = r.play c { ((r.channels.get c).fail .config).toIdle with waiting := none } := rfl
    have hchannels : (r.cutSounding c .config).channels
        = r.channels.set c { ((r.channels.get c).fail .config).toIdle with waiting := none } := by
      rw [hcut, hplay]
      rfl
    refine ⟨?_, hfault, fun o ho => ?_, ?_⟩
    · rw [hchannels]
      exact hplay
    · rw [hchannels, Bank.get_set_of_ne _ _ ho.symm]
    · rw [hchannels, Bank.get_set_self]
  · exact ⟨rfl, fun _ => rfl, fun _ _ => rfl, rfl⟩

theorem cutBeacons_frame (xs : List (Fin 4)) :
    ∀ r t : Relay, xs.Nodup → t = xs.foldl Relay.cutBeacon r →
      t = (r.setChannels t.channels).setLines t.lines
      ∧ (∀ l, (t.lines.get l).fault = (r.lines.get l).fault)
      ∧ (∀ o, o ∉ xs → t.channels.get o = r.channels.get o)
      ∧ ∀ c ∈ xs, t.channels.get c
        = if r.beaconSounding c then
            { ((r.channels.get c).fail .config).toIdle with waiting := none }
          else r.channels.get c := by
  induction xs with
  | nil =>
    intro r t _ ht
    subst ht
    exact ⟨rfl, fun _ => rfl, fun _ _ => rfl, fun _ h => absurd h List.not_mem_nil⟩
  | cons x xs ih =>
    intro r t hnodup ht
    obtain ⟨hx, hxs⟩ := List.nodup_cons.mp hnodup
    obtain ⟨hframe, hfault, hother, hself⟩ := cutBeacon_frame r x
    obtain ⟨hframe', hfault', hother', hself'⟩ := ih (r.cutBeacon x) t hxs ht
    have hne (c : Fin 4) (hc : c ∈ xs) : c ≠ x := fun h => hx (h ▸ hc)
    refine ⟨?_, fun l => (hfault' l).trans (hfault l), fun o ho => ?_, fun c hc => ?_⟩
    · rw [hframe', hframe]
      rfl
    · rw [List.mem_cons, not_or] at ho
      rw [hother' o ho.2, hother o ho.1]
    · rcases List.mem_cons.mp hc with rfl | hc
      · rw [hother' c hx, hself]
      · have hbeacon : (r.cutBeacon x).beaconSounding c = r.beaconSounding c := by
          rw [Relay.beaconSounding, hother c (hne c hc), hframe]
          rfl
        rw [hself' c hc, hbeacon, hother c (hne c hc)]

theorem bandAtChannels_of_other (r : Relay) {band : Band} (h : band ≠ .critical) :
    r.bandAtChannels band = r :=
  if_neg (by rw [beq_iff_eq]; exact h)

theorem bandAtChannels_critical (r : Relay) :
    r.bandAtChannels .critical = (List.finRange 4).foldl Relay.cutBeacon r :=
  rfl

/-! ## Notices (R144, R146) -/

theorem fallNotice_get (r : Relay) (b : Fin 8) (level : Level) (c : Fin 4) :
    (r.fallNotice b level).channels.get c
      = (r.channels.get c).noticed (fun o l => o == b && decide (level.rank < l.rank))
          (r.soundingEndless (r.channels.get c)) .levelFell := by
  rw [← notice_eq_noticed]
  exact Bank.get_map _ _ _

theorem disableNotice_get (r : Relay) (b : Fin 8) (c : Fin 4) :
    (r.disableNotice b).channels.get c
      = (r.channels.get c).noticed (fun o _ => o == b && true) true .levelFell := by
  rw [← notice_eq_noticed]
  exact Bank.get_map _ _ _

theorem soundingEndless_iff (r : Relay) (ch : Channel) :
    r.soundingEndless ch = true
      ↔ r.endlessAt ch.cadence = true ∨ (ch.continueMark = true ∧ r.endlessAt ch.next = true) := by
  rw [Relay.soundingEndless, Bool.or_eq_true, Bool.and_eq_true]

/-! ## The statements -/

/-- Settles O42: the boundary, the requests, the notices and the band each have their lemma
above. -/
theorem stepBoundaryAdvancesEndsOrHandsOver :
    Obligations.StepBoundaryAdvancesEndsOrHandsOver := by
  refine ⟨⟨fun r q c e ch ha hch hend hdue => ?boundary, fun r c x ch hch => ?request,
    fun r b level => ⟨rfl, rfl, fun c ch kept gone waits sounds endless hch hwaits hsounds hendless
      hkept hkept' hgone hgone' => ?notice⟩, fun r t ht => ?band⟩,
    fun cad step rounds done times next htimes hdone hmore hgap hround hlast => ?table,
    fun r c ch fault => ⟨takeover_nothing_iff ch, fun k => ⟨rfl, fun cad hcad => ?firstOn⟩, rfl,
      fun w => rfl, fun hline => ⟨play_of_unbound ch hline, markLine_of_unbound fault hline⟩,
      fun l hline => ⟨?sense, markLine_of_line fault hline⟩⟩⟩
  case boundary =>
    subst hch
    have hexec : exec (.stepBoundary c) ⟨r, q⟩ = .next ⟨r.stepBoundary c e, q⟩ := by
      rw [exec_stepBoundary ha, segmentEnds_of_due hend hdue]
    rw [hexec]
    refine ⟨fun reason hstate hstop => ?_, fun w b level hstate hw howner hown => ?_,
      fun w hstate hw howner => ?_, fun cad seg hstate htake hcad hseg => ?_⟩
    · have habnormal : reason.outcome ≠ .done := by cases reason <;> decide
      rw [stepBoundary_of_stopping hstate hstop, endAndTake_eq, record_of_abnormal _ habnormal]
      rfl
    · rw [stepBoundary_of_renewal hstate (takeover_of_own hw howner hown), Relay.renew, hw]
      rfl
    · have htake : (r.channels.get c).takeover = .preemption := by
        rcases howner with htest | ⟨b, level, howner, hother, hhigher⟩
        · exact takeover_of_test hw htest
        · exact takeover_of_higher hw howner hother hhigher
      rw [stepBoundary_of_preemption hstate htake, endAndTake_eq, hw]
      rfl
    · rw [stepBoundary_of_nothing hstate htake]
      refine ⟨fun next step rounds tenths hnext => ?_, fun rounds k hnext hmark hk husable => ?_,
        fun rounds k hnext hmark hk hunusable => ?_, fun rounds hnext hlast => ?_⟩
      · rw [advance_of_segment hcad hseg hnext]
      · rw [advance_of_complete hcad hseg hnext, completeCadence_of_next hmark hk, if_pos husable]
      · rw [advance_of_complete hcad hseg hnext, completeCadence_of_next hmark hk, hunusable,
          if_neg Bool.false_ne_true, endAndTake_setChannel]
        rfl
      · rw [advance_of_complete hcad hseg hnext, completeCadence_of_last hlast,
          endAndTake_setChannel]
        rfl
  case request =>
    subst hch
    refine ⟨fun k => ?_, endlessAt_iff r, startCheck_iff r c _ _, fun hfailed => ⟨?_, ?_⟩,
      fun hpassed => ⟨?_, channelRequest_of_idle hpassed, fun hbusy hfree => ?_,
        fun w hbusy hw hlower hother => ?_⟩, fun b level entry index hindex hentry hx => ?_⟩
    · rw [usable_iff]
      simp only [legalOn_iff]
    · rw [channelRequest_of_failed hfailed]
      rfl
    · rw [channelRequest_of_failed hfailed, startRequest_of_failed hfailed]
    · rw [startRequest_of_passed hpassed]
      rfl
    · rw [channelRequest_of_busy hpassed hbusy, Relay.when, if_pos ((admits_iff _ _).mpr hfree)]
    · rw [channelRequest_of_busy hpassed hbusy, Relay.when, if_neg]
      rw [admits_iff]
      intro hall
      rcases hall w hw with h | h
      · omega
      · exact hother h
    · have hsame : dispatchIndex b level = index :=
        Fin.ext ((dispatchIndex_val b level).trans hindex.symm)
      rw [hx]
      exact requestSounding_eq (by rw [hsame]; exact hentry)
  case notice =>
    subst hch
    rw [fallNotice_get, disableNotice_get]
    have hfallWaits : (∃ l, waits l ∧ level.rank < l.rank)
        ↔ ∃ w, (r.channels.get c).waiting = some w
          ∧ (w.barrier == b && decide (level.rank < w.level.rank)) = true := by
      simp only [hwaits, Bool.and_eq_true, beq_iff_eq, decide_eq_true_eq]
      exact ⟨fun ⟨l, ⟨w, hw, hb, hl⟩, hlt⟩ => ⟨w, hw, hb, hl ▸ hlt⟩,
        fun ⟨w, hw, hb, hlt⟩ => ⟨w.level, ⟨w, hw, hb, rfl⟩, hlt⟩⟩
    have hfallSounds : ((∃ l, sounds l ∧ level.rank < l.rank) ∧ endless)
        ↔ (r.channels.get c).soundsWhere (fun o l => o == b && decide (level.rank < l.rank)) = true
          ∧ r.soundingEndless (r.channels.get c) = true := by
      rw [soundsWhere_iff, soundingEndless_iff, hendless]
      simp only [hsounds, Bool.and_eq_true, beq_iff_eq, decide_eq_true_eq]
      refine and_congr_left'
        ⟨fun ⟨l, ⟨hstate, howner⟩, hlt⟩ => ⟨hstate, b, l, howner, rfl, hlt⟩, ?_⟩
      rintro ⟨hstate, o, l, howner, rfl, hlt⟩
      exact ⟨l, ⟨hstate, howner⟩, hlt⟩
    have hgoneWaits : (∃ l, waits l)
        ↔ ∃ w, (r.channels.get c).waiting = some w ∧ (w.barrier == b && true) = true := by
      simp only [hwaits, Bool.and_true, beq_iff_eq]
      exact ⟨fun ⟨l, w, hw, hb, _⟩ => ⟨w, hw, hb⟩, fun ⟨w, hw, hb⟩ => ⟨w.level, w, hw, hb, rfl⟩⟩
    have hgoneSounds : (∃ l, sounds l)
        ↔ (r.channels.get c).soundsWhere (fun o _ => o == b && true) = true ∧ true = true := by
      rw [soundsWhere_iff, and_iff_left rfl]
      simp only [hsounds, Bool.and_true, beq_iff_eq]
      refine ⟨fun ⟨l, hstate, howner⟩ => ⟨hstate, b, l, howner, rfl⟩, ?_⟩
      rintro ⟨hstate, o, l, howner, rfl⟩
      exact ⟨l, hstate, howner⟩
    obtain ⟨hstop, hstay⟩ := noticed_spec (reason := .levelFell) hfallWaits hfallSounds hkept hkept'
    obtain ⟨hstop', hstay'⟩ :=
      noticed_spec (reason := .levelFell) hgoneWaits hgoneSounds hgone hgone'
    exact ⟨hstop, hstay, hstop', hstay'⟩
  case band =>
    obtain ⟨hframe, hfault, _, hself⟩ := cutBeacons_frame (List.finRange 4) r t
      (List.nodup_finRange 4) (ht.trans (bandAtChannels_critical r))
    refine ⟨fun band hband => bandAtChannels_of_other r hband, hframe, hfault, fun c cut hcut => ?_⟩
    rw [← beaconSounding_iff] at hcut
    rw [hself c (List.mem_finRange c)]
    exact ⟨fun h => if_pos (hcut.mp h), fun h => if_neg ((not_congr hcut).mp h)⟩
  case table =>
    have hstep (k : Nat) : times k = cad.stepAt k := by
      rw [htimes]
      rfl
    rw [hstep] at hmore hround
    have hnext : cad.afterStep step rounds = next := by
      subst hdone
      by_cases hstep : step < cad.steps.length
      · rw [afterStep_of_more rounds hstep, hmore hstep]
      · by_cases hagain : cad.rounds = 0 ∨ min (rounds + 1) 255 < cad.rounds
        · by_cases hpause : 0 < cad.gap
          · rw [afterStep_of_gap (by omega) hagain hpause, hgap (by omega) hagain hpause]
          · rw [afterStep_of_no_gap (by omega) hagain (by omega),
              hround (by omega) hagain (by omega)]
        · rw [afterStep_of_done (by omega) (by omega) (by omega),
            hlast (by omega) (by omega) (by omega)]
    rw [hstep, hstep, ← hnext]
    exact following_spec cad step rounds
  case firstOn =>
    have hat : r.cadenceAt (some k) = some cad := hcad
    simp only [Relay.firstOn, hat]
    rfl
  case sense =>
    rw [play_of_line ch hline]
    have hsense : (ch.driving && r.pins.loads.get l != .sound) = true
        ↔ ch.state ≠ .idle ∧ ch.segment = some .on ∧ r.pins.loads.get l ≠ .sound := by
      rw [Bool.and_eq_true, driving_iff, bne_iff_ne, and_assoc]
    rw [if_congr hsense rfl rfl]

/-! ## Load sensing (R147, R148) -/

theorem setPins_load_same {r : Relay} {l : Fin 4} {x : LoadCondition}
    (h : r.pins.loads.get l = x) :
    r.setPins { r.pins with loads := r.pins.loads.set l x } = r := by
  rw [← h, Bank.set_get]
  rfl

theorem loadChanges_of_same {r : Relay} {l : Fin 4} {x : LoadCondition}
    (h : r.pins.loads.get l = x) : r.loadChanges l x = r :=
  if_pos h

theorem loadChanges_of_undriven {r : Relay} {l : Fin 4} (x : LoadCondition)
    (h : r.driverOf l = none) :
    r.loadChanges l x = r.setPins { r.pins with loads := r.pins.loads.set l x } := by
  by_cases hsame : r.pins.loads.get l = x
  · rw [loadChanges_of_same hsame, setPins_load_same hsame]
  · simp only [Relay.loadChanges, if_neg hsame, h]

theorem loadChanges_of_driven {r : Relay} {l c : Fin 4} {x : LoadCondition} (ha : r.awake = true)
    (h : r.driverOf l = some c) (hchanged : r.pins.loads.get l ≠ x) :
    r.loadChanges l x
      = (r.setPins { r.pins with loads := r.pins.loads.set l x }).senseChannel c := by
  simp only [Relay.loadChanges, if_neg hchanged, h]
  exact Relay.whenAwake_of_awake
    (r := r.setPins { r.pins with loads := r.pins.loads.set l x }) ha _

theorem driving_of_driverOf {r : Relay} {l c : Fin 4} (h : r.driverOf l = some c) :
    (r.tables.bindings.get c).line = some l ∧ (r.channels.get c).driving = true := by
  have hfound := List.find?_some h
  rw [Bool.and_eq_true, beq_iff_eq] at hfound
  exact hfound

theorem exec_loadConditionChange (r : Relay) (l : Fin 4) (x : LoadCondition) (q : List Instr) :
    exec (.loadConditionChange l x) ⟨r, q⟩ = .next ⟨r.loadChanges l x, q⟩ :=
  rfl

theorem exec_sensingTimerExpiry {r : Relay} (ha : r.awake = true) (l : Fin 4) (q : List Instr) :
    exec (.sensingTimerExpiry l) ⟨r, q⟩ = .next ⟨r.sensingExpires l, q⟩ :=
  exec_awake (f := fun r => r.sensingExpires l) (fun _ => rfl) ha

theorem sensingExpires_of_due {r : Relay} {l c : Fin 4} {e : Nat} (h : r.driverOf l = some c)
    (hsensing : (r.lines.get l).sensing = some e) (hdue : e ≤ r.clock.ms) :
    r.sensingExpires l
      = (r.cutSounding c (faultOutcome (r.pins.loads.get l))).markLine c true := by
  simp only [Relay.sensingExpires, h]
  exact if_pos (reached_of_le hsensing hdue)

theorem setLine_setLine (r : Relay) (l : Fin 4) (x y : OutputLine) :
    (r.setLine l x).setLine l y = r.setLine l y := by
  rw [Relay.setLine, Relay.setLine_lines, Bank.set_set]
  rfl

/-- A sounding cut with a fault: its channel becomes IDLE, and its line keeps the fault mark. -/
theorem cutSounding_markLine {r : Relay} {c l : Fin 4}
    (hline : (r.tables.bindings.get c).line = some l) (o : ChannelOutcome) :
    (r.cutSounding c o).markLine c true
      = (r.setChannel c { ((r.channels.get c).record o).toIdle with waiting := none }).setLine l
          { fault := true, sensing := none } := by
  have hcut : r.cutSounding c o
      = (r.setChannel c { ((r.channels.get c).record o).toIdle with waiting := none }).setLine l
          { r.lines.get l with sensing := none } := by
    rw [Relay.cutSounding, play_of_line _ hline]
    rfl
  have hstill : ((r.cutSounding c o).tables.bindings.get c).line = some l := by
    rw [hcut]
    exact hline
  rw [markLine_of_line true hstill, hcut, Relay.setLine_lines, Bank.get_set_self,
    setLine_setLine]

/-! ## The manual requests (R150, R151, R176) -/

theorem indexed_val {α : Type} {n : Nat} (k : Fin n) (f : Fin n → α) :
    indexed n k.val f = .ok (f k) := by
  simp only [indexed, finOf_val]

theorem indexed_of_ge {α : Type} {n x : Nat} (f : Fin n → α) (h : n ≤ x) :
    indexed n x f = .error .badIndex := by
  simp only [indexed, finOf_of_ge h]

theorem indexedPart_val {α : Type} {n m : Nat} (i : Fin n) (k : Fin m) (f : Fin n → Fin m → α) :
    indexedPart n m i.val k.val f = .ok (f i k) := by
  simp only [indexedPart, finOf_val]

theorem indexedPart_of_ge {α : Type} {n m x y : Nat} (f : Fin n → Fin m → α)
    (h : n ≤ x ∨ m ≤ y) : indexedPart n m x y f = .error .badIndex := by
  rcases h with hx | hy
  · simp only [indexedPart, finOf_of_ge hx]
  · cases hx : finOf n x <;> simp only [indexedPart, hx, finOf_of_ge hy]

theorem byte_val_toNat {n : Nat} (hn : n ≤ 256) (k : Fin n) : (byte k.val).toNat = k.val :=
  byte_toNat (lt_of_lt_of_le k.isLt hn)

theorem testSound_of_event {r : Relay} (c : Fin 4) (k : Fin 16) (h : r.highestLevel ≠ .calm) :
    r.testSound c k = (r, .event) :=
  if_pos ((one_le_rank_iff _).mpr h)

section
variable {r : Relay} {c : Fin 4} {k : Fin 16}

theorem testSound_of_calm (h : r.highestLevel = .calm) :
    r.testSound c k
      = if (r.channels.get c).state ≠ .idle then (r, .busy)
        else if (r.channels.get c).normalDone = true ∨ (r.channels.get c).abnormalDone = true then
          (r.failRequest c .uncleared, .taken)
        else if r.startCheck c (some k) none then
          (r.startSounding c .test (some k) none, .taken)
        else (r.failRequest c .config, .taken) :=
  if_neg (by rw [h]; decide)

theorem carryTestSound_of_taken {q : Sender} {t : Relay} (h : r.testSound c k = (t, .taken)) :
    r.carryTestSound q c k
      = t.reply q .done [byte (t.channels.get c).state.code,
          optByte ((t.channels.get c).last.map ChannelOutcome.code)] := by
  unfold Relay.carryTestSound
  rw [h]

theorem carryTestSound_of_event {q : Sender} {t : Relay} (h : r.testSound c k = (t, .event)) :
    r.carryTestSound q c k = t.reply q .event [] := by
  unfold Relay.carryTestSound
  rw [h]

theorem carryTestSound_of_busy {q : Sender} {t : Relay} (h : r.testSound c k = (t, .busy)) :
    r.carryTestSound q c k = t.reply q .busy [] := by
  unfold Relay.carryTestSound
  rw [h]

theorem exec_testSound {origin : Addr} (hserves : r.Serves origin) (q : List Instr) (tag : Byte) :
    exec (.testSound origin tag (byte c.val) (byte k.val)) ⟨r, q⟩
      = .next ⟨r.counted.carryTestSound ⟨origin, 9#8, tag⟩ c k, q⟩ := by
  refine exec_carryOut (exec_of_request rfl) hserves rfl (a := .testSound c k) ?_
  have hargs : r.counted.checkArgs (byte 9).toNat [byte c.val, byte k.val]
      = indexedPart 4 16 (byte c.val).toNat (byte k.val).toNat .testSound := rfl
  rw [hargs, byte_val_toNat (by decide), byte_val_toNat (by decide), indexedPart_val]

theorem exec_stopChannel {origin : Addr} (hserves : r.Serves origin) (q : List Instr) (tag : Byte) :
    exec (.stopChannel origin tag (byte c.val)) ⟨r, q⟩
      = .next ⟨r.counted.carryStop ⟨origin, 10#8, tag⟩ c, q⟩ := by
  refine exec_carryOut (exec_of_request rfl) hserves rfl (a := .stopChannel c) ?_
  have hargs : r.counted.checkArgs (byte 10).toNat [byte c.val]
      = indexed 4 (byte c.val).toNat .stopChannel := rfl
  rw [hargs, byte_val_toNat (by decide), indexed_val]

theorem stopChannel_of_idle (h : (r.channels.get c).state = .idle) : r.stopChannel c = r :=
  if_pos h

theorem stopChannel_of_busy (h : (r.channels.get c).state ≠ .idle) :
    r.stopChannel c
      = r.setChannel c
        { r.channels.get c with
          state := .stopping
          stop := some .stoppedMgmt
          waiting := none } :=
  if_neg h

end

theorem failRequest_get (r : Relay) (c : Fin 4) (o : ChannelOutcome) :
    (r.failRequest c o).channels.get c = (r.channels.get c).fail o :=
  Bank.get_set_self _ _ _

theorem play_get (r : Relay) (c : Fin 4) (ch : Channel) : (r.play c ch).channels.get c = ch := by
  rw [(play_frame r c ch).1]
  exact Bank.get_set_self _ _ _

theorem carryTestSound_of_failed {r : Relay} {c : Fin 4} {k : Fin 16} {o : ChannelOutcome}
    (q : Sender) (hidle : (r.channels.get c).state = .idle)
    (h : r.testSound c k = (r.failRequest c o, .taken)) :
    r.carryTestSound q c k
      = (r.setChannel c { r.channels.get c with abnormalDone := true, last := some o }).reply q
          .done [0#8, byte o.code] := by
  have hstate : ((r.channels.get c).fail o).state = .idle := hidle
  rw [carryTestSound_of_taken h, failRequest_get, hstate]
  rfl

/-- Settles O43: the pin change senses the driven line, and its expiry cuts the sounding there. -/
theorem loadFaultEndsTheSounding : Obligations.LoadFaultEndsTheSounding := by
  refine ⟨fun r q l x hidle => ?undriven, fun r q l c ha hline hdriver =>
    ⟨fun x hchanged => ?changed, fun x hsame => ?same, fun e hsensing hdue => ?expired⟩⟩
  case undriven => rw [exec_loadConditionChange, loadChanges_of_undriven x hidle]
  case changed =>
    obtain ⟨hbound, hdriving⟩ := driving_of_driverOf hdriver
    have hsense := senseChannel_of_line
      (r := r.setPins { r.pins with loads := r.pins.loads.set l x }) hbound
    have hpin : (r.pins.loads.set l x).get l = x := Bank.get_set_self _ _ _
    rw [exec_loadConditionChange, loadChanges_of_driven ha hdriver hchanged, hsense]
    simp only [Relay.setPins_channels, Relay.setPins_pins, Relay.setPins_lines,
      Relay.setPins_clock, hdriving, hpin]
    cases x <;> rfl
  case same => rw [exec_loadConditionChange, loadChanges_of_same hsame]
  case expired =>
    refine ⟨_, exec_sensingTimerExpiry ha l q, ?_⟩
    rw [sensingExpires_of_due hdriver hsensing hdue, cutSounding_markLine hline]
    refine ⟨?_, rfl, rfl⟩
    cases r.pins.loads.get l <;> rfl

/-- Settles O44: each command passes its checks and then meets the five outcomes of a test sound. -/
theorem testSoundAndStopChannelAreDecided : Obligations.TestSoundAndStopChannelAreDecided := by
  refine ⟨fun r q origin tag c k ch hserves hch => ?sound, fun r q origin tag hserves =>
    ⟨fun x y hbad => ?badSound, fun c hbusy => ?stop, fun c hidle => ?stopIdle,
      fun x hbad => ?badStop⟩⟩
  case sound =>
    subst hch
    rw [exec_testSound hserves]
    have hcalm (h : r.highestLevel = .calm) : r.counted.testSound c k
        = if (r.channels.get c).state ≠ .idle then (r.counted, .busy)
          else if (r.channels.get c).normalDone = true ∨ (r.channels.get c).abnormalDone = true then
            (r.counted.failRequest c .uncleared, .taken)
          else if r.startCheck c (some k) none then
            (r.counted.startSounding c .test (some k) none, .taken)
          else (r.counted.failRequest c .config, .taken) :=
      testSound_of_calm (r := r.counted) h
    refine ⟨fun hevent => ?_, fun h hbusy => ?_, fun h hidle hflag => ?_,
      fun h hidle hnormal habnormal hcheck => ?_, fun h hidle hnormal habnormal hcheck => ?_⟩
    · rw [carryTestSound_of_event (testSound_of_event (r := r.counted) c k hevent)]
    · rw [carryTestSound_of_busy ((hcalm h).trans (if_pos hbusy))]
    · have htaken : r.counted.testSound c k = (r.counted.failRequest c .uncleared, .taken) := by
        rw [hcalm h, if_neg (not_not.mpr hidle), if_pos hflag]
      rw [carryTestSound_of_failed (r := r.counted) _ hidle htaken]
      rfl
    · have htaken : r.counted.testSound c k = (r.counted.failRequest c .config, .taken) := by
        rw [hcalm h, if_neg (not_not.mpr hidle), hnormal, habnormal, hcheck]
        rfl
      rw [carryTestSound_of_failed (r := r.counted) _ hidle htaken]
      rfl
    · have htaken : r.counted.testSound c k
          = (r.counted.startSounding c .test (some k) none, .taken) := by
        rw [hcalm h, if_neg (not_not.mpr hidle), hnormal, habnormal, hcheck]
        rfl
      rw [carryTestSound_of_taken htaken, Relay.startSounding, play_get]
      rfl
  case badSound =>
    refine exec_refused (exec_of_request rfl) hserves rfl ?_ (by decide)
    exact indexedPart_of_ge _ hbad
  case stop =>
    rw [exec_stopChannel hserves, Relay.carryStop, stopChannel_of_busy (r := r.counted) hbusy,
      Relay.setChannel_channels, Bank.get_set_self]
    rfl
  case stopIdle =>
    have hstate : (r.counted.channels.get c).state = .idle := hidle
    rw [exec_stopChannel hserves, Relay.carryStop, stopChannel_of_idle hstate, hstate]
    rfl
  case badStop =>
    refine exec_refused (exec_of_request rfl) hserves rfl ?_ (by decide)
    exact indexed_of_ge _ hbad

end Sys2Proof.Machine

/-! SUPPORT. The contact inputs, the field reset key and the restart it brings (R156 to R162,
R191). -/

namespace Sys2Proof.Machine

/-! ## Debounce (R157) -/

theorem exec_inputLevelChange (r : Relay) (i : Fin 8) (x : PinLevel) (q : List Instr) :
    exec (.inputLevelChange i x) ⟨r, q⟩ = .next ⟨r.levelChanges i x, q⟩ :=
  rfl

theorem exec_debounceExpiry {r : Relay} (ha : r.awake = true) (i : Fin 8) (q : List Instr) :
    exec (.debounceExpiry i) ⟨r, q⟩ = .next ⟨r.debounceExpires i, q⟩ :=
  exec_awake (f := fun r => r.debounceExpires i) (fun _ => rfl) ha

theorem levelChanges_of_same {r : Relay} {i : Fin 8} {x : PinLevel}
    (h : r.pins.contacts.get i = x) : r.levelChanges i x = r :=
  if_pos h

/-- The part with the level of one contact changed. -/
def Relay.contactAt (r : Relay) (i : Fin 8) (x : PinLevel) : Relay :=
  r.setPins { r.pins with contacts := r.pins.contacts.set i x }

theorem levelChanges_of_changed {r : Relay} {i : Fin 8} {x : PinLevel} (ha : r.awake = true)
    (h : r.pins.contacts.get i ≠ x) :
    r.levelChanges i x
      = ((r.contactAt i x).when ((r.tables.inputs.get i).function != .unused)
          (fun r => r.inputMoves i)).settleKey :=
  (if_neg h).trans (Relay.whenAwake_of_awake (r := r.contactAt i x) ha _)

theorem levelChanges_of_unused {r : Relay} {i : Fin 8} {x : PinLevel} (ha : r.awake = true)
    (hunused : (r.tables.inputs.get i).function = .unused) (h : r.pins.contacts.get i ≠ x) :
    r.levelChanges i x = (r.contactAt i x).settleKey := by
  rw [levelChanges_of_changed ha h, hunused]
  rfl

theorem levelChanges_of_used {r : Relay} {i : Fin 8} {x : PinLevel} (ha : r.awake = true)
    (hused : (r.tables.inputs.get i).function ≠ .unused) (h : r.pins.contacts.get i ≠ x) :
    r.levelChanges i x = ((r.contactAt i x).inputMoves i).settleKey := by
  rw [levelChanges_of_changed ha h, Relay.when, if_pos (bne_iff_ne.mpr hused)]

theorem deviates_contactAt_iff (r : Relay) (i : Fin 8) (x : PinLevel) :
    (r.contactAt i x).deviates i = true ↔ x ≠ (r.tables.inputs.get i).expected := by
  rw [Relay.deviates, bne_iff_ne]
  exact iff_of_eq (congrArg (· ≠ _) (Bank.get_set_self _ _ _))

theorem not_deviates_contactAt_iff (r : Relay) (i : Fin 8) (x : PinLevel) :
    (r.contactAt i x).deviates i = false ↔ x = (r.tables.inputs.get i).expected := by
  rw [← Bool.not_eq_true, deviates_contactAt_iff, not_not]

section
variable {r : Relay} {i : Fin 8}

theorem inputMoves_of_deviation (hstate : (r.inputs.get i).state = .normal)
    (hlevel : r.deviates i = true) :
    r.inputMoves i
      = r.setInput i
        { r.inputs.get i with state := .deviating, timer := some (r.debounceEnd i) } := by
  simp only [Relay.inputMoves, hstate, hlevel]

theorem inputMoves_of_return (hstate : (r.inputs.get i).state = .deviating)
    (hlevel : r.deviates i = false) :
    r.inputMoves i = r.setInput i { r.inputs.get i with state := .normal, timer := none } := by
  simp only [Relay.inputMoves, hstate, hlevel]

theorem inputMoves_of_tripped_return (hstate : (r.inputs.get i).state = .tripped)
    (hlevel : r.deviates i = false) :
    r.inputMoves i
      = r.setInput i { r.inputs.get i with timer := some (r.debounceEnd i) } := by
  simp only [Relay.inputMoves, hstate, hlevel]

theorem inputMoves_of_tripped_deviation (hstate : (r.inputs.get i).state = .tripped)
    (hlevel : r.deviates i = true) :
    r.inputMoves i = r.setInput i { r.inputs.get i with timer := none } := by
  simp only [Relay.inputMoves, hstate, hlevel]

theorem inputMoves_of_rest
    (h : (r.inputs.get i).state = .normal ∧ r.deviates i = false
      ∨ (r.inputs.get i).state = .deviating ∧ r.deviates i = true) : r.inputMoves i = r := by
  rcases h with ⟨hstate, hlevel⟩ | ⟨hstate, hlevel⟩ <;>
    simp only [Relay.inputMoves, hstate, hlevel]

theorem debounceExpires_of_deviating {e : Nat} (htimer : (r.inputs.get i).timer = some e)
    (hdue : e ≤ r.clock.ms) (hstate : (r.inputs.get i).state = .deviating) :
    r.debounceExpires i
      = ((r.setInput i
          { state := .tripped, timer := none, trips := bump (r.inputs.get i).trips }).deliverTrip
            (r.tables.inputs.get i).function).settleKey := by
  simp only [Relay.debounceExpires, hstate]
  exact if_pos (reached_of_le htimer hdue)

theorem debounceExpires_of_tripped {e : Nat} (htimer : (r.inputs.get i).timer = some e)
    (hdue : e ≤ r.clock.ms) (hstate : (r.inputs.get i).state = .tripped) :
    r.debounceExpires i
      = (r.setInput i { r.inputs.get i with state := .normal, timer := none }).settleKey := by
  have hreached : reached (r.inputs.get i).timer r.instant = true := reached_of_le htimer hdue
  unfold Relay.debounceExpires
  dsimp only
  rw [if_pos hreached, hstate]

end

/-! ## The field reset key (R161) -/

theorem keysAll_iff (r : Relay) (st : InputState) :
    r.keysAll st = true
      ↔ ((List.finRange 8).filter
          (fun i => decide ((r.tables.inputs.get i).function = .resetKey))).length = 2
        ∧ ∀ i, (r.tables.inputs.get i).function = .resetKey → (r.inputs.get i).state = st := by
  have hkeys : r.keyInputs = (List.finRange 8).filter
      (fun i => decide ((r.tables.inputs.get i).function = .resetKey)) := by
    rw [Relay.keyInputs]
    exact List.filter_congr (fun i _ => rfl)
  rw [Relay.keysAll, Bool.and_eq_true, beq_iff_eq, hkeys, List.all_eq_true]
  simp only [List.mem_filter, List.mem_finRange, true_and, decide_eq_true_eq, beq_iff_eq]

theorem settleKey_of_disarmed {r : Relay} (h : r.key.state = .disarmed) :
    r.settleKey
      = if r.keysAll .normal then r.setKey { state := .armed, timer := none } else r := by
  simp only [Relay.settleKey, h]

theorem settleKey_of_armed {r : Relay} (h : r.key.state = .armed) :
    r.settleKey
      = if r.keysAll .tripped then
          r.setKey { state := .timing, timer := some (r.clock.ms + 4000) }
        else r := by
  simp only [Relay.settleKey, h]
  rfl

theorem settleKey_of_timing {r : Relay} (h : r.key.state = .timing) :
    r.settleKey
      = if r.keysAll .tripped then r else r.setKey { state := .armed, timer := none } := by
  simp only [Relay.settleKey, h]

/-! ## What a restart keeps (R161, R191) -/

theorem nextEvent_of_key {r : Relay} (ha : r.awake = true)
    (hdue : reached r.key.timer r.clock.ms = true) : r.nextEvent = some .keyTimerExpiry := by
  have hrun : ¬ r.clock.lost = true := by
    rw [running_of_awake ha]
    exact Bool.false_ne_true
  have hkey : r.keyEvents = [(true, .keyTimerExpiry)] := by
    rw [← hdue]
    rfl
  rw [Relay.nextEvent, if_neg hrun, timerEvents_of_started (mode_of_awake ha), hkey]
  rfl

theorem now_of_start {r : Relay} (h : r.clock.ms = 0) : r.now = 0 := by
  rw [Relay.now, h, Nat.zero_div, Nat.zero_min]

theorem cutMemory_of_unbegun {r : Relay} (h : r.store.saveBegun = false) :
    r.cutMemory = r.memory :=
  if_neg (by rw [h]; exact Bool.false_ne_true)

theorem keptByRestart_status (r : Relay) :
    r.keptByRestart.store.status = if r.store.saveBegun then .invalid else r.store.status :=
  rfl

/-- Settles O46: the table of states and levels, one row at a time, and the expiry by state. -/
theorem inputsDebounceAndTrip : Obligations.InputsDebounceAndTrip := by
  refine ⟨⟨fun r q i cfg d ha hcfg hd => ?debounce, fun r both hboth => ?key⟩,
    fun r b => ⟨rfl, rfl, rfl, rfl, rfl⟩⟩
  case debounce =>
    subst hcfg hd
    refine ⟨fun x moved hused hchanged hmoved => ?_, fun x hunused hchanged => ?_,
      fun e htimer hdue => ⟨fun hstate => ?_, fun hstate => ?_⟩, fun x hsame => ?_⟩
    · have hcontact : r.contactAt i x = moved := hmoved.symm
      rw [exec_inputLevelChange, levelChanges_of_used ha hused hchanged,
        ← deviates_contactAt_iff r i x, ← not_deviates_contactAt_iff r i x, hcontact]
      have hinput : moved.inputs.get i = r.inputs.get i := by rw [hmoved]; rfl
      have hend : moved.debounceEnd i
          = r.clock.ms + (r.tables.inputs.get i).debounce * 100 := by rw [hmoved]; rfl
      rw [← hinput, ← hend]
      refine ⟨fun hstate hlevel => ?_, fun hstate hlevel => ?_, fun hstate hlevel => ?_,
        fun hstate hlevel => ?_, fun hrest => ?_⟩
      · rw [inputMoves_of_deviation hstate hlevel]
      · rw [inputMoves_of_return hstate hlevel]
      · rw [inputMoves_of_tripped_return hstate hlevel]
      · rw [inputMoves_of_tripped_deviation hstate hlevel]
      · rw [inputMoves_of_rest hrest]
    · rw [exec_inputLevelChange, levelChanges_of_unused ha hunused hchanged]
      rfl
    · rw [exec_debounceExpiry ha, debounceExpires_of_deviating htimer hdue hstate]
      rfl
    · rw [exec_debounceExpiry ha, debounceExpires_of_tripped htimer hdue hstate]
    · rw [exec_inputLevelChange, levelChanges_of_same hsame]
  case key =>
    have hall (st : InputState) : r.keysAll st = true ↔ both st :=
      (keysAll_iff r st).trans (hboth st).symm
    refine ⟨fun hstate => ?_, fun hstate => ?_, fun hstate => ?_⟩
    · rw [settleKey_of_disarmed hstate, ← hall]
      exact ⟨fun h => if_pos h, fun h => if_neg h⟩
    · rw [settleKey_of_armed hstate, ← hall]
      exact ⟨fun h => if_pos h, fun h => if_neg h⟩
    · rw [settleKey_of_timing hstate, ← hall]
      exact ⟨fun h => if_pos h, fun h => if_neg h⟩

/-- Settles O47: the key's reset is a restart, and each field of the kept part is read off its
definition. -/
theorem keyExpiryRestartsThePart : Obligations.KeyExpiryRestartsThePart := by
  intro r q e kept ha hstate htimer hdue hkept
  have hreset : r.resetFalls = true := (resetFalls_iff r).mpr ⟨hstate, e, htimer, hdue⟩
  have hexec : exec .keyTimerExpiry ⟨r, q⟩ = .next ⟨r.restart, q⟩ := by
    refine (exec_awake (f := Relay.keyExpires) (fun _ => rfl) ha).trans ?_
    rw [Relay.keyExpires, Relay.when, if_pos hreset]
  subst hkept
  refine ⟨hexec, nextEvent_of_key ha (reached_of_le htimer hdue), rfl, rfl, rfl, rfl, rfl, rfl, rfl,
    rfl, rfl, now_of_start rfl, rfl, rfl, fun hsave => ⟨?_, cutMemory_of_unbegun hsave⟩,
    fun hsave => ?_, fun b => Bank.get_map _ _ _, fun l => Bank.get_fill _ _ _, rfl, rfl, rfl, rfl,
    rfl, rfl, rfl, rfl, fun i => Bank.get_fill _ _ _, fun c => Bank.get_fill _ _ _,
    fun i => Bank.get_fill _ _ _, rfl, rfl⟩
  · rw [keptByRestart_status, hsave]
    rfl
  · rw [keptByRestart_status, hsave]
    rfl

end Sys2Proof.Machine

/-! SUPPORT. Taking a request, the replies, and the frames the relay makes (R119, R165 to R167). -/

namespace Sys2Proof.Machine

/-! ## The offers of the relay's own frames (R119) -/

theorem countDrop_emitter (r : Relay) (f : DropCounters → DropCounters) :
    (r.countDrop f).emitter = r.emitter :=
  rfl

theorem makeTestFrame_emitter_of_full {r : Relay} (h : r.pool.free = 0) :
    r.makeTestFrame.emitter = r.emitter := by
  cases hparams : r.generator.params with
  | none => simp only [Relay.makeTestFrame, hparams]
  | some q =>
    have hrefused : (r.offerTest q.port (r.testBuffer q)).2 = false := by
      have hno (n k : Nat) : ¬ (n < k ∧ 0 < r.pool.free) := fun hroom => by omega
      cases hport : q.port with
      | lower =>
        exact congrArg Prod.snd (offerRoutine_of_refused (joinRoutine_of_no_room _ (hno _ _)))
      | upper => exact congrArg Prod.snd (offerUp_of_refused (joinUp_of_no_room _ (hno _ _)))
    rw [(makeTestFrame_of_params hparams).2 hrefused]
    exact (offerTest_keeps r q.port _).2.1

theorem reportLoss_emitter_of_full {r : Relay} (m : Maker) (h : r.pool.free = 0) :
    (r.reportLoss m).emitter = r.emitter := by
  cases m with
  | other => rfl
  | restartReply => rfl
  | testRun run =>
    change (r.testFrameFinished run).emitter = r.emitter
    unfold Relay.testFrameFinished
    split
    · rfl
    · dsimp only
      split_ifs
      · rfl
      · exact makeTestFrame_emitter_of_full (r := r.countFinished) h
      · rfl
      · rfl

/-- An eviction for an urgent frame leaves no buffer free, so the test frame that the generator then
makes is refused and the relay sequence stands. -/
theorem offerUrgent_emitter (r : Relay) (b : Buffer) : (r.offerUrgent b).1.emitter = r.emitter := by
  by_cases hfree : 0 < r.pool.free
  · rw [offerUrgent_of_placed (joinUrgent_of_free b hfree)]
    exact take_emitter _ _
  · have hfull : r.pool.free = 0 := by omega
    cases hroutine : r.pool.routine with
    | cons x xs =>
      rw [offerUrgent_of_evicted (joinUrgent_evicts_routine b hfull hroutine)]
      rw [take_emitter]
      exact reportLoss_emitter_of_full (r := r.setPool _) _ hfull
    | nil =>
      cases hup : r.pool.up with
      | cons x xs =>
        rw [offerUrgent_of_evicted (joinUrgent_evicts_up b hfull hroutine hup)]
        rw [take_emitter]
        exact reportLoss_emitter_of_full (r := r.setPool _) _ hfull
      | nil =>
        rw [offerUrgent_of_refused (joinUrgent_refuses b hfull hroutine hup)]
        rfl

theorem offer_emitter (r : Relay) (lane : Lane) (b : Buffer) :
    (r.offer lane b).1.emitter = r.emitter := by
  cases lane with
  | urgent => exact offerUrgent_emitter r b
  | routine => exact (offerRoutine_keeps r b).2
  | up => exact (offerUp_keeps r b).2

section
variable {r : Relay} {lane : Lane} {frame : Frame} {maker : Maker}

theorem offerOwn_of_admitted (h : (r.offer lane { frame := frame, maker := maker }).2 = true) :
    r.offerOwn lane frame maker
      = ((r.offer lane { frame := frame, maker := maker }).1.setEmitter
          { r.emitter with
            sequence := r.emitter.sequence + 1#8
            fresh := min (r.emitter.fresh + 1) 4 }, true) := by
  rw [← offer_emitter r lane { frame := frame, maker := maker }]
  exact if_pos h

theorem offerOwn_of_refused (h : (r.offer lane { frame := frame, maker := maker }).2 = false) :
    r.offerOwn lane frame maker = ((r.offer lane { frame := frame, maker := maker }).1, false) :=
  if_neg (by rw [h]; exact Bool.false_ne_true)

end

/-! ## Replies (R167) -/

theorem reply_of_admitted {r : Relay} {q : Sender} {result : Result} {data : List Byte}
    {t : Relay} (h : r.offerOwn .routine (r.replyFrame q result data false) .other = (t, true)) :
    r.reply q result data = t := by
  rw [Relay.reply, h]
  rfl

theorem reply_of_refused {r : Relay} {q : Sender} {result : Result} {data : List Byte}
    {t : Relay} (h : r.offerOwn .routine (r.replyFrame q result data false) .other = (t, false)) :
    r.reply q result data = t.countRefusedReply := by
  rw [Relay.reply, h]
  rfl

theorem replyUrgent_of_admitted {r : Relay} {q : Sender} {result : Result} {t : Relay}
    (h : r.offerOwn .urgent (r.replyFrame q result [] true) .other = (t, true)) :
    r.replyUrgent q result = t := by
  rw [Relay.replyUrgent, h]
  rfl

theorem replyUrgent_of_refused {r : Relay} {q : Sender} {result : Result} {t : Relay}
    (h : r.offerOwn .urgent (r.replyFrame q result [] true) .other = (t, false)) :
    r.replyUrgent q result = t.countRefusedReply := by
  rw [Relay.replyUrgent, h]
  rfl

theorem refuse_of_restart {r : Relay} {q : Sender} {e : Result} (h : q.code = 14#8) :
    r.refuse q e = r.replyUrgent q e :=
  if_pos h

/-- Settles O49: an admitted offer advances the sequence, and a refused one is counted. -/
theorem replyGoesToTheRoutineQueue : Obligations.ReplyGoesToTheRoutineQueue := by
  refine ⟨⟨fun r q result data b hb => ⟨fun hcap hfree => ?admitted, fun hfull => ?refused,
    reply_same r q result data⟩, fun r q result offered => ⟨refuse_of_ne, fun hcode hoffered =>
      ⟨fun hin => ?urgentIn, fun hout => ?urgentOut⟩⟩⟩,
    fun r b lane frame maker offered => ⟨rfl, rfl, rfl, fun hoffered =>
      ⟨fun hin => ?ownIn, fun hout => ?ownOut⟩⟩⟩
  case admitted =>
    have hoffer := offerRoutine_of_joined (joinRoutine_of_room b hcap hfree)
    have hoffer' : r.offer .routine { frame := r.replyFrame q result data false, maker := .other }
        = r.offerRoutine b := by
      rw [hb]
      rfl
    rw [reply_of_admitted (offerOwn_of_admitted (by rw [hoffer', hoffer])), hoffer', hoffer]
  case refused =>
    have hoffer := offerRoutine_of_refused (joinRoutine_of_no_room b hfull)
    have hoffer' : r.offer .routine { frame := r.replyFrame q result data false, maker := .other }
        = r.offerRoutine b := by
      rw [hb]
      rfl
    rw [reply_of_refused (offerOwn_of_refused (by rw [hoffer', hoffer])), hoffer', hoffer]
    rfl
  case urgentIn =>
    have hsame : r.offer .urgent { frame := r.replyFrame q result [] true, maker := .other }
        = offered := by
      rw [hoffered, ← hcode]
      rfl
    rw [refuse_of_restart hcode,
      replyUrgent_of_admitted (offerOwn_of_admitted (by rw [hsame]; exact hin)), hsame, ← hsame,
      offer_emitter]
  case urgentOut =>
    have hsame : r.offer .urgent { frame := r.replyFrame q result [] true, maker := .other }
        = offered := by
      rw [hoffered, ← hcode]
      rfl
    rw [refuse_of_restart hcode,
      replyUrgent_of_refused (offerOwn_of_refused (by rw [hsame]; exact hout)), hsame]
    rfl
  case ownIn =>
    subst hoffered
    exact offerOwn_of_admitted hin
  case ownOut =>
    subst hoffered
    exact ⟨offerOwn_of_refused hout, offer_emitter _ _ _⟩

/-! ## Bytes beyond the arguments (R198) -/

section
variable {bs extra : List Byte} {i : Nat}

theorem byteAt_append (h : i < bs.length) : byteAt (bs ++ extra) i = byteAt bs i := by
  rw [byteAt, byteAt, List.getD_append _ _ _ _ h]

theorem pairAt_append (h : i + 1 < bs.length) : pairAt (bs ++ extra) i = pairAt bs i := by
  rw [pairAt, pairAt, byteAt_append (by omega), byteAt_append h]

theorem passSetAt_append (h : i + 7 < bs.length) :
    passSetAt (bs ++ extra) i = passSetAt bs i := by
  simp (disch := omega) only [passSetAt, List.getD_append]

theorem decodeIdentity_append (h : 27 ≤ bs.length) :
    decodeIdentity (bs ++ extra) = decodeIdentity bs := by
  simp (disch := omega) only [decodeIdentity, byteAt_append, pairAt_append, passSetAt_append]

theorem decodeStation_append (h : 12 ≤ bs.length) :
    decodeStation (bs ++ extra) = decodeStation bs := by
  simp (disch := omega) only [decodeStation, byteAt_append, pairAt_append]

theorem decodeBarrier_append (h : 25 ≤ bs.length) :
    decodeBarrier (bs ++ extra) = decodeBarrier bs := by
  simp (disch := omega) only [decodeBarrier, byteAt_append, pairAt_append]

theorem decodeDispatch_append (h : 3 ≤ bs.length) :
    decodeDispatch (bs ++ extra) = decodeDispatch bs := by
  simp (disch := omega) only [decodeDispatch, byteAt_append]

theorem decodeInput_append (h : 4 ≤ bs.length) : decodeInput (bs ++ extra) = decodeInput bs := by
  simp (disch := omega) only [decodeInput, byteAt_append]

theorem decodeBinding_append (h : 2 ≤ bs.length) :
    decodeBinding (bs ++ extra) = decodeBinding bs := by
  simp (disch := omega) only [decodeBinding, byteAt_append]

end

/-- The steps that a cadence record's bytes spell (R198). -/
def stepsAt (bs : List Byte) : List (Nat × Nat) :=
  (List.range (byteAt bs 0 % 16)).map (fun k => (byteAt bs (3 + 2 * k), byteAt bs (4 + 2 * k)))

theorem decodeCadence_of_many {bs : List Byte} (hused : ¬ byteAt bs 0 < 128)
    (hmany : 8 < byteAt bs 0 % 16) : decodeCadence bs = none := by
  rw [decodeCadence, if_neg hused]
  split
  · rfl
  · refine if_neg (fun hrange => ?_)
    simp only [Cadence.inRange, Bool.and_eq_true, within_iff, List.length_map,
      List.length_range] at hrange
    omega

theorem decodeCadence_append {bs extra : List Byte} (h : 19 ≤ bs.length) :
    decodeCadence (bs ++ extra) = decodeCadence bs := by
  have hhead : byteAt (bs ++ extra) 0 = byteAt bs 0 := byteAt_append (by omega)
  by_cases hused : byteAt bs 0 < 128
  · rw [decodeCadence, decodeCadence, hhead, if_pos hused, if_pos hused]
  · by_cases hmany : 8 < byteAt bs 0 % 16
    · rw [decodeCadence_of_many hused hmany,
        decodeCadence_of_many (by rw [hhead]; exact hused) (by rw [hhead]; exact hmany)]
    · have hsteps : stepsAt (bs ++ extra) = stepsAt bs := by
        rw [stepsAt, stepsAt, hhead]
        refine List.map_congr_left (fun k hk => ?_)
        rw [List.mem_range] at hk
        rw [byteAt_append (by omega), byteAt_append (by omega)]
      unfold stepsAt at hsteps
      rw [hhead] at hsteps
      simp (disch := omega) only [decodeCadence, hhead, hsteps, byteAt_append]

/-- The length of a place's record (R198). -/
def Slot.width : Slot → Nat
  | .identity => 27
  | .station _ => 12
  | .barrier _ => 25
  | .cadence _ => 19
  | .dispatch _ => 3
  | .input _ => 4
  | .binding _ => 2

theorem decodeRecord_append {s : Slot} {bs extra : List Byte} (h : s.width ≤ bs.length) :
    decodeRecord s (bs ++ extra) = decodeRecord s bs := by
  cases s with
  | identity => exact congrArg (Option.map _) (decodeIdentity_append h)
  | station i => exact congrArg (Option.map _) (decodeStation_append h)
  | barrier b => exact congrArg (Option.map _) (decodeBarrier_append h)
  | cadence k => exact congrArg (Option.map _) (decodeCadence_append h)
  | dispatch k => exact congrArg (Option.map _) (decodeDispatch_append h)
  | input i => exact congrArg (Option.map _) (decodeInput_append h)
  | binding c => exact congrArg (Option.map _) (decodeBinding_append h)

theorem recordLength_of_indexed {n index w : Nat} {f : Fin n → Slot} {s : Slot}
    (hw : ∀ i, (f i).width = w) (h : indexed n index f = .ok s) : some w = some s.width := by
  obtain ⟨i, rfl⟩ := indexed_ok h
  rw [hw i]

theorem recordLength_of_findSlot {table index : Nat} {s : Slot}
    (h : findSlot table index = .ok s) : recordLength table = some s.width := by
  match table, h with
  | 0, h =>
    by_cases hindex : index = 0
    · cases (if_pos hindex).symm.trans h
      rfl
    · cases (if_neg hindex).symm.trans h
  | 1, h => exact recordLength_of_indexed (fun _ => rfl) h
  | 2, h => exact recordLength_of_indexed (fun _ => rfl) h
  | 3, h => exact recordLength_of_indexed (fun _ => rfl) h
  | 4, h => exact recordLength_of_indexed (fun _ => rfl) h
  | 5, h => exact recordLength_of_indexed (fun _ => rfl) h
  | 6, h => exact recordLength_of_indexed (fun _ => rfl) h
  | _ + 7, h => cases h

theorem checkWrite_append {r : Relay} {s : Slot} {bs extra : List Byte}
    (h : s.width ≤ bs.length) : r.checkWrite s (bs ++ extra) = r.checkWrite s bs := by
  rw [Relay.checkWrite, Relay.checkWrite, decodeRecord_append h]

theorem wellSized_iff (code : Nat) (args : List Byte) :
    wellSized code args = true ↔ ∃ n, argsLength code args = some n ∧ n ≤ args.length := by
  unfold wellSized
  cases argsLength code args <;> simp

theorem code_of_wellSized {code : Nat} {args : List Byte} (h : wellSized code args = true) :
    1 ≤ code ∧ code ≤ 14 := by
  obtain ⟨n, hn, -⟩ := (wellSized_iff _ _).mp h
  match code, hn with
  | 0, hn => cases hn
  | _ + 15, hn => cases hn
  | 1, _ | 2, _ | 3, _ | 4, _ | 5, _ | 6, _ | 7, _ | 8, _ | 9, _ | 10, _ | 11, _ | 12, _ | 13, _
  | 14, _ => omega

/-- The bytes of the arguments that an action reads again when it is carried out. -/
def Action.reads : Action → Nat
  | .readRecord _ => 2
  | .readState _ => 3
  | _ => 0

theorem carryOut_append {r : Relay} {q : Sender} {args extra : List Byte} {a : Action}
    (h : a.reads ≤ args.length) : r.carryOut q (args ++ extra) a = r.carryOut q args a := by
  cases a with
  | readRecord s =>
    have htake : (args ++ extra).take 2 = args.take 2 := List.take_append_of_le_length h
    change r.carryReadRecord q s (args ++ extra) = r.carryReadRecord q s args
    rw [Relay.carryReadRecord, Relay.carryReadRecord, htake]
  | readState v =>
    have htake : (args ++ extra).take 3 = args.take 3 := List.take_append_of_le_length h
    change r.carryReadState q v (args ++ extra) = r.carryReadState q v args
    rw [Relay.carryReadState, Relay.carryReadState, htake]
  | _ => rfl

theorem argsLength_append {code : Nat} {args extra : List Byte} (h : wellSized code args = true) :
    argsLength code (args ++ extra) = argsLength code args := by
  obtain ⟨n, hn, hle⟩ := (wellSized_iff _ _).mp h
  match code, hn with
  | 0, hn => cases hn
  | 2, hn =>
    cases hn
    simp (disch := omega) only [argsLength, byteAt_append]
  | 1, _ | 3, _ | 4, _ | 5, _ | 6, _ | 7, _ | 8, _ | 9, _ | 10, _ | 11, _ | 12, _ | 13, _
  | 14, _ => rfl
  | _ + 15, hn => cases hn

theorem wellSized_append {code : Nat} {args extra : List Byte} (h : wellSized code args = true) :
    wellSized code (args ++ extra) = true := by
  obtain ⟨n, hn, hle⟩ := (wellSized_iff _ _).mp h
  refine (wellSized_iff _ _).mpr ⟨n, (argsLength_append h).trans hn, ?_⟩
  rw [List.length_append]
  omega

theorem andThen_congr {α β : Type} {x : Except Result α} {f g : α → Except Result β}
    (h : ∀ a, x = .ok a → f a = g a) : andThen x f = andThen x g := by
  cases x with
  | ok a => exact h a rfl
  | error e => rfl

theorem checkArgs_append {r : Relay} {code : Nat} {args extra : List Byte}
    (h : wellSized code args = true) :
    r.checkArgs code (args ++ extra) = r.checkArgs code args := by
  obtain ⟨n, hn, hle⟩ := (wellSized_iff _ _).mp h
  match code, hn with
  | 0, hn => cases hn
  | 2, hn =>
    cases hn
    have hdrop : (args ++ extra).drop 2 = args.drop 2 ++ extra :=
      List.drop_append_of_le_length (by omega)
    have hcheck : ∀ s, findSlot (byteAt args 0) (byteAt args 1) = .ok s →
        r.checkWrite s (args.drop 2 ++ extra) = r.checkWrite s (args.drop 2) := by
      intro s hs
      refine checkWrite_append ?_
      rw [recordLength_of_findSlot hs, Option.getD_some] at hle
      rw [List.length_drop]
      omega
    simp (disch := omega) only [Relay.checkArgs, byteAt_append, hdrop]
    exact andThen_congr (fun s hs => congrArg (refuseIf r.store.saving .busy) (hcheck s hs))
  | 1, hn | 3, hn | 4, hn | 7, hn | 8, hn | 9, hn | 10, hn =>
    cases hn
    simp (disch := omega) only [Relay.checkArgs, byteAt_append]
  | 11, hn =>
    cases hn
    simp (disch := omega) only [Relay.checkArgs, checkLineTest, byteAt_append, pairAt_append]
  | 5, _ | 6, _ | 12, _ | 13, _ | 14, _ => rfl
  | _ + 15, hn => cases hn

theorem checkWrite_ok {r : Relay} {s : Slot} {bs : List Byte} {a : Action}
    (h : r.checkWrite s bs = .ok a) : ∃ x, decodeRecord s bs = some x ∧ a = .writeRecord x := by
  unfold Relay.checkWrite at h
  split at h
  · cases h
  · next x hx =>
    obtain ⟨-, h⟩ := refuseIf_ok h
    obtain ⟨-, h⟩ := refuseIf_ok h
    obtain ⟨-, h⟩ := refuseIf_ok h
    cases h
    exact ⟨x, hx, rfl⟩

theorem reads_le_of_checkArgs {r : Relay} {code : Nat} {args : List Byte} {a : Action}
    (hw : wellSized code args = true) (h : r.checkArgs code args = .ok a) :
    a.reads ≤ args.length := by
  obtain ⟨n, hn, hle⟩ := (wellSized_iff _ _).mp hw
  match code, hn, h with
  | 0, hn, _ => cases hn
  | 1, hn, h =>
    obtain ⟨s, -, hs⟩ := andThen_ok h
    cases hs
    cases hn
    exact hle
  | 2, _, h =>
    obtain ⟨s, -, hs⟩ := andThen_ok h
    obtain ⟨x, -, rfl⟩ := checkWrite_ok (refuseIf_ok hs).2
    exact Nat.zero_le _
  | 3, hn, h =>
    obtain ⟨s, -, hs⟩ := andThen_ok h
    cases hs
    cases hn
    exact hle
  | 4, _, h =>
    have hclear : ∃ w, a = .clear w := by
      change clearWhat (byteAt args 0) = .ok a at h
      unfold clearWhat at h
      split at h <;> cases h <;> exact ⟨_, rfl⟩
    obtain ⟨w, rfl⟩ := hclear
    exact Nat.zero_le _
  | 5, _, h | 6, _, h | 12, _, h =>
    cases h
    exact Nat.zero_le _
  | 7, _, h | 10, _, h =>
    obtain ⟨i, rfl⟩ := indexed_ok h
    exact Nat.zero_le _
  | 8, _, h =>
    have hrearm : ∃ b p, a = .rearmWire b p := by
      change checkRearm (byteAt args 0) (byteAt args 1) = .ok a at h
      unfold checkRearm at h
      split at h <;> cases h
      exact ⟨_, _, rfl⟩
    obtain ⟨b, p, rfl⟩ := hrearm
    exact Nat.zero_le _
  | 9, _, h =>
    obtain ⟨i, k, rfl⟩ := indexedPart_ok h
    exact Nat.zero_le _
  | 11, _, h =>
    have htest : ∃ p, a = .lineTest p := by
      change checkLineTest args = .ok a at h
      unfold checkLineTest at h
      dsimp only at h
      split at h <;> cases h
      exact ⟨_, rfl⟩
    obtain ⟨p, rfl⟩ := htest
    exact Nat.zero_le _
  | 13, _, h | 14, _, h =>
    obtain ⟨-, h⟩ := refuseIf_ok h
    cases h
    exact Nat.zero_le _
  | _ + 15, hn, _ => cases hn

theorem check_append {r : Relay} {code : Nat} {args extra : List Byte}
    (h : wellSized code args = true) : r.check code (args ++ extra) = r.check code args := by
  rw [Relay.check, Relay.check, wellSized_append h, h, checkArgs_append h]

theorem check_of_short {r : Relay} {code : Nat} {args : List Byte}
    (h : wellSized code args = false) : r.check code args = .error .badRequest := by
  rw [Relay.check, h]
  rfl

theorem check_of_pending {r : Relay} {code : Nat} {args : List Byte}
    (h : wellSized code args = true) (hpending : r.agent.restartPending = true) :
    r.check code args = .error .busy := by
  rw [Relay.check, h, hpending]
  rfl

theorem check_of_ready {r : Relay} {code : Nat} {args : List Byte}
    (h : wellSized code args = true) (hready : r.agent.restartPending = false) :
    r.check code args = r.checkArgs code args := by
  rw [Relay.check, h, hready]
  rfl

theorem check_ok {r : Relay} {code : Nat} {args : List Byte} {a : Action}
    (h : r.check code args = .ok a) :
    wellSized code args = true ∧ r.checkArgs code args = .ok a := by
  obtain ⟨hsized, h⟩ := refuseIf_ok h
  obtain ⟨-, h⟩ := refuseIf_ok h
  rw [Bool.not_eq_false'] at hsized
  exact ⟨hsized, h⟩

theorem request_of_stranger {r : Relay} {q : Sender} (args : List Byte)
    (h : r.actsFor q.origin = false) :
    r.request q args
      = r.setAgent { r.agent with unauthorised := bump r.agent.unauthorised } := by
  unfold Relay.request
  exact if_neg (by rw [h]; exact Bool.false_ne_true)

theorem request_append {r : Relay} {q : Sender} {args extra : List Byte}
    (h : wellSized q.code.toNat args = true) : r.request q (args ++ extra) = r.request q args := by
  cases hacts : r.actsFor q.origin with
  | false => rw [request_of_stranger _ hacts, request_of_stranger _ hacts]
  | true =>
    have hsame : r.counted.check q.code.toNat (args ++ extra) = r.counted.check q.code.toNat args :=
      check_append h
    cases hcheck : r.counted.check q.code.toNat args with
    | error e => rw [request_of_error hacts (hsame.trans hcheck), request_of_error hacts hcheck]
    | ok a =>
      rw [request_of_ok hacts (hsame.trans hcheck), request_of_ok hacts hcheck]
      exact carryOut_append (reads_le_of_checkArgs h (check_ok hcheck).2)

theorem actsFor_iff (r : Relay) (origin : Addr) :
    r.actsFor origin = true ↔ r.store.mode = .openLine ∨ r.tables.identity.manager = none
      ∨ r.tables.identity.manager = some origin := by
  rw [Relay.actsFor, Bool.or_eq_true, beq_iff_eq, authorised_iff]

theorem code_of_requestOf {c : Instr} {origin : Addr} {tag : Byte} {code : Nat} {args : List Byte}
    (h : requestOf c = some (origin, tag, code, args)) : code ≤ 14 := by
  cases c <;> simp only [requestOf, Option.some.injEq, Prod.mk.injEq, reduceCtorEq] at h <;>
    omega

theorem exec_request {c : Instr} {r : Relay} {origin : Addr} {tag : Byte} {code : Nat}
    {args : List Byte} (h : requestOf c = some (origin, tag, code, args)) (ha : r.awake = true)
    (q : List Instr) :
    exec c ⟨r, q⟩ = .next ⟨r.request ⟨origin, byte code, tag⟩ args, q⟩ := by
  exact exec_awake (f := fun r => r.request ⟨origin, byte code, tag⟩ args)
    (fun s => by rw [exec_of_request h]; rfl) ha

theorem recordLength_getD (table : Nat) :
    (recordLength table).getD 0 = [27, 12, 25, 19, 3, 4, 2].getD table 0 := by
  match table with
  | 0 | 1 | 2 | 3 | 4 | 5 | 6 => rfl
  | _ + 7 => rfl

/-- The length of a known code's arguments before the record of a WRITE-RECORD (R198). -/
def fixedArgs (code : Nat) : Nat :=
  [0, 2, 2, 3, 1, 0, 0, 1, 2, 2, 1, 7, 0, 0, 0].getD code 0

theorem argsLength_of_known {code : Nat} (args : List Byte) (hlow : 1 ≤ code) (hhigh : code ≤ 14) :
    argsLength code args
      = some (fixedArgs code
        + if code = 2 then [27, 12, 25, 19, 3, 4, 2].getD (args.getD 0 0#8).toNat 0 else 0) := by
  match code, hlow, hhigh with
  | 2, _, _ => exact congrArg (fun n => some (2 + n)) (recordLength_getD _)
  | 1, _, _ | 3, _, _ | 4, _, _ | 5, _, _ | 6, _, _ | 7, _, _ | 8, _, _ | 9, _, _ | 10, _, _
  | 11, _, _ | 12, _, _ | 13, _, _ | 14, _, _ => rfl
  | n + 15, _, h => omega

theorem not_wellSized_iff (code : Nat) (args : List Byte) :
    wellSized code args = false ↔ code = 0 ∨ 14 < code ∨ args.length < fixedArgs code
      ∨ (code = 2
        ∧ args.length < 2 + [27, 12, 25, 19, 3, 4, 2].getD (args.getD 0 0#8).toNat 0) := by
  rw [← Bool.not_eq_true]
  by_cases hknown : 1 ≤ code ∧ code ≤ 14
  · have hlength := argsLength_of_known args hknown.1 hknown.2
    rw [wellSized_iff, hlength]
    simp only [Option.some.injEq, exists_eq_left']
    split
    · next htwo =>
      have hfixed : fixedArgs code = 2 := by rw [htwo]; rfl
      omega
    · omega
  · have hsized : ¬ wellSized code args = true := fun h => hknown (code_of_wellSized h)
    exact iff_of_true hsized (by omega)

theorem checkArgs_clear_of_ge {r : Relay} {args : List Byte} (h : 4 ≤ byteAt args 0) :
    r.checkArgs 4 args = .error .badField := by
  obtain ⟨k, hk⟩ : ∃ k, byteAt args 0 = k + 4 := ⟨byteAt args 0 - 4, by omega⟩
  change clearWhat (byteAt args 0) = _
  rw [hk]
  rfl

/-- Settles O48. The requests that arrive in frames and those the host commands are screened alike:
each of the screen's answers is the check's own, and bytes after the arguments are not read. -/
theorem requestsAreScreenedFirst : Obligations.RequestsAreScreenedFirst := by
  refine ⟨fun c r q origin tag code args hc ha => ?command,
    fun r a code table args q acted short hcode hargs htable hq hacted hshort => ?frame⟩
  case command =>
    have hhigh := code_of_requestOf hc
    have hcode : (byte code).toNat = code := byte_toNat (by omega)
    have hplain (h : code ≠ 14) : byte code ≠ 14#8 := fun hb => h (by rw [← hcode, hb]; rfl)
    have hexec := exec_request hc ha q
    have hfails (e : Result) (hacts : r.actsFor origin = true)
        (hcheck : r.counted.check code args = .error e) :
        exec c ⟨r, q⟩ = .next ⟨r.counted.refuse ⟨origin, byte code, tag⟩ e, q⟩ := by
      rw [hexec, request_of_error hacts (by rw [hcode]; exact hcheck)]
    refine ⟨actsFor_iff r origin, fun hacts => ?_, fun hacts hsized => ?_,
      fun hacts hrestart hpending => ?_, fun hacts hsized hother hpending => ?_⟩
    · rw [hexec, request_of_stranger _ hacts]
      rfl
    · have hother : code ≠ 14 := by
        rintro rfl
        cases hsized
      rw [hfails _ hacts (check_of_short hsized), refuse_of_ne (hplain hother)]
      rfl
    · subst hrestart
      rw [hfails _ hacts (check_of_pending (r := r.counted) rfl hpending)]
      rfl
    · rw [hfails _ hacts (check_of_pending (r := r.counted) hsized hpending),
        refuse_of_ne (hplain hother)]
      rfl
  case frame =>
    have hhand : r.handRequest a = r.request q args := by
      rw [hq, hargs]
      rfl
    have hsender : q.code.toNat = code := by rw [hq, hcode]
    have horigin : q.origin = a.origin := by rw [hq]
    have hplain (h : code ≠ 14) : q.code ≠ 14#8 := fun hb => h (by rw [← hsender, hb]; rfl)
    have hsized : wellSized code args = false ↔ short :=
      (not_wellSized_iff code args).trans (by rw [hshort, htable]; rfl)
    have hfits (hs : ¬ short) : wellSized code args = true :=
      Bool.not_eq_false _ ▸ fun h => hs (hsized.mp h)
    have hfails (e : Result) (hacts : r.actsFor a.origin = true)
        (hcheck : r.counted.check code args = .error e) :
        r.handRequest a = acted.refuse q e := by
      rw [hhand, hacted, request_of_error (horigin ▸ hacts) (hsender ▸ hcheck)]
      rfl
    refine ⟨fun hacts => ?_, fun hacts hs => ?_, fun hacts hs hpending => ?_,
      fun hacts hs hready hfour hwhat => ?_, fun extra hs hlong => ?_⟩
    · rw [hhand, request_of_stranger _ (horigin ▸ hacts)]
      rfl
    · have hwrong := hsized.mpr hs
      have hother : code ≠ 14 := by
        rintro h
        rw [h] at hwrong
        cases hwrong
      rw [hfails _ hacts (check_of_short hwrong), refuse_of_ne (hplain hother)]
    · exact hfails _ hacts (check_of_pending (r := r.counted) (hfits hs) hpending)
    · have hcheck : r.counted.check code args = .error .badField := by
        rw [check_of_ready (r := r.counted) (hfits hs) hready, hfour]
        exact checkArgs_clear_of_ge hwhat
      rw [hfails _ hacts hcheck, refuse_of_ne (hplain (by omega))]
    · have hlonger : r.handRequest { a with payload := a.payload ++ extra }
          = r.request q (args ++ extra) := by
        rw [hq, hargs, ← List.drop_append_of_le_length hlong,
          ← List.getD_append _ extra _ 0 (by omega), ← List.getD_append _ extra _ 1 (by omega)]
        rfl
      rw [hlonger, hhand, request_append (hsender ▸ hfits hs)]

end Sys2Proof.Machine

/-! SUPPORT. What READ-RECORD and READ-STATE answer (R164, R168, R169, section 12.6). -/

namespace Sys2Proof.Machine

/-! ## Places of records and parts (R164, R166, R169) -/

theorem findSlot_of_table_ge {table : Nat} (index : Nat) (h : 7 ≤ table) :
    findSlot table index = .error .badTable := by
  obtain ⟨k, rfl⟩ := Nat.exists_eq_add_of_le' h
  rfl

theorem findSlot_of_index_ge {table index : Nat} (htable : table < 7)
    (hindex : [1, 48, 8, 16, 32, 8, 4].getD table 0 ≤ index) :
    findSlot table index = .error .badIndex := by
  match table, htable with
  | 0, _ =>
    have hone : 1 ≤ index := hindex
    exact if_neg (by omega)
  | 1, _ | 2, _ | 3, _ | 4, _ | 5, _ | 6, _ => exact indexed_of_ge _ hindex

theorem findView_of_what_ge {what : Nat} (index part : Nat) (h : 8 ≤ what) :
    findView what index part = .error .badTable := by
  obtain ⟨k, rfl⟩ := Nat.exists_eq_add_of_le' h
  rfl

theorem findView_of_index_ge {what index part : Nat} (hwhat : what < 8)
    (h : [48, 8, 4, 8, 3, 1, 1, 1].getD what 0 ≤ index
      ∨ [2, 3, 2, 1, 1, 1, 2, 2].getD what 0 ≤ part) :
    findView what index part = .error .badIndex := by
  match what, hwhat with
  | 0, _ | 1, _ | 2, _ | 3, _ | 4, _ | 5, _ | 6, _ | 7, _ => exact indexedPart_of_ge _ h

/-! ## The two reads as commands (R168, R169) -/

section
variable {r : Relay} {origin : Addr} (q : List Instr) (tag : Byte)

theorem exec_readRecord_of_ok {table index : Byte} {s : Slot} (hserves : r.Serves origin)
    (h : findSlot table.toNat index.toNat = .ok s) :
    exec (.readRecord origin tag table index) ⟨r, q⟩
      = .next ⟨r.counted.reply ⟨origin, 1#8, tag⟩ .done (table :: index :: r.tables.record s),
          q⟩ := by
  refine exec_carryOut (exec_of_request rfl) (code := 1) (args := [table, index]) hserves rfl
    (a := .readRecord s) ?_
  change andThen (findSlot table.toNat index.toNat) _ = _
  rw [h]
  rfl

theorem exec_readRecord_of_error {table index : Byte} {e : Result} (hserves : r.Serves origin)
    (h : findSlot table.toNat index.toNat = .error e) :
    exec (.readRecord origin tag table index) ⟨r, q⟩
      = .next ⟨r.counted.reply ⟨origin, 1#8, tag⟩ e [], q⟩ := by
  refine exec_refused (exec_of_request rfl) hserves rfl ?_ (by decide)
  change andThen (findSlot table.toNat index.toNat) _ = _
  rw [h]
  rfl

theorem exec_readState_of_ok {what index part : Byte} {v : View} (hserves : r.Serves origin)
    (h : findView what.toNat index.toNat part.toNat = .ok v) :
    exec (.readState origin tag what index part) ⟨r, q⟩
      = .next ⟨r.counted.reply ⟨origin, 3#8, tag⟩ .done
          (what :: index :: part :: be4 r.now ++ r.counted.view v), q⟩ := by
  refine exec_carryOut (exec_of_request rfl) (code := 3) (args := [what, index, part]) hserves rfl
    (a := .readState v) ?_
  change andThen (findView what.toNat index.toNat part.toNat) _ = _
  rw [h]
  rfl

theorem exec_readState_of_error {what index part : Byte} {e : Result} (hserves : r.Serves origin)
    (h : findView what.toNat index.toNat part.toNat = .error e) :
    exec (.readState origin tag what index part) ⟨r, q⟩
      = .next ⟨r.counted.reply ⟨origin, 3#8, tag⟩ e [], q⟩ := by
  refine exec_refused (exec_of_request rfl) hserves rfl ?_ (by decide)
  change andThen (findView what.toNat index.toNat part.toNat) _ = _
  rw [h]
  rfl

end

/-! ## The encodings of section 12.6 -/

theorem flag_eq_toNat (x : Bool) : flag x = x.toNat := by
  cases x <;> rfl

/-- A remaining time in tenths lies less than a tenth from the time that is left (log 24). -/
theorem tenthsLeft_near (now expiry : Nat) :
    expiry - now < tenthsLeft now expiry * 100 + 100
      ∧ tenthsLeft now expiry * 100 < expiry - now + 100 := by
  unfold tenthsLeft
  dsimp only
  split
  · omega
  · split <;> omega

theorem left_of_tenths (now : Nat) (timer : Option Nat) :
    (timer = none → timer.map (tenthsLeft now) = none) ∧ ∀ e, timer = some e →
      ∃ k, timer.map (tenthsLeft now) = some k ∧ e - now < k * 100 + 100
        ∧ k * 100 < e - now + 100 := by
  constructor
  · rintro rfl
    rfl
  · rintro e rfl
    exact ⟨tenthsLeft now e, rfl, tenthsLeft_near now e⟩

theorem latchByte_eq (d : BarrierDyn) (stale : Bool)
    (h : stale = (d.feeder.map Prod.snd).getD false) :
    latchByte d = byte (d.inflowBroken.toNat + 2 * d.overflowBroken.toNat + 4 * d.gaugeLost.toNat
      + 8 * d.manual.toNat + 16 * stale.toNat) := by
  subst h
  simp only [latchByte, flag_eq_toNat]
  cases d.feeder <;> rfl

theorem linkByte_eq (r : Relay) :
    linkByte r
      = byte (r.upper.link.code + 4 * r.lower.link.code + 16 * r.lineLoss.lost.toNat) := by
  rw [linkByte, flag_eq_toNat]

theorem channelFlags_eq (ch : Channel) :
    channelFlags ch
      = ch.normalDone.toNat + 2 * ch.abnormalDone.toNat + 4 * ch.continued.toNat := by
  simp only [channelFlags, flag_eq_toNat]

theorem sightBits_eq (m : Measures) : sightBits m = m.sight.code + 4 * m.held.toNat := by
  rw [sightBits, flag_eq_toNat]

/-! ## The parts (R169, section 12.6) -/

theorem view_station_of_none {r : Relay} {i : Fin 48} (h : r.tables.stations.get i = none) :
    (∃ rest, rest.length ≤ 14 ∧ r.view (.station i 0) = encodeStation none ++ rest)
      ∧ ∃ rest, rest.length ≤ 26 ∧ r.view (.station i 1) = 0#8 :: rest := by
  refine ⟨⟨(Config.emptyStationRest 0).take 14, List.length_take_le _ _, ?_⟩,
    ⟨(Config.emptyStationRest 1).take 26, List.length_take_le _ _, ?_⟩⟩ <;>
  · simp only [Relay.view, Relay.stationView, h]

theorem view_station_of_some {r : Relay} {i : Fin 48} {c : StationConfig}
    (h : r.tables.stations.get i = some c) :
    r.view (.station i 0) = stationPart0 c (r.stations.get i)
      ∧ r.view (.station i 1) = stationPart1 (r.stations.get i) := by
  constructor <;> simp only [Relay.view, Relay.stationView, h]

/-- Settles O50. Each part is the concatenation the model builds, in the encodings of R195. -/
theorem readsAreAnswered : Obligations.ReadsAreAnswered := by
  refine ⟨fun r q origin tag hserves => ⟨fun _ _ _ h => exec_readRecord_of_ok q tag hserves h,
      fun _ _ _ h => exec_readRecord_of_error q tag hserves h,
      fun _ _ _ _ h => exec_readState_of_ok q tag hserves h,
      fun _ _ _ _ h => exec_readState_of_error q tag hserves h⟩,
    ?parts, rfl, rfl, rfl, rfl, rfl, rfl, rfl, rfl, rfl, rfl, rfl, rfl, rfl, rfl,
    ⟨rfl, fun i => indexed_val i _, fun i => indexed_val i _, fun i => indexed_val i _,
      fun i => indexed_val i _, fun i => indexed_val i _, fun i => indexed_val i _,
      fun table index => ⟨findSlot_of_table_ge index, findSlot_of_index_ge⟩⟩,
    fun i p => indexedPart_val i p _, fun b p => indexedPart_val b p _,
    fun c p => indexedPart_val c p _, fun i => indexedPart_val i (0 : Fin 1) _, rfl, rfl, rfl, rfl,
    fun p => ⟨indexedPart_val (0 : Fin 1) p _, indexedPart_val (0 : Fin 1) p _⟩,
    fun what index part => ⟨findView_of_what_ge index part, findView_of_index_ge⟩⟩
  case parts =>
    intro r bit opt two four time one left hbit hopt htwo hfour htime hone hleft
    have hbit' : bit = flagByte := hbit
    have htwo' : two = be2 := htwo
    have hfour' : four = be4 := hfour
    have hopt' : opt = optByte := by
      funext x
      rw [hopt]
      cases x <;> rfl
    have htime' : time = optTime := by
      funext x
      rw [htime, hfour]
      cases x <;> rfl
    have hone' : one = optPresent := by
      funext x
      rw [hone]
      cases x <;> rfl
    clear hbit htwo hfour hopt htime hone
    subst hbit' htwo' hfour' hopt' htime' hone'
    refine ⟨?station, ?barrier, ?channel, ?input, ?port, ?_, ?queue, ?test, ?_, ?_⟩
    case station =>
      rintro i d k rfl rfl
      refine ⟨view_station_of_none, fun c hc => ?_⟩
      obtain ⟨hzero, hone⟩ := view_station_of_some hc
      rw [hzero, hone]
      constructor
      · simp only [stationPart0, List.append_assoc, List.cons_append, List.nil_append]
      · rcases hlast : (r.stations.get i).lastReading with _ | ⟨v, grade⟩ <;>
          simp only [stationPart1, hlast, lastReadingBytes, List.append_assoc, List.cons_append,
            List.nil_append]
    case barrier =>
      rintro b d m stale value rfl rfl hstale hvalue
      have hstale' : stale = ((r.barriers.get b).feeder.map Prod.snd).getD false := by
        rw [hstale]
        cases (r.barriers.get b).feeder <;> rfl
      have hvalue' : value = evidenceBytes r.tables.identity.evidenceLife := by
        funext xs
        rw [hvalue]
        cases xs <;> rfl
      refine ⟨rfl, ?_, ?_⟩
      · simp only [Relay.view, Relay.barrierView, barrierPart1, latchByte_eq _ _ hstale', optLevel,
          Option.map_map, be3, List.append_assoc, List.cons_append, List.nil_append]
        rfl
      · simp only [Relay.view, Relay.barrierView, barrierPart2, hvalue', sightBits_eq, optIndex,
          anchorBytes, rateBytes, List.append_assoc, List.cons_append, List.nil_append]
        rcases (r.barriers.get b).measures.anchor with _ | a <;>
          rcases (r.barriers.get b).measures.rate with _ | v <;> rfl
    case channel =>
      rintro c ch rfl
      refine ⟨⟨(r.channels.get c).segmentEnd.map (tenthsLeft r.instant), (hleft _ _).mpr ?_, ?_⟩,
        r.boundFault c, ?_, ?_⟩
      · exact left_of_tenths r.instant _
      · simp only [Relay.view, Relay.channelView, channelPart0, optIndex, optTenths,
          List.append_assoc, List.cons_append, List.nil_append]
        rcases (r.channels.get c).owner with _ | ⟨_⟩ | _ <;> rfl
      · intro l hl
        simp only [Relay.boundFault, Relay.lineOf, hl]
      · simp only [Relay.view, Relay.channelView, channelFlags_eq,
          List.append_assoc, List.cons_append, List.nil_append]
        rcases (r.channels.get c).waiting with _ | w <;> rfl
    case input =>
      intro i
      refine ⟨(r.inputs.get i).timer.map (tenthsLeft r.instant), (hleft _ _).mpr ?_, ?_⟩
      · exact left_of_tenths r.instant _
      · simp only [Relay.view, Relay.inputView, optTenths,
          List.append_assoc, List.cons_append, List.nil_append]
        rcases r.pins.contacts.get i with _ | _ <;> rfl
    case port =>
      rintro p k rfl
      cases p with
      | upper =>
        simp only [Relay.view, LinkPort.name, Relay.portView, portBytes, Relay.port,
          List.append_assoc, List.cons_append, List.nil_append]
        rcases r.upper.polarity with _ | _ <;> rfl
      | lower =>
        simp only [Relay.view, LinkPort.name, Relay.portView, portBytes, Relay.port,
          List.append_assoc, List.cons_append, List.nil_append]
        rcases r.lower.polarity with _ | _ <;> rfl
    · rfl
    case queue =>
      rintro k rfl
      simp only [Relay.view, Relay.queueView]
    case test =>
      rintro g counts rfl hcounts
      have hcounts' : counts = countsBytes := hcounts
      subst hcounts'
      refine ⟨rfl, ?_⟩
      simp only [Relay.view, Relay.testView, Checker.snapshotBytes, Generator.bytes,
        List.append_assoc, List.cons_append, List.nil_append]
      rcases r.checker.snapshot with _ | ⟨u, l⟩ <;>
        rcases r.generator.params with _ | ⟨_ | _, count, length, gap, target⟩ <;> rfl
    · simp only [Relay.view, Relay.statusView, linkByte_eq, addrCode,
        List.append_assoc, List.cons_append, List.nil_append]
      rcases r.tables.identity.manager with _ | m <;> rfl
    · rfl

end Sys2Proof.Machine

/-! SUPPORT. WRITE-RECORD: its checks in their order (R166, R170, R171), and what an accepted write
replaces and starts (R59, R63, R79, R86, R112, R113, R162, R172). -/

namespace Sys2Proof.Machine

/-! ## The checks in their order (R166) -/

theorem refuseIf_true {α : Type} {c : Bool} (e : Result) (rest : Except Result α) (h : c = true) :
    refuseIf c e rest = .error e :=
  if_pos h

theorem refuseIf_false {α : Type} {c : Bool} (e : Result) (rest : Except Result α)
    (h : c = false) : refuseIf c e rest = rest :=
  if_neg (by rw [h]; exact Bool.false_ne_true)

theorem writeRecord_sized {table : Byte} (index : Byte) {bs : List Byte}
    (h : (recordLength table.toNat).getD 0 ≤ bs.length) :
    wellSized 2 (table :: index :: bs) = true := by
  refine (wellSized_iff _ _).mpr ⟨_, rfl, ?_⟩
  change 2 + (recordLength table.toNat).getD 0 ≤ bs.length + 2
  omega

section
variable {r : Relay} {q : List Instr} {origin : Addr} {tag table index : Byte} {bs : List Byte}

theorem exec_writeRecord_of_error {e : Result} (hserves : r.Serves origin)
    (hsized : (recordLength table.toNat).getD 0 ≤ bs.length)
    (h : r.checkArgs 2 (table :: index :: bs) = .error e) :
    exec (.writeRecord origin tag table index bs) ⟨r, q⟩
      = .next ⟨r.counted.reply ⟨origin, 2#8, tag⟩ e [], q⟩ :=
  exec_refused (exec_of_request rfl) hserves (writeRecord_sized index hsized) h (by decide)

theorem exec_writeRecord_of_ok {x : Record} (hserves : r.Serves origin)
    (hsized : (recordLength table.toNat).getD 0 ≤ bs.length)
    (h : r.checkArgs 2 (table :: index :: bs) = .ok (.writeRecord x)) :
    exec (.writeRecord origin tag table index bs) ⟨r, q⟩
      = .next ⟨(r.counted.writeRecord x).reply ⟨origin, 2#8, tag⟩ .done [], q⟩ :=
  exec_carryOut (exec_of_request rfl) (code := 2) (args := table :: index :: bs)
    (a := .writeRecord x) hserves (writeRecord_sized index hsized) h

theorem checkArgs_write_of_lost {e : Result} (h : findSlot table.toNat index.toNat = .error e) :
    r.checkArgs 2 (table :: index :: bs) = .error e := by
  change andThen (findSlot table.toNat index.toNat) _ = _
  rw [h]
  rfl

variable {slot : Slot}

theorem checkArgs_write_of_saving (h : findSlot table.toNat index.toNat = .ok slot)
    (hsaving : r.store.saving = true) :
    r.checkArgs 2 (table :: index :: bs) = .error .busy := by
  change andThen (findSlot table.toNat index.toNat) _ = _
  rw [h]
  exact refuseIf_true _ _ hsaving

theorem checkArgs_write_of_free (h : findSlot table.toNat index.toNat = .ok slot)
    (hfree : r.store.saving = false) :
    r.checkArgs 2 (table :: index :: bs) = r.checkWrite slot bs := by
  change andThen (findSlot table.toNat index.toNat) _ = _
  rw [h]
  exact refuseIf_false _ _ hfree

theorem checkWrite_of_undecoded (h : decodeRecord slot bs = none) :
    r.checkWrite slot bs = .error .badField := by
  simp only [Relay.checkWrite, h]

theorem checkWrite_of_decoded {x : Record} (h : decodeRecord slot bs = some x) :
    r.checkWrite slot bs = refuseIf (!r.fits x) .badField
      (refuseIf (r.addressTaken x) .duplicate
        (refuseIf (r.inUse x) .active (.ok (.writeRecord x)))) := by
  simp only [Relay.checkWrite, h]

end

/-! ## What a record must fit (R170, R171) -/

theorem lookup_address {r : Relay} {a : Addr} {i : Fin 48} {c : StationConfig}
    (h : r.lookup a = some (i, c)) : c.address = a := by
  unfold Relay.lookup at h
  obtain ⟨j, -, hj⟩ := List.exists_of_findSome?_eq_some h
  split at hj
  · split at hj
    · next haddress =>
      cases hj
      exact haddress
    · cases hj
  · cases hj

theorem lookup_of_get {r : Relay} {i : Fin 48} {c : StationConfig}
    (hdistinct : r.tables.AddressesDistinct) (h : r.tables.stations.get i = some c) :
    r.lookup c.address = some (i, c) := by
  have hsome : (r.lookup c.address).isSome := by
    rw [Relay.lookup, List.findSome?_isSome_iff]
    refine ⟨i, List.mem_finRange i, ?_⟩
    simp only [h, if_true, Option.isSome_some]
  obtain ⟨⟨j, e⟩, hj⟩ := Option.isSome_iff_exists.mp hsome
  have hsame : i = j := hdistinct i j c e h (lookup_get hj) (lookup_address hj).symm
  subst hsame
  rw [hj, ← Option.some.inj ((lookup_get hj).symm.trans h)]

theorem relayStation_iff {r : Relay} {a : Addr} (hdistinct : r.tables.AddressesDistinct) :
    r.relayStation a = true ↔ ∃ i s, r.tables.stations.get i = some s ∧ s.address = a
      ∧ s.role = .relay := by
  constructor
  · intro h
    cases hlookup : r.lookup a with
    | none => simp only [Relay.relayStation, hlookup, Bool.false_eq_true] at h
    | some x =>
      obtain ⟨i, s⟩ := x
      simp only [Relay.relayStation, hlookup, beq_iff_eq] at h
      exact ⟨i, s, lookup_get hlookup, lookup_address hlookup, h⟩
  · rintro ⟨i, s, hs, rfl, hrole⟩
    simp only [Relay.relayStation, lookup_of_get hdistinct hs, hrole, beq_self_eq_true]

section
variable (r : Relay)

theorem fits_identity_iff (d : Identity) :
    r.fits (.identity d) = true ↔ d.manager ≠ some r.store.own :=
  bne_iff_ne

theorem fits_barrier_iff (b : Fin 8) (c : BarrierConfig) (hdistinct : r.tables.AddressesDistinct) :
    r.fits (.barrier b c) = true ↔ ∀ a k, c.feeder = some (a, k) →
      ∃ i s, r.tables.stations.get i = some s ∧ s.address = a ∧ s.role = .relay := by
  cases hfeeder : c.feeder with
  | none =>
    simp only [Relay.fits, hfeeder, reduceCtorEq, false_implies, implies_true]
  | some x =>
    obtain ⟨a, k⟩ := x
    simp only [Relay.fits, hfeeder, relayStation_iff hdistinct, Option.some.injEq, Prod.mk.injEq]
    exact ⟨fun h _ _ hsame => hsame.1 ▸ h, fun h => h a k ⟨rfl, rfl⟩⟩

theorem fits_input_iff (i : Fin 8) (c : InputConfig) :
    r.fits (.input i c) = true ↔ c.function ≠ .resetKey
      ∨ (List.finRange 8).countP (fun j =>
          decide (j ≠ i ∧ (r.tables.inputs.get j).function = .resetKey)) < 2 := by
  have hcount : (r.keyInputs.filter (· != i)).length
      = (List.finRange 8).countP (fun j =>
          decide (j ≠ i ∧ (r.tables.inputs.get j).function = .resetKey)) := by
    rw [Relay.keyInputs, List.filter_filter, ← List.countP_eq_length_filter]
    refine List.countP_congr (fun j _ => ?_)
    rw [Bool.and_eq_true, bne_iff_ne, beq_iff_eq, decide_eq_true_iff]
  rw [Relay.fits, hcount, Bool.or_eq_true, bne_iff_ne, decide_eq_true_iff]

theorem fits_binding_iff (c : Fin 4) (b : Binding) :
    r.fits (.binding c b) = true ↔ ∀ l o, b.line = some l → o ≠ c →
      (r.tables.bindings.get o).line ≠ some l := by
  cases hline : b.line with
  | none => simp only [Relay.fits, hline, reduceCtorEq, false_implies, implies_true]
  | some l =>
    simp only [Relay.fits, hline, List.all_eq_true, List.mem_finRange, true_implies,
      Bool.or_eq_true, beq_iff_eq, bne_iff_ne, Option.some.injEq]
    constructor
    · rintro h _ o rfl ho
      exact (h o).resolve_left ho
    · intro h o
      exact or_iff_not_imp_left.mpr (h l o rfl)

theorem addressTaken_iff (x : Record) :
    r.addressTaken x = true ↔ ∃ i c, x = .station i (some c)
      ∧ (c.address = r.store.own ∨ ∃ j e, j ≠ i ∧ r.tables.stations.get j = some e
          ∧ e.address = c.address) := by
  constructor
  · intro h
    match x, h with
    | .station i (some c), h =>
      refine ⟨i, c, rfl, ?_⟩
      simp only [Relay.addressTaken, Bool.or_eq_true, beq_iff_eq, List.any_eq_true,
        List.mem_finRange, true_and, Bool.and_eq_true, bne_iff_ne, Option.map_eq_some_iff] at h
      exact h.imp_right (fun ⟨j, hj, e, he, ha⟩ => ⟨j, e, hj, he, ha⟩)
  · rintro ⟨i, c, rfl, h⟩
    simp only [Relay.addressTaken, Bool.or_eq_true, beq_iff_eq, List.any_eq_true,
      List.mem_finRange, true_and, Bool.and_eq_true, bne_iff_ne, Option.map_eq_some_iff]
    exact h.imp_right (fun ⟨j, e, hj, he, ha⟩ => ⟨j, hj, e, he, ha⟩)

theorem inUse_station_iff (i : Fin 48) (x : Option StationConfig) :
    r.inUse (.station i x) = true ↔ ∃ b, gaugeBarrier (r.tables.stations.get i) = some b
      ∧ gaugeBarrier x ≠ some b ∧ 2 ≤ (r.barriers.get b).level.rank := by
  cases hgauge : gaugeBarrier (r.tables.stations.get i) with
  | none =>
    simp only [Relay.inUse, hgauge, Bool.false_eq_true, reduceCtorEq, false_and, exists_false]
  | some b =>
    simp only [Relay.inUse, hgauge, Relay.atWarn, Bool.and_eq_true, decide_eq_true_iff,
      bne_iff_ne, Option.some.injEq, exists_eq_left', and_comm]

theorem inUse_barrier_iff (b : Fin 8) (c : BarrierConfig) :
    r.inUse (.barrier b c) = true ↔ (r.tables.barriers.get b).enabled = true
      ∧ c.enabled = false ∧ 2 ≤ (r.barriers.get b).level.rank := by
  simp only [Relay.inUse, Relay.atWarn, Bool.and_eq_true, Bool.not_eq_true', decide_eq_true_iff,
    and_assoc]

theorem inUse_cadence_iff (k : Fin 16) (x : Option Cadence) :
    r.inUse (.cadence k x) = true ↔ ∃ c, (r.channels.get c).cadence = some k := by
  simp only [Relay.inUse, List.any_eq_true, List.mem_finRange, true_and, beq_iff_eq]

theorem inUse_binding_iff (c : Fin 4) (b : Binding) :
    r.inUse (.binding c b) = true ↔ (r.channels.get c).state ≠ .idle :=
  bne_iff_ne

end

/-! ## Writing a station record (R59, R63, R79) -/

theorem startDeadline_eq (r : Relay) (c : StationConfig) :
    r.startDeadline c = if r.store.mode = .assessing ∧ c.interval ≠ 0
      then some (r.now + c.interval + r.tables.identity.grace * c.interval / 100) else none := by
  by_cases hmode : r.store.mode = .assessing
  · rw [Relay.startDeadline, if_pos hmode]
    by_cases hinterval : c.interval = 0
    · rw [deadlineFrom_of_unwatched _ _ hinterval, if_neg (fun h => h.2 hinterval)]
    · rw [deadlineFrom_of_watched _ _ hinterval, if_pos ⟨hmode, hinterval⟩]
  · rw [Relay.startDeadline, if_neg hmode, if_neg (fun h => hmode h.1)]

theorem writtenFields_of_kept {e c : StationConfig} (d : StationDyn)
    (haddress : e.address = c.address) (hrole : e.role.code = c.role.code) :
    writtenFields (some e) (some c) d
      = if e.role.calibration = c.role.calibration then d else d.emptyWindow :=
  if_pos ⟨haddress, beq_iff_eq.mpr hrole⟩

theorem writtenFields_of_replaced {old : Option StationConfig} {c : StationConfig} (d : StationDyn)
    (h : ∀ e, old = some e → e.address ≠ c.address ∨ e.role.code ≠ c.role.code) :
    writtenFields old (some c) d = StationDyn.start := by
  cases old with
  | none => rfl
  | some e =>
    refine if_neg (fun hsame => ?_)
    obtain ⟨haddress, hrole⟩ := hsame
    exact (h e rfl).elim (fun h => h haddress) (fun h => h (beq_iff_eq.mp hrole))

theorem writtenStation_of_some (r : Relay) (i : Fin 48) (c : StationConfig) :
    r.writtenStation i (some c)
      = (writtenFields (r.tables.stations.get i) (some c) (r.stations.get i)).started
          (r.startDeadline c) :=
  rfl

theorem writtenStation_of_none (r : Relay) (i : Fin 48) :
    r.writtenStation i none = StationDyn.start := by
  cases h : r.tables.stations.get i <;> simp only [Relay.writtenStation, h, writtenFields]

section
variable {r : Relay} (i : Fin 48) (new : Option StationConfig)

theorem writeStation_of_assessing (h : r.store.mode = .assessing) :
    r.writeStation i new
      = (writeBarriers (r.tables.stations.get i) new (r.stations.get i).sighting).foldl
          (fun t b => t.remeasure b none)
          ((r.setTables { r.tables with stations := r.tables.stations.set i new }).setStation i
            (r.writtenStation i new)) :=
  if_pos h

theorem writeStation_of_resting (h : r.store.mode ≠ .assessing) :
    r.writeStation i new
      = (r.setTables { r.tables with stations := r.tables.stations.set i new }).setStation i
          (r.writtenStation i new) :=
  if_neg h

end

theorem writeBarriers_of_moved {old new : Option StationConfig} (sighting : Bool) {a b : Fin 8}
    (hold : gaugeBarrier old = some a) (hnew : gaugeBarrier new = some b) (h : a ≠ b) :
    writeBarriers old new sighting = [a, b] := by
  simp only [writeBarriers, hold, hnew, if_neg h]

theorem writeBarriers_of_same {e c : StationConfig} (sighting : Bool) {a : Fin 8}
    (hold : gaugeBarrier (some e) = some a) (hnew : gaugeBarrier (some c) = some a) :
    writeBarriers (some e) (some c) sighting
      = if sighting = true ∨ e.address ≠ c.address ∨ e.role.calibration ≠ c.role.calibration
          then [a] else [] := by
  simp only [writeBarriers, hold, hnew, if_true, Option.map_some, ne_eq, Option.some.injEq]

/-! ## Writing a barrier record (R107, R112, R113) -/

theorem written_of_kept (d : BarrierDyn) (old new : BarrierConfig) :
    d.written old new false = { d with
      feeder := if old.feeder = new.feeder then d.feeder else none
      gaugeLost := if new.gaugeLoss = true then d.gaugeLost else false } := by
  unfold BarrierDyn.written
  by_cases hfeeder : old.feeder = new.feeder <;> by_cases hloss : new.gaugeLoss = true <;>
    simp only [hfeeder, hloss, if_true, if_false, Bool.false_eq_true]

theorem written_of_disabled (d : BarrierDyn) (old new : BarrierConfig) :
    d.written old new true = (d.written old new false).disabled :=
  rfl

theorem writeBarrier_of_kept {r : Relay} {b : Fin 8} {new : BarrierConfig}
    (h : (r.tables.barriers.get b).enabled = false ∨ new.enabled = true
      ∨ r.store.mode ≠ .assessing) :
    r.writeBarrier b new
      = ((r.setTables { r.tables with barriers := r.tables.barriers.set b new }).setBarrier b
          ((r.barriers.get b).written (r.tables.barriers.get b) new false)).evaluate b := by
  have hoff : ((r.tables.barriers.get b).enabled && !new.enabled && r.store.mode == .assessing)
      = false := by
    rcases h with h | h | h
    · rw [h]
      rfl
    · rw [h, Bool.not_true, Bool.and_false]
      rfl
    · rw [beq_false_of_ne h, Bool.and_false]
  unfold Relay.writeBarrier
  dsimp only
  rw [hoff]
  rfl

theorem writeBarrier_of_disabled {r : Relay} {b : Fin 8} {new : BarrierConfig}
    (hold : (r.tables.barriers.get b).enabled = true) (hnew : new.enabled = false)
    (hmode : r.store.mode = .assessing) :
    r.writeBarrier b new
      = (((r.setTables { r.tables with barriers := r.tables.barriers.set b new }).setBarrier b
          ((r.barriers.get b).written (r.tables.barriers.get b) new true)).announceDisabled b
            (r.barriers.get b).level).evaluate b := by
  have hoff : ((r.tables.barriers.get b).enabled && !new.enabled && r.store.mode == .assessing)
      = true := by
    rw [hold, hnew, hmode]
    rfl
  unfold Relay.writeBarrier
  dsimp only
  rw [hoff]
  rfl

theorem announceDisabled_of_watch (r : Relay) (b : Fin 8) :
    r.announceDisabled b .watch = (r.disableNotice b).toldOfChange b :=
  rfl

theorem announceDisabled_of_ne (r : Relay) (b : Fin 8) {old : Level} (h : old ≠ .watch) :
    r.announceDisabled b old = r.disableNotice b := by
  rw [Relay.announceDisabled, beq_false_of_ne h]
  rfl

/-! ## Writing an input record (R162) -/

theorem setInput_setInput (r : Relay) (i : Fin 8) (x y : InputDyn) :
    (r.setInput i x).setInput i y = r.setInput i y := by
  simp only [Relay.setInput, Relay.setInputs_inputs, Bank.set_set]
  rfl

/-- The state an input is started in, by its level (R162). -/
theorem startInput_eq (r : Relay) (i : Fin 8) :
    r.startInput i = r.setInput i
      (if (r.tables.inputs.get i).function ≠ .unused
          ∧ r.pins.contacts.get i ≠ (r.tables.inputs.get i).expected then
        { r.inputs.get i with
          state := .deviating
          timer := some (r.clock.ms + (r.tables.inputs.get i).debounce * 100) }
      else { r.inputs.get i with state := .normal, timer := none }) := by
  let fresh : InputDyn := { r.inputs.get i with state := .normal, timer := none }
  have hget : (r.setInput i fresh).inputs.get i = fresh := Bank.get_set_self _ _ _
  by_cases hused : (r.tables.inputs.get i).function = .unused
  · rw [if_neg (fun h => h.1 hused), Relay.startInput, hused]
    rfl
  · have hstart : r.startInput i = (r.setInput i fresh).inputMoves i :=
      if_pos (bne_iff_ne.mpr hused)
    by_cases hlevel : r.pins.contacts.get i = (r.tables.inputs.get i).expected
    · have hkept : (r.setInput i fresh).deviates i = false := bne_eq_false_iff_eq.mpr hlevel
      rw [if_neg (fun h => h.2 hlevel), hstart]
      simp only [Relay.inputMoves, hget, hkept, fresh]
    · have hdeviates : (r.setInput i fresh).deviates i = true := bne_iff_ne.mpr hlevel
      rw [if_pos ⟨hused, hlevel⟩, hstart,
        inputMoves_of_deviation (congrArg InputDyn.state hget) hdeviates, hget, setInput_setInput]
      rfl

theorem writeInput_of_same {r : Relay} {i : Fin 8} {new : InputConfig}
    (hfunction : (r.tables.inputs.get i).function = new.function)
    (hexpected : (r.tables.inputs.get i).expected = new.expected) :
    r.writeInput i new
      = r.setTables { r.tables with inputs := r.tables.inputs.set i new } := by
  unfold Relay.writeInput
  dsimp only
  rw [hfunction, hexpected, bne_self_eq_false, bne_self_eq_false]
  rfl

theorem writeInput_of_changed {r : Relay} {i : Fin 8} {new : InputConfig}
    (h : (r.tables.inputs.get i).function ≠ new.function
      ∨ (r.tables.inputs.get i).expected ≠ new.expected) :
    r.writeInput i new
      = (r.setTables { r.tables with inputs := r.tables.inputs.set i new }).restartInput i
          (r.tables.inputs.get i) new :=
  if_pos (by rw [Bool.or_eq_true, bne_iff_ne, bne_iff_ne]; exact h)

theorem restartInput_of_key {r : Relay} {i : Fin 8} {old new : InputConfig}
    (h : old.function = .resetKey ∨ new.function = .resetKey) :
    r.restartInput i old new
      = ((r.startInput i).setKey { state := .disarmed, timer := none }).settleKey := by
  have hkey : (old.function == .resetKey || new.function == .resetKey) = true := by
    rw [Bool.or_eq_true, beq_iff_eq, beq_iff_eq]
    exact h
  unfold Relay.restartInput
  dsimp only
  rw [hkey]
  rfl

theorem restartInput_of_no_key {r : Relay} {i : Fin 8} {old new : InputConfig}
    (h : ¬ (old.function = .resetKey ∨ new.function = .resetKey)) :
    r.restartInput i old new = (r.startInput i).settleKey := by
  have hkey : (old.function == .resetKey || new.function == .resetKey) = false := by
    rw [← Bool.not_eq_true, Bool.or_eq_true, beq_iff_eq, beq_iff_eq]
    exact h
  unfold Relay.restartInput
  dsimp only
  rw [hkey]
  rfl

/-! ## Writing the identity record (R86) -/

theorem writeIdentity_of_same {r : Relay} {d : Identity}
    (h : r.tables.identity.evidenceLife = d.evidenceLife) :
    r.writeIdentity d = r.setTables { r.tables with identity := d } := by
  unfold Relay.writeIdentity
  dsimp only
  rw [h, bne_self_eq_false]
  rfl

theorem writeIdentity_of_changed {r : Relay} {d : Identity}
    (h : r.tables.identity.evidenceLife ≠ d.evidenceLife) :
    r.writeIdentity d
      = (r.setTables { r.tables with identity := d }).changeLife d.evidenceLife :=
  if_pos (bne_iff_ne.mpr h)

theorem when_peak (t : Relay) (xs ys : List Contribution) (b : Fin 8) :
    t.when (peak xs != peak ys) (fun r => r.evaluate b)
      = if peak xs = peak ys then t else t.evaluate b := by
  by_cases h : peak xs = peak ys
  · rw [if_pos h, h, bne_self_eq_false]
    rfl
  · rw [if_neg h]
    exact if_pos (bne_iff_ne.mpr h)

theorem trimEvidence_get (r : Relay) (life : Nat) (b : Fin 8) :
    (r.trimEvidence life).barriers.get b = { r.barriers.get b with
      measures :=
        { (r.barriers.get b).measures with
          shake := stillCounting life r.now (r.barriers.get b).measures.shake
          rain := stillCounting life r.now (r.barriers.get b).measures.rain } } :=
  Bank.get_map _ _ _

theorem changeLife_eq (r : Relay) (life : Nat) :
    r.changeLife life = (List.finRange 8).foldl
      (fun t b =>
        let shaken :=
          if peak (stillCounting life r.now (r.barriers.get b).measures.shake)
              = peak (r.barriers.get b).measures.shake then t
          else t.evaluate b
        if peak (stillCounting life r.now (r.barriers.get b).measures.rain)
            = peak (r.barriers.get b).measures.rain then shaken
        else shaken.evaluate b) (r.trimEvidence life) := by
  unfold Relay.changeLife
  simp only [when_peak, trimEvidence_get]

/-! ## What a write leaves alone (R172) -/

theorem writeStation_rest (r : Relay) (i : Fin 48) (new : Option StationConfig) :
    (r.writeStation i new).tables
        = { r.tables with stations := r.tables.stations.set i new }
      ∧ (r.writeStation i new).memory = r.memory := by
  by_cases h : r.store.mode = .assessing
  · rw [writeStation_of_assessing i new h]
    have hrest := SameButHandOver.foldl (f := fun t b => Relay.remeasure t b none)
      (fun t b => remeasure_handOver t b none)
      (writeBarriers (r.tables.stations.get i) new (r.stations.get i).sighting)
      ((r.setTables { r.tables with stations := r.tables.stations.set i new }).setStation i
        (r.writtenStation i new))
    exact ⟨hrest.tables, hrest.memory⟩
  · rw [writeStation_of_resting i new h]
    exact ⟨rfl, rfl⟩

theorem disableNotice_handOver (r : Relay) (b : Fin 8) : SameButHandOver r (r.disableNotice b) :=
  ⟨rfl, rfl, rfl, rfl, rfl, rfl, rfl, rfl, rfl, rfl, rfl, ⟨rfl, rfl⟩, rfl, rfl, rfl, rfl⟩

theorem announceDisabled_handOver (r : Relay) (b : Fin 8) (old : Level) :
    SameButHandOver r (r.announceDisabled b old) :=
  (disableNotice_handOver r b).trans (.whenIf (toldOfChange_handOver _ b))

theorem writeBarrier_rest (r : Relay) (b : Fin 8) (new : BarrierConfig) :
    (r.writeBarrier b new).tables
        = { r.tables with barriers := r.tables.barriers.set b new }
      ∧ (r.writeBarrier b new).memory = r.memory := by
  unfold Relay.writeBarrier
  have hrest := fun written : Relay =>
    (SameButHandOver.whenIf (r := written)
      (c := (r.tables.barriers.get b).enabled && !new.enabled && r.store.mode == .assessing)
      (f := fun t => t.announceDisabled b (r.barriers.get b).level)
      (announceDisabled_handOver written b (r.barriers.get b).level)).trans
      (evaluate_handOver _ b)
  exact ⟨(hrest _).tables, (hrest _).memory⟩

theorem settleKey_eq_setKey (r : Relay) : ∃ k, r.settleKey = r.setKey k := by
  unfold Relay.settleKey
  split <;> split
  all_goals exact ⟨_, rfl⟩

theorem writeInput_rest (r : Relay) (i : Fin 8) (new : InputConfig) :
    (r.writeInput i new).tables = { r.tables with inputs := r.tables.inputs.set i new }
      ∧ (r.writeInput i new).memory = r.memory := by
  by_cases hsame : (r.tables.inputs.get i).function = new.function
      ∧ (r.tables.inputs.get i).expected = new.expected
  · rw [writeInput_of_same hsame.1 hsame.2]
    exact ⟨rfl, rfl⟩
  · rw [writeInput_of_changed (by rwa [ne_eq, ne_eq, ← not_and_or])]
    by_cases hkey : (r.tables.inputs.get i).function = .resetKey ∨ new.function = .resetKey
    · rw [restartInput_of_key hkey, startInput_eq]
      obtain ⟨k, hk⟩ := settleKey_eq_setKey _
      rw [hk]
      exact ⟨rfl, rfl⟩
    · rw [restartInput_of_no_key hkey, startInput_eq]
      obtain ⟨k, hk⟩ := settleKey_eq_setKey _
      rw [hk]
      exact ⟨rfl, rfl⟩

theorem changeLife_handOver (r : Relay) (life : Nat) : SameButHandOver r (r.changeLife life) := by
  have htrim : SameButHandOver r (r.trimEvidence life) :=
    ⟨rfl, rfl, rfl, rfl, rfl, rfl, rfl, rfl, rfl, rfl, rfl, ⟨rfl, rfl⟩, rfl, rfl, rfl, rfl⟩
  exact htrim.trans (SameButHandOver.foldl
    (fun t b => (SameButHandOver.whenIf (evaluate_handOver t b)).trans
      (SameButHandOver.whenIf (evaluate_handOver _ b))) _ _)

theorem writeIdentity_rest (r : Relay) (d : Identity) :
    (r.writeIdentity d).tables = { r.tables with identity := d }
      ∧ (r.writeIdentity d).memory = r.memory := by
  by_cases h : r.tables.identity.evidenceLife = d.evidenceLife
  · rw [writeIdentity_of_same h]
    exact ⟨rfl, rfl⟩
  · rw [writeIdentity_of_changed h]
    have hrest := changeLife_handOver (r.setTables { r.tables with identity := d }) d.evidenceLife
    exact ⟨hrest.tables, hrest.memory⟩

theorem writeRecord_memory (r : Relay) (x : Record) : (r.writeRecord x).memory = r.memory := by
  cases x with
  | identity d => exact (writeIdentity_rest r d).2
  | station i c => exact (writeStation_rest r i c).2
  | barrier b c => exact (writeBarrier_rest r b c).2
  | input i c => exact (writeInput_rest r i c).2
  | cadence k c => rfl
  | dispatch k e => rfl
  | binding c b => rfl

/-- Settles O51. The checks are those of `Relay.checkWrite`, one refusal at a time; what each write
starts is said by the lemmas above, and a write reaches no table but its own and no memory. -/
theorem writesAreCheckedThenCarriedOut : Obligations.WritesAreCheckedThenCarriedOut := by
  refine ⟨⟨?places, ?checks, ?station, ?barriers, ?barrier, ?input, fun r =>
      ⟨fun d => (writeIdentity_rest r d).1, fun i c => (writeStation_rest r i c).1,
        fun b c => (writeBarrier_rest r b c).1, fun _ _ => rfl, fun _ _ => rfl,
        fun i c => (writeInput_rest r i c).1, fun _ _ => rfl, writeRecord_memory r⟩⟩,
    fun _ _ _ => decodeRecord_ok, fun r => ⟨fits_identity_iff r, fun _ _ => rfl, fun _ _ => rfl,
      fun _ _ => rfl, fun b c hok => fits_barrier_iff r b c hok.2.1, fits_input_iff r,
      fits_binding_iff r, addressTaken_iff r⟩,
    gaugeBarrier_eq_some_iff, fun r => ⟨fun _ => rfl, fun _ _ => rfl, fun _ _ => rfl,
      inUse_station_iff r, inUse_barrier_iff r, inUse_cadence_iff r, inUse_binding_iff r⟩,
    ?identity⟩
  case places =>
    intro r q origin tag table index bs hserves
    refine ⟨fun htable => ?_, fun n hn hlong hindex => ?_⟩
    · refine exec_writeRecord_of_error hserves ?_
        (checkArgs_write_of_lost (findSlot_of_table_ge _ htable))
      obtain ⟨k, hk⟩ := Nat.exists_eq_add_of_le' htable
      rw [hk]
      exact Nat.zero_le _
    · refine exec_writeRecord_of_error hserves (by rw [hn]; exact hlong)
        (checkArgs_write_of_lost (findSlot_of_index_ge ?_ hindex))
      by_contra hge
      obtain ⟨k, hk⟩ := Nat.exists_eq_add_of_le' (not_lt.mp hge)
      rw [hk] at hn
      cases hn
  case checks =>
    intro r q origin tag table index bs slot n hserves hslot hn hlong
    have hsized : (recordLength table.toNat).getD 0 ≤ bs.length := by
      rw [hn]
      exact hlong
    refine ⟨fun hsaving => ?_, fun hfree hbad => ?_, fun x hfree hx => ?_⟩
    · exact exec_writeRecord_of_error hserves hsized (checkArgs_write_of_saving hslot hsaving)
    · exact exec_writeRecord_of_error hserves hsized
        ((checkArgs_write_of_free hslot hfree).trans (checkWrite_of_undecoded hbad))
    · have hcheck := (checkArgs_write_of_free (r := r) hslot hfree).trans (checkWrite_of_decoded hx)
      refine ⟨fun hfits => ?_, fun hfits htaken => ?_, fun hfits htaken huse => ?_,
        fun hfits htaken huse => ?_⟩
      · refine exec_writeRecord_of_error hserves hsized (hcheck.trans ?_)
        rw [hfits]
        rfl
      · refine exec_writeRecord_of_error hserves hsized (hcheck.trans ?_)
        rw [hfits, htaken]
        rfl
      · refine exec_writeRecord_of_error hserves hsized (hcheck.trans ?_)
        rw [hfits, htaken, huse]
        rfl
      · refine exec_writeRecord_of_ok hserves hsized (hcheck.trans ?_)
        rw [hfits, htaken, huse]
        rfl
  case station =>
    intro r i new d x old deadline hold hd hdeadline hnone hsome started hstarted
    have hx : r.writtenStation i new = x := by
      cases new with
      | none => rw [writtenStation_of_none, hnone rfl]
      | some c =>
        obtain ⟨hkept, hreplaced⟩ := hsome c rfl
        have hstart : r.startDeadline c = deadline c := by
          rw [startDeadline_eq, hdeadline]
        rw [writtenStation_of_some, hstart, ← hold, ← hd]
        by_cases hsame : ∃ e, old = some e ∧ e.address = c.address ∧ e.role.code = c.role.code
        · obtain ⟨e, he, haddress, hrole⟩ := hsame
          obtain ⟨hcalibrated, hmoved⟩ := hkept e he haddress hrole
          rw [he, writtenFields_of_kept d haddress hrole]
          by_cases hcalibration : e.role.calibration = c.role.calibration
          · rw [if_pos hcalibration, hcalibrated hcalibration]
            rfl
          · rw [if_neg hcalibration, hmoved hcalibration]
            rfl
        · have hother : ∀ e, old = some e → e.address ≠ c.address ∨ e.role.code ≠ c.role.code := by
            intro e he
            rw [ne_eq, ne_eq, ← not_and_or]
            exact fun h => hsame ⟨e, he, h⟩
          rw [writtenFields_of_replaced d hother, hreplaced hother]
          rfl
    subst hx hold hd hstarted
    exact ⟨writeStation_of_resting i new, writeStation_of_assessing i new⟩
  case barriers =>
    intro old new sighting
    refine ⟨fun hold hnew => ?_, fun a hold hnew => ?_, fun a hold hnew => ?_,
      fun a b hold hnew => writeBarriers_of_moved sighting hold hnew,
      fun a e c he hc hold hnew => ?_⟩
    · simp only [writeBarriers, hold, hnew]
    · simp only [writeBarriers, hold, hnew]
    · simp only [writeBarriers, hold, hnew]
    · subst he hc
      rw [writeBarriers_of_same sighting hold hnew]
      exact ⟨fun h => if_pos h, fun hs ha hk => if_neg (by simp only [hs, ha, hk, ne_eq,
        not_true_eq_false, or_self, Bool.false_eq_true, not_false_eq_true])⟩
  case barrier =>
    intro r b new old d kept written off hold hd hkept hwritten hoff
    have hplain : d.written old new false = kept := by
      rw [written_of_kept, hkept]
    refine ⟨fun h => ?_, fun henabled hdisabled hmode => ?_⟩
    · refine (writeBarrier_of_kept (hold ▸ h)).trans ?_
      rw [← hold, ← hd, hplain, ← hwritten]
    · have hwrite : r.writeRecord (.barrier b new)
          = ((written.setBarrier b kept.disabled).announceDisabled b d.level).evaluate b := by
        refine (writeBarrier_of_disabled (hold ▸ henabled) hdisabled hmode).trans ?_
        rw [← hold, ← hd, written_of_disabled, hplain, ← hwritten]
      refine ⟨fun hwatch => ?_, fun hother => ?_⟩
      · rw [hwrite, hwatch, announceDisabled_of_watch, hoff]
        rfl
      · rw [hwrite, announceDisabled_of_ne _ b hother, hoff]
        rfl
  case input =>
    intro r i new old written started keyed hold hwritten hstarted hkeyed
    subst hold
    refine ⟨fun hfunction hexpected => ?_, fun hchanged => ?_⟩
    · rw [hwritten]
      exact writeInput_of_same hfunction hexpected
    · have hstart : written.startInput i = started := by
        have hconfig : written.tables.inputs.get i = new := by
          rw [hwritten]
          exact Bank.get_set_self _ _ _
        rw [startInput_eq, hconfig, hstarted, hwritten]
        rfl
      refine (writeInput_of_changed hchanged).trans ?_
      rw [← hwritten, hkeyed, ← hstart]
      by_cases hkey : (r.tables.inputs.get i).function = .resetKey ∨ new.function = .resetKey
      · rw [if_pos hkey, restartInput_of_key hkey]
      · rw [if_neg hkey, restartInput_of_no_key hkey]
  case identity =>
    intro r d keep value trimmed hkeep hvalue htrimmed
    refine ⟨writeIdentity_of_same, fun hchanged => ?_⟩
    have htrim : (r.setTables { r.tables with identity := d }).trimEvidence d.evidenceLife
        = trimmed := by
      rw [htrimmed, hkeep]
      refine congrArg (Relay.setBarriers _) (Bank.ext_get (fun b => ?_))
      rw [Bank.get_map, Bank.get_ofFn]
      rfl
    refine (writeIdentity_of_changed hchanged).trans ?_
    rw [changeLife_eq, htrim, hkeep, hvalue]
    rfl

end Sys2Proof.Machine

/-! SUPPORT. CLEAR, STAND-DOWN, REARM-WIRE and RESTART (R104, R109, R173, R175, R179). -/

namespace Sys2Proof.Machine

/-! ## CLEAR (R173) -/

/-- Settles O52. Each CLEAR passes its checks, and its effect is the update the model names. -/
theorem clearsZeroTheirCounters : Obligations.ClearsZeroTheirCounters := by
  intro r q origin tag hserves
  refine ⟨?_, ?_, ?_⟩
  · exact exec_carryOut (exec_of_request rfl) (code := 4) (args := [0#8]) (a := .clear .port)
      hserves rfl rfl
  · exact exec_carryOut (exec_of_request rfl) (code := 4) (args := [1#8]) (a := .clear .drop)
      hserves rfl rfl
  · have hstations : r.counted.clearStationCounters = r.counted.setStations (Bank.ofFn (fun i =>
        { r.stations.get i with counters := StationCounters.zero })) := by
      refine congrArg (Relay.setStations _) (Bank.ext_get (fun i => ?_))
      rw [Bank.get_map, Bank.get_ofFn]
      rfl
    refine (exec_carryOut (exec_of_request rfl) (code := 4) (args := [2#8]) (a := .clear .station)
      hserves rfl rfl).trans ?_
    exact congrArg (fun t => Host.Outcome.next
      (State.mk (t.reply ⟨origin, byte 4, tag⟩ .done []) q)) hstations

/-! ## STAND-DOWN (R109, R175) -/

theorem standDown_of_unlatched {r : Relay} {b : Fin 8} (h : (r.barriers.get b).level ≠ .evacuate) :
    r.standDown b = (r, .notLatched) :=
  if_pos h

theorem standDown_of_demanded {r : Relay} {b : Fin 8} (h : (r.barriers.get b).level = .evacuate)
    (hdemand : ({ r.barriers.get b with manual := r.manualHeld b } : BarrierDyn).demanded
      (r.tables.barriers.get b) r.lineLoss.lost = .evacuate) :
    r.standDown b = (r, .stillDemanded) :=
  (if_neg (not_not_intro h)).trans (if_pos hdemand)

theorem standDown_of_accepted {r : Relay} {b : Fin 8} (h : (r.barriers.get b).level = .evacuate)
    (hdemand : ({ r.barriers.get b with manual := r.manualHeld b } : BarrierDyn).demanded
      (r.tables.barriers.get b) r.lineLoss.lost ≠ .evacuate) :
    r.standDown b = (r.acceptStandDown b, .accepted) :=
  (if_neg (not_not_intro h)).trans (if_neg hdemand)

theorem exec_standDown {r : Relay} {origin : Addr} (q : List Instr) (tag : Byte) (b : Fin 8)
    (hserves : r.Serves origin) :
    exec (.standDown origin tag (byte b.val)) ⟨r, q⟩
      = .next ⟨r.counted.carryStandDown ⟨origin, 7#8, tag⟩ b, q⟩ := by
  refine exec_carryOut (exec_of_request rfl) (code := 7) (args := [byte b.val]) (a := .standDown b)
    hserves rfl ?_
  change indexed 8 (byte b.val).toNat _ = _
  rw [byte_val_toNat (by decide)]
  exact indexed_val b _

theorem carryStandDown_eq {r t : Relay} {b : Fin 8} {answer : StandDownAnswer} (q : Sender)
    (h : r.standDown b = (t, answer)) :
    r.carryStandDown q b = t.reply q answer.result
      (byte (t.barriers.get b).level.rank :: byte (t.barriers.get b).causes.length
        :: (t.barriers.get b).causes.map (fun c => byte c.code)) := by
  simp only [Relay.carryStandDown, h]

/-- Settles O54: the three answers of `Relay.standDown`, each with the reply it gives. -/
theorem standDownIsDecidedByTheDemand : Obligations.StandDownIsDecidedByTheDemand := by
  intro r q origin tag hserves
  refine ⟨fun b d answer hd hanswer => ?_, fun x hx => ?_⟩
  · subst hd hanswer
    have hexec := exec_standDown q tag b hserves
    refine ⟨fun hlevel => ?_, fun hlevel hdemand => ?_, fun t hlevel hdemand ht => ⟨?_, ?_⟩⟩
    · rw [hexec, carryStandDown_eq _ (standDown_of_unlatched (r := r.counted) hlevel)]
      rfl
    · rw [hexec, carryStandDown_eq _ (standDown_of_demanded (r := r.counted) hlevel hdemand)]
      rfl
    · have haccept : r.counted.acceptStandDown b = t := by
        rw [ht, ← hlevel]
        rfl
      rw [hexec, carryStandDown_eq _ (standDown_of_accepted (r := r.counted) hlevel hdemand),
        haccept]
      rfl
    · rw [ht]
      exact ((setBarrier_handOver _ b _).trans (setBarrier_handOver _ b _)).trans
        (handOver_handOver _ b _)
  · exact exec_refused (exec_of_request rfl) (code := 7) (args := [x]) hserves rfl
      (indexed_of_ge _ hx) (by decide)

/-! ## REARM-WIRE (R104, R175) -/

theorem rearmWire_of_held {r : Relay} {b : Fin 8} {p : WirePosition}
    (h : r.inputTripped (p.input b) = true) : r.rearmWire b p = (r, false) :=
  if_pos h

theorem rearmWire_of_assessed {r : Relay} {b : Fin 8} {p : WirePosition}
    (h : r.inputTripped (p.input b) = false) (hassessed : r.assessed b = true) :
    r.rearmWire b p
      = ((r.setBarrier b ((r.barriers.get b).setWire p false)).evaluate b, true) :=
  (if_neg (by rw [h]; exact Bool.false_ne_true)).trans (if_pos hassessed)

theorem rearmWire_of_not_assessed {r : Relay} {b : Fin 8} {p : WirePosition}
    (h : r.inputTripped (p.input b) = false) (hassessed : r.assessed b = false) :
    r.rearmWire b p = (r, true) :=
  (if_neg (by rw [h]; exact Bool.false_ne_true)).trans
    (if_neg (by rw [hassessed]; exact Bool.false_ne_true))

theorem checkRearm_of_known (b : Fin 8) (p : WirePosition) :
    checkRearm b.val p.code = .ok (.rearmWire b p) := by
  cases p <;> simp only [checkRearm, finOf_val, WirePosition.code, WirePosition.ofCode]

theorem checkRearm_of_index_ge {x : Nat} (y : Nat) (h : 8 ≤ x) :
    checkRearm x y = .error .badIndex := by
  simp only [checkRearm, finOf_of_ge h]

theorem checkRearm_of_position_ge {x y : Nat} (hx : x < 8) (hy : 2 ≤ y) :
    checkRearm x y = .error .badField := by
  obtain ⟨k, rfl⟩ := Nat.exists_eq_add_of_le' hy
  have hfound : finOf 8 x = some ⟨x, hx⟩ := dif_pos hx
  simp only [checkRearm, hfound, WirePosition.ofCode]

theorem exec_rearmWire {r : Relay} {origin : Addr} (q : List Instr) (tag : Byte) (b : Fin 8)
    (p : WirePosition) (hserves : r.Serves origin) :
    exec (.rearmWire origin tag (byte b.val) (byte p.code)) ⟨r, q⟩
      = .next ⟨r.counted.carryRearm ⟨origin, 8#8, tag⟩ b p, q⟩ := by
  refine exec_carryOut (exec_of_request rfl) (code := 8) (args := [byte b.val, byte p.code])
    (a := .rearmWire b p) hserves rfl ?_
  change checkRearm (byte b.val).toNat (byte p.code).toNat = _
  have hcode : (byte p.code).toNat = p.code := by
    cases p <;> rfl
  rw [byte_val_toNat (by decide), hcode]
  exact checkRearm_of_known b p

theorem carryRearm_eq {r t : Relay} {b : Fin 8} {p : WirePosition} {accepted : Bool} (q : Sender)
    (h : r.rearmWire b p = (t, accepted)) :
    r.carryRearm q b p = t.reply q (if accepted then .done else .stillBroken)
      [flagByte (t.barriers.get b).inflowBroken, flagByte (t.barriers.get b).overflowBroken,
        byte (t.barriers.get b).level.rank] := by
  simp only [Relay.carryRearm, h]

/-- Settles O55: the three outcomes of `Relay.rearmWire`, and the two argument checks. -/
theorem rearmWireReleasesTheLatch : Obligations.RearmWireReleasesTheLatch := by
  intro r q origin tag hserves
  refine ⟨fun b p answer hanswer => ?_, fun x y hx => ?_, fun x y hx hy => ?_⟩
  · subst hanswer
    have hexec := exec_rearmWire q tag b p hserves
    refine ⟨fun hheld => ?_, fun t hfree hassessed ht => ?_, fun hfree hassessed => ?_⟩
    · rw [hexec, carryRearm_eq _ (rearmWire_of_held (r := r.counted) hheld)]
      rfl
    · have hreleased :
          (r.counted.setBarrier b ((r.counted.barriers.get b).setWire p false)).evaluate b = t := by
        rw [ht]
        cases p <;> rfl
      rw [hexec, carryRearm_eq _ (rearmWire_of_assessed (r := r.counted) hfree hassessed),
        hreleased]
      rfl
    · rw [hexec, carryRearm_eq _ (rearmWire_of_not_assessed (r := r.counted) hfree hassessed)]
      rfl
  · exact exec_refused (exec_of_request rfl) (code := 8) (args := [x, y]) hserves rfl
      (checkRearm_of_index_ge _ hx) (by decide)
  · exact exec_refused (exec_of_request rfl) (code := 8) (args := [x, y]) hserves rfl
      (checkRearm_of_position_ge hx hy) (by decide)

/-! ## RESTART (R179) -/

section
variable {r : Relay} {q : Sender}

theorem carryRestart_of_down (h : r.lower.link ≠ .up) : r.carryRestart q = r.restart :=
  if_neg h

theorem carryRestart_of_admitted {offered : Relay × Bool} (h : r.lower.link = .up)
    (hoffer : (r.setAgent { r.agent with restartPending := true }).offerOwn .urgent
      (r.replyFrame q .done [] true) .restartReply = offered) (hadmitted : offered.2 = true) :
    r.carryRestart q = offered.1 := by
  subst hoffer
  exact (if_pos h).trans (if_pos hadmitted)

theorem carryRestart_of_refused {offered : Relay × Bool} (h : r.lower.link = .up)
    (hoffer : (r.setAgent { r.agent with restartPending := true }).offerOwn .urgent
      (r.replyFrame q .done [] true) .restartReply = offered) (hrefused : offered.2 = false) :
    r.carryRestart q = offered.1.restart := by
  subst hoffer
  exact (if_pos h).trans (if_neg (by rw [← Bool.not_eq_true] at hrefused; exact hrefused))

end

theorem exec_restart_of_ready {r : Relay} {origin : Addr} (q : List Instr) (tag : Byte)
    (hserves : r.Serves origin) (hfree : r.store.saving = false) :
    exec (.restart origin tag) ⟨r, q⟩
      = .next ⟨r.counted.carryRestart ⟨origin, 14#8, tag⟩, q⟩ := by
  refine exec_carryOut (exec_of_request rfl) (code := 14) (args := []) (a := .restart)
    hserves rfl ?_
  exact refuseIf_false _ _ hfree

/-- Settles O56: the reply's own offer decides whether the restart waits. -/
theorem restartWaitsForItsReply : Obligations.RestartWaitsForItsReply := by
  intro r q origin tag offered hserves
  refine ⟨fun hsaving => ?_, fun hfree hdown => ?_, fun hfree hup hoffer => ?_⟩
  · have hcheck : r.counted.check 14 [] = .error .busy :=
      (check_of_serves hserves rfl).trans (refuseIf_true _ _ hsaving)
    rw [exec_request (code := 14) rfl hserves.1, request_of_error hserves.2.1 hcheck]
    rfl
  · rw [exec_restart_of_ready q tag hserves hfree]
    exact congrArg (fun t => Host.Outcome.next (State.mk t q))
      (carryRestart_of_down (r := r.counted) hdown)
  · have hready := exec_restart_of_ready q tag hserves hfree
    refine ⟨fun hadmitted => ⟨?_, ?_⟩, fun hrefused => ?_⟩
    · rw [hready, carryRestart_of_admitted (r := r.counted) (q := ⟨origin, 14#8, tag⟩)
        hup hoffer.symm hadmitted]
    · rw [hoffer, (offerOwn_handOver _ _ _ _).agent]
      rfl
    · rw [hready, carryRestart_of_refused (r := r.counted) (q := ⟨origin, 14#8, tag⟩)
        hup hoffer.symm hrefused]

end Sys2Proof.Machine

/-! SUPPORT. The battery sample with the deliveries of a new band (R192, R193), and the HEALTH frame
with its timer (R180, R181). -/

namespace Sys2Proof.Machine

/-! ## The band of a sample (R192) -/

theorem nextBand_of_table {old band : Band} {v : Nat}
    (hnormal : (old = .normal ∧ 1180 ≤ v) ∨ (old ≠ .normal ∧ 1200 ≤ v) → band = .normal)
    (hlow : (old = .normal ∧ 1100 ≤ v ∧ v < 1180) ∨ (old = .low ∧ 1100 ≤ v ∧ v < 1200)
      ∨ (old = .critical ∧ 1120 ≤ v ∧ v < 1200) → band = .low)
    (hcritical : (old ≠ .critical ∧ v < 1100) ∨ (old = .critical ∧ v < 1120) →
      band = .critical) : nextBand old v = band := by
  cases old with
  | normal =>
    change (if 1180 ≤ v then Band.normal else if 1100 ≤ v then .low else .critical) = band
    split
    · next h => exact (hnormal (.inl ⟨rfl, h⟩)).symm
    · split
      · next hhigh h => exact (hlow (.inl ⟨rfl, h, not_le.mp hhigh⟩)).symm
      · next h => exact (hcritical (.inl ⟨by decide, not_le.mp h⟩)).symm
  | low =>
    change (if 1200 ≤ v then Band.normal else if 1100 ≤ v then .low else .critical) = band
    split
    · next h => exact (hnormal (.inr ⟨by decide, h⟩)).symm
    · split
      · next hhigh h => exact (hlow (.inr (.inl ⟨rfl, h, not_le.mp hhigh⟩))).symm
      · next h => exact (hcritical (.inl ⟨by decide, not_le.mp h⟩)).symm
  | critical =>
    change (if 1200 ≤ v then Band.normal else if 1120 ≤ v then .low else .critical) = band
    split
    · next h => exact (hnormal (.inr ⟨by decide, h⟩)).symm
    · split
      · next hhigh h => exact (hlow (.inr (.inr ⟨rfl, h, not_le.mp hhigh⟩))).symm
      · next h => exact (hcritical (.inr ⟨rfl, not_le.mp h⟩)).symm

/-! ## Delivering a band to the blocks (R193) -/

theorem bandAtChannels_store (r : Relay) (band : Band) :
    (r.bandAtChannels band).store = r.store := by
  by_cases h : band = .critical
  · subst h
    obtain ⟨hframe, -⟩ := cutBeacons_frame _ r _ (List.nodup_finRange 4) (bandAtChannels_critical r)
    rw [hframe]
    rfl
  · rw [bandAtChannels_of_other r h]

theorem preemptTest_store (r : Relay) : r.preemptTest.store = r.store := by
  cases h : r.generator.running with
  | false => rw [preemptTest_of_idle h]
  | true =>
    rw [preemptTest_of_running h]
    rfl

theorem buildHealth_store (r : Relay) (band : Band) (urgent : Bool) :
    (r.buildHealth band urgent).store = r.store :=
  (offerOwn_handOver r _ _ _).store

theorem shedRoutine_store (r : Relay) : r.shedRoutine.store = r.store :=
  (SameButHandOver.foldl (f := fun t (b : Buffer) => t.reportLoss b.maker)
    (fun t b => reportLoss_handOver t b.maker) _ (r.setPool (r.pool.shed r.routineCap))).store

theorem deliverBand_band (r : Relay) (band : Band) (d : BandDelivery) :
    (r.deliverBand band d).store.band = if d = .classifier then band else r.store.band := by
  cases d with
  | classifier => exact congrArg Store.band (shedRoutine_store (r.setBand band))
  | generator =>
    change (r.when (band != .normal) Relay.preemptTest).store.band = r.store.band
    unfold Relay.when
    split
    · rw [preemptTest_store]
    · rfl
  | channels => exact congrArg Store.band (bandAtChannels_store r band)
  | agent => exact congrArg Store.band (buildHealth_store r band _)

theorem deliverBand_generator_of_kept {r : Relay} {band : Band}
    (h : band = .normal ∨ r.generator.running = false) : r.deliverBand band .generator = r := by
  change r.when (band != .normal) Relay.preemptTest = r
  rcases h with rfl | h
  · rfl
  · unfold Relay.when
    split
    · exact preemptTest_of_idle h
    · rfl

theorem deliverBand_generator_of_preempted {r : Relay} {band : Band} (h : band ≠ .normal) :
    r.deliverBand band .generator = r.preemptTest :=
  if_pos (bne_iff_ne.mpr h)

/-- Once the classifier has had the band, it stays in force. -/
theorem changeBand_band_of_set (band : Band) (order : List BandDelivery) {r : Relay}
    (h : r.store.band = band) : (r.changeBand band order).store.band = band := by
  induction order generalizing r with
  | nil => exact h
  | cons d order ih =>
    refine ih (r := r.deliverBand band d) ?_
    rw [deliverBand_band, h, ite_self]

theorem changeBand_band_of_mem (band : Band) {order : List BandDelivery} (r : Relay)
    (h : .classifier ∈ order) : (r.changeBand band order).store.band = band := by
  induction order generalizing r with
  | nil => exact absurd h List.not_mem_nil
  | cons d order ih =>
    rcases List.mem_cons.mp h with hd | hrest
    · refine changeBand_band_of_set band order (r := r.deliverBand band d) ?_
      rw [deliverBand_band, if_pos hd.symm]
    · exact ih (r.deliverBand band d) hrest

/-! ## The sample (R192) -/

section
variable {r : Relay} (v : Nat) (order : List BandDelivery) (q : List Instr)

theorem exec_batterySample_of_due (hclock : r.clock.lost = false)
    (hdue : r.store.nextSample ≤ r.now) :
    exec (.batterySample v order) ⟨r, q⟩
      = .next ⟨(r.setPins { r.pins with centivolts := v }).sampleBattery order, q⟩ := by
  have hready : (!r.clock.lost && decide (r.store.nextSample ≤ r.now)) = true := by
    rw [hclock, decide_eq_true hdue]
    rfl
  exact congrArg (fun t => Host.Outcome.next (State.mk t q)) (if_pos hready)

end

section
variable {r : Relay} (order : List BandDelivery)

theorem sampleBattery_of_starting (h : r.store.mode = .starting) :
    r.sampleBattery order
      = (r.setStore { r.store with nextSample := r.store.nextSample + 10 }).setBand
          (nextBand r.store.band r.pins.centivolts) :=
  if_pos h

theorem sampleBattery_of_kept (h : r.store.mode ≠ .starting)
    (hband : nextBand r.store.band r.pins.centivolts = r.store.band) :
    r.sampleBattery order = r.setStore { r.store with nextSample := r.store.nextSample + 10 } :=
  (if_neg h).trans (if_pos hband)

theorem sampleBattery_of_changed (h : r.store.mode ≠ .starting)
    (hband : nextBand r.store.band r.pins.centivolts ≠ r.store.band) :
    r.sampleBattery order
      = (r.setStore { r.store with nextSample := r.store.nextSample + 10 }).changeBand
          (nextBand r.store.band r.pins.centivolts) order :=
  (if_neg h).trans (if_neg hband)

end

/-- Settles O59. The band is in force from the classifier's own delivery, which no other delivery
undoes. -/
theorem batterySampleMovesTheBand : Obligations.BatterySampleMovesTheBand := by
  refine ⟨fun r q v order band next hclock hdue hnormal hlow hcritical hnext => ?sample,
    fun r band cap n hcap hn => ?deliveries⟩
  case sample =>
    have hband : nextBand r.store.band v = band := nextBand_of_table hnormal hlow hcritical
    have hexec := exec_batterySample_of_due v order q hclock hdue
    subst hnext
    refine ⟨fun hmode => ?_, fun hmode hkept => ?_, fun hmode hchanged => ?_,
      fun hmode hchanged hmem => ?_⟩
    · rw [hexec, sampleBattery_of_starting (r := r.setPins { r.pins with centivolts := v })
        order hmode]
      exact congrArg (fun b => Host.Outcome.next (State.mk (Relay.setBand _ b) q)) hband
    · rw [hexec, sampleBattery_of_kept (r := r.setPins { r.pins with centivolts := v })
        order hmode (hband.trans hkept)]
      rfl
    · have hmoved : nextBand r.store.band v ≠ r.store.band := by
        rw [hband]
        exact hchanged
      rw [hexec, sampleBattery_of_changed (r := r.setPins { r.pins with centivolts := v })
        order hmode hmoved]
      exact congrArg (fun b => Host.Outcome.next (State.mk (Relay.changeBand _ b order) q)) hband
    · have hmoved : nextBand r.store.band v ≠ r.store.band := by
        rw [hband]
        exact hchanged
      refine ⟨_, hexec, ?_⟩
      rw [sampleBattery_of_changed (r := r.setPins { r.pins with centivolts := v })
        order hmode hmoved,
        changeBand_band_of_mem _ _ hmem]
      exact hband
  case deliveries =>
    have hcap' : cap = (r.setBand band).routineCap := by
      rw [hcap]
      cases band <;> rfl
    refine ⟨?_, ?_, fun _ => rfl, rfl, deliverBand_generator_of_kept, fun hother hrunning => ?_,
      rfl, rfl⟩
    · rw [hn, hcap']
      rfl
    · rw [List.length_drop]
      omega
    · rw [deliverBand_generator_of_preempted hother, preemptTest_of_running hrunning]

/-! ## HEALTH frames (R180, R181) -/

theorem linkByte_of_flag (r : Relay) (bit : Bool → Nat) (h : bit = flag) :
    linkByte r = byte (r.upper.link.code + 4 * r.lower.link.code + 16 * bit r.lineLoss.lost) := by
  rw [h]
  rfl

theorem stationCount_eq (r : Relay) (st : StationState) :
    stationCount r st = (List.finRange 48).countP (fun i =>
      decide (r.tables.stations.get i ≠ none ∧ (r.stations.get i).state = st)) := by
  rw [stationCount, ← List.countP_eq_length_filter]
  refine List.countP_congr (fun i _ => ?_)
  rw [Bool.and_eq_true, Option.isSome_iff_ne_none, beq_iff_eq, decide_eq_true_iff]

theorem lineFaultByte_eq (r : Relay) :
    lineFaultByte r = byte (flag (r.lines.get 0).fault + 2 * flag (r.lines.get 1).fault
      + 4 * flag (r.lines.get 2).fault + 8 * flag (r.lines.get 3).fault) := by
  have hsum : (List.finRange 4).foldl (fun w l => w + flag (r.lines.get l).fault * 2 ^ l.val) 0
      = 0 + flag (r.lines.get 0).fault * 1 + flag (r.lines.get 1).fault * 2
        + flag (r.lines.get 2).fault * 4 + flag (r.lines.get 3).fault * 8 := rfl
  rw [lineFaultByte, hsum]
  exact congrArg byte (by omega)

theorem channelFlagBytes_eq (r : Relay) (flags : Fin 4 → Nat)
    (h : flags = fun c => channelFlags (r.channels.get c)) :
    channelFlagBytes r = be2 (flags 0 + 8 * flags 1 + 64 * flags 2 + 512 * flags 3) := by
  have hsum : (List.finRange 4).foldl (fun w c => w + channelFlags (r.channels.get c) * 8 ^ c.val) 0
      = 0 + flags 0 * 1 + flags 1 * 8 + flags 2 * 64 + flags 3 * 512 := by
    rw [h]
    rfl
  rw [channelFlagBytes, hsum]
  exact congrArg be2 (by omega)

theorem healthPayload_length (r : Relay) (band : Band) : (r.healthPayload band).length = 25 :=
  rfl

theorem highestLevel_attained (r : Relay) : ∃ b, (r.barriers.get b).level = r.highestLevel := by
  rcases foldl_max_attained (fun b => (r.barriers.get b).level) (List.finRange 8) .calm
    with hcalm | ⟨b, -, hb⟩
  · refine ⟨0, rank_injective ?_⟩
    have hle := (rank_le_foldl_max (fun b => (r.barriers.get b).level) (List.finRange 8) .calm).2 0
      (List.mem_finRange 0)
    rw [hcalm] at hle
    exact (Nat.le_zero.mp hle).trans (congrArg Level.rank hcalm.symm)
  · exact ⟨b, hb⟩

theorem buildHealth_eq (r : Relay) (band : Band) (urgent : Bool) :
    r.buildHealth band urgent
      = (r.offerOwn (if urgent then .urgent else .routine)
          (r.ownFrame .health urgent r.hopBudget r.hubTarget (r.healthPayload band))
          .other).1.setAgent
        { r.agent with
          healthTimer := some (r.clock.ms + r.tables.identity.healthInterval * 1000) } := by
  have hrest := offerOwn_handOver r (if urgent then .urgent else .routine)
    (r.ownFrame .health urgent r.hopBudget r.hubTarget (r.healthPayload band)) .other
  rw [Relay.buildHealth, Relay.startHealthTimer, hrest.agent, hrest.tables, Relay.instant,
    hrest.clock]

theorem hubTarget_eq (r : Relay) :
    r.hubTarget = match r.tables.identity.manager with
      | some m => m
      | none => 0#12 := by
  cases h : r.tables.identity.manager <;> simp only [Relay.hubTarget, h, Option.getD]

theorem healthFrame_eq {r : Relay} {target : Addr} (urgent : Bool) (payload : List Byte)
    (h : r.hubTarget = target) :
    r.ownFrame .health urgent r.hopBudget r.hubTarget payload
      = { cls := .health
          urgent := urgent
          fresh := decide (r.emitter.fresh < 4)
          hops := BitVec.ofNat 4 r.tables.identity.hopBudget
          origin := r.store.own
          target := target
          sequence := r.emitter.sequence
          payload := payload } := by
  subst h
  rfl

theorem exec_healthTimerExpiry_of_due {r : Relay} {e : Nat} (ha : r.awake = true)
    (htimer : r.agent.healthTimer = some e) (hdue : e ≤ r.clock.ms) (q : List Instr) :
    exec .healthTimerExpiry ⟨r, q⟩ = .next ⟨r.buildHealth r.store.band false, q⟩ := by
  have hreached : reached r.agent.healthTimer r.instant = true := reached_of_le htimer hdue
  refine (exec_awake (f := Relay.healthExpires) (fun _ => rfl) ha).trans ?_
  exact congrArg (fun t => Host.Outcome.next (State.mk t q)) (if_pos hreached)

/-- Settles O60: the payload is compared field by field, each under the model's own name for it. -/
theorem healthTimerBuildsAHealthFrame : Obligations.HealthTimerBuildsAHealthFrame := by
  refine ⟨fun r q e offered ha htimer hdue hoffer => ⟨?_, healthPayload_length r _, ?_⟩,
    fun r band urgent offered hoffer => ⟨?_, rfl⟩,
    fun r band bit flags count d mode cause status charge link hbit hflags hcount hd hmode hcause
      hstatus hcharge hlink => ⟨?payload, rfl, rfl, fun b => ?_, highestLevel_attained r⟩⟩
  · have hframe := hoffer.trans (congrArg (fun f => r.offerOwn .routine f .other)
      (healthFrame_eq false (r.healthPayload r.store.band) (hubTarget_eq r)).symm)
    rw [exec_healthTimerExpiry_of_due ha htimer hdue, buildHealth_eq, hframe]
    rfl
  · rw [hoffer]
    exact offerOwnRoutine_same r _ _
  · have hframe := hoffer.trans (congrArg
      (fun f => r.offerOwn (if urgent = true then .urgent else .routine) f .other)
      (healthFrame_eq urgent (r.healthPayload band) (hubTarget_eq r)).symm)
    rw [buildHealth_eq, hframe]
  case payload =>
    have hbit' : bit = flag := hbit
    have hflags' : flags = fun c => channelFlags (r.channels.get c) := by
      rw [hflags, hbit']
      rfl
    have hcount' : count = stationCount r := by
      funext st
      rw [hcount, stationCount_eq]
    have hmode' : mode = r.store.mode.code := by
      rw [hmode]
      cases r.store.mode <;> rfl
    have hcause' : cause = r.store.cause.code := by
      rw [hcause]
      cases r.store.cause <;> rfl
    have hstatus' : status = r.store.status.code := by
      rw [hstatus]
      cases r.store.status <;> rfl
    have hcharge' : charge = band.code := by
      rw [hcharge]
      cases band <;> rfl
    rw [Relay.healthPayload, lineFaultByte_eq, channelFlagBytes_eq r flags hflags',
      linkByte_of_flag r bit hbit', ← hlink, hmode', hcause', hstatus', hcharge', hcount', hd,
      hbit']
    rfl
  · exact (rank_le_foldl_max (fun b => (r.barriers.get b).level) (List.finRange 8) .calm).2 b
      (List.mem_finRange b)

end Sys2Proof.Machine

/-! SUPPORT. SAVE, its end, and the load that follows it in OPEN-LINE mode (R178, R182, R184,
R189). -/

namespace Sys2Proof.Machine

/-! ## The image (R182, R184) -/

theorem Bank.cells_eq_map {α : Type} {n : Nat} (v : Bank α n) :
    v.cells = (List.finRange n).map v.get := by
  have hofFn : Bank.ofFn v.get = v := Bank.ext_get (fun i => Bank.get_ofFn _ i)
  calc v.cells = (Bank.ofFn v.get).cells := by rw [hofFn]
    _ = (List.finRange n).map v.get := List.ofFn_eq_map

theorem bankBytes_eq {α : Type} {n : Nat} (v : Bank α n) (encode : α → List Byte) :
    bankBytes v encode = (List.finRange n).flatMap (fun i => encode (v.get i)) := by
  rw [bankBytes, Bank.cells_eq_map, List.flatMap_map]

theorem checksum_eq (bs : List Byte) : checksum bs = (bs.map BitVec.toNat).sum % 65536 := by
  rw [checksum, List.sum_eq_foldl, List.foldl_map]

theorem judgeImage_of_mute {m : SerialMemory} (h : m.answers = false) :
    judgeImage m = .absent := by
  simp only [judgeImage, h, Bool.false_eq_true, if_false]

theorem imageBytes_eq (t : Tables) (version : Nat) :
    imageBytes t version = [byte 4, byte 219, byte (version / 256), byte version,
      byte (checksum t.bytes / 256), byte (checksum t.bytes)] ++ t.bytes :=
  rfl

theorem readsBack_writeBytes {m : List Host.Cell} {t : Tables} (version : Nat)
    (hm : Memory.wf m = true) (ht : t.InRange) :
    Memory.readBytes (Memory.writeBytes m 0 (imageBytes t version)) 0 1249
      = imageBytes t version := by
  have hread := Memory.readBytes_writeBytes 0 (imageBytes t version) hm
  rw [imageBytes_length t version ht] at hread
  exact hread

/-! ## The beginning of a save (R178, R189) -/

section
variable {r : Relay} {origin : Addr} (q : List Instr) (tag : Byte)

theorem exec_save_of_saving (hserves : r.Serves origin) (h : r.store.saving = true) :
    exec (.save origin tag) ⟨r, q⟩
      = .next ⟨r.counted.reply ⟨origin, 13#8, tag⟩ .busy [], q⟩ :=
  exec_refused (exec_of_request rfl) (code := 13) (args := []) hserves rfl
    (refuseIf_true _ _ h) (by decide)

theorem exec_save_of_free (hserves : r.Serves origin) (h : r.store.saving = false) :
    exec (.save origin tag) ⟨r, q⟩
      = .next ⟨(r.counted.setAgent
          { r.counted.agent with requester := some (origin, tag) }).beginSave, q⟩ :=
  exec_carryOut (exec_of_request rfl) (code := 13) (args := []) (a := .save) hserves rfl
    (refuseIf_false _ _ h)

end

theorem beginSave_of_answering {r : Relay} (h : r.memory.answers = true) :
    r.beginSave = (r.setMemory
        { r.memory with cells := Memory.write (Memory.write r.memory.cells 1 0#8) 0 0#8 }).setStore
      { r.store with saving := true, saveBegun := true } :=
  if_pos h

theorem beginSave_of_mute {r : Relay} (h : r.memory.answers = false) :
    r.beginSave = r.setStore { r.store with saving := true, saveBegun := false } :=
  if_neg (by rw [h]; exact Bool.false_ne_true)

/-! ## The load after a save (R184, R189) -/

theorem driverOf_isSome_iff (r : Relay) (l : Fin 4) :
    (r.driverOf l).isSome = true ↔ ∃ c, (r.tables.bindings.get c).line = some l
      ∧ (r.channels.get c).state ≠ .idle ∧ (r.channels.get c).segment = some .on := by
  simp only [Relay.driverOf, List.find?_isSome, List.mem_finRange, true_and, Bool.and_eq_true,
    beq_iff_eq, driving_iff]

/-- A sensing timer runs on, or starts, where its driven line shows a load condition. -/
theorem senseLines_get (r : Relay) (l : Fin 4) :
    r.senseLines.lines.get l = { r.lines.get l with
      sensing :=
        if (r.driverOf l).isSome && r.pins.loads.get l != .sound then
          some ((r.lines.get l).sensing.getD (r.clock.ms + 500))
        else none } :=
  Bank.get_ofFn _ l

theorem readImageAs_of_valid {r : Relay} {m : SerialMemory} (h : judgeImage m = .valid) :
    r.readImageAs m = (r.setTables (loadTables m.cells r.store.own).1).setStore
      { r.store with
        status := judgeImage m
        version := readVersion m
        conflicts := min (r.store.conflicts + (loadTables m.cells r.store.own).2) 65535 } :=
  if_pos h

theorem readImageAs_of_invalid {r : Relay} {m : SerialMemory} (h : judgeImage m ≠ .valid) :
    r.readImageAs m
      = r.setStore { r.store with status := judgeImage m, version := readVersion m } :=
  if_neg h

theorem readImageAs_status (r : Relay) (m : SerialMemory) :
    (r.readImageAs m).store.status = judgeImage m := by
  by_cases h : judgeImage m = .valid
  · rw [readImageAs_of_valid h]
    rfl
  · rw [readImageAs_of_invalid h]
    rfl

section
variable {r : Relay} {load : LoadRead}

theorem loadAfterSave_of_invalid (h : judgeImage (memoryShown r.memory load) ≠ .valid) :
    r.loadAfterSave load
      = (r.setMemory { r.memory with answers := load.answers }).readImageAs
          (memoryShown r.memory load) :=
  if_neg (by rw [readImageAs_status]; exact h)

theorem loadAfterSave_of_valid {read : Relay}
    (hread : (r.setMemory { r.memory with answers := load.answers }).readImageAs
      (memoryShown r.memory load) = read)
    (h : judgeImage (memoryShown r.memory load) = .valid) :
    r.loadAfterSave load
      = (read.senseLines.setStore
          { read.store with mode := .assessing }).startAssessing.sendHealth := by
  subst hread
  exact if_pos (by rw [readImageAs_status]; exact h)

end

/-! ## The end of a save (R178, R189) -/

section
variable {r : Relay} {origin : Addr} {tag : Byte}

theorem replyToSave_of_done (h : r.agent.requester = some (origin, tag)) :
    r.replyToSave true = (r.reply ⟨origin, 13#8, tag⟩ .done (be2 r.store.version)).setAgent
      { (r.reply ⟨origin, 13#8, tag⟩ .done (be2 r.store.version)).agent with
        requester := none } := by
  simp only [Relay.replyToSave, h, if_true, Relay.saveData]

theorem replyToSave_of_failed (h : r.agent.requester = some (origin, tag)) :
    r.replyToSave false = (r.reply ⟨origin, 13#8, tag⟩ .memoryFault []).setAgent
      { (r.reply ⟨origin, 13#8, tag⟩ .memoryFault []).agent with requester := none } := by
  simp only [Relay.replyToSave, h, if_false, Bool.false_eq_true, Relay.saveData]

end

theorem exec_saveEnd_of_saving {r : Relay} (ha : r.awake = true) (hsaving : r.store.saving = true)
    (answers : Bool) (reads : SaveReads) (q : List Instr) :
    exec (.saveEnd answers reads) ⟨r, q⟩ = .next ⟨r.finishSave answers reads, q⟩ := by
  refine (exec_awake (f := fun r => r.when r.store.saving (fun r => r.finishSave answers reads))
    (fun _ => rfl) ha).trans ?_
  exact congrArg (fun t => Host.Outcome.next (State.mk t q)) (if_pos hsaving)

section
variable {r : Relay} {answers : Bool} {reads : SaveReads} {t : Relay}

theorem finishSave_of_failed (h : r.endSave answers reads.flaws = (t, false)) :
    r.finishSave answers reads = t.replyToSave false := by
  simp only [Relay.finishSave, h]
  rfl

theorem finishSave_of_assessing (h : r.endSave answers reads.flaws = (t, true))
    (hmode : r.store.mode = .assessing) : r.finishSave answers reads = t.replyToSave true := by
  simp only [Relay.finishSave, h, hmode]
  rfl

theorem finishSave_of_openLine (h : r.endSave answers reads.flaws = (t, true))
    (hmode : r.store.mode = .openLine) :
    r.finishSave answers reads = (t.replyToSave true).loadAfterSave reads.load := by
  simp only [Relay.finishSave, h, hmode]
  rfl

end

section
variable {r : Relay} {flaws : List Host.Cell}

theorem endSave_of_readsBack (h : Memory.readBytes (r.writtenMemory flaws).cells 0 1249
      = imageBytes r.tables r.nextVersion) :
    r.endSave true flaws = ((r.setMemory (r.writtenMemory flaws)).saveOver .valid r.nextVersion,
      true) :=
  if_pos (beq_iff_eq.mpr h)

theorem endSave_of_differs (h : Memory.readBytes (r.writtenMemory flaws).cells 0 1249
      ≠ imageBytes r.tables r.nextVersion) :
    r.endSave true flaws
      = ((r.setMemory (r.writtenMemory flaws)).saveOver .invalid r.store.version, false) :=
  if_neg (fun hread => h (beq_iff_eq.mp hread))

theorem endSave_of_mute : r.endSave false flaws = (r.loseMemory, false) :=
  rfl

end

theorem replyToSave_memory (r : Relay) (done : Bool) :
    (r.replyToSave done).memory = r.memory := by
  cases h : r.agent.requester with
  | none => simp only [Relay.replyToSave, h]
  | some x =>
    cases done with
    | true =>
      rw [replyToSave_of_done h]
      exact (reply_same _ _ _ _).memory
    | false =>
      rw [replyToSave_of_failed h]
      exact (reply_same _ _ _ _).memory

theorem writtenMemory_nil (r : Relay) :
    r.writtenMemory [] = { answers := true
                           cells := Memory.writeBytes r.memory.cells 0
                             (imageBytes r.tables r.nextVersion) } := by
  rw [Relay.writtenMemory, Memory.writeCells, List.foldl_nil]

theorem readsBack_written {r : Relay} (hm : r.MemoryOk) (ht : r.tables.InRange) :
    Memory.readBytes (r.writtenMemory []).cells 0 1249 = imageBytes r.tables r.nextVersion := by
  have hread := readsBack_writeBytes (m := r.memory.cells) r.nextVersion hm ht
  have hcells : (r.writtenMemory []).cells
      = Memory.writeBytes r.memory.cells 0 (imageBytes r.tables r.nextVersion) := by
    rw [writtenMemory_nil]
  rw [← hcells] at hread
  exact hread

section
variable {r : Relay} (ha : r.awake = true) (hsaving : r.store.saving = true)
include ha hsaving

theorem exec_saveEnd_of_written {flaws : List Host.Cell}
    (hread : Memory.readBytes (r.writtenMemory flaws).cells 0 1249
      = imageBytes r.tables r.nextVersion) (load : LoadRead) (q : List Instr) :
    (r.store.mode = .assessing → exec (.saveEnd true ⟨flaws, load⟩) ⟨r, q⟩
      = .next ⟨((r.setMemory (r.writtenMemory flaws)).saveOver .valid
          r.nextVersion).replyToSave true, q⟩)
    ∧ (r.store.mode = .openLine → exec (.saveEnd true ⟨flaws, load⟩) ⟨r, q⟩
      = .next ⟨(((r.setMemory (r.writtenMemory flaws)).saveOver .valid
          r.nextVersion).replyToSave true).loadAfterSave load, q⟩) := by
  have hend := endSave_of_readsBack hread
  rw [exec_saveEnd_of_saving ha hsaving]
  constructor
  · intro hmode
    rw [finishSave_of_assessing hend hmode]
  · intro hmode
    rw [finishSave_of_openLine hend hmode]

theorem exec_saveEnd_of_differs {flaws : List Host.Cell} {load : LoadRead} {q : List Instr}
    (hread : Memory.readBytes (r.writtenMemory flaws).cells 0 1249
      ≠ imageBytes r.tables r.nextVersion) :
    exec (.saveEnd true ⟨flaws, load⟩) ⟨r, q⟩
      = .next ⟨((r.setMemory (r.writtenMemory flaws)).saveOver .invalid
          r.store.version).replyToSave false, q⟩ := by
  rw [exec_saveEnd_of_saving ha hsaving, finishSave_of_failed (endSave_of_differs hread)]

theorem exec_saveEnd_of_mute {flaws : List Host.Cell} {load : LoadRead} {q : List Instr} :
    exec (.saveEnd false ⟨flaws, load⟩) ⟨r, q⟩ = .next ⟨r.loseMemory.replyToSave false, q⟩ := by
  rw [exec_saveEnd_of_saving ha hsaving, finishSave_of_failed endSave_of_mute]

end

theorem senseLines_eq {t : Relay} {lines : Bank OutputLine 4} {senses : Fin 4 → Prop}
    (hsenses : ∀ l, senses l ↔ t.pins.loads.get l ≠ .sound ∧ (t.driverOf l).isSome = true)
    (hrun : ∀ l, senses l → lines.get l =
      { t.lines.get l with sensing := some ((t.lines.get l).sensing.getD (t.clock.ms + 500)) })
    (hrest : ∀ l, ¬ senses l → lines.get l = { t.lines.get l with sensing := none }) :
    t.senseLines = t.setLines lines := by
  have hlines : t.senseLines.lines = lines := by
    refine Bank.ext_get (fun l => ?_)
    have hasks : ((t.driverOf l).isSome && t.pins.loads.get l != .sound) = true ↔ senses l := by
      rw [Bool.and_eq_true, bne_iff_ne, hsenses, and_comm]
    rw [senseLines_get]
    by_cases hl : senses l
    · rw [if_pos (hasks.mpr hl), hrun l hl]
    · rw [if_neg (fun h => hl (hasks.mp h)), hrest l hl]
  exact congrArg t.setLines hlines

/-- Settles O57. A command and the end of a save are taken through the model's own steps; the image
reads back in a canonical memory. -/
theorem saveWritesTheImage : Obligations.SaveWritesTheImage := by
  refine ⟨fun r q origin tag hserves => ⟨exec_save_of_saving q tag hserves,
      fun hfree hanswers => ?_, fun hfree hmute => ?_⟩, fun r load shown read hshown hread => ?load,
    fun t version sum hsum => ⟨?_, ?_⟩, ?ending⟩
  · rw [exec_save_of_free q tag hserves hfree]
    exact congrArg (fun t => Host.Outcome.next (State.mk t q)) (beginSave_of_answering
      (r := r.counted.setAgent { r.counted.agent with requester := some (origin, tag) }) hanswers)
  · rw [exec_save_of_free q tag hserves hfree]
    exact congrArg (fun t => Host.Outcome.next (State.mk t q)) (beginSave_of_mute
      (r := r.counted.setAgent { r.counted.agent with requester := some (origin, tag) }) hmute)
  case load =>
    have hshown' : memoryShown r.memory load = shown := hshown.symm
    refine ⟨fun hmute => ?_, fun hbad => ?_, fun loaded lines senses hvalid hloaded hsenses hrun
      hrest => ?_⟩
    · rw [hshown]
      exact judgeImage_of_mute hmute
    · rw [loadAfterSave_of_invalid (by rw [hshown']; exact hbad), hshown',
        readImageAs_of_invalid hbad, hread, hshown]
      rfl
    · have hfull : (r.setMemory { r.memory with answers := load.answers }).readImageAs
          (memoryShown r.memory load) = (read.setTables loaded.1).setStore
            { read.store with
              conflicts := min (r.store.conflicts + loaded.2) 65535 } := by
        rw [hshown', readImageAs_of_valid hvalid, hread, hloaded, hshown]
        rfl
      rw [loadAfterSave_of_valid hfull (by rw [hshown']; exact hvalid)]
      rw [senseLines_eq (lines := lines) (senses := senses)]
      · rfl
      · intro l
        rw [driverOf_isSome_iff, hsenses, hread]
        rfl
      · intro l hl
        have hlines : read.lines = r.lines := by rw [hread]; rfl
        have hclock : read.clock = r.clock := by rw [hread]; rfl
        change lines.get l = { read.lines.get l with
          sensing := some ((read.lines.get l).sensing.getD (read.clock.ms + 500)) }
        rw [hrun l hl, hlines, hclock]
        cases (r.lines.get l).sensing <;> rfl
      · intro l hl
        rw [hrest l hl, hread]
        rfl
  · rw [imageBytes_eq, checksum_eq, hsum]
  · simp only [Tables.bytes, bankBytes_eq]
  case ending =>
    intro r q o g version image ended answered ha hsaving hrequester hversion himage hended
      hanswered
    have hnext : version = r.nextVersion := hversion
    clear hversion
    subst hnext himage
    have hdone (m : SerialMemory) : answered (ended (r.setMemory m) .valid r.nextVersion) .done
        [byte (r.nextVersion / 256), byte r.nextVersion]
        = ((r.setMemory m).saveOver .valid r.nextVersion).replyToSave true := by
      rw [replyToSave_of_done (r := (r.setMemory m).saveOver .valid r.nextVersion) hrequester,
        hanswered, hended]
      rfl
    have hfailed (t : Relay) (status : ImageStatus) (v : Nat)
        (hrequester : t.agent.requester = some (o, g)) (hstore : t.store = r.store) :
        answered (ended t status v) .memoryFault [] = (t.saveOver status v).replyToSave false := by
      rw [replyToSave_of_failed (r := t.saveOver status v) hrequester, hanswered, hended,
        Relay.saveOver, hstore]
    clear hanswered hended
    refine ⟨fun saved t load hmemory htables hsaved ht => ?_,
      fun flaws load saved t hsaved hread ht => ?_, fun flaws load saved hsaved hread => ?_,
      fun flaws load => ?_⟩
    · have hread := readsBack_written hmemory htables.1
      rw [hsaved, ← writtenMemory_nil, hdone] at ht
      rw [ht, replyToSave_memory]
      exact ⟨hread, exec_saveEnd_of_written ha hsaving hread load q⟩
    · have hsaved' : saved = r.setMemory (r.writtenMemory flaws) := hsaved
      rw [hsaved', hdone] at ht
      rw [hsaved'] at hread
      rw [ht]
      exact exec_saveEnd_of_written ha hsaving hread load q
    · have hsaved' : saved = r.setMemory (r.writtenMemory flaws) := hsaved
      rw [hsaved'] at hread ⊢
      rw [exec_saveEnd_of_differs ha hsaving hread,
        hfailed (r.setMemory (r.writtenMemory flaws)) _ _ hrequester rfl]
    · rw [exec_saveEnd_of_mute ha hsaving, hfailed
        ((r.setMemory { r.cutMemory with answers := false }).setFreeCount r.cutCount) _ _ hrequester
        rfl]
      rfl

end Sys2Proof.Machine

/-! SUPPORT. Clock loss, the power-on and clock-loss resets, the strap reading, and what leaving
STARTING hands on (R182, R184 to R187). -/

namespace Sys2Proof.Machine

/-! ## Banks written index by index -/

theorem Bank.foldl_set_get {α : Type} {n : Nat} (g : Fin n → α → α) (xs : List (Fin n)) :
    ∀ v : Bank α n, xs.Nodup → ∀ j,
      (xs.foldl (fun v i => v.set i (g i (v.get i))) v).get j
        = if j ∈ xs then g j (v.get j) else v.get j := by
  induction xs with
  | nil => exact fun v _ j => (if_neg List.not_mem_nil).symm
  | cons x xs ih =>
    intro v hnodup j
    obtain ⟨hx, hxs⟩ := List.nodup_cons.mp hnodup
    rw [List.foldl_cons, ih _ hxs]
    by_cases hj : j = x
    · subst hj
      rw [if_neg hx, Bank.get_set_self, if_pos List.mem_cons_self]
    · rw [Bank.get_set_of_ne _ _ (fun h => hj h.symm)]
      simp only [List.mem_cons, hj, false_or]

theorem Bank.foldl_set_finRange {α : Type} {n : Nat} (g : Fin n → α → α) (v : Bank α n) :
    (List.finRange n).foldl (fun v i => v.set i (g i (v.get i))) v
      = Bank.ofFn (fun i => g i (v.get i)) := by
  refine Bank.ext_get (fun j => ?_)
  rw [Bank.foldl_set_get g _ v (List.nodup_finRange n), if_pos (List.mem_finRange j),
    Bank.get_ofFn]

/-- A fold that works on one bank of the part is a fold of that bank. -/
theorem foldl_through {α β : Type} {n : Nat} {put : Bank α n → Relay} {f : Relay → β → Relay}
    {step : Bank α n → β → Bank α n} (h : ∀ v x, f (put v) x = put (step v x)) (xs : List β) :
    ∀ v, xs.foldl f (put v) = put (xs.foldl step v) := by
  induction xs with
  | nil => exact fun v => rfl
  | cons x xs ih =>
    intro v
    rw [List.foldl_cons, h, ih, List.foldl_cons]

/-! ## The clock lost (R187) -/

theorem awake_of_lost {r : Relay} (h : r.clock.lost = true) : r.awake = false := by
  rw [Relay.awake, h]
  rfl

theorem lineDriven_of_asleep {r : Relay} (l : Fin 4) (h : r.awake = false) :
    r.lineDriven l = false := by
  rw [Relay.lineDriven, h]
  rfl

theorem exec_clockResume_of_running {r : Relay} (h : r.clock.lost = false) (x : StartPins)
    (q : List Instr) : exec (.clockResume x) ⟨r, q⟩ = .next ⟨r, q⟩ :=
  congrArg (fun t => Host.Outcome.next (State.mk t q))
    (if_neg (by rw [h]; exact Bool.false_ne_true))

theorem exec_clockResume_of_lost {r : Relay} (h : r.clock.lost = true) (x : StartPins)
    (q : List Instr) : exec (.clockResume x) ⟨r, q⟩ = .next ⟨r.startUp .clockLoss x, q⟩ :=
  congrArg (fun t => Host.Outcome.next (State.mk t q)) (if_pos h)

theorem exec_powerOn (r : Relay) (x : StartPins) (q : List Instr) :
    exec (.powerOn x) ⟨r, q⟩ = .next ⟨r.startUp .powerOn x, q⟩ :=
  rfl

/-! ## The straps (R185, R186) -/

theorem strapsValid_iff (a : Addr) : strapsValid a = true ↔ a ≠ 0#12 ∧ a ≠ 4095#12 := by
  rw [strapsValid, Addr.isDevice, Bool.and_eq_true, bne_iff_ne, bne_iff_ne]

section
variable {r : Relay} {a : Addr} (n : Nat)

theorem readStraps_of_invalid (h : a = 0#12 ∨ a = 4095#12) :
    r.readStraps a n = (r.setPins { r.pins with straps := a }).setStore
      { r.store with nextStrap := r.now + 1 } := by
  have hinvalid : ¬ strapsValid a = true := by
    rw [strapsValid_iff, not_and_or, not_ne_iff, not_ne_iff]
    exact h
  exact if_neg hinvalid

theorem readStraps_of_valid (hzero : a ≠ 0#12) (hall : a ≠ 4095#12) :
    r.readStraps a n = ((r.setPins { r.pins with straps := a }).setStore
      { r.store with own := a }).finishStart n :=
  if_pos ((strapsValid_iff a).mpr ⟨hzero, hall⟩)

end

/-- The part as a power-on or clock-loss reset leaves it before the straps are read (R186). -/
def Relay.resetWith (r : Relay) (cause : ResetCause) (x : StartPins) : Relay :=
  { Relay.cleared cause (r.pins.atStart x) (x.memory.getD r.cutMemory) r.cutCount with
    store := { Store.start cause with band := firstBand x.centivolts, rate := x.rate } }

section
variable {r : Relay} {cause : ResetCause} {x : StartPins}

theorem startUp_of_invalid (h : x.straps = 0#12 ∨ x.straps = 4095#12) :
    r.startUp cause x = r.resetWith cause x := by
  have hnow : (r.resetWith cause x).now = 0 := now_of_start rfl
  refine (readStraps_of_invalid (r := r.resetWith cause x) x.readMs.val h).trans ?_
  rw [hnow]
  rfl

theorem startUp_of_valid (hzero : x.straps ≠ 0#12) (hall : x.straps ≠ 4095#12) :
    r.startUp cause x = ((r.resetWith cause x).setStore
      { (r.resetWith cause x).store with own := x.straps }).finishStart x.readMs.val :=
  readStraps_of_valid (r := r.resetWith cause x) x.readMs.val hzero hall

end

theorem exec_strapRetry_of_due {r : Relay} (hclock : r.clock.lost = false)
    (hmode : r.store.mode = .starting) (hdue : r.store.nextStrap ≤ r.now) (a : Addr)
    (n : Fin 1000) (q : List Instr) :
    exec (.strapRetry a n) ⟨r, q⟩ = .next ⟨r.readStraps a n.val, q⟩ := by
  have hready : (!r.clock.lost && r.store.mode == .starting
      && decide (r.store.nextStrap ≤ r.now)) = true := by
    rw [hclock, hmode, decide_eq_true hdue]
    rfl
  exact congrArg (fun t => Host.Outcome.next (State.mk t q)) (if_pos hready)

/-! ## The image read at a start (R184, R186) -/

theorem finishStart_eq {r read : Relay} {n : Nat} {mode : Mode}
    (hread : (r.setClock { r.clock with ms := r.clock.ms + n }).readImage = read)
    (hmode : (if read.store.status = .valid then Mode.assessing else .openLine) = mode) :
    r.finishStart n = (read.setStore { read.store with mode := mode }).goLive := by
  subst hread hmode
  rfl

theorem finishStart_of_valid {r : Relay} (n : Nat) (h : judgeImage r.memory = .valid) :
    r.finishStart n
      = (((r.setClock { r.clock with ms := r.clock.ms + n }).setTables
          (loadTables r.memory.cells r.store.own).1).setStore
        { r.store with
          mode := .assessing
          status := .valid
          version := readVersion r.memory
          conflicts := min
            (r.store.conflicts + (loadTables r.memory.cells r.store.own).2) 65535 }).goLive := by
  rw [finishStart_eq (readImageAs_of_valid
    (r := r.setClock { r.clock with ms := r.clock.ms + n }) (m := r.memory) h) (if_pos h), h]
  rfl

theorem finishStart_of_invalid {r : Relay} (n : Nat) (h : judgeImage r.memory ≠ .valid) :
    r.finishStart n
      = ((r.setClock { r.clock with ms := r.clock.ms + n }).setStore
        { r.store with
          mode := .openLine
          status := judgeImage r.memory
          version := readVersion r.memory }).goLive := by
  rw [finishStart_eq (readImageAs_of_invalid
    (r := r.setClock { r.clock with ms := r.clock.ms + n }) (m := r.memory) h) (if_neg h)]
  rfl

theorem readVersion_of_answering {m : SerialMemory} (h : m.answers = true) :
    readVersion m = headerVersion m :=
  if_pos h

theorem answers_of_valid {m : SerialMemory} (h : judgeImage m = .valid) : m.answers = true := by
  by_contra hmute
  rw [judgeImage_of_mute (Bool.not_eq_true _ ▸ hmute)] at h
  cases h

theorem judgeImage_of_answering {m : SerialMemory} (h : m.answers = true) :
    judgeImage m
      = if pairAt (Memory.readBytes m.cells 0 6) 0 = 1243
            ∧ checksum (Memory.readBytes m.cells 6 1243) = pairAt (Memory.readBytes m.cells 0 6) 4
          then .valid else .invalid :=
  if_pos h

/-- A two-byte field of the header as it stands in the memory. -/
theorem pairAt_header (m : List Host.Cell) (x : Fin 5) :
    pairAt (Memory.readBytes m 0 6) x.val
      = (Memory.read m x.val).toNat * 256 + (Memory.read m (x.val + 1)).toNat := by
  match x with
  | 0 | 1 | 2 | 3 | 4 => rfl

/-! ## Starting the inputs (R162) -/

/-- The state an input is started in, by its own configuration and level (R162). -/
def Relay.inputStarted (r : Relay) (i : Fin 8) (d : InputDyn) : InputDyn :=
  if (r.tables.inputs.get i).function ≠ .unused
      ∧ r.pins.contacts.get i ≠ (r.tables.inputs.get i).expected then
    { d with
      state := .deviating
      timer := some (r.clock.ms + (r.tables.inputs.get i).debounce * 100) }
  else { d with state := .normal, timer := none }

theorem startInputs_eq (r : Relay) :
    r.startInputs = (r.setInputs (Bank.ofFn (fun i =>
      r.inputStarted i (r.inputs.get i)))).settleKey := by
  have hfold := foldl_through (put := r.setInputs) (f := fun t i => Relay.startInput t i)
    (step := fun v i => v.set i (r.inputStarted i (v.get i)))
    (fun v i => startInput_eq (r.setInputs v) i) (List.finRange 8) r.inputs
  rw [Bank.foldl_set_finRange] at hfold
  exact congrArg Relay.settleKey hfold

/-! ## Starting the stations and the barriers (R63, R81, R115) -/

theorem startAssessing_of_assessing {r : Relay} (h : r.store.mode = .assessing) :
    r.startAssessing = r.startStations.startRecompute.startEvaluation :=
  if_pos (beq_iff_eq.mpr h)

theorem startAssessing_of_other {r : Relay} (h : r.store.mode ≠ .assessing) :
    r.startAssessing = r :=
  if_neg (fun hmode => h (beq_iff_eq.mp hmode))

theorem startStations_get_of_none {r : Relay} {i : Fin 48} (h : r.tables.stations.get i = none) :
    r.startStations.stations.get i = StationDyn.start := by
  refine (Bank.get_ofFn _ i).trans ?_
  simp only [h]

theorem startStations_get_of_some {r : Relay} {i : Fin 48} {c : StationConfig}
    (h : r.tables.stations.get i = some c) :
    r.startStations.stations.get i = StationDyn.start.started (r.startDeadline c) := by
  refine (Bank.get_ofFn _ i).trans ?_
  simp only [h]

theorem startStations_blind (r : Relay) (i : Fin 48) :
    (r.startStations.stations.get i).sighting = false := by
  cases h : r.tables.stations.get i with
  | none =>
    rw [startStations_get_of_none h]
    rfl
  | some c =>
    rw [startStations_get_of_some h]
    rfl

theorem bestGauge_of_blind {r : Relay} (h : ∀ i, (r.stations.get i).sighting = false) (b : Fin 8) :
    r.bestGauge b = none := by
  rw [bestGauge_eq]
  induction r.gaugesOf b with
  | nil => rfl
  | cons i gauges ih => rw [List.foldl_cons, betterGauge_of_blind none (h i), ih]

/-- The measures a start recompute gives (R81). -/
def Relay.startMeasures (r : Relay) (b : Fin 8) : Measures :=
  Measures.start.recompute (!(r.gaugesOf b).isEmpty) (r.bestGauge b) none
    (r.tables.barriers.get b).rateWindow

theorem startRecompute_step (r : Relay) (v : Bank BarrierDyn 8) (b : Fin 8) :
    ((r.setBarriers v).setMeasures b Measures.start).recompute b none
      = r.setBarriers (v.set b { v.get b with measures := r.startMeasures b }) := by
  have hget : ((r.setBarriers v).setMeasures b Measures.start).barriers.get b
      = { v.get b with measures := Measures.start } := Bank.get_set_self _ _ _
  rw [Relay.recompute, Relay.setMeasures, hget]
  exact congrArg r.setBarriers (Bank.set_set _ _ _ _)

theorem startRecompute_eq (r : Relay) :
    r.startRecompute = r.setBarriers (Bank.ofFn (fun b =>
      { r.barriers.get b with measures := r.startMeasures b })) := by
  have hfold := foldl_through (put := r.setBarriers)
    (f := fun t b => (Relay.setMeasures t b Measures.start).recompute b none)
    (step := fun v b => v.set b { v.get b with measures := r.startMeasures b })
    (startRecompute_step r) (List.finRange 8) r.barriers
  rw [Bank.foldl_set_finRange
    (g := fun b (d : BarrierDyn) => { d with measures := r.startMeasures b })] at hfold
  exact hfold

theorem gaugesOf_isEmpty_iff (r : Relay) (b : Fin 8) :
    (!(r.gaugesOf b).isEmpty) = true
      ↔ ∃ i c e f, r.tables.stations.get i = some c ∧ c.role = .gauge b e f := by
  rw [Bool.not_eq_true', ← Bool.not_eq_true, List.isEmpty_iff,
    List.eq_nil_iff_forall_not_mem]
  simp only [mem_gaugesOf, not_forall, not_not]

theorem startMeasures_of_gauged {r : Relay} {b : Fin 8}
    (hblind : ∀ i, (r.stations.get i).sighting = false)
    (h : ∃ i c e f, r.tables.stations.get i = some c ∧ c.role = .gauge b e f) :
    r.startMeasures b = { Measures.start with held := true, sight := .blind } := by
  rw [Relay.startMeasures, (gaugesOf_isEmpty_iff r b).mpr h, bestGauge_of_blind hblind,
    recompute_of_blind]
  rfl

theorem startMeasures_of_ungauged {r : Relay} {b : Fin 8}
    (hblind : ∀ i, (r.stations.get i).sighting = false)
    (h : ¬ ∃ i c e f, r.tables.stations.get i = some c ∧ c.role = .gauge b e f) :
    r.startMeasures b = { Measures.start with sight := .ungauged } := by
  have hgauges : (!(r.gaugesOf b).isEmpty) = false := by
    rw [← Bool.not_eq_true, gaugesOf_isEmpty_iff]
    exact h
  rw [Relay.startMeasures, hgauges, bestGauge_of_blind hblind, recompute_of_ungauged]
  rfl

/-! ## The start evaluation of a barrier (R115) -/

theorem startBarrier_of_unkept {r : Relay} {b : Fin 8}
    (h : (r.barriers.get b).level ≠ .evacuate ∨ r.assessed b = false) :
    r.startBarrier b = r.evaluate b := by
  have hkept : ((r.barriers.get b).level == .evacuate && r.assessed b) = false := by
    rcases h with h | h
    · rw [beq_false_of_ne h]
      rfl
    · rw [h, Bool.and_false]
  exact if_neg (by rw [hkept]; exact Bool.false_ne_true)

theorem startBarrier_of_kept {r : Relay} {b : Fin 8} (hassessed : r.assessed b = true)
    (hlevel : (r.barriers.get b).level = .evacuate) :
    r.startBarrier b
      = (((r.evaluate b).toldOfChange b).requestUnlessQuieted b .evacuate).preemptTest := by
  have hkept : ((r.barriers.get b).level == .evacuate && r.assessed b) = true := by
    rw [hassessed, hlevel]
    rfl
  exact if_pos hkept

theorem rank_lt_evacuate {v : Level} (h : v ≠ .evacuate) : v.rank < Level.evacuate.rank := by
  cases v with
  | evacuate => exact absurd rfl h
  | calm | watch | warn => decide

/-! ## The statement -/

theorem cutMemory_of_begun {r : Relay} (h : r.store.saveBegun = true) :
    r.cutMemory = { r.memory with
      cells := Memory.writeBytes r.memory.cells 6
        (r.tables.bytes.take (Config.savedBytes r.freeCount % 1244)) } :=
  if_pos h

theorem cutCount_of_begun {r : Relay} (h : r.store.saveBegun = true) :
    r.cutCount = r.freeCount + 1 :=
  if_pos h

theorem cutCount_of_unbegun {r : Relay} (h : r.store.saveBegun = false) :
    r.cutCount = r.freeCount :=
  if_neg (by rw [h]; exact Bool.false_ne_true)

/-- Settles O58. The folds over inputs and barriers are banks written index by index, so each record
is started from its own fields. -/
theorem clockLossAndResetsStartThePart : Obligations.ClockLossAndResetsStartThePart := by
  refine ⟨⟨fun r q => ⟨rfl, fun t hlost => ⟨fun l => lineDriven_of_asleep l (awake_of_lost hlost),
        awake_of_lost hlost, awake_of_lost hlost⟩, fun x hrunning =>
        exec_clockResume_of_running hrunning x q⟩, ?resets⟩, fun _ _ _ _ => rfl,
    fun r => ⟨fun h => ⟨cutMemory_of_unbegun h, cutCount_of_unbegun h⟩, fun h =>
      ⟨cutCount_of_begun h, _, Nat.lt_succ_iff.mp (Nat.mod_lt _ (by decide)),
        cutMemory_of_begun h⟩⟩, ?image, ?handOn, ?barrier⟩
  case resets =>
    intro r q x cleared hcleared
    have hreset (cause : ResetCause) : r.resetWith cause x = cleared cause := by
      rw [hcleared]
      rfl
    refine ⟨fun hstraps => ⟨?_, fun hlost => ?_⟩, fun hzero hall => ⟨?_, fun hlost => ?_⟩,
      fun n late hlate => ⟨fun hvalid => ?_, fun hinvalid => ?_⟩,
      fun a n hclock hmode hdue => ⟨fun hstraps => ?_, fun hzero hall => ?_⟩⟩
    · rw [exec_powerOn, startUp_of_invalid hstraps, hreset]
    · rw [exec_clockResume_of_lost hlost, startUp_of_invalid hstraps, hreset]
    · rw [exec_powerOn, startUp_of_valid hzero hall, hreset]
    · rw [exec_clockResume_of_lost hlost, startUp_of_valid hzero hall, hreset]
    · rw [finishStart_of_valid n hvalid, readVersion_of_answering (answers_of_valid hvalid), hlate]
    · rw [finishStart_of_invalid n hinvalid, hlate]
      rfl
    · rw [exec_strapRetry_of_due hclock hmode hdue, readStraps_of_invalid _ hstraps]
    · rw [exec_strapRetry_of_due hclock hmode hdue, readStraps_of_valid _ hzero hall]
  case image =>
    intro m pair hpair
    have hheader (x : Fin 5) : pairAt (Memory.readBytes m.cells 0 6) x.val = pair x.val := by
      rw [pairAt_header, hpair]
    refine ⟨hheader 2, judgeImage_of_mute, fun hanswers => ?_⟩
    have hjudge := judgeImage_of_answering hanswers
    have hlength : pairAt (Memory.readBytes m.cells 0 6) 0 = pair 0 := hheader 0
    have hsum : pairAt (Memory.readBytes m.cells 0 6) 4 = pair 4 := hheader 4
    rw [hlength, hsum, checksum_eq] at hjudge
    exact ⟨fun h => hjudge.trans (if_pos h), fun h => hjudge.trans (if_neg h)⟩
  case handOn =>
    intro r started hstarted
    refine ⟨rfl, rfl, ?_, startAssessing_of_other, fun hmode =>
      ⟨startAssessing_of_assessing hmode, rfl, fun i => startStations_get_of_none,
        fun i c hc => ?_, ?_, fun b gauged hgauged => ⟨fun h => ?_, fun h => ?_⟩⟩, rfl⟩
    · rw [startInputs_eq, hstarted]
      rfl
    · rw [startStations_get_of_some hc, Relay.startDeadline, if_pos hmode]
      rfl
    · rw [startRecompute_eq]
      rfl
    · rw [startRecompute_eq]
      refine (Bank.get_ofFn _ b).trans ?_
      rw [startMeasures_of_gauged (startStations_blind r) (hgauged.mp h)]
      rfl
    · rw [startRecompute_eq]
      refine (Bank.get_ofFn _ b).trans ?_
      rw [startMeasures_of_ungauged (startStations_blind r) (fun hg => h (hgauged.mpr hg))]
      rfl
  case barrier =>
    intro r told sounded b htold hheard hquieted
    refine ⟨fun hassessed => ?_, fun hlevel => startBarrier_of_unkept (Or.inl hlevel),
      fun hassessed hlevel => ?_⟩
    · rw [startBarrier_of_unkept (Or.inr hassessed), evaluate_of_not_assessed hassessed]
    · have hsounded : told.requestUnlessQuieted b .evacuate = sounded := by
        by_cases hquiet : (told.barriers.get b).quieted = some .evacuate
        · rw [requestUnlessQuieted_of_quieted hquiet le_rfl, hquieted hquiet]
        · rw [requestUnlessQuieted_of_heard, hheard hquiet]
          intro v hv
          exact rank_lt_evacuate (fun h => hquiet (by rw [hv, h]))
      have hstart := startBarrier_of_kept hassessed hlevel
      rw [← htold, hsounded] at hstart
      exact ⟨fun hidle => hstart.trans (preemptTest_of_idle hidle),
        fun hrunning => hstart.trans (preemptTest_of_running hrunning)⟩

end Sys2Proof.Machine

/-! SUPPORT. The header of a sent frame read back from its bytes, and its CRC (R10, R24, R196). -/

namespace Sys2Proof.Machine

/-! ## Joined and cut bit fields -/

theorem extract_append_low {n m : Nat} (x : BitVec n) (y : BitVec m) :
    (x ++ y).extractLsb' 0 m = y := by
  ext i hi
  simp [BitVec.getLsbD_append, hi, BitVec.getLsbD_eq_getElem]

theorem extract_append_high {n m : Nat} (x : BitVec n) (y : BitVec m) :
    (x ++ y).extractLsb' m n = x := by
  ext i hi
  simp [BitVec.getLsbD_append, hi, BitVec.getLsbD_eq_getElem]

theorem extract_append_top {n k m : Nat} (x : BitVec n) (z : BitVec k) (y : BitVec m) :
    (x ++ z ++ y).extractLsb' (m + k) n = x := by
  ext i hi
  have hlow : ¬ m + k + i < m := by omega
  have hmiddle : ¬ m + k + i - m < k := by omega
  have hrest : m + k + i - m - k = i := by omega
  simp [BitVec.getLsbD_append, hlow, hmiddle, hrest, hi, BitVec.getLsbD_eq_getElem]

theorem bit_getLsbD (b : Bool) : (bit b).getLsbD 0 = b := by
  cases b <;> rfl

theorem append_extract {n m : Nat} (x : BitVec (n + m)) :
    x.extractLsb' m n ++ x.extractLsb' 0 m = x := by
  simp

theorem ofCode_code (c : FrameClass) : FrameClass.ofCode c.code = some c := by
  cases c <;> rfl

theorem header_length (f : Frame) : f.header.length = 6 :=
  rfl

theorem readHeader_bytes (f : Frame) (h : f.payload.length ≤ 56) :
    readHeader f.bytes
      = { cls := some f.cls
          mustZero := false
          hops := f.hops
          urgent := f.urgent
          fresh := f.fresh
          length := f.payload.length
          origin := f.origin
          target := f.target
          sequence := f.sequence } := by
  have hcls : FrameClass.ofCode ((f.cls.code ++ 0#1 ++ f.hops).extractLsb' 5 3) = some f.cls := by
    rw [extract_append_top f.cls.code 0#1 f.hops, ofCode_code]
  have hzero : (f.cls.code ++ 0#1 ++ f.hops).getLsbD 4 = false := by
    simp only [BitVec.getLsbD_append]
    rfl
  have hhops : (f.cls.code ++ 0#1 ++ f.hops).extractLsb' 0 4 = f.hops := extract_append_low _ _
  have hurgent : (bit f.urgent ++ bit f.fresh ++ BitVec.ofNat 6 f.payload.length).getLsbD 7
      = f.urgent := by
    simp only [BitVec.getLsbD_append]
    exact bit_getLsbD f.urgent
  have hfresh : (bit f.urgent ++ bit f.fresh ++ BitVec.ofNat 6 f.payload.length).getLsbD 6
      = f.fresh := by
    simp only [BitVec.getLsbD_append]
    exact bit_getLsbD f.fresh
  have hlength : ((bit f.urgent ++ bit f.fresh
      ++ BitVec.ofNat 6 f.payload.length).extractLsb' 0 6).toNat = f.payload.length := by
    rw [extract_append_low, BitVec.toNat_ofNat]
    omega
  have horigin : f.origin.extractLsb' 4 8
      ++ (f.origin.extractLsb' 0 4 ++ f.target.extractLsb' 8 4).extractLsb' 4 4 = f.origin := by
    rw [extract_append_high]
    exact append_extract (n := 8) (m := 4) f.origin
  have htarget : (f.origin.extractLsb' 0 4 ++ f.target.extractLsb' 8 4).extractLsb' 0 4
      ++ f.target.extractLsb' 0 8 = f.target := by
    rw [extract_append_low]
    exact append_extract (n := 4) (m := 8) f.target
  simp only [readHeader, Frame.bytes, Frame.header, List.cons_append, List.getD_cons_zero,
    List.getD_cons_succ, RawHeader.mk.injEq, and_true]
  exact ⟨hcls, hzero, hhops, hurgent, hfresh, hlength, horigin, htarget⟩

/-! ## The CRC at the end (R10, R12) -/

theorem frameBody_lineBytes (t : Transmission) :
    frameBody t.lineBytes = t.buffer.frame.bytes := by
  have hlength : t.lineBytes.length - 2 = t.buffer.frame.bytes.length := by
    simp only [Transmission.lineBytes, List.length_append]
    rfl
  rw [frameBody, hlength]
  exact List.take_left

theorem crcGood_lineBytes (t : Transmission) : crcGood t.order t.lineBytes = true := by
  have hlength : t.lineBytes.length - 2 = t.buffer.frame.bytes.length := by
    simp only [Transmission.lineBytes, List.length_append]
    rfl
  rw [crcGood, frameBody_lineBytes, hlength, beq_iff_eq]
  exact List.drop_left

/-- Settles O15. The receiver reads the header the sender wrote, field by field. -/
theorem sentFramesPassTheChecks : Obligations.SentFramesPassTheChecks := by
  intro t horigin hpayload hfits
  refine ⟨crcGood_lineBytes t, fun port => ?_⟩
  rw [frameBody_lineBytes, parseFrame, readHeader_bytes _ hpayload]
  have hlength : t.buffer.frame.payload.length + 6 = t.buffer.frame.bytes.length := by
    rw [Frame.bytes, List.length_append, header_length, Nat.add_comm]
  exact if_pos ⟨rfl, hpayload, hlength, horigin, hfits⟩

end Sys2Proof.Machine

/-! SUPPORT. The records of the seven tables read back from their bytes, and the load of an image
record by record (R45, R46, R92, R163, R170, R184, R198). -/

namespace Sys2Proof.Machine

/-! ## Codes and fields read back (R194, R195, R199) -/

theorem TxPolarity.ofCode_code (p : TxPolarity) : TxPolarity.ofCode p.code = some p := by
  cases p <;> rfl

theorem TxPolarity.code_le (p : TxPolarity) : p.code ≤ 2 := by
  cases p <;> decide

theorem FeedOrder.ofBit_of_mod {o : FeedOrder} {n : Nat} (h : n % 2 = o.code) :
    FeedOrder.ofBit n = o := by
  cases o <;> simp only [FeedOrder.ofBit, h, FeedOrder.code] <;> rfl

theorem FeedOrder.code_le (o : FeedOrder) : o.code ≤ 1 := by
  cases o <;> decide

theorem CountMode.ofBit_of_mod {m : CountMode} {n : Nat} (h : n % 2 = m.code) :
    CountMode.ofBit n = m := by
  cases m <;> simp only [CountMode.ofBit, h, CountMode.code] <;> rfl

theorem CountMode.code_le (m : CountMode) : m.code ≤ 1 := by
  cases m <;> decide

theorem ofNat_toNat_addr (a : Addr) : BitVec.ofNat 12 a.toNat = a := by
  rw [BitVec.ofNat_toNat, BitVec.setWidth_eq]

/-- One more byte joined to the cut above it. -/
theorem append_byte_below {w k n : Nat} {x : BitVec w} {high : BitVec n}
    (h : high = x.extractLsb' (k + 8) n) : high ++ x.extractLsb' k 8 = x.extractLsb' k (n + 8) := by
  rw [h]
  exact BitVec.extractLsb'_append_extractLsb'_eq_extractLsb' rfl

theorem passSetAt_passBytes (p : BitVec 64) (front back : List Byte) (h : front.length = 4) :
    passSetAt (front ++ passBytes p ++ back) 4 = p := by
  match front, h with
  | [a, b, c, d], _ =>
    have htop := append_byte_below (x := p) (k := 48) (n := 8) rfl
    have hjoined := append_byte_below (k := 0) (append_byte_below (k := 8)
      (append_byte_below (k := 16) (append_byte_below (k := 24) (append_byte_below (k := 32)
        (append_byte_below (k := 40) htop)))))
    exact hjoined.trans (BitVec.extractLsb'_eq_self (x := p))

/-! ## The identity record (R163) -/

theorem lineWord_lt (d : Identity) : d.lineWord < 65536 := by
  have h1 := d.txUpper.code_le
  have h2 := d.txLower.code_le
  have h3 := d.rxOrderUpper.code_le
  have h4 := d.rxOrderLower.code_le
  have h5 := d.rxOrderField.code_le
  have h6 := d.txOrderUpper.code_le
  have h7 := d.txOrderLower.code_le
  have h8 := d.countMode.code_le
  unfold Identity.lineWord
  omega

/-- The fields of the polarity and order bytes, taken apart again (R198). -/
theorem lineWord_fields (d : Identity) :
    d.lineWord / 16384 = d.txUpper.code ∧ d.lineWord / 4096 % 4 = d.txLower.code
      ∧ d.lineWord / 2048 % 2 = d.rxOrderUpper.code ∧ d.lineWord / 1024 % 2 = d.rxOrderLower.code
      ∧ d.lineWord / 512 % 2 = d.rxOrderField.code ∧ d.lineWord / 256 % 2 = d.txOrderUpper.code
      ∧ d.lineWord / 128 % 2 = d.txOrderLower.code ∧ d.lineWord / 64 % 2 = d.countMode.code := by
  have h1 := d.txUpper.code_le
  have h2 := d.txLower.code_le
  have h3 := d.rxOrderUpper.code_le
  have h4 := d.rxOrderLower.code_le
  have h5 := d.rxOrderField.code_le
  have h6 := d.txOrderUpper.code_le
  have h7 := d.txOrderLower.code_le
  have h8 := d.countMode.code_le
  unfold Identity.lineWord
  omega

theorem addrCode_le {a : Option Addr} (h : ∀ m, a = some m → m.isDevice = true) :
    addrCode a ≤ 4094 := by
  cases a with
  | none => exact Nat.zero_le _
  | some m => exact ((isDevice_iff m).mp (h m rfl)).2

/-- An optional address from its code, absent at 0 (R195). -/
theorem addr_of_addrCode {a : Option Addr} (h : ∀ m, a = some m → m.isDevice = true) :
    (if addrCode a = 0 then none else some (BitVec.ofNat 12 (addrCode a))) = a := by
  cases a with
  | none => rfl
  | some m =>
    have hdevice := (isDevice_iff m).mp (h m rfl)
    have hcode : addrCode (some m) ≠ 0 := by
      change m.toNat ≠ 0
      omega
    rw [if_neg hcode]
    exact congrArg some (ofNat_toNat_addr m)

theorem decodeIdentity_encode {d : Identity} (h : d.Ok) :
    decodeIdentity (encodeIdentity d) = some d := by
  obtain ⟨hrange, hmanager⟩ := h
  have hbounds := hrange
  simp only [Identity.inRange, Bool.and_eq_true, within_iff] at hbounds
  obtain ⟨⟨⟨⟨⟨⟨⟨⟨⟨⟨hup, hlo⟩, hconfirm⟩, hstarve⟩, hgrace⟩, hlife⟩, hhops⟩, hwatch⟩, hwarn⟩, hevac⟩,
    hhealth⟩ := hbounds
  have hcode := addrCode_le hmanager
  obtain ⟨hw1, hw2, hw3, hw4, hw5, hw6, hw7, hw8⟩ := lineWord_fields d
  have hline : pairAt (encodeIdentity d) 1 = d.lineWord := be2_toNat (lineWord_lt d)
  have hactivity : byteAt (encodeIdentity d) 0 = d.activityUpper * 16 + d.activityLower :=
    byte_toNat (by omega)
  have hb3 : byteAt (encodeIdentity d) 3 = d.confirmTime := byte_toNat (by omega)
  have hpass : passSetAt (encodeIdentity d) 4 = d.passSet :=
    passSetAt_passBytes d.passSet [_, _, _, _] _ rfl
  have hb12 : byteAt (encodeIdentity d) 12 = d.starvation := byte_toNat (by omega)
  have hb13 : byteAt (encodeIdentity d) 13 = d.grace := byte_toNat (by omega)
  have hp14 : pairAt (encodeIdentity d) 14 = d.evidenceLife := be2_toNat (by omega)
  have hb16 : byteAt (encodeIdentity d) 16 = d.hopBudget := byte_toNat (by omega)
  have hp17 : pairAt (encodeIdentity d) 17 = d.repeatWatch := be2_toNat (by omega)
  have hp19 : pairAt (encodeIdentity d) 19 = d.repeatWarn := be2_toNat (by omega)
  have hp21 : pairAt (encodeIdentity d) 21 = d.repeatEvacuate := be2_toNat (by omega)
  have hp23 : pairAt (encodeIdentity d) 23 = addrCode d.manager := be2_toNat (by omega)
  have hp25 : pairAt (encodeIdentity d) 25 = d.healthInterval := be2_toNat (by omega)
  have hhigh : (d.activityUpper * 16 + d.activityLower) / 16 = d.activityUpper := by omega
  have hlow : (d.activityUpper * 16 + d.activityLower) % 16 = d.activityLower := by omega
  simp only [decodeIdentity, hline, hw1, hw2, TxPolarity.ofCode_code, hactivity, hhigh, hlow,
    FeedOrder.ofBit_of_mod hw3, FeedOrder.ofBit_of_mod hw4, FeedOrder.ofBit_of_mod hw5,
    FeedOrder.ofBit_of_mod hw6, FeedOrder.ofBit_of_mod hw7, CountMode.ofBit_of_mod hw8, hb3, hpass,
    hb12, hb13, hp14, hb16, hp17, hp19, hp21, hp23, hp25, addr_of_addrCode hmanager, hrange, hcode,
    decide_true, Bool.and_self, if_true]

/-! ## Optional indices (R195) -/

theorem optByte_none_toNat : (optByte none).toNat = 255 :=
  rfl

theorem optByte_val_toNat {n : Nat} (hn : n ≤ 256) (k : Fin n) :
    (optByte (some k.val)).toNat = k.val :=
  byte_val_toNat hn k

theorem decodeOptIndex_optByte {n : Nat} (hn : n ≤ 255) (x : Option (Fin n)) :
    decodeOptIndex n (optByte (x.map Fin.val)).toNat = some x := by
  cases x with
  | none => exact if_pos rfl
  | some k =>
    have hk : (optByte (some k.val)).toNat = k.val := optByte_val_toNat (by omega) k
    have hne : k.val ≠ 255 := by omega
    rw [Option.map_some, hk, decodeOptIndex, if_neg hne, finOf_val]
    rfl

/-! ## Station records (R45) -/

theorem Forwarding.ofCode_code (f : Forwarding) : Forwarding.ofCode f.code = some f := by
  cases f <;> rfl

theorem Forwarding.code_lt (f : Forwarding) : f.code < 256 := by
  cases f <;> decide

theorem decodeRole_encode {role : Role} (h : ∀ b e f, role = .gauge b e f →
      200 ≤ e ∧ e ≤ 60000 ∧ 100 ≤ f ∧ f + 100 ≤ e) :
    decodeRole role.code (optByte (role.barrier.map Fin.val)).toNat role.positionByte.toNat
      role.calibration.1 role.calibration.2 = some role := by
  have hindex (b : Fin 8) : finOf 8 (optByte (some b.val)).toNat = some b := by
    rw [optByte_val_toNat (by decide), finOf_val]
  cases role with
  | relay => rfl
  | gauge b e f =>
    obtain ⟨hlow, hhigh, hfull, hspan⟩ := h b e f rfl
    have hrange : within 200 60000 e = true := (within_iff _ _ _).mpr ⟨hlow, hhigh⟩
    have hposition : Role.positionByte (.gauge b e f) = 255#8 := rfl
    simp only [decodeRole, Role.code, Role.barrier, Option.map_some, hindex, Role.calibration,
      hposition, hrange, hfull, hspan]
    rfl
  | wire b p =>
    simp only [decodeRole, Role.code, Role.barrier, Option.map_some, hindex, Role.calibration]
    cases p <;> rfl
  | shake b =>
    simp only [decodeRole, Role.code, Role.barrier, Option.map_some, hindex, Role.calibration]
    rfl
  | rain b =>
    simp only [decodeRole, Role.code, Role.barrier, Option.map_some, hindex, Role.calibration]
    rfl

theorem Role.code_bounds (role : Role) : 1 ≤ role.code ∧ role.code ≤ 5 := by
  cases role <;> simp only [Role.code] <;> omega

theorem calibration_le {role : Role} (h : ∀ b e f, role = .gauge b e f →
      200 ≤ e ∧ e ≤ 60000 ∧ 100 ≤ f ∧ f + 100 ≤ e) :
    role.calibration.1 ≤ 60000 ∧ role.calibration.2 ≤ 60000 := by
  cases role with
  | gauge b e f =>
    obtain ⟨hlow, hhigh, hfull, hspan⟩ := h b e f rfl
    exact ⟨hhigh, by change f ≤ 60000; omega⟩
  | wire | shake | rain | relay => exact ⟨Nat.zero_le _, Nat.zero_le _⟩

theorem decodeStation_empty : decodeStation (encodeStation none) = some none :=
  rfl

theorem decodeStation_encode {c : StationConfig} (h : c.Ok) :
    decodeStation (encodeStation (some c)) = some (some c) := by
  obtain ⟨hdevice, hinterval, hgauge⟩ := h
  have haddress := (isDevice_iff _).mp hdevice
  have hcode := c.role.code_bounds
  obtain ⟨hempty, hfull⟩ := calibration_le hgauge
  have hb0 : byteAt (encodeStation (some c)) 0 = c.role.code := byte_toNat (by omega)
  have hp1 : pairAt (encodeStation (some c)) 1 = c.address.toNat := be2_toNat (by omega)
  have hb3 : byteAt (encodeStation (some c)) 3
      = (optByte (c.role.barrier.map Fin.val)).toNat := rfl
  have hb4 : byteAt (encodeStation (some c)) 4 = c.role.positionByte.toNat := rfl
  have hp5 : pairAt (encodeStation (some c)) 5 = c.role.calibration.1 := be2_toNat (by omega)
  have hp7 : pairAt (encodeStation (some c)) 7 = c.role.calibration.2 := be2_toNat (by omega)
  have hp9 : pairAt (encodeStation (some c)) 9 = c.interval := be2_toNat (by omega)
  have hb11 : byteAt (encodeStation (some c)) 11 = c.forwarding.code :=
    byte_toNat c.forwarding.code_lt
  have hoccupied : c.role.code ≠ 0 := by omega
  have hranges : (within 1 4094 c.address.toNat && within 0 3600 c.interval) = true := by
    rw [Bool.and_eq_true, within_iff, within_iff]
    exact ⟨haddress, Nat.zero_le _, hinterval⟩
  simp only [decodeStation, hb0, hp1, hb3, hb4, hp5, hp7, hp9, hb11, decodeRole_encode hgauge,
    Forwarding.ofCode_code, hranges, hoccupied, if_true, if_false, ofNat_toNat_addr]

/-! ## Barrier records (R92) -/

theorem decodeFeeder_encode {feeder : Option (Addr × Fin 8)} {index : Nat}
    (h : ∀ a k, feeder = some (a, k) → a.isDevice = true)
    (hnone : feeder = none → index = 0) (hsome : ∀ f, feeder = some f → index = f.2.val) :
    decodeFeeder (addrCode (feeder.map Prod.fst)) index = some feeder := by
  cases feeder with
  | none =>
    rw [hnone rfl]
    rfl
  | some f =>
    obtain ⟨a, k⟩ := f
    have haddress := (isDevice_iff a).mp (h a k rfl)
    have hcode : addrCode ((some (a, k)).map Prod.fst) = a.toNat := rfl
    have hne : a.toNat ≠ 0 := by omega
    rw [hcode, hsome (a, k) rfl, decodeFeeder, if_neg hne, finOf_val]
    simp only [haddress.2, if_true, ofNat_toNat_addr]

/-- The last byte of a barrier record: the feeder's index, 0 where there is none (R198). -/
def BarrierConfig.feederByte (c : BarrierConfig) : Byte :=
  match c.feeder with
  | none => 0#8
  | some f => byte f.2.val

theorem encodeBarrier_bytes (c : BarrierConfig) :
    encodeBarrier c
      = [byte (flag c.enabled + 2 * flag c.lineWatched + 4 * flag c.gaugeLoss
          + 8 * flag c.blindEvidence),
        byte (c.watchFill / 256), byte c.watchFill, byte (c.warnFill / 256), byte c.warnFill,
        byte (c.fullFill / 256), byte c.fullFill, byte c.hysteresis,
        byte (c.rateWatch / 256), byte c.rateWatch, byte (c.ttfWarn / 256), byte c.ttfWarn,
        byte (c.shakeWatch / 256), byte c.shakeWatch, byte (c.shakeWarn / 256), byte c.shakeWarn,
        byte (c.rainWatch / 256), byte c.rainWatch, byte (c.holdTime / 256), byte c.holdTime,
        byte (c.rateWindow / 256), byte c.rateWindow,
        byte (addrCode (c.feeder.map Prod.fst) / 256), byte (addrCode (c.feeder.map Prod.fst)),
        c.feederByte] := by
  simp only [encodeBarrier, be2, List.cons_append, List.nil_append]
  rfl

theorem feederByte_of_none {c : BarrierConfig} (h : c.feeder = none) :
    c.feederByte.toNat = 0 := by
  simp only [BarrierConfig.feederByte, h]
  rfl

theorem feederByte_of_some {c : BarrierConfig} {f : Addr × Fin 8} (h : c.feeder = some f) :
    c.feederByte.toNat = f.2.val := by
  simp only [BarrierConfig.feederByte, h]
  exact byte_val_toNat (by decide) f.2

/-- The flags of a barrier record, taken apart again (R198). -/
theorem flags_read (a b c d : Bool) {n : Nat}
    (h : n = flag a + 2 * flag b + 4 * flag c + 8 * flag d) :
    n < 256 ∧ (n % 2 == 1) = a ∧ (n / 2 % 2 == 1) = b ∧ (n / 4 % 2 == 1) = c
      ∧ (n / 8 % 2 == 1) = d := by
  subst h
  revert a b c d
  decide

/-- The fields of a barrier record fit the bytes they are given (R92). -/
theorem BarrierConfig.lt_of_inRange {c : BarrierConfig} (h : c.inRange = true) :
    (c.watchFill < 65536 ∧ c.warnFill < 65536 ∧ c.fullFill < 65536 ∧ c.hysteresis < 256)
      ∧ (c.rateWatch < 65536 ∧ c.ttfWarn < 65536 ∧ c.shakeWatch < 65536 ∧ c.shakeWarn < 65536)
      ∧ c.rainWatch < 65536 ∧ c.holdTime < 65536 ∧ c.rateWindow < 65536 := by
  simp only [BarrierConfig.inRange, Bool.and_eq_true, within_iff] at h
  omega

theorem feeder_read {c : BarrierConfig}
    (h : ∀ a k, c.feeder = some (a, k) → a.isDevice = true) :
    addrCode (c.feeder.map Prod.fst) < 65536
      ∧ decodeFeeder (addrCode (c.feeder.map Prod.fst)) c.feederByte.toNat = some c.feeder := by
  have hdevice : ∀ m, c.feeder.map Prod.fst = some m → m.isDevice = true := by
    intro m hm
    obtain ⟨⟨a, k⟩, hak, rfl⟩ := Option.map_eq_some_iff.mp hm
    exact h a k hak
  have hcode := addrCode_le hdevice
  exact ⟨by omega, decodeFeeder_encode h feederByte_of_none (fun _ => feederByte_of_some)⟩

theorem decodeBarrier_encode {c : BarrierConfig} (h : c.Ok) :
    decodeBarrier (encodeBarrier c) = some c := by
  obtain ⟨hrange, hfeeder⟩ := h
  obtain ⟨hflags, hf0, hf1, hf2, hf3⟩ :=
    flags_read c.enabled c.lineWatched c.gaugeLoss c.blindEvidence rfl
  obtain ⟨hcode, hdecoded⟩ := feeder_read hfeeder
  obtain ⟨⟨h1, h2, h3, h4⟩, ⟨h5, h6, h7, h8⟩, h9, h10, h11⟩ := BarrierConfig.lt_of_inRange hrange
  simp only [decodeBarrier, pairAt, byteAt, encodeBarrier_bytes, List.getD_cons_succ,
    List.getD_cons_zero, byte_toNat hflags, byte_toNat h4, be2_toNat h1, be2_toNat h2,
    be2_toNat h3, be2_toNat h5, be2_toNat h6, be2_toNat h7, be2_toNat h8, be2_toNat h9,
    be2_toNat h10, be2_toNat h11, be2_toNat hcode, hdecoded, hf0, hf1, hf2, hf3, hrange, if_true]

/-! ## Cadence records (R133) -/

theorem CadenceKind.ofCode_code (k : CadenceKind) : CadenceKind.ofCode k.code = some k := by
  cases k <;> rfl

theorem CadenceKind.code_le (k : CadenceKind) : k.code ≤ 2 := by
  cases k <;> decide

theorem decodeCadence_empty : decodeCadence (encodeCadence none) = some none :=
  rfl

/-- Two bytes per step: the k-th pair of the bytes is the k-th step. -/
theorem flatMap_pair_getD (steps : List (Nat × Nat)) (k : Nat) :
    (steps.flatMap (fun p => [byte p.1, byte p.2])).getD (2 * k) 0#8
        = byte (steps.getD k (0, 0)).1
      ∧ (steps.flatMap (fun p => [byte p.1, byte p.2])).getD (2 * k + 1) 0#8
        = byte (steps.getD k (0, 0)).2 := by
  induction steps generalizing k with
  | nil => exact ⟨rfl, rfl⟩
  | cons p steps ih =>
    cases k with
    | zero => exact ⟨rfl, rfl⟩
    | succ k => exact ih k

theorem stepBytes_getD {steps : List (Nat × Nat)} {k : Nat} (h : k < steps.length) :
    (stepBytes steps).getD (2 * k) 0#8 = byte (steps[k]).1
      ∧ (stepBytes steps).getD (2 * k + 1) 0#8 = byte (steps[k]).2 := by
  have hstep : (steps ++ List.replicate (8 - steps.length) (0, 0)).getD k (0, 0) = steps[k] := by
    rw [List.getD_append _ _ _ _ h, List.getD_eq_getElem _ _ h]
  rw [← hstep]
  exact flatMap_pair_getD _ k

theorem decodeCadence_encode {c : Cadence} (h : c.inRange = true) :
    decodeCadence (encodeCadence (some c)) = some (some c) := by
  have hbounds := h
  simp only [Cadence.inRange, Bool.and_eq_true, within_iff, List.all_eq_true] at hbounds
  obtain ⟨⟨⟨hsteps, hall⟩, hrounds⟩, hgap⟩ := hbounds
  have hkind := c.kind.code_le
  have hb0 : byteAt (encodeCadence (some c)) 0 = 128 + c.kind.code * 16 + c.steps.length :=
    byte_toNat (by omega)
  have hb1 : byteAt (encodeCadence (some c)) 1 = c.rounds := byte_toNat (by omega)
  have hb2 : byteAt (encodeCadence (some c)) 2 = c.gap := byte_toNat (by omega)
  have hfirst : ¬ 128 + c.kind.code * 16 + c.steps.length < 128 := by omega
  have hcode : (128 + c.kind.code * 16 + c.steps.length) / 16 % 4 = c.kind.code := by omega
  have hcount : (128 + c.kind.code * 16 + c.steps.length) % 16 = c.steps.length := by omega
  have hlist : (List.range c.steps.length).map (fun k =>
      (byteAt (encodeCadence (some c)) (3 + 2 * k), byteAt (encodeCadence (some c)) (4 + 2 * k)))
      = c.steps := by
    refine List.ext_getElem (by simp) (fun k hk hk' => ?_)
    obtain ⟨hon, hoff⟩ := stepBytes_getD hk'
    have hstep := hall _ (List.getElem_mem hk')
    rw [List.getElem_map, List.getElem_range]
    refine Prod.ext ?_ ?_
    · have hbyte : byteAt (encodeCadence (some c)) (3 + 2 * k) = (byte (c.steps[k]).1).toNat := by
        rw [← hon, Nat.add_comm]
        rfl
      exact hbyte.trans (byte_toNat (by omega))
    · have hbyte : byteAt (encodeCadence (some c)) (4 + 2 * k) = (byte (c.steps[k]).2).toNat := by
        rw [← hoff, Nat.add_comm]
        rfl
      exact hbyte.trans (byte_toNat (by omega))
  simp only [decodeCadence, hb0, hb1, hb2, hfirst, hcode, hcount, hlist, CadenceKind.ofCode_code,
    h, if_true, if_false]

/-! ## Dispatch, input and binding records (R155, R170) -/

theorem decodeDispatch_encode (e : DispatchEntry) : decodeDispatch (encodeDispatch e) = some e := by
  have hb0 : byteAt (encodeDispatch e) 0 = e.channels.toNat := byte_toNat (by omega)
  have hb1 : byteAt (encodeDispatch e) 1 = (optByte (e.attention.map Fin.val)).toNat := rfl
  have hb2 : byteAt (encodeDispatch e) 2 = (optByte (e.sustain.map Fin.val)).toNat := rfl
  have hset : BitVec.ofNat 4 e.channels.toNat = e.channels := by
    rw [BitVec.ofNat_toNat, BitVec.setWidth_eq]
  have hbound : e.channels.toNat < 16 := e.channels.isLt
  simp only [decodeDispatch, hb0, hb1, hb2, decodeOptIndex_optByte (n := 16) (by decide), hset,
    hbound, if_true]

theorem decodeFunction_encode (f : InputFunction) :
    decodeFunction f.code (optByte (f.barrier.map Fin.val)).toNat = some f := by
  have hindex (b : Fin 8) : finOf 8 (optByte (some b.val)).toNat = some b := by
    rw [optByte_val_toNat (by decide), finOf_val]
  cases f with
  | unused => rfl
  | resetKey => rfl
  | inflowWire b | overflowWire b | manualAlarm b =>
    simp only [decodeFunction, InputFunction.code, InputFunction.barrier, Option.map_some, hindex]
    rfl

theorem pinOfCode_pinCode (x : PinLevel) : pinOfCode (pinCode x) = some x := by
  cases x <;> rfl

theorem decodeInput_encode {c : InputConfig} (h : c.Ok) : decodeInput (encodeInput c) = some c := by
  obtain ⟨hlow, hhigh⟩ := h
  have hb0 : byteAt (encodeInput c) 0 = c.function.code := by
    refine byte_toNat ?_
    cases c.function <;> simp only [InputFunction.code] <;> omega
  have hb1 : byteAt (encodeInput c) 1 = (optByte (c.function.barrier.map Fin.val)).toNat := rfl
  have hb2 : byteAt (encodeInput c) 2 = pinCode c.expected := by
    refine byte_toNat ?_
    cases c.expected <;> decide
  have hb3 : byteAt (encodeInput c) 3 = c.debounce := byte_toNat (by omega)
  have hrange : within 1 25 c.debounce = true := (within_iff _ _ _).mpr ⟨hlow, hhigh⟩
  simp only [decodeInput, hb0, hb1, hb2, hb3, decodeFunction_encode, pinOfCode_pinCode, hrange,
    if_true]

theorem LineKind.ofCode_code (k : LineKind) : LineKind.ofCode k.code = some k := by
  cases k <;> rfl

theorem decodeBinding_encode (b : Binding) : decodeBinding (encodeBinding b) = some b := by
  have hb0 : byteAt (encodeBinding b) 0 = (optByte (b.line.map Fin.val)).toNat := rfl
  have hb1 : byteAt (encodeBinding b) 1 = b.kind.code := by
    refine byte_toNat ?_
    cases b.kind <;> decide
  simp only [decodeBinding, hb0, hb1, decodeOptIndex_optByte (n := 4) (by decide),
    LineKind.ofCode_code]

/-! ## Loading an image record by record (R46, R184) -/

theorem readBank_get {α : Type} (n : Nat) (cells : List Host.Cell) (base width : Nat)
    (decode : List Byte → Option α) (i : Fin n) :
    (readBank n cells base width decode).get i
      = decode (Memory.readBytes cells (base + width * i) width) :=
  Bank.get_ofFn _ i

theorem missing_eq {α : Type} {n : Nat} (v : Bank (Option α) n) :
    missing v = (List.finRange n).countP (fun i => (v.get i).isNone) := by
  rw [missing, Bank.cells_eq_map, ← List.countP_eq_length_filter, List.countP_map]
  rfl

theorem readBank_getD {α : Type} (n : Nat) (cells : List Host.Cell) (base width : Nat)
    (decode : List Byte → Option α) (blank : α) (i : Fin n) :
    ((readBank n cells base width decode).map (fun x => x.getD blank)).get i
      = (decode (Memory.readBytes cells (base + width * i) width)).getD blank := by
  rw [Bank.get_map, readBank_get]

theorem missing_readBank {α : Type} {n base width : Nat} {cells : List Host.Cell}
    {decode : List Byte → Option α} {lacks : Fin n → Bool}
    (h : ∀ i : Fin n, lacks i = true
      ↔ decode (Memory.readBytes cells (base + width * i) width) = none) :
    missing (readBank n cells base width decode) = (List.finRange n).countP lacks := by
  rw [missing_eq]
  refine List.countP_congr (fun i _ => ?_)
  rw [readBank_get, Option.isNone_iff_eq_none, h]

theorem clashes_eq {n : Nat} {f g : Fin n → Bool} (h : ∀ i, f i = true ↔ g i = true) :
    clashes f = (List.finRange n).countP g := by
  rw [clashes, ← List.countP_eq_length_filter]
  exact List.countP_congr (fun i _ => h i)

theorem stationClash_iff (v : Bank (Option StationConfig) 48) (own : Addr) (i : Fin 48) :
    stationClash v own i = true ↔ ∃ c, v.get i = some c
      ∧ (c.address = own ∨ ∃ j e, j < i ∧ v.get j = some e ∧ e.address = c.address) := by
  cases hi : v.get i with
  | none => simp only [stationClash, hi, Bool.false_eq_true, reduceCtorEq, false_and, exists_false]
  | some c =>
    simp only [stationClash, hi, Bool.or_eq_true, beq_iff_eq, List.any_eq_true, List.mem_finRange,
      true_and, Bool.and_eq_true, decide_eq_true_iff, Option.map_eq_some_iff, Option.some.injEq,
      exists_eq_left', exists_and_left]

theorem keyClash_iff (v : Bank InputConfig 8) (i : Fin 8) :
    keyClash v i = true ↔ (v.get i).function = .resetKey
      ∧ 2 ≤ (List.finRange 8).countP (fun j =>
          decide (j < i ∧ (v.get j).function = .resetKey)) := by
  have hcount : ((List.finRange 8).filter
      (fun j => decide (j < i) && (v.get j).function == .resetKey)).length
      = (List.finRange 8).countP (fun j => decide (j < i ∧ (v.get j).function = .resetKey)) := by
    rw [← List.countP_eq_length_filter]
    refine List.countP_congr (fun j _ => ?_)
    rw [Bool.and_eq_true, decide_eq_true_iff, beq_iff_eq, decide_eq_true_iff]
  rw [keyClash, hcount, Bool.and_eq_true, beq_iff_eq, decide_eq_true_iff]

theorem bindingClash_iff (v : Bank Binding 4) (i : Fin 4) :
    bindingClash v i = true ↔ ∃ l j, (v.get i).line = some l ∧ j < i
      ∧ (v.get j).line = some l := by
  cases hi : (v.get i).line with
  | none =>
    simp only [bindingClash, hi, Option.isSome_none, Bool.false_and, Bool.false_eq_true,
      reduceCtorEq, false_and, exists_false]
  | some l =>
    simp only [bindingClash, hi, Option.isSome_some, Bool.true_and, List.any_eq_true,
      List.mem_finRange, true_and, Bool.and_eq_true, decide_eq_true_iff, beq_iff_eq,
      Option.some.injEq, exists_and_left, exists_eq_left']

/-- What the identity record of an image becomes, and the count of its replacements (R184). -/
theorem loadIdentity_cases (cells : List Host.Cell) (own : Addr) {bytes : List Byte}
    (h : recordAt cells 6 27 0 = bytes) :
    (decodeIdentity bytes = none → loadIdentity cells own = (Identity.defaults, 1))
      ∧ ∀ d, decodeIdentity bytes = some d →
        (d.manager = some own → loadIdentity cells own = ({ d with manager := none }, 1))
        ∧ (d.manager ≠ some own → loadIdentity cells own = (d, 0)) := by
  subst h
  refine ⟨fun hnone => ?_, fun d hd => ⟨fun hown => ?_, fun hother => ?_⟩⟩
  · simp only [loadIdentity, hnone]
  · simp only [loadIdentity, hd, hown, if_true]
  · simp only [loadIdentity, hd, if_neg hother]

theorem loadTables_count (cells : List Host.Cell) (own : Addr) :
    (loadTables cells own).2 = (loadIdentity cells own).2 + (loadStations cells own).2
      + (loadBarriers cells).2 + (loadCadences cells).2 + (loadDispatch cells).2
      + (loadInputs cells).2 + (loadBindings cells).2 :=
  rfl

/-- Settles O14. Each record's bytes decode to it field by field; the load judges each record where
it stands, and the clashes are those the rules name. -/
theorem recordsReadBackFromTheirBytes : Obligations.RecordsReadBackFromTheirBytes := by
  refine ⟨⟨fun _ => decodeIdentity_encode, decodeStation_empty, fun _ => decodeStation_encode,
    fun _ => decodeBarrier_encode, decodeCadence_empty, fun _ => decodeCadence_encode,
    decodeDispatch_encode, fun _ => decodeInput_encode, decodeBinding_encode⟩, ?_⟩
  intro cells own place loaded station input binding held third named hloaded hplace hstation hinput
    hbinding hheld hthird hnamed
  subst hplace hloaded
  have hidentity := loadIdentity_cases cells own rfl
  have hstations : ∀ i, ((readBank 48 cells 33 12 decodeStation).map (fun x => x.getD none)).get i
      = station i := by
    intro i
    rw [readBank_getD, hstation]
  have hinputs : ∀ i, ((readBank 8 cells 1209 4 decodeInput).map
      (fun x => x.getD InputConfig.emptied)).get i = input i := by
    intro i
    rw [readBank_getD, hinput]
  have hbindings : ∀ i, (Bank.ofFn (fun i : Fin 4 =>
      ((readBank 4 cells 1241 2 decodeBinding).get i).getD (Binding.emptied i))).get i
      = binding i := by
    intro i
    rw [Bank.get_ofFn, readBank_get, hbinding]
  have hheld' : ∀ i, stationClash ((readBank 48 cells 33 12 decodeStation).map
      (fun x => x.getD none)) own i = true ↔ held i = true := by
    intro i
    rw [stationClash_iff, hheld]
    simp only [hstations]
  have hthird' : ∀ i, keyClash ((readBank 8 cells 1209 4 decodeInput).map
      (fun x => x.getD InputConfig.emptied)) i = true ↔ third i = true := by
    intro i
    rw [keyClash_iff, hthird]
    simp only [hinputs]
  have hnamed' : ∀ i, bindingClash (Bank.ofFn (fun i : Fin 4 =>
      ((readBank 4 cells 1241 2 decodeBinding).get i).getD (Binding.emptied i))) i = true
      ↔ named i = true := by
    intro i
    rw [bindingClash_iff, hnamed]
    simp only [hbindings]
  refine ⟨fun h => congrArg Prod.fst (hidentity.1 h), fun d hd =>
      ⟨fun h => congrArg Prod.fst ((hidentity.2 d hd).1 h),
        fun h => congrArg Prod.fst ((hidentity.2 d hd).2 h)⟩,
    fun i => ?_, fun i => ?_, fun i => ?_, fun i => ?_, fun i => ?_, fun i => ?_, ?_⟩
  · refine (Bank.get_ofFn _ i).trans ?_
    rw [hstations]
    exact if_congr (hheld' i) rfl rfl
  · exact readBank_getD 8 cells 609 25 decodeBarrier _ i
  · exact readBank_getD 16 cells 809 19 decodeCadence _ i
  · exact readBank_getD 32 cells 1113 3 decodeDispatch _ i
  · refine (Bank.get_ofFn _ i).trans ?_
    rw [hinputs]
    exact if_congr (hthird' i) rfl rfl
  · refine (Bank.get_ofFn _ i).trans ?_
    rw [hbindings]
    exact if_congr (hnamed' i) rfl rfl
  · have hstationCount : (loadStations cells own).2
        = (List.finRange 48).countP (fun i : Fin 48 =>
            decide (decodeStation (Memory.readBytes cells (33 + 12 * i) 12) = none))
          + (List.finRange 48).countP held :=
      congrArg₂ (· + ·) (missing_readBank (fun _ => decide_eq_true_iff)) (clashes_eq hheld')
    have hbarrierCount : (loadBarriers cells).2 = (List.finRange 8).countP (fun i : Fin 8 =>
        decide (decodeBarrier (Memory.readBytes cells (609 + 25 * i) 25) = none)) :=
      missing_readBank (fun _ => decide_eq_true_iff)
    have hcadenceCount : (loadCadences cells).2 = (List.finRange 16).countP (fun i : Fin 16 =>
        decide (decodeCadence (Memory.readBytes cells (809 + 19 * i) 19) = none)) :=
      missing_readBank (fun _ => decide_eq_true_iff)
    have hdispatchCount : (loadDispatch cells).2 = (List.finRange 32).countP (fun i : Fin 32 =>
        decide (decodeDispatch (Memory.readBytes cells (1113 + 3 * i) 3) = none)) :=
      missing_readBank (fun _ => decide_eq_true_iff)
    have hinputCount : (loadInputs cells).2
        = (List.finRange 8).countP (fun i : Fin 8 =>
            decide (decodeInput (Memory.readBytes cells (1209 + 4 * i) 4) = none))
          + (List.finRange 8).countP third :=
      congrArg₂ (· + ·) (missing_readBank (fun _ => decide_eq_true_iff)) (clashes_eq hthird')
    have hbindingCount : (loadBindings cells).2
        = (List.finRange 4).countP (fun i : Fin 4 =>
            decide (decodeBinding (Memory.readBytes cells (1241 + 2 * i) 2) = none))
          + (List.finRange 4).countP named :=
      congrArg₂ (· + ·) (missing_readBank (fun _ => decide_eq_true_iff)) (clashes_eq hnamed')
    rw [loadTables_count, hstationCount, hbarrierCount, hcadenceCount, hdispatchCount, hinputCount,
      hbindingCount]
    simp only [Nat.add_assoc, Nat.add_right_cancel_iff]
    cases hd : decodeIdentity (recordAt cells 6 27 0) with
    | none =>
      rw [hidentity.1 hd]
      change decodeIdentity (Memory.readBytes cells (6 + 27 * 0) 27) = none at hd
      simp only [hd]
    | some d =>
      change decodeIdentity (Memory.readBytes cells (6 + 27 * 0) 27) = some d at hd
      simp only [hd]
      by_cases hown : d.manager = some own
      · rw [((hidentity.2 d hd).1 hown), if_pos hown]
      · rw [((hidentity.2 d hd).2 hown), if_neg hown]

end Sys2Proof.Machine
